-- ==== Sys2Proof/Word.lean ====
section
/-!
DEFINITION. The two word types of the block (00_scope.md R12).
-/

namespace Sys2Proof

/-- A u8 value (R12). -/
abbrev Byte := BitVec 8

/-- A u16 value (R12): ROM addresses, the cursor, counters, fault information. -/
abbrev Word := BitVec 16

end Sys2Proof
end

