-- ==== Sys2Proof/Machine/Bits.lean ====
section
/-!
DEFINITION. Bit fields, byte order and byte products (00_scope.md R12, 41_commands.md R160).
-/

namespace Sys2Proof

/-- `v[k]` (R12). -/
def bit (v : Byte) (k : Nat) : Bool := v.getLsbD k

/-- `v` with bit `k` set to `on`; the other bits stay. -/
def setBit (v : Byte) (k : Nat) (on : Bool) : Byte :=
  if on then v ||| (1#8 <<< k) else v &&& ~~~(1#8 <<< k)

/-- `w[7:0]` (R12). -/
def loByte (w : Word) : Byte := w.setWidth 8

/-- `w[15:8]` (R12). -/
def hiByte (w : Word) : Byte := (w >>> 8).setWidth 8

/-- `hi:lo`, the word of two bytes (R12). -/
def word (hi lo : Byte) : Word := (hi.setWidth 16 <<< 8) ||| lo.setWidth 16

/-- `zext_16` (R12). -/
def zext16 (v : Byte) : Word := v.setWidth 16

/-- The exact product of two bytes, formed at 16 bits (R160). -/
def mulBytes (a b : Byte) : Word := zext16 a * zext16 b

/-- `(a * b) >> k` on the 16-bit product, as a byte (R160). -/
def mulShift (a b : Byte) (k : Nat) : Byte := (mulBytes a b >>> k).setWidth 8

/-- Rotate right by 2 (40_sequencer.md R132). -/
def ror2 (v : Byte) : Byte := (v >>> 2) ||| (v <<< 6)

/-- `max(0, v - 1)` (44_traffic_fx.md R237). -/
def decClamp (v : Byte) : Byte := if v = 0 then 0 else v - 1

/-- The 9-bit pitch whose bit 8 is bit 0 of `hi` (10_state.md R34, R36). -/
def pitch9 (hi lo : Byte) : BitVec 9 := (hi.setWidth 9 <<< 8) ||| lo.setWidth 9

/-- `p[7:0]` of a 9-bit pitch. -/
def pitchLo (p : BitVec 9) : Byte := p.setWidth 8

/-- `p[8]` of a 9-bit pitch, as a byte of value 0 or 1. -/
def pitchHi (p : BitVec 9) : Byte := (p >>> 8).setWidth 8

/-- `pitch & 0x1FF` of a telemetry pitch shifted right by 5 (43_engine_tone.md R203). -/
def telemetryPitch (pt : Word) : BitVec 9 := (pt >>> 5).setWidth 9

end Sys2Proof
end

