-- ==== Sys2Proof/Machine/Flags.lean ====
section
/-!
DEFINITION. The flag bytes and their bits (10_state.md R25-R29, R32, R35, R38). The block has no condition codes:
an instruction sets no flag but those its rule names (41_commands.md R160).
-/

namespace Sys2Proof.Machine

/-! Bits of `FLAGS` (R25). -/
namespace Flags

abbrev enabled : Nat := 7
abbrev pcm : Nat := 6
abbrev mutecorr : Nat := 2

end Flags

/-- `ROUTE.MUTE` (R26). -/
abbrev routeMute : Nat := 7

/-- `ROUTE[2:0]`, YMCH (R26), as a byte. -/
def ymch (route : Byte) : Byte := route &&& 7

/-! Bits of `EMFLAGS` (R27). -/
namespace EmFlags

abbrev lit : Nat := 6
abbrev hi : Nat := 7

end EmFlags

/-- `CTRL.DRUM` (R29). -/
abbrev ctrlDrum : Nat := 7

/-- `CTRL[3:2]`, CAT (R29). -/
def category (ctrl : Byte) : BitVec 2 := (ctrl >>> 2).setWidth 2

/-! Bits of `E_FLAGS` (R35). -/
namespace EFlags

abbrev mute : Nat := 0
abbrev loopset : Nat := 1
abbrev loopdis : Nat := 2
abbrev addrset : Nat := 3

end EFlags

/-! Bits of `T_FLAGS` (R38). -/
namespace TFlags

abbrev reduce : Nat := 0
abbrev unchVol : Nat := 1
abbrev unchPan : Nat := 2
abbrev seset : Nat := 3

end TFlags

end Sys2Proof.Machine
end

