-- ==== Sys2Proof/Syntax.lean ====
section
/-!
DEFINITION. The instructions of the bytecode (30_encoding.md R85-R101, spec/opcode_table.json).
One constructor per mnemonic of the table; the several rows of `PERC`, `SAMPLE`, `PCM_INDEX_FAULT` and `UNDEF`
are the mask splits of one opcode range, and the constructor's operand says which byte of the range it is.
-/

namespace Sys2Proof

/-- ROM16_ORDER (20_memory.md R62). -/
inductive WordOrder where
  | le
  | be
deriving DecidableEq, Repr

/-- What decoding depends on beside the bytes (30_encoding.md R93): the class of the current channel, whether its
end-marker flags LIT and HI are both set, and the word order of address operands (R91). -/
structure DecodeCtx where
  pcm : Bool
  wide : Bool
  order : WordOrder
deriving DecidableEq, Repr

/-- An instruction with its operands (30_encoding.md R90). -/
inductive Instr where
  /-- 0x00-0x7F: note index, then the duration. `d2` is the second duration byte, which only a channel with LIT and
  HI set reads; it is 0 otherwise. -/
  | note (n : BitVec 7) (d1 d2 : Byte)
  /-- 0x82: the first operand (`l` or `m`), then `r`, which only a PCM channel reads; it is 0 otherwise. -/
  | vol (l r : Byte)
  | finfm
  | modsel (sel : Byte)
  | call (a : Word)
  | ret
  | jp (a : Word)
  /-- `s` is the signed byte as its 8-bit pattern (R92). -/
  | transp (s : Byte)
  | loop (k n : Byte) (a : Word)
  | fmblk (blk : Byte)
  | pitch (p : Byte)
  | litend
  | hiend
  | panr
  | panl
  | panc
  | finpcm
  /-- 0xC0-0xCE: percussion entry `k`, 0..14. -/
  | perc (k : BitVec 4)
  /-- 0xD0-0xFF: sample-table entry `k`, 0..47. -/
  | sample (k : BitVec 6)
  /-- 0xBF and 0xCF: the byte itself (42_pcm.md R183). -/
  | pcmIndexFault (b : Byte)
  /-- A command byte whose code has no handler (41_commands.md R159). -/
  | undef (c : BitVec 6)
deriving DecidableEq, Repr

end Sys2Proof
end

