-- ==== Sys2Proof/Config.lean ====
section
/-!
DEFINITION. The parameters of the block (00_scope.md R10, R11, 43_engine_tone.md R201, 44_traffic_fx.md R231) as
plain data, the reference configuration of 95_test_vectors.md section 0, and the one free value.
A parameter that is a function on a finite domain is a finite table (log 17), so that every such function can be
written; a claim that holds for every configuration holds for every value of every parameter.
-/

namespace Sys2Proof

/-- A PCM slot number as a parameter gives it: 0..15, or a value that raises PARAM (20_memory.md R65). -/
abbrev Slot := BitVec 8

/-- A function on a finite domain: its listed values, and one value everywhere else. -/
structure Table (κ ν : Type) where
  listed : List (κ × ν)
  other : ν
deriving DecidableEq, Repr

/-- Six like values: the six engine channels (R200), or the six slots of a drum list (R185). -/
structure Six (α : Type) where
  v1 : α
  v2 : α
  v3 : α
  v4 : α
  v5 : α
  v6 : α
deriving DecidableEq, Repr

/-- Four like values: the four traffic channels (R230), or engine telemetry 1-4 (10_state.md R49). -/
structure Four (α : Type) where
  v1 : α
  v2 : α
  v3 : α
  v4 : α
deriving DecidableEq, Repr

/-- An engine channel number 1..6 (R200). -/
inductive EngCh where
  | e1 | e2 | e3 | e4 | e5 | e6
deriving DecidableEq, Repr

/-- A traffic channel number 1..4 (R230). -/
inductive TrfCh where
  | t1 | t2 | t3 | t4
deriving DecidableEq, Repr

/-- A percussion table entry (30_encoding.md R98). -/
structure PercEntry where
  start : Word
  endHi : Byte
  pitch : Byte
  flags : Byte
deriving DecidableEq, Repr

/-- DRUM_PRED as a formula over the slot's bytes, the record's bytes, any other byte of the PCM file or of Channel
RAM, the slot number and the channel number (42_pcm.md R185, log 16). -/
inductive DrumTest where
  /-- `PCMR(F(s)+6) != ch.PEND_HI`: the reference criterion "wave-end-address-changed". -/
  | endDiffers
  /-- Bit `k` of byte `off` of the slot's front half. -/
  | frontBit (off k : Fin 8)
  /-- Bit `k` of byte `off` of the slot's back half. -/
  | backBit (off k : Fin 8)
  /-- Bit `k` of byte `off` of the current record. -/
  | recordBit (off : BitVec 5) (k : Fin 8)
  /-- Bit `k` of a PCM file byte. -/
  | pcmBit (a : BitVec 8) (k : Fin 8)
  /-- Bit `k` of a Channel RAM byte. -/
  | ramBit (a : BitVec 11) (k : Fin 8)
  | slotIs (s : Slot)
  | chanIs (i : Byte)
  | const (b : Bool)
  | neg (p : DrumTest)
  | both (p q : DrumTest)
  | either (p q : DrumTest)
deriving DecidableEq, Repr

/-- The direction of a finalize copy (41_commands.md R158). -/
inductive CopyDir where
  | ramToPcm
  | pcmToRam
deriving DecidableEq, Repr

/-- One 8-byte block copy of PCM_FINAL_COPIES (R158). -/
structure FinalCopy where
  dir : CopyDir
  ra : Word
  pa : Word
deriving DecidableEq, Repr

/-- What a mailbox command does (40_sequencer.md R112). -/
inductive CmdAction where
  | init (src : Word) (first : Byte)
  | stop (chans : List (Fin 30)) (slots : List Slot)
  | ignore
  | undefined
deriving DecidableEq, Repr

/-- REV_PAN (43_engine_tone.md R201). -/
inductive Pan where
  | left | right | both
deriving DecidableEq, Repr

/-- Every parameter but the ROM image. -/
structure Config where
  /-- ROM_SIZE, 1..65536 (00_scope.md R10). -/
  romSize : Nat
  /-- ROM16_ORDER (20_memory.md R62). -/
  romOrder : WordOrder
  /-- NOTE_TABLE (40_sequencer.md R126). -/
  noteTable : Word
  /-- MODTAB (40_sequencer.md R132). -/
  modTab : Table Byte Word
  /-- FMBLOCK(cmd, routine, block) (41_commands.md R150). -/
  fmBlock : Table (Byte × Byte × Byte) Word
  /-- PCM_TABLE (42_pcm.md R181). -/
  pcmTable : Word
  /-- PERC[1..14] (30_encoding.md R98); entry 0 is fixed. -/
  perc : Table (BitVec 4) PercEntry
  /-- DRUM_LIST[1..3][0..5] (42_pcm.md R185). -/
  drumList1 : Six Slot
  drumList2 : Six Slot
  drumList3 : Six Slot
  /-- DRUM_PRED(1..3, s, i) (42_pcm.md R185). -/
  drumPred1 : DrumTest
  drumPred2 : DrumTest
  drumPred3 : DrumTest
  /-- STD_PAIR[0..3][0..1] (42_pcm.md R186). -/
  stdPair : Four (Slot × Slot)
  /-- PCM_FINAL_COPIES(i) (41_commands.md R158). -/
  finalCopies : Table Byte (List FinalCopy)
  /-- CMD_ACTION (40_sequencer.md R112), for every command but stop cheers. -/
  cmdAction : Table Byte CmdAction
  /-- CMD_STOP_CHEERS, CHEER_SLOT1, CHEER_SLOT2 (40_sequencer.md R115). -/
  cmdStopCheers : Byte
  cheerSlot1 : Slot
  cheerSlot2 : Slot
  /-- CORR (10_state.md R28): the channels that have a corresponding music channel. -/
  corr : List (Fin 30 × Fin 30)
  /-- ENG_SLOT[1..6] (43_engine_tone.md R201), and so on down to REV_PAN. -/
  engSlot : Six Slot
  engIdle : BitVec 9
  engTable : Word
  /-- Where ENG_ROW differs from its reference default. -/
  engRow : List ((BitVec 9 × Byte) × Word)
  engPitchClamp : Byte
  ferrariTable : Word
  /-- Where FERRARI_ROW differs from its reference default. -/
  ferrariRow : List (BitVec 9 × Word)
  ferrariRows : Word
  revStart : Word
  revEndHi : Byte
  revPitch : Byte
  revPan : Six Pan
  /-- TRF_SLOT[1..4] (44_traffic_fx.md R231), and so on to the end. -/
  trfSlot : Four Slot
  trfWave : Word
  trfWaveEndHi : Byte
  trfVolTab : Word
  trfPanTab : Word
  trfDistTab : Word
  trfPitchThresh : Byte
deriving DecidableEq, Repr

/-- The reference configuration of 95_test_vectors.md section 0, with the reference defaults of the rules it names.
What that section does not list is this model's choice (DESIGN CHOICE, unsafe, log 3): percussion entries 1-14 are
zero, and MODTAB and FMBLOCK of other arguments are 0x8000, which lies outside the reference ROM. -/
def Config.reference : Config where
  romSize := 0x8000
  romOrder := .le
  noteTable := 0x0100
  modTab := { listed := [(1, 0x0300), (2, 0x0310), (3, 0x0320)], other := 0x8000 }
  fmBlock := { listed := [((0x81, 3, 1), 0x0700)], other := 0x8000 }
  pcmTable := 0x0200
  perc := { listed := [], other := { start := 0, endHi := 0, pitch := 0, flags := 0 } }
  drumList1 := { v1 := 0, v2 := 1, v3 := 2, v4 := 3, v5 := 14, v6 := 15 }
  drumList2 := { v1 := 0, v2 := 1, v3 := 2, v4 := 3, v5 := 14, v6 := 15 }
  drumList3 := { v1 := 0, v2 := 1, v3 := 2, v4 := 3, v5 := 14, v6 := 15 }
  drumPred1 := .endDiffers
  drumPred2 := .backBit 6 1
  drumPred3 := .backBit 6 0
  stdPair := { v1 := (14, 15), v2 := (14, 15), v3 := (2, 3), v4 := (0, 1) }
  finalCopies := { listed := [], other := [] }
  cmdAction :=
    { listed := [(0x81, .init 0x2100 0), (0x82, .init 0x2110 14), (0x83, .init 0x2120 1), (0xA1, .init 0x2130 29),
        (0xFF, .undefined)],
      other := .ignore }
  cmdStopCheers := 0xA0
  cheerSlot1 := 14
  cheerSlot2 := 15
  corr := [(22, 6), (23, 7)]
  engSlot := { v1 := 4, v2 := 5, v3 := 6, v4 := 7, v5 := 8, v6 := 9 }
  engIdle := 0x40
  engTable := 0x0400
  engRow := []
  engPitchClamp := 0x3F
  ferrariTable := 0x0500
  ferrariRow := []
  ferrariRows := 64
  revStart := 0x6000
  revEndHi := 0x68
  revPitch := 0xC0
  revPan := { v1 := .left, v2 := .right, v3 := .both, v4 := .both, v5 := .left, v6 := .right }
  trfSlot := { v1 := 10, v2 := 11, v3 := 12, v4 := 13 }
  trfWave := 0x7800
  trfWaveEndHi := 0x7C
  trfVolTab := 0x0600
  trfPanTab := 0x0620
  trfDistTab := 0x0640
  trfPitchThresh := 0x40

/-- The FM chip's answer to the status read number `n` of those the host's list of answers does not cover: a FREE
VALUE (20_memory.md R72: "a draw: any u8 the chip model returns"; log 6). No proof can see what it is. -/
opaque Config.fmStatus (n : Nat) : Byte

end Sys2Proof
end

