-- ==== Sys2Proof/Machine/Params.lean ====
section
/-!
DEFINITION. The parameters as the rules read them (00_scope.md R10).
-/

namespace Sys2Proof

/-- The value of a finite table. -/
def Table.get {κ ν : Type} [BEq κ] (t : Table κ ν) (k : κ) : ν := (t.listed.lookup k).getD t.other

/-- The value for an engine channel. -/
def Six.atEng {α : Type} (x : Six α) : EngCh → α
  | .e1 => x.v1
  | .e2 => x.v2
  | .e3 => x.v3
  | .e4 => x.v4
  | .e5 => x.v5
  | .e6 => x.v6

/-- The six values in order. -/
def Six.toList {α : Type} (x : Six α) : List α := [x.v1, x.v2, x.v3, x.v4, x.v5, x.v6]

/-- The value for a traffic channel. -/
def Four.atTrf {α : Type} (x : Four α) : TrfCh → α
  | .t1 => x.v1
  | .t2 => x.v2
  | .t3 => x.v3
  | .t4 => x.v4

/-- The value for a 2-bit category. -/
def Four.atCat {α : Type} (x : Four α) (c : BitVec 2) : α :=
  if c = 0 then x.v1 else if c = 1 then x.v2 else if c = 2 then x.v3 else x.v4

/-- The engine channel number 1..6 (43_engine_tone.md R200). -/
def EngCh.num : EngCh → Nat
  | .e1 => 1
  | .e2 => 2
  | .e3 => 3
  | .e4 => 4
  | .e5 => 5
  | .e6 => 6

/-- The channel the engine pass runs next (R204). -/
def EngCh.next : EngCh → Option EngCh
  | .e1 => some .e2
  | .e2 => some .e3
  | .e3 => some .e4
  | .e4 => some .e5
  | .e5 => some .e6
  | .e6 => none

/-- `n` is odd. -/
def EngCh.odd (n : EngCh) : Bool := n.num % 2 == 1

/-- Channels 5 and 6 are the player's (R200). -/
def EngCh.player (n : EngCh) : Bool := decide (5 ≤ n.num)

/-- NUDGE(n): -2 for odd channels, +3 for even ones (R202). -/
def EngCh.nudge (n : EngCh) : Byte := if n.odd then 0xFE else 3

/-- The traffic channel number 1..4 (44_traffic_fx.md R230). -/
def TrfCh.num : TrfCh → Nat
  | .t1 => 1
  | .t2 => 2
  | .t3 => 3
  | .t4 => 4

/-- The channel the traffic pass runs next (R232). -/
def TrfCh.next : TrfCh → Option TrfCh
  | .t1 => some .t2
  | .t2 => some .t3
  | .t3 => some .t4
  | .t4 => none

/-- The pitch base: 0x60 for odd channels, 0x80 for even ones (R236). -/
def TrfCh.pitchBase (t : TrfCh) : Byte := if t.num % 2 = 1 then 0x60 else 0x80

/-- CORR(i), as a record index (10_state.md R28). -/
def Config.corrOf (c : Config) (i : Nat) : Option Nat :=
  (c.corr.find? fun p => p.1.val == i).map fun p => p.2.val

/-- PERC[k] (30_encoding.md R98, 42_pcm.md R182): entry 0 is compiled in. -/
def Config.percOf (c : Config) (k : BitVec 4) : PercEntry :=
  if k = 0 then { start := 0x17C0, endHi := 0x42, pitch := 0x84, flags := 0xD6 } else c.perc.get k

/-- CMD_ACTION(c), stop cheers included (40_sequencer.md R112, R115). -/
def Config.action (c : Config) (cmd : Byte) : CmdAction :=
  if cmd = c.cmdStopCheers then .stop [14, 15] [c.cheerSlot1, c.cheerSlot2] else c.cmdAction.get cmd

/-- STD_PAIR[c][tog] (42_pcm.md R186). -/
def Config.stdSlot (c : Config) (cat : BitVec 2) (tog : Bool) : Slot :=
  if tog then (c.stdPair.atCat cat).2 else (c.stdPair.atCat cat).1

/-- The reference default of ENG_ROW (43_engine_tone.md R201). -/
def engRowDefault (p : BitVec 9) (v : Byte) : Word :=
  BitVec.ofNat 16 ((if v.toNat < 0x52 then 27 else 0) + min 26 (p.toNat / 19))

/-- ENG_ROW(p, v) (R201). -/
def Config.engRowOf (c : Config) (p : BitVec 9) (v : Byte) : Word :=
  (c.engRow.lookup (p, v)).getD (engRowDefault p v)

/-- The reference default of FERRARI_ROW (R201). -/
def ferrariRowDefault (q : BitVec 9) : Word := BitVec.ofNat 16 (min 63 (q.toNat / 8))

/-- FERRARI_ROW(q) (R201). -/
def Config.ferrariRowOf (c : Config) (q : BitVec 9) : Word := (c.ferrariRow.lookup q).getD (ferrariRowDefault q)

end Sys2Proof
end

