-- ==== Sys2Proof/Machine/Memory.lean ====
section
/-!
DEFINITION. The byte spaces of the block as canonical lists of cells (20_memory.md R60-R66).
-/

namespace Sys2Proof.Machine

/-- The four byte spaces (R60, R64, R65, R66 with 10_state.md R46). -/
inductive Space where
  | rom
  | ram
  | pcm
  /-- FMSHADOW, one byte for each FM register. -/
  | fm
deriving DecidableEq, Repr

/-- The number of addresses of a space. -/
def Space.size : Space → Nat
  | .rom => 0x10000
  | .ram => 0x800
  | .pcm => 0x100
  | .fm => 0x100

/-- What an unlisted address reads as: for the block's own storage the reset value of 70_reset_and_hazards.md R281
(0, and 0x01 in `H_FLAGS` of each PCM slot), for ROM 0 (DESIGN CHOICE, log 19). -/
def Space.blank (sp : Space) (a : Nat) : Byte :=
  match sp with
  | .rom => 0
  | .ram => 0
  | .pcm => if 0x80 ≤ a ∧ a % 8 = 6 then 1 else 0
  | .fm => 0

namespace Memory

/-- The byte at an address: the listed one, or the blank one where the rising addresses have passed it by. -/
def read (sp : Space) : List Host.Cell → Nat → Byte
  | [], a => sp.blank a
  | (b, v) :: m, a => if a = b then v else if a < b then sp.blank a else read sp m a

/-- The cells before `m` when address `a`, below every address of `m`, gets the byte `v`. -/
def put (sp : Space) (a : Nat) (v : Byte) (m : List Host.Cell) : List Host.Cell :=
  if v = sp.blank a then m else (a, v) :: m

/-- The cells of `m` from its first address above `a` on: all of them when `m` rises from there. -/
def above (a : Nat) : List Host.Cell → List Host.Cell
  | [] => []
  | (b, w) :: m => if b ≤ a then above a m else (b, w) :: m

/-- The space with byte `v` at address `a`, in canonical form. -/
def write (sp : Space) : List Host.Cell → Nat → Byte → List Host.Cell
  | [], a, v => put sp a v []
  | (b, w) :: m, a, v =>
    if a < b then put sp a v ((b, w) :: m)
    else if a = b then put sp a v (above a m)
    else (b, w) :: write sp m a v

/-- Every listed address lies at or above `lo`, rises strictly, lies inside the space, and holds a byte other than
the blank one. -/
def wfFrom (sp : Space) : Nat → List Host.Cell → Bool
  | _, [] => true
  | lo, (b, v) :: m => decide (lo ≤ b) && decide (b < sp.size) && v != sp.blank b && wfFrom sp (b + 1) m

/-- The canonical form: equal spaces are equal lists. -/
def wf (sp : Space) (m : List Host.Cell) : Bool := wfFrom sp 0 m

/-- Consecutive bytes written from address `a` on, the address taken modulo the size of the space. -/
def load (sp : Space) (m : List Host.Cell) (a : Nat) : List Byte → List Host.Cell
  | [] => m
  | v :: vs => load sp (write sp m (a % sp.size) v) (a + 1) vs

end Memory

end Sys2Proof.Machine
end

