-- ==== Sys2Proof/Machine/State.lean ====
section
/-!
DEFINITION. The state of the block (10_state.md), the reasons a step can stop, and the state after reset
(70_reset_and_hazards.md R281).
-/

namespace Sys2Proof.Machine

/-- Where the channel pass stands within the step of channel CHAN (40_sequencer.md R117, log 5). -/
inductive ChPhase where
  /-- The channel step is about to begin (R117 step 1). -/
  | start
  /-- In the Process Section, about to fetch the byte at CUR (R120). -/
  | fetch
  /-- In an FM block stream that has run over the whole ROM without a terminator, at the pair at `p` (R150, log 18). -/
  | stream (p : Word)
  /-- About to do steps 3 and 4 of the channel step (R130, R131). -/
  | refresh
  /-- The channel step has ended (R116). -/
  | done
deriving DecidableEq, Repr

/-- The FSM state (10_state.md R48, 40_sequencer.md R110), with the micro-step that comes next (log 5). -/
inductive Fsm where
  | idle
  | cmd
  | channels (ph : ChPhase)
  | engine (n : EngCh)
  | traffic (t : TrfCh)
  | fault
deriving DecidableEq, Repr

/-- The values of STATE as 10_state.md R48 lists them. -/
inductive FsmName where
  | IDLE | CMD | CHANNELS | ENGINE | TRAFFIC | FAULT
deriving DecidableEq, Repr

/-- The fault codes (60_exceptions.md R251). -/
inductive FaultCode where
  | undefOpcode
  | pcmIndex
  | modtabFc
  | ramRange
  | romRange
  | param
  | reservedCmd
  | undefCmd
  | chanCount
deriving DecidableEq, Repr

/-- STDTOG[0..3] (10_state.md R45). -/
structure StdTog where
  c0 : Bool
  c1 : Bool
  c2 : Bool
  c3 : Bool
deriving DecidableEq, Repr

/-- TELEM[0..7] (10_state.md R49): unused, pitch-high, pitch-low, volume, traffic-1..4. -/
structure Telem where
  unused : Byte
  pitchHi : Byte
  pitchLo : Byte
  volume : Byte
  traffic : Four Byte
deriving DecidableEq, Repr

/-- The telemetry of one engine channel: ENGTEL[n] (10_state.md R49). -/
structure EngTelem where
  pitch : Word
  volume : Byte
deriving DecidableEq, Repr

/-- A byte the PCM chip may write in a slot (10_state.md R33). -/
inductive ChipWrite where
  | loopLo (v : Byte)
  | loopHi (v : Byte)
  | inactive (b : Bool)
deriving DecidableEq, Repr

/-- One act of another agent between tick transactions (20_memory.md R70-R76, 70_reset_and_hazards.md R280). -/
inductive Event where
  | tick
  | reset
  | mbox (v : Byte)
  | telem (t : Telem)
  | engTel (t : Four EngTelem)
  | rev (b : Bool)
  | tpass (t : Four Bool)
  /-- A host write of a Channel RAM byte (R75). -/
  | hostRam (a : BitVec 11) (v : Byte)
  /-- A host write of a PCM file byte (R75). -/
  | hostPcm (a : BitVec 8) (v : Byte)
  /-- A PCM chip write-back (R76). -/
  | chip (slot : BitVec 4) (w : ChipWrite)
  /-- Answers the FM chip will give to the next status reads (R72). -/
  | fmAnswers (l : List Byte)
deriving DecidableEq, Repr

/-- The state of the block, its inputs and outputs, and its configuration as plain data. -/
structure State where
  /-- Channel RAM (R20). -/
  ram : List Host.Cell
  /-- PCM Register File (R30). -/
  pcm : List Host.Cell
  /-- FMSHADOW (R46). -/
  fmShadow : List Host.Cell
  /-- CUR (R40). -/
  cur : Word
  /-- CHAN (R41). -/
  chan : Byte
  /-- CHANPREV (R41). -/
  chanPrev : Byte
  /-- CMDPREV (R42). -/
  cmdPrev : Byte
  /-- ENGCH (R43). -/
  engCh : Byte
  /-- TOG (R44). -/
  tog : Bool
  /-- STDTOG (R45). -/
  stdTog : StdTog
  /-- FCODE (R47). -/
  fcode : Byte
  /-- FINFO (R47). -/
  finfo : Word
  /-- STATE (R48). -/
  fsm : Fsm
  /-- MBOX (R49). -/
  mbox : Byte
  /-- TELEM (R49). -/
  telem : Telem
  /-- ENGTEL (R49). -/
  engTel : Four EngTelem
  /-- REV (R49). -/
  rev : Bool
  /-- TPASS (R49). -/
  tpass : Four Bool
  /-- MBOX_ACK of the current transaction (20_memory.md R73, log 7). -/
  mboxAck : Bool
  /-- The writes issued on the FM port, oldest first (20_memory.md R72, R78, log 7). -/
  fmOut : List (Byte × Byte)
  /-- The FM chip's next status answers (R72, log 6). -/
  fmIn : List Byte
  /-- How many status reads the free value has answered (R72, log 6). -/
  fmDraws : Nat
  /-- The other agents' acts still to come (log 8). -/
  events : List Event
  /-- The ROM image (20_memory.md R60, log 2). -/
  rom : List Host.Cell
  /-- The other parameters (00_scope.md R10, log 2). -/
  cfg : Config
deriving DecidableEq, Repr

/-- The reasons for which the model stops where the spec gives no next state. The block's own faults
(60_exceptions.md R250) are next states, not these. -/
inductive Fault where
  /-- CHAN names none of the records 0-29 (10_state.md R22, R41). Raised by every meaning and by the channel
  micro-steps. Safe: the model stops, and no run reaches it, because the channel pass writes 0-29 only (R116); log 1. -/
  | noSuchChannel
deriving DecidableEq, Repr

/-- The reasons for which the model gives no meaning. -/
inductive Refusal where
  /-- An instruction that has no meaning yet, refused in `exec`'s arm. Safe: nothing is claimed of it. -/
  | notModelled (mnemonic : String)
deriving DecidableEq, Repr

/-- The block right after reset (70_reset_and_hazards.md R281), with every input 0 (10_state.md R49), no act of
another agent pending, a blank ROM and the reference configuration (DESIGN CHOICE, log 3). -/
def State.reset : State where
  ram := []
  pcm := []
  fmShadow := []
  cur := 0
  chan := 0
  chanPrev := 0
  cmdPrev := 0
  engCh := 0
  tog := false
  stdTog := { c0 := false, c1 := false, c2 := false, c3 := false }
  fcode := 0
  finfo := 0
  fsm := .idle
  mbox := 0
  telem := { unused := 0, pitchHi := 0, pitchLo := 0, volume := 0, traffic := { v1 := 0, v2 := 0, v3 := 0, v4 := 0 } }
  engTel :=
    { v1 := { pitch := 0, volume := 0 }, v2 := { pitch := 0, volume := 0 }, v3 := { pitch := 0, volume := 0 },
      v4 := { pitch := 0, volume := 0 } }
  rev := false
  tpass := { v1 := false, v2 := false, v3 := false, v4 := false }
  mboxAck := false
  fmOut := []
  fmIn := []
  fmDraws := 0
  events := []
  rom := []
  cfg := Config.reference

end Sys2Proof.Machine
end

