-- ==== Sys2Proof/Machine/Ops.lean ====
section
/-!
DEFINITION. The named operations over memory, registers and ports, and the block's one exception, `raise Fault`
(00_scope.md R13, R15).
A micro-step is a computation of type `Exec`: it reads and writes the state in the order of the rule's pseudocode
(R16), and a raised fault ends it with the state as it then is (60_exceptions.md R252, R255). There is no return
from a fault (60_exceptions.md R250, R258); reset is the way out.
-/

namespace Sys2Proof.Machine

/-! ## Records and fields -/

/-- `rec(i) = 0x20 * i` (10_state.md R21). -/
def recBase (i : Nat) : Nat := 0x20 * i

/-- `erec(n) = 0x400 + 9*(n-1)` (R34). -/
def engRec (n : EngCh) : Nat := 0x400 + 9 * (n.num - 1)

/-- `ring(n) = 0x440 + 24*((n-1)/2)` (R36). -/
def ringBase (n : EngCh) : Nat := 0x440 + 24 * ((n.num - 1) / 2)

/-- `trec(t) = 0x490 + 8*(t-1)` (R37). -/
def trfRec (t : TrfCh) : Nat := 0x490 + 8 * (t.num - 1)

/-! Offsets of the Channel Record fields (R22). -/
namespace Fld

abbrev flags : Nat := 0x00
abbrev route : Nat := 0x01
abbrev emscale : Nat := 0x02
abbrev seqpos : Nat := 0x03
abbrev seqend : Nat := 0x05
abbrev cmdptr : Nat := 0x07
abbrev noteoff : Nat := 0x09
abbrev moff : Nat := 0x0A
abbrev modsel : Nat := 0x0B
abbrev fmblk : Nat := 0x0C
abbrev emflags : Nat := 0x0D
abbrev cmdidx : Nat := 0x0E
abbrev phoff : Nat := 0x0F
abbrev voll : Nat := 0x10
abbrev volr : Nat := 0x11
/-- The FM note byte, and the PCM start address low byte. -/
abbrev note : Nat := 0x12
abbrev pstartLo : Nat := 0x12
/-- The FM phase/amplitude byte, and the PCM start address high byte. -/
abbrev phamp : Nat := 0x13
abbrev pstartHi : Nat := 0x13
abbrev pendHi : Nat := 0x14
abbrev ppitch : Nat := 0x15
abbrev ctrl : Nat := 0x16
abbrev loopcnt : Nat := 0x17

end Fld

/-! Offsets of the engine record fields (R34). -/
namespace EFld

abbrev vol : Nat := 0
abbrev volprev : Nat := 1
abbrev flags : Nat := 2
abbrev ringPos : Nat := 3
abbrev pitchLo : Nat := 4
abbrev pitchHi : Nat := 5
abbrev adjvol : Nat := 6
abbrev active : Nat := 7

end EFld

/-! Offsets of the traffic record fields (R37). -/
namespace TFld

abbrev flags : Nat := 0
abbrev pvidx : Nat := 1
abbrev ppidx : Nat := 2
abbrev pitch : Nat := 3
abbrev voll : Nat := 4
abbrev volr : Nat := 5
abbrev mult : Nat := 6

end TFld

/-! ## Plain reads and writes of the state -/

/-- `RAM8(a)` (R13). -/
def State.ram8 (s : State) (a : Nat) : Byte := Memory.read .ram s.ram a

/-- `RAM8(a) <- v` (R13). -/
def State.setRam8 (s : State) (a : Nat) (v : Byte) : State := { s with ram := Memory.write .ram s.ram a v }

/-- `RAM16(a)`, low byte at the lower address (20_memory.md R63). -/
def State.ram16 (s : State) (a : Nat) : Word := word (s.ram8 (a + 1)) (s.ram8 a)

/-- `RAM16(a) <- v` (R63). -/
def State.setRam16 (s : State) (a : Nat) (v : Word) : State := (s.setRam8 a (loByte v)).setRam8 (a + 1) (hiByte v)

/-- `PCMR(a)` (R13). -/
def State.pcm8 (s : State) (a : Nat) : Byte := Memory.read .pcm s.pcm a

/-- `PCMR(a) <- v` (R13). -/
def State.setPcm8 (s : State) (a : Nat) (v : Byte) : State := { s with pcm := Memory.write .pcm s.pcm a v }

/-- `FMSHADOW[r]` (10_state.md R46). -/
def State.shadow (s : State) (r : Byte) : Byte := Memory.read .fm s.fmShadow r.toNat

/-- The ROM byte at an address, whether or not it lies below ROM_SIZE. -/
def State.romAt (s : State) (a : Word) : Byte := Memory.read .rom s.rom a.toNat

/-- `ch.F` for an 8-bit field of record `i` (R13). -/
def State.ch (s : State) (i f : Nat) : Byte := s.ram8 (recBase i + f)

/-- `ch.F <- v` for an 8-bit field. -/
def State.setCh (s : State) (i f : Nat) (v : Byte) : State := s.setRam8 (recBase i + f) v

/-- `ch.F` for a 16-bit field (R24). -/
def State.ch16 (s : State) (i f : Nat) : Word := s.ram16 (recBase i + f)

/-- `ch.F <- v` for a 16-bit field (R24). -/
def State.setCh16 (s : State) (i f : Nat) (v : Word) : State := s.setRam16 (recBase i + f) v

/-- `CUR <- a` (R13). -/
def State.setCur (s : State) (a : Word) : State := { s with cur := a }

/-- `CHAN <- i` (40_sequencer.md R116). -/
def State.setChan (s : State) (i : Byte) : State := { s with chan := i }

/-- `CHANPREV <- i` (R116). -/
def State.setChanPrev (s : State) (i : Byte) : State := { s with chanPrev := i }

/-- `CMDPREV <- c` (R112). -/
def State.setCmdPrev (s : State) (c : Byte) : State := { s with cmdPrev := c }

/-- `ENGCH <- n` (10_state.md R43). -/
def State.setEngCh (s : State) (n : Byte) : State := { s with engCh := n }

/-- `TOG <- b` (R138). -/
def State.setTog (s : State) (b : Bool) : State := { s with tog := b }

/-- `STATE <- f`, with the micro-step that comes next. -/
def State.setFsm (s : State) (f : Fsm) : State := { s with fsm := f }

/-- The MBOX_ACK output (20_memory.md R73). -/
def State.setMboxAck (s : State) (b : Bool) : State := { s with mboxAck := b }

/-- STDTOG[c] (10_state.md R45). -/
def StdTog.at (x : StdTog) (c : BitVec 2) : Bool :=
  if c = 0 then x.c0 else if c = 1 then x.c1 else if c = 2 then x.c2 else x.c3

/-- `STDTOG[c] <- STDTOG[c] xor 1` (42_pcm.md R186). -/
def StdTog.flip (x : StdTog) (c : BitVec 2) : StdTog :=
  if c = 0 then { x with c0 := !x.c0 }
  else if c = 1 then { x with c1 := !x.c1 }
  else if c = 2 then { x with c2 := !x.c2 }
  else { x with c3 := !x.c3 }

/-- `STDTOG[c] <- STDTOG[c] xor 1` in the state. -/
def State.flipStdTog (s : State) (c : BitVec 2) : State := { s with stdTog := s.stdTog.flip c }

/-- The value of STATE as 10_state.md R48 names it. -/
def State.stateReg (s : State) : FsmName :=
  match s.fsm with
  | .idle => .IDLE
  | .cmd => .CMD
  | .channels _ => .CHANNELS
  | .engine _ => .ENGINE
  | .traffic _ => .TRAFFIC
  | .fault => .FAULT

/-! ## The FM port (20_memory.md R72) -/

/-- The answer to the next status read: the host's list first, then the free value (log 6). -/
def State.fmAnswer (s : State) : Byte :=
  match s.fmIn with
  | st :: _ => st
  | [] => Config.fmStatus s.fmDraws

/-- The state after one `FMStatus()`. -/
def State.fmDrawn (s : State) : State :=
  match s.fmIn with
  | _ :: l => { s with fmIn := l }
  | [] => { s with fmDraws := s.fmDraws + 1 }

/-- The FM chip reports busy at the next status read: bit 7 of its answer. -/
def State.fmBusy (s : State) : Bool := bit s.fmAnswer 7

/-- `FMWrite(reg, val)`: one status read, then the write unless the chip was busy (R72). -/
def State.fmWrite (s : State) (reg val : Byte) : State :=
  { s.fmDrawn with
    fmOut := if s.fmBusy then s.fmOut else s.fmOut ++ [(reg, val)]
    fmShadow := if s.fmBusy then s.fmShadow else Memory.write .fm s.fmShadow reg.toNat val }

/-- `FLAGS.ENABLED` of record `i` (10_state.md R25). -/
def State.enabled (s : State) (i : Nat) : Bool := bit (s.ch i Fld.flags) Flags.enabled

/-- `FLAGS.PCM` of record `i` (R25). -/
def State.isPcm (s : State) (i : Nat) : Bool := bit (s.ch i Fld.flags) Flags.pcm

/-- `FLAGS.MUTECORR` of record `i` (R25). -/
def State.muteCorr (s : State) (i : Nat) : Bool := bit (s.ch i Fld.flags) Flags.mutecorr

/-- YMCH of record `i` (R26). -/
def State.ym (s : State) (i : Nat) : Byte := ymch (s.ch i Fld.route)

/-- `Suppressed(i)` (40_sequencer.md R136). -/
def State.suppressed (s : State) (i : Nat) : Bool :=
  bit (s.ch i Fld.route) routeMute ||
    (List.range 30).any fun j => j != i && s.cfg.corrOf j == some i && s.enabled j && s.muteCorr j

/-- `GFMWrite(i, reg, val)` (R136). -/
def State.gfmWrite (s : State) (i : Nat) (reg val : Byte) : State :=
  if s.suppressed i then s else s.fmWrite reg val

/-! ## Raising a fault (00_scope.md R15) -/

/-- FCODE of a fault (60_exceptions.md R251). -/
def FaultCode.code : FaultCode → Byte
  | .undefOpcode => 0x01
  | .pcmIndex => 0x02
  | .modtabFc => 0x03
  | .ramRange => 0x04
  | .romRange => 0x05
  | .param => 0x06
  | .reservedCmd => 0x07
  | .undefCmd => 0x08
  | .chanCount => 0x09

/-- The block's one exception: FAULT gets code and information, STATE becomes FAULT, and nothing else is written
(R15, 60_exceptions.md R250). -/
def State.raiseFault (s : State) (c : FaultCode) (info : Word) : State :=
  { s with fcode := c.code, finfo := info, fsm := .fault }

/-! ## Computations -/

/-- A sequence of reads and writes that a raised fault may end early. -/
abbrev Exec (α : Type) := EStateM Unit State α

/-- The state a computation leaves, whether it ran to its end or raised a fault. -/
def after {α : Type} (r : EStateM.Result Unit State α) : State :=
  match r with
  | .ok _ s => s
  | .error _ s => s

/-- Read something of the state. -/
def look {α : Type} (f : State → α) : Exec α := fun s => .ok (f s) s

/-- Write the state. -/
def upd (f : State → State) : Exec Unit := fun s => .ok () (f s)

/-- `raise Fault(code, info)`. -/
def raise {α : Type} (c : FaultCode) (info : Word) : Exec α := fun s => .error () (s.raiseFault c info)

/-- A computation done only under a condition. -/
def onlyIf (b : Bool) (m : Exec Unit) : Exec Unit := fun s => if b then m s else .ok () s

/-- A computation done for each element of a list, in order. -/
def each {α : Type} : List α → (α → Exec Unit) → Exec Unit
  | [], _ => fun s => .ok () s
  | x :: xs, f => do
    f x
    each xs f

/-- `ROM8(a)`: an address at or above ROM_SIZE raises ROM_RANGE (20_memory.md R61). -/
def rom8 (a : Word) : Exec Byte := fun s =>
  if a.toNat < s.cfg.romSize then .ok (s.romAt a) s else raise .romRange a s

/-- `ROM16(a)` in ROM16_ORDER (20_memory.md R62). -/
def rom16 (a : Word) : Exec Word := do
  let b0 ← rom8 a
  let b1 ← rom8 (a + 1)
  look fun s =>
    match s.cfg.romOrder with
    | .le => word b1 b0
    | .be => word b0 b1

/-- A slot number as an address: above 15 it raises PARAM (20_memory.md R65). -/
def checkSlot (sl : Slot) : Exec Unit := fun s =>
  if sl.toNat ≤ 15 then .ok () s else raise .param (zext16 sl) s

/-- Address of byte `off` of the front half, `F(s) + off` (10_state.md R30). -/
def front (sl : Slot) (off : Nat) : Nat := 8 * sl.toNat + off

/-- Address of byte `off` of the back half, `B(s) + off` (R30). -/
def back (sl : Slot) (off : Nat) : Nat := 0x80 + 8 * sl.toNat + off

/-- `PCMR(F(s) + off) <- v`, the slot number checked (R65). -/
def putFront (sl : Slot) (off : Nat) (v : Byte) : Exec Unit := do
  checkSlot sl
  upd fun s => s.setPcm8 (front sl off) v

/-- `PCMR(B(s) + off) <- v`, the slot number checked (R65). -/
def putBack (sl : Slot) (off : Nat) (v : Byte) : Exec Unit := do
  checkSlot sl
  upd fun s => s.setPcm8 (back sl off) v

/-- Set `H_FLAGS.INACTIVE` of a slot (10_state.md R32, 40_sequencer.md R115). -/
def silence (sl : Slot) : Exec Unit := do
  checkSlot sl
  upd fun s => s.setPcm8 (back sl 6) (s.pcm8 (back sl 6) ||| 0x01)

/-- The end of a channel's step (40_sequencer.md R117). -/
def endChannelStep : Exec Unit := upd fun s => s.setFsm (.channels .done)

/-- A micro-step of the channel CHAN names: what it leaves is the next state; without such a record the model stops
(log 1). -/
def onChannel (m : Nat → Exec Unit) (s : State) : Host.Outcome State Fault Refusal :=
  if s.chan.toNat < 30 then .next (after (m s.chan.toNat s)) else .fault .noSuchChannel

end Sys2Proof.Machine
end

