-- ==== Sys2Proof/Machine/Operands.lean ====
section
/-!
DEFINITION. The operand fetches and the cursor (00_scope.md R14, 40_sequencer.md R122).
The decoder has read the operand bytes already; what is left of an operand fetch is its move of the cursor and its
range check, made where the pseudocode makes the fetch (log 11).
-/

namespace Sys2Proof.Machine

/-- `Next8()` for one operand byte: the cursor moves first, and its new address must lie in ROM (R14, log 10). -/
def next8 : Exec Unit := do
  upd fun s => s.setCur (s.cur + 1)
  fun s => if s.cur.toNat < s.cfg.romSize then .ok () s else raise .romRange s.cur s

/-- `Next16()` for the two bytes of an address operand (R14, 30_encoding.md R91). -/
def next16 : Exec Unit := do
  next8
  next8

/-- The generic advance to the next opcode (40_sequencer.md R122). -/
def advance : Exec Unit := upd fun s => s.setCur (s.cur + 1)

/-- A jump: the cursor one before the target, for the generic advance to complete (R122, 41_commands.md R146). -/
def jump (a : Word) : Exec Unit := upd fun s => s.setCur (a - 1)

end Sys2Proof.Machine
end

