-- ==== Sys2Proof/Machine/Fields.lean ====
section
/-!
DEFINITION. The instructions that set fields of the current record: VOL, MODSEL, TRANSP, PITCH, LITEND, HIEND
(41_commands.md R141, R143, R147, R151-R153).
-/

namespace Sys2Proof.Machine

/-- A volume byte: above 0x40 it is "too loud" and becomes 0 (R141). -/
def clampVolume (v : Byte) : Byte := if 0x40 < v.toNat then 0 else v

/-- VOL (R141). -/
def execVol (l r : Byte) (s : State) : Host.Outcome State Fault Refusal :=
  onChannel (fun i => do
    if ← look (·.isPcm i) then
      next8
      next8
      upd (·.setCh i Fld.voll (clampVolume l))
      upd (·.setCh i Fld.volr (clampVolume r))
      advance
    else
      next8
      upd (·.setCh i Fld.voll l)
      advance) s

/-- MODSEL (R143). -/
def execModsel (sel : Byte) (s : State) : Host.Outcome State Fault Refusal :=
  onChannel (fun i => do
    next8
    upd (·.setCh i Fld.modsel sel)
    advance) s

/-- TRANSP (R147). -/
def execTransp (t : Byte) (s : State) : Host.Outcome State Fault Refusal :=
  onChannel (fun i => do
    next8
    upd fun s => s.setCh i Fld.noteoff (s.ch i Fld.noteoff + t)
    advance) s

/-- PITCH (R151): the operand is consumed on both classes, the field written on PCM channels only. -/
def execPitch (p : Byte) (s : State) : Host.Outcome State Fault Refusal :=
  onChannel (fun i => do
    next8
    onlyIf (← look (·.isPcm i)) (upd (·.setCh i Fld.ppitch p))
    advance) s

/-- Set an end-marker flag; the cursor's step and its undoing come to no movement (R152, R153). -/
def setEmFlag (i k : Nat) : Exec Unit := do
  upd fun s => s.setCh i Fld.emflags (setBit (s.ch i Fld.emflags) k true)
  upd fun s => s.setCur (s.cur + 1)
  upd fun s => s.setCur (s.cur - 1)

/-- LITEND (R152). -/
def execLitend (s : State) : Host.Outcome State Fault Refusal :=
  onChannel (fun i => do
    setEmFlag i EmFlags.lit
    advance) s

/-- HIEND (R153). -/
def execHiend (s : State) : Host.Outcome State Fault Refusal :=
  onChannel (fun i => do
    setEmFlag i EmFlags.hi
    advance) s

end Sys2Proof.Machine
end

