-- ==== Sys2Proof/Machine/Finalize.lean ====
section
/-!
DEFINITION. The finalize instructions: FINFM, FINPCM (41_commands.md R142, R158).
-/

namespace Sys2Proof.Machine

/-- The FM-finalize sequence: key off, not guarded, and the channel freed; its step ends (R142). -/
def finalize (i : Nat) : Exec Unit := do
  upd fun s => s.fmWrite 0x08 (s.ym i)
  upd (·.setCh i Fld.flags 0)
  endChannelStep

/-- FINFM (R142). -/
def execFinfm (s : State) : Host.Outcome State Fault Refusal :=
  onChannel finalize s

/-- One byte of a finalize copy (R158). -/
def State.copyByte (s : State) (c : FinalCopy) (j : Nat) : State :=
  match c.dir with
  | .ramToPcm => s.setPcm8 (c.pa.toNat + j) (s.ram8 (c.ra.toNat + j))
  | .pcmToRam => s.setRam8 (c.ra.toNat + j) (s.pcm8 (c.pa.toNat + j))

/-- The eight bytes of a block, in order (R158). -/
def State.copyBytes (s : State) (c : FinalCopy) : State := (List.range 8).foldl (fun s j => s.copyByte c j) s

/-- One block of PCM_FINAL_COPIES: both ranges are checked, RAM first, then the block is copied (R158). For `ra` or
`pa` at 0xFFF9 or above the last address does not fit 16 bits: the test is made on the sum as it is, and FINFO gets its
low 16 bits (DESIGN CHOICE, unsafe, log 24). -/
def copyBlock (c : FinalCopy) : Exec Unit :=
  if 0x800 ≤ c.ra.toNat + 7 then raise .ramRange (c.ra + 7)
  else if 0x100 ≤ c.pa.toNat + 7 then raise .param (c.pa + 7)
  else upd (·.copyBytes c)

/-- FINPCM (R158). -/
def execFinpcm (s : State) : Host.Outcome State Fault Refusal :=
  onChannel (fun i => do
    let copies ← look fun s => s.cfg.finalCopies.get s.chan
    each copies copyBlock
    finalize i) s

end Sys2Proof.Machine
end

