-- ==== Sys2Proof/Machine/Flow.lean ====
section
/-!
DEFINITION. The control-flow instructions: CALL, RET, JP, LOOP (41_commands.md R144-R146, R148).
The stack and the loop counters are unchecked: their addresses stay inside Channel RAM (R144, R148).
-/

namespace Sys2Proof.Machine

/-- The address the return stack of record `i` stands at: `rec(i) + ch.MOFF` (R144). -/
def State.stackAt (s : State) (i : Nat) : Nat := recBase i + (s.ch i Fld.moff).toNat

/-- The address of loop counter `k` of record `i` (R148). -/
def loopCounter (i : Nat) (k : Byte) : Nat := recBase i + Fld.loopcnt + k.toNat

/-- CALL (R144). -/
def execCall (a : Word) (s : State) : Host.Outcome State Fault Refusal :=
  onChannel (fun i => do
    next16
    upd fun s => s.setCh i Fld.moff (s.ch i Fld.moff - 2)
    upd fun s => s.setRam16 (s.stackAt i) s.cur
    jump a
    advance) s

/-- RET (R145). -/
def execRet (s : State) : Host.Outcome State Fault Refusal :=
  onChannel (fun i => do
    upd fun s => s.setCur (s.ram16 (s.stackAt i))
    upd fun s => s.setCh i Fld.moff (s.ch i Fld.moff + 2)
    advance) s

/-- JP (R146). -/
def execJp (a : Word) (s : State) : Host.Outcome State Fault Refusal :=
  onChannel (fun _ => do
    next16
    jump a
    advance) s

/-- What LOOP leaves in a counter that holds `c` and is reloaded with `n` (R148). -/
def loopNext (c n : Byte) : Byte := (if c = 0 then n else c) - 1

/-- LOOP (R148). Falling through skips the target bytes without reading them. -/
def execLoop (k n : Byte) (a : Word) (s : State) : Host.Outcome State Fault Refusal :=
  onChannel (fun i => do
    next8
    next8
    let c ← look fun s => loopNext (s.ram8 (loopCounter i k)) n
    upd (·.setRam8 (loopCounter i k) c)
    if c = 0 then
      upd fun s => s.setCur (s.cur + 2)
      advance
    else
      next16
      jump a
      advance) s

end Sys2Proof.Machine
end

