-- ==== Sys2Proof/Machine/FmRegs.lean ====
section
/-!
DEFINITION. The instructions that write FM registers through the guarded port: FMBLK, PANR, PANL, PANC
(41_commands.md R149, R150, R154-R156).
-/

namespace Sys2Proof.Machine

/-- How many pairs fit in one lap of the 65536-byte ROM space. -/
abbrev fmLap : Nat := 0x8000

/-- FMBlockStream from the pair at `p` for at most `fuel` pairs (R150): `none` when the terminator was met, else the
address of the next pair. The ROM does not change, so a stream that has run a whole lap never ends (log 18). -/
def fmStream (i : Nat) : Nat → Word → Exec (Option Word)
  | 0, p => fun s => .ok (some p) s
  | fuel + 1, p => do
    let rb ← rom8 p
    if rb = 0xFF then
      pure none
    else
      let v ← rom8 (p + 1)
      upd fun s => s.gfmWrite i (rb + s.ym i) v
      fmStream i fuel (p + 2)

/-- A lap of the stream, then the generic advance when the block has ended; a stream without a terminator goes on in
the next micro-step, for ever (R150, 60_exceptions.md R256, log 18). -/
def fmStreamLap (i : Nat) (p : Word) : Exec Unit := do
  match ← fmStream i fmLap p with
  | none => advance
  | some q => upd fun s => s.setFsm (.channels (.stream q))

/-- FMBLK (R149). -/
def execFmblk (blk : Byte) (s : State) : Host.Outcome State Fault Refusal :=
  onChannel (fun i => do
    next8
    upd (·.setCh i Fld.fmblk blk)
    let p ← look fun s => s.cfg.fmBlock.get (s.ch i Fld.cmdidx, 3, blk)
    fmStreamLap i p) s

/-- Write register 0x20 + YMCH with the low six bits of its shadow and the pan bits given (R154). -/
def pan (i : Nat) (bits : Byte) : Exec Unit :=
  upd fun s => s.gfmWrite i (0x20 + s.ym i) ((s.shadow (0x20 + s.ym i) &&& 0x3F) ||| bits)

/-- PANR (R154). -/
def execPanr (s : State) : Host.Outcome State Fault Refusal :=
  onChannel (fun i => do
    pan i 0x80
    advance) s

/-- PANL (R155). -/
def execPanl (s : State) : Host.Outcome State Fault Refusal :=
  onChannel (fun i => do
    pan i 0x40
    advance) s

/-- PANC (R156). -/
def execPanc (s : State) : Host.Outcome State Fault Refusal :=
  onChannel (fun i => do
    pan i 0xC0
    advance) s

end Sys2Proof.Machine
end

