-- ==== Sys2Proof/Machine/Notes.lean ====
section
/-!
DEFINITION. The note instruction and the end-marker computation (40_sequencer.md R123-R129).
-/

namespace Sys2Proof.Machine

/-- The corresponding music channel of record `i` exists and is active (R124). -/
def State.musicActive (s : State) (i : Nat) : Bool :=
  match s.cfg.corrOf i with
  | some j => s.enabled j
  | none => false

/-- NoteByte: the note field of an FM channel from the note table, or the mute sentinel for note 0 (R123, R124);
nothing on a PCM channel (R127). -/
def noteByte (i : Nat) (n : BitVec 7) : Exec Unit := do
  if n = 0 then
    upd fun s => if !s.musicActive i && !s.isPcm i then s.setCh i Fld.note 0xFF else s
  else if ← look (·.isPcm i) then
    pure ()
  else
    let v ← rom8 (← look fun s => s.cfg.noteTable + zext16 (n.setWidth 8 + s.ch i Fld.noteoff))
    upd (·.setCh i Fld.note v)

/-- The writes that end a section: SEQEND, SEQPOS and CMDPTR (R128, R129). -/
def State.endSection (s : State) (i : Nat) (m : Word) : State :=
  let s := s.setCh16 i Fld.seqend m
  let s := s.setCh16 i Fld.seqpos 0
  s.setCh16 i Fld.cmdptr (s.cur + 1)

/-- A bit of EMFLAGS of record `i` (10_state.md R27). -/
def State.emFlag (s : State) (i k : Nat) : Bool := bit (s.ch i Fld.emflags) k

/-- A bit of EMFLAGS cleared. -/
def State.clearEmFlag (s : State) (i k : Nat) : State :=
  s.setCh i Fld.emflags (setBit (s.ch i Fld.emflags) k false)

/-- EndMarker (R128): the 16-bit literal, the 8-bit literal, or the product. -/
def endMarker (i : Nat) (d1 d2 : Byte) : Exec Unit := do
  next8
  if ← look fun s => s.emFlag i EmFlags.lit && s.emFlag i EmFlags.hi then
    next8
    upd fun s => (s.clearEmFlag i EmFlags.hi).clearEmFlag i EmFlags.lit
    upd (·.endSection i (word d2 d1))
  else if ← look (·.emFlag i EmFlags.lit) then
    upd (·.clearEmFlag i EmFlags.lit)
    upd (·.endSection i (zext16 d1))
  else
    upd fun s => s.endSection i (mulBytes (s.ch i Fld.emscale) d1)

/-- NOTE (R123): the note byte, the end marker, and the section is DONE: steps 3 and 4 of the channel step come next
(R117, R120, R125). -/
def execNote (n : BitVec 7) (d1 d2 : Byte) (s : State) : Host.Outcome State Fault Refusal :=
  onChannel (fun i => do
    noteByte i n
    endMarker i d1 d2
    upd (·.setFsm (.channels .refresh))) s

end Sys2Proof.Machine
end

