-- ==== Sys2Proof/Machine/PcmIndex.lean ====
section
/-!
DEFINITION. The PCM-index instructions PERC, SAMPLE and PCM_INDEX_FAULT, channel assignment and PCM Send (42_pcm.md),
and the undefined command codes UNDEF (41_commands.md R159).
-/

namespace Sys2Proof.Machine

/-- The formula of a DRUM_PRED for slot `sl` and record `i` (42_pcm.md R185, log 16). -/
def evalDrum (s : State) (sl : Slot) (i : Nat) : DrumTest → Bool
  | .endDiffers => s.pcm8 (front sl 6) != s.ch i Fld.pendHi
  | .frontBit off k => bit (s.pcm8 (front sl off.val)) k.val
  | .backBit off k => bit (s.pcm8 (back sl off.val)) k.val
  | .recordBit off k => bit (s.ch i off.toNat) k.val
  | .pcmBit a k => bit (s.pcm8 a.toNat) k.val
  | .ramBit a k => bit (s.ram8 a.toNat) k.val
  | .slotIs t => sl == t
  | .chanIs j => decide (i = j.toNat)
  | .const b => b
  | .neg p => !evalDrum s sl i p
  | .both p q => evalDrum s sl i p && evalDrum s sl i q
  | .either p q => evalDrum s sl i p || evalDrum s sl i q

/-- The formula reads a byte of the slot it is asked about. -/
def drumReadsSlot : DrumTest → Bool
  | .endDiffers | .frontBit _ _ | .backBit _ _ => true
  | .recordBit _ _ | .pcmBit _ _ | .ramBit _ _ | .slotIs _ | .chanIs _ | .const _ => false
  | .neg p => drumReadsSlot p
  | .both p q => drumReadsSlot p || drumReadsSlot q
  | .either p q => drumReadsSlot p || drumReadsSlot q

/-- The first slot of a list that passes a test. A test that reads the bytes of a slot above 15 raises PARAM
(20_memory.md R65, log 15). -/
def scanList (i : Nat) (p : DrumTest) : List Slot → Exec (Option Slot)
  | [] => pure none
  | sl :: rest => do
    onlyIf (drumReadsSlot p) (checkSlot sl)
    if ← look fun s => evalDrum s sl i p then
      pure (some sl)
    else
      scanList i p rest

/-- DrumScan: the three lists with their tests in order, and the first list's base when none passes (R185). -/
def drumScan (i : Nat) : Exec Slot := do
  let c ← look State.cfg
  match ← scanList i c.drumPred1 c.drumList1.toList with
  | some sl => pure sl
  | none => do
    match ← scanList i c.drumPred2 c.drumList2.toList with
    | some sl => pure sl
    | none => do
      match ← scanList i c.drumPred3 c.drumList3.toList with
      | some sl => pure sl
      | none => pure c.drumList1.v1

/-- StdPick: the slot of the pair the category's counter selects, then the counter rotates (R186). -/
def stdPick (i : Nat) : Exec Slot := do
  let cat ← look fun s => category (s.ch i Fld.ctrl)
  let sl ← look fun s => s.cfg.stdSlot cat (s.stdTog.at cat)
  upd (·.flipStdTog cat)
  pure sl

/-- PCM Send without its slot check: the nine writes in order (R187). -/
def State.pcmSend (s : State) (i : Nat) (sl : Slot) : State :=
  let s := s.setPcm8 (front sl 2) (s.ch i Fld.voll)
  let s := s.setPcm8 (front sl 3) (s.ch i Fld.volr)
  let s := s.setPcm8 (front sl 4) (s.ch i Fld.pstartLo)
  let s := s.setPcm8 (front sl 5) (s.ch i Fld.pstartHi)
  let s := s.setPcm8 (front sl 6) (s.ch i Fld.pendHi)
  let s := s.setPcm8 (front sl 7) (s.ch i Fld.ppitch)
  let s := s.setPcm8 (back sl 4) (s.ch i Fld.pstartLo)
  let s := s.setPcm8 (back sl 5) (s.ch i Fld.pstartHi)
  s.setPcm8 (back sl 6) (s.ch i Fld.ctrl)

/-- PcmAssign: choose the slot, check its number, send (R184). -/
def pcmAssign (i : Nat) : Exec Unit := do
  let drum ← look fun s => bit (s.ch i Fld.ctrl) ctrlDrum
  let sl ← if drum then drumScan i else stdPick i
  checkSlot sl
  upd fun s => s.pcmSend i sl

/-- SAMPLE (R181): each ROM byte is read before its field is written. -/
def execSample (k : BitVec 6) (s : State) : Host.Outcome State Fault Refusal :=
  onChannel (fun i => do
    let e ← look fun s => s.cfg.pcmTable + 4 * k.setWidth 16
    let b0 ← rom8 e
    upd (·.setCh i Fld.pstartLo b0)
    let b1 ← rom8 (e + 1)
    upd (·.setCh i Fld.pstartHi b1)
    let b2 ← rom8 (e + 2)
    upd (·.setCh i Fld.pendHi b2)
    let b3 ← rom8 (e + 3)
    upd (·.setCh i Fld.ctrl b3)
    pcmAssign i
    advance) s

/-- The five fields of a percussion entry, written in order (R182). -/
def State.loadPerc (s : State) (i : Nat) (e : PercEntry) : State :=
  let s := s.setCh i Fld.pstartLo (loByte e.start)
  let s := s.setCh i Fld.pstartHi (hiByte e.start)
  let s := s.setCh i Fld.pendHi e.endHi
  let s := s.setCh i Fld.ppitch e.pitch
  s.setCh i Fld.ctrl e.flags

/-- PERC (R182). -/
def execPerc (k : BitVec 4) (s : State) : Host.Outcome State Fault Refusal :=
  onChannel (fun i => do
    upd fun s => s.loadPerc i (s.cfg.percOf k)
    pcmAssign i
    advance) s

/-- PCM_INDEX_FAULT: 0xBF and 0xCF raise PCM_INDEX with the byte, before any write (R183). -/
def execPcmIndexFault (b : Byte) (s : State) : Host.Outcome State Fault Refusal :=
  onChannel (fun _ => raise .pcmIndex (zext16 b)) s

/-- UNDEF: an undefined command code raises UNDEF_OPCODE with CUR at the opcode (41_commands.md R159). -/
def execUndef (_code : BitVec 6) (s : State) : Host.Outcome State Fault Refusal :=
  onChannel (fun _ s => raise .undefOpcode s.cur s) s

end Sys2Proof.Machine
end

