-- ==== Sys2Proof/Machine/Dispatch.lean ====
section
/-!
DEFINITION. The meaning of every instruction, one arm each.
-/

namespace Sys2Proof.Machine

def exec (i : Instr) (s : State) : Host.Outcome State Fault Refusal :=
  match i with
  | .note n d1 d2 => Sys2Proof.Machine.execNote n d1 d2 s
  | .vol l r => Sys2Proof.Machine.execVol l r s
  | .finfm => Sys2Proof.Machine.execFinfm s
  | .modsel sel => Sys2Proof.Machine.execModsel sel s
  | .call a => Sys2Proof.Machine.execCall a s
  | .ret => Sys2Proof.Machine.execRet s
  | .jp a => Sys2Proof.Machine.execJp a s
  | .transp t => Sys2Proof.Machine.execTransp t s
  | .loop k n a => Sys2Proof.Machine.execLoop k n a s
  | .fmblk blk => Sys2Proof.Machine.execFmblk blk s
  | .pitch p => Sys2Proof.Machine.execPitch p s
  | .litend => Sys2Proof.Machine.execLitend s
  | .hiend => Sys2Proof.Machine.execHiend s
  | .panr => Sys2Proof.Machine.execPanr s
  | .panl => Sys2Proof.Machine.execPanl s
  | .panc => Sys2Proof.Machine.execPanc s
  | .finpcm => Sys2Proof.Machine.execFinpcm s
  | .perc k => Sys2Proof.Machine.execPerc k s
  | .sample k => Sys2Proof.Machine.execSample k s
  | .pcmIndexFault b => Sys2Proof.Machine.execPcmIndexFault b s
  | .undef code => Sys2Proof.Machine.execUndef code s

end Sys2Proof.Machine
end

