-- ==== Sys2Proof/Machine/Events.lean ====
section
/-!
DEFINITION. The acts of the other agents between tick transactions: the host, the PCM chip, the tick pulse and reset
(20_memory.md R70-R77, 10_state.md R33, 70_reset_and_hazards.md R280).
-/

namespace Sys2Proof.Machine

/-- Reset from any state: everything of R281; the inputs, the other agents' lists, the record of FM writes, the ROM
and the parameters are not state of the block and stay (R281, R282, log 9). -/
def State.resetBlock (s : State) : State :=
  { State.reset with
    mbox := s.mbox, telem := s.telem, engTel := s.engTel, rev := s.rev, tpass := s.tpass, fmOut := s.fmOut,
    fmIn := s.fmIn, fmDraws := s.fmDraws, events := s.events, rom := s.rom, cfg := s.cfg }

/-- A tick pulse: in IDLE it starts a transaction with TOG flipped (40_sequencer.md R111, R138); in any other state it
is not seen (20_memory.md R71, 60_exceptions.md R252). -/
def State.tickPulse (s : State) : State :=
  match s.fsm with
  | .idle => ((s.setTog (!s.tog)).setMboxAck false).setFsm .cmd
  | .cmd | .channels _ | .engine _ | .traffic _ | .fault => s

/-- A PCM chip write-back (10_state.md R33). -/
def State.chipWrite (s : State) (sl : BitVec 4) (w : ChipWrite) : State :=
  match w with
  | .loopLo v => s.setPcm8 (back (sl.setWidth 8) 4) v
  | .loopHi v => s.setPcm8 (back (sl.setWidth 8) 5) v
  | .inactive b => s.setPcm8 (back (sl.setWidth 8) 6) (setBit (s.pcm8 (back (sl.setWidth 8) 6)) 0 b)

/-- One event applied. -/
def State.applyEvent (s : State) : Event → State
  | .tick => s.tickPulse
  | .reset => s.resetBlock
  | .mbox v => { s with mbox := v }
  | .telem t => { s with telem := t }
  | .engTel t => { s with engTel := t }
  | .rev b => { s with rev := b }
  | .tpass t => { s with tpass := t }
  | .hostRam a v => s.setRam8 a.toNat v
  | .hostPcm a v => s.setPcm8 a.toNat v
  | .chip sl w => s.chipWrite sl w
  | .fmAnswers l => { s with fmIn := s.fmIn ++ l }

/-- A step of the machine between transactions: the next event, or waiting (R110, 60_exceptions.md R264). -/
def State.betweenTicks (s : State) : State :=
  match s.events with
  | [] => s
  | e :: rest => { s with events := rest }.applyEvent e

end Sys2Proof.Machine
end

