-- ==== Sys2Proof/WellFormed.lean ====
section
/-!
DEFINITION. Which instruction terms stand for bytes of a stream (30_encoding.md R87-R93).
-/

namespace Sys2Proof

/-- The command codes that have a handler (30_encoding.md R87). -/
def definedCodes : List (BitVec 6) :=
  [0x02, 0x04, 0x07, 0x08, 0x09, 0x0A, 0x0B, 0x0C, 0x11, 0x13, 0x14, 0x15, 0x16, 0x17, 0x18, 0x19]

/-- `c` is a reserved command code (R88): 0x00-0x3E without a handler. 0x3F is no command (byte 0xBF, R85). -/
def reservedCode (c : BitVec 6) : Bool := !definedCodes.contains c && c != 0x3F

/-- The term stands for the bytes of an instruction in this context: operands a channel does not read are 0, table
indices are in their ranges, and the two faulting forms hold the bytes the table gives them. -/
def Instr.wellFormed (c : DecodeCtx) : Instr → Bool
  | .note _ _ d2 => c.wide || d2 == 0
  | .vol _ r => c.pcm || r == 0
  | .perc k => decide (k.toNat ≤ 14)
  | .sample k => decide (k.toNat ≤ 47)
  | .pcmIndexFault b => b == 0xBF || b == 0xCF
  | .undef code => reservedCode code
  | .finfm | .modsel _ | .call _ | .ret | .jp _ | .transp _ | .loop _ _ _ | .fmblk _ | .pitch _ | .litend | .hiend
  | .panr | .panl | .panc | .finpcm => true

/-- How many operand bytes the instruction has in this context (30_encoding.md R90). -/
def Instr.operandBytes (c : DecodeCtx) : Instr → Nat
  | .note _ _ _ => if c.wide then 2 else 1
  | .vol _ _ => if c.pcm then 2 else 1
  | .modsel _ | .transp _ | .fmblk _ | .pitch _ => 1
  | .call _ | .jp _ => 2
  | .loop _ _ _ => 4
  | .finfm | .ret | .litend | .hiend | .panr | .panl | .panc | .finpcm | .perc _ | .sample _ | .pcmIndexFault _
  | .undef _ => 0

end Sys2Proof
end

