-- ==== Sys2Proof/Decode.lean ====
section
/-!
DEFINITION. Decoding and encoding of the bytecode (30_encoding.md R85-R99).
-/

namespace Sys2Proof

/-- Why a byte string holds no instruction. -/
inductive DecodeReject where
  /-- There is no opcode byte. Safe: the machine always decodes a window that has one. -/
  | noOpcode
  /-- The string ends inside the operands of this opcode. Safe, for the same reason. -/
  | noOperand (opcode : Byte)
deriving DecidableEq, Repr

/-- An address operand from its two bytes in stream order (R91, 20_memory.md R62). -/
def assemble (o : WordOrder) (first second : Byte) : Word :=
  match o with
  | .le => word second first
  | .be => word first second

/-- The bytes of an address operand, in stream order. -/
def disassemble (o : WordOrder) (a : Word) : List Byte :=
  match o with
  | .le => [loByte a, hiByte a]
  | .be => [hiByte a, loByte a]

/-- A command by its code, with the four bytes after it (R87, R88, R99). -/
def decodeCommand (c : DecodeCtx) (code : BitVec 6) (b1 b2 b3 b4 : Byte) : Instr :=
  if code = 0x02 then .vol b1 (if c.pcm then b2 else 0)
  else if code = 0x04 then .finfm
  else if code = 0x07 then .modsel b1
  else if code = 0x08 then .call (assemble c.order b1 b2)
  else if code = 0x09 then .ret
  else if code = 0x0A then .jp (assemble c.order b1 b2)
  else if code = 0x0B then .transp b1
  else if code = 0x0C then .loop b1 b2 (assemble c.order b3 b4)
  else if code = 0x11 then .fmblk b1
  else if code = 0x13 then .pitch b1
  else if code = 0x14 then .litend
  else if code = 0x15 then .hiend
  else if code = 0x16 then .panr
  else if code = 0x17 then .panl
  else if code = 0x18 then .panc
  else if code = 0x19 then .finpcm
  else .undef code

/-- The instruction of an opcode byte and the four bytes after it: the procedure of R99, total on all bytes. -/
def decodeWindow (c : DecodeCtx) (b b1 b2 b3 b4 : Byte) : Instr :=
  if 0xBF ≤ b.toNat then
    if 0xD0 ≤ b.toNat then .sample ((b - 0xD0).setWidth 6)
    else if 0xC0 ≤ b.toNat ∧ b.toNat ≤ 0xCE then .perc ((b - 0xC0).setWidth 4)
    else .pcmIndexFault b
  else if 0x80 ≤ b.toNat then decodeCommand c (b.setWidth 6) b1 b2 b3 b4
  else .note (b.setWidth 7) b1 (if c.wide then b2 else 0)

/-- The first instruction of a byte string and the bytes after it, or why there is none. -/
def decode (c : DecodeCtx) (bytes : List Byte) : Except DecodeReject (Instr × List Byte) :=
  match bytes with
  | [] => .error .noOpcode
  | b :: rest =>
    let i := decodeWindow c b (rest.getD 0 0) (rest.getD 1 0) (rest.getD 2 0) (rest.getD 3 0)
    if rest.length < i.operandBytes c then .error (.noOperand b) else .ok (i, rest.drop (i.operandBytes c))

/-- The opcode byte (R86, R89, spec/opcode_table.json). -/
def Instr.opcode : Instr → Byte
  | .note n _ _ => n.setWidth 8
  | .vol _ _ => 0x82
  | .finfm => 0x84
  | .modsel _ => 0x87
  | .call _ => 0x88
  | .ret => 0x89
  | .jp _ => 0x8A
  | .transp _ => 0x8B
  | .loop _ _ _ => 0x8C
  | .fmblk _ => 0x91
  | .pitch _ => 0x93
  | .litend => 0x94
  | .hiend => 0x95
  | .panr => 0x96
  | .panl => 0x97
  | .panc => 0x98
  | .finpcm => 0x99
  | .perc k => 0xC0 + k.setWidth 8
  | .sample k => 0xD0 + k.setWidth 8
  | .pcmIndexFault b => b
  | .undef code => 0x80 ||| code.setWidth 8

/-- The operand bytes in stream order (R90, R91). -/
def Instr.operands (c : DecodeCtx) : Instr → List Byte
  | .note _ d1 d2 => if c.wide then [d1, d2] else [d1]
  | .vol l r => if c.pcm then [l, r] else [l]
  | .modsel sel => [sel]
  | .call a => disassemble c.order a
  | .jp a => disassemble c.order a
  | .transp s => [s]
  | .loop k n a => [k, n] ++ disassemble c.order a
  | .fmblk blk => [blk]
  | .pitch p => [p]
  | .finfm | .ret | .litend | .hiend | .panr | .panl | .panc | .finpcm | .perc _ | .sample _ | .pcmIndexFault _
  | .undef _ => []

/-- The bytes of an instruction (R90). -/
def encode (c : DecodeCtx) (i : Instr) : List Byte := i.opcode :: i.operands c

/-- Byte `k` of a number, byte 0 the least significant. -/
def byteOf (w k : Nat) : Byte := BitVec.ofNat 8 (w / 2 ^ (8 * k))

/-- The five bytes a table word stands for: its `nbits` bits byte by byte, the first byte lowest, and zeros after. -/
def tableBytes (nbits w : Nat) : List Byte := (List.range 5).map (byteOf (w % 2 ^ nbits))

/-- The context of the machine right after reset: an FM channel without end-marker flags, words low byte first. -/
def resetCtx : DecodeCtx := { pcm := false, wide := false, order := .le }

/-- What the decoder reads from an instruction whose bits are `w`, numbered as spec/opcode_table.json numbers them. -/
def decodeTableWord (nbits w : Nat) : Option Instr :=
  match decode resetCtx (tableBytes nbits w) with
  | .ok (i, _) => some i
  | .error _ => none

end Sys2Proof
end

