-- ==== Sys2Proof/Machine/Fetch.lean ====
section
/-!
DEFINITION. Reading an instruction's bytes at CUR (40_sequencer.md R120), and placing an instruction there.
-/

namespace Sys2Proof.Machine

/-- What decoding depends on in this state: the flags of the current record (30_encoding.md R93) and the word order. -/
def State.decodeCtx (s : State) : DecodeCtx where
  pcm := s.isPcm s.chan.toNat
  wide := bit (s.ch s.chan.toNat Fld.emflags) EmFlags.lit && bit (s.ch s.chan.toNat Fld.emflags) EmFlags.hi
  order := s.cfg.romOrder

/-- The five ROM bytes from CUR on, addresses modulo 65536, without a range check. -/
def State.window (s : State) : List Byte :=
  [s.romAt s.cur, s.romAt (s.cur + 1), s.romAt (s.cur + 2), s.romAt (s.cur + 3), s.romAt (s.cur + 4)]

/-- The instruction at CUR (R99). -/
def State.instrAt (s : State) : Instr :=
  decodeWindow s.decodeCtx (s.romAt s.cur) (s.romAt (s.cur + 1)) (s.romAt (s.cur + 2)) (s.romAt (s.cur + 3))
    (s.romAt (s.cur + 4))

/-- One iteration of the Process Section loop: `Fetch()` with its range check, then the instruction `run` gives a
meaning to (R120, 20_memory.md R61). -/
def State.sectionStep (run : Instr → State → Host.Outcome State Fault Refusal) (s : State) :
    Host.Outcome State Fault Refusal :=
  if s.chan.toNat < 30 then
    if s.cur.toNat < s.cfg.romSize then run s.instrAt s else .next (s.raiseFault .romRange s.cur)
  else .fault .noSuchChannel

/-- `s` with the table word `w` in ROM at CUR, standing in a Process Section at its fetch: the load of a program from
outside the machine (log 4). ROM_SIZE grows only when the five bytes do not lie below it, and CHAN changes only when
it names no record. -/
def State.placeWord (s : State) (nbits w : Nat) : State :=
  { s with
    rom := Memory.load .rom s.rom s.cur.toNat (tableBytes nbits w)
    cfg := { s.cfg with romSize := if s.cur.toNat + 5 ≤ s.cfg.romSize then s.cfg.romSize else 0x10000 }
    chan := if s.chan.toNat < 30 then s.chan else 0
    fsm := .channels .fetch }

end Sys2Proof.Machine
end

