-- ==== Sys2Proof/Machine/Intake.lean ====
section
/-!
DEFINITION. Command intake, `init_sound` and the stop command (40_sequencer.md R112-R115).
-/

namespace Sys2Proof.Machine

/-- One record of `init_sound`: the 14 bytes of the instrument block at `a`, the command index, 17 zeros (R114). -/
def initRecord (cmd : Byte) (r : Nat) (a : Word) : Exec Unit := do
  each (List.range 14) fun j => do
    let v ← rom8 (a + BitVec.ofNat 16 j)
    upd (·.setRam8 (r + j) v)
  upd (·.setRam8 (r + 0x0E) cmd)
  each (List.range 17) fun j => upd (·.setRam8 (r + 0x0F + j) 0)

/-- InitSound (R114). -/
def initSound (cmd : Byte) (src : Word) (first : Byte) : Exec Unit := do
  let n ← rom8 src
  if 30 < first.toNat + n.toNat then
    raise .chanCount (zext16 n)
  else
    each (List.range n.toNat) fun k => do
      let a ← rom16 (src + 1 + 2 * BitVec.ofNat 16 k)
      initRecord cmd (recBase (first.toNat + k)) a

/-- All 32 bytes of record `i` zeroed (R115). -/
def State.zeroRecord (s : State) (i : Nat) : State :=
  (List.range 32).foldl (fun s b => s.setRam8 (recBase i + b) 0) s

/-- StopChannels (R115). -/
def stopChannels (chans : List (Fin 30)) (slots : List Slot) : Exec Unit := do
  each chans fun j => upd (·.zeroRecord j.val)
  each slots silence

/-- CommandIntake (R112). The mailbox itself is the host's to clear (20_memory.md R73). -/
def commandIntake : Exec Unit := do
  let c ← look State.mbox
  if c = 0 then
    pure ()
  else
    upd (·.setMboxAck true)
    upd (·.setCmdPrev c)
    if c.toNat < 0x80 then
      raise .reservedCmd (zext16 c)
    else
      match ← look (·.cfg.action c) with
      | .init src first => initSound c src first
      | .stop chans slots => stopChannels chans slots
      | .ignore => pure ()
      | .undefined => raise .undefCmd (zext16 c)

end Sys2Proof.Machine
end

