-- ==== Sys2Proof/Machine/Refresh.lean ====
section
/-!
DEFINITION. The FM refresh and the modulation step of a channel step (40_sequencer.md R130-R135).
-/

namespace Sys2Proof.Machine

/-- What a modulation byte does to PHOFF and PHAMP once PHOFF has advanced (R132). -/
def State.modByte (s : State) (i : Nat) (v : Byte) : State :=
  if v = 0xFD then s.setCh i Fld.phoff 0
  else if v = 0xFE then s.setCh i Fld.phoff (s.ch i Fld.phoff - 1)
  else s.setCh i Fld.phamp (ror2 v)

/-- ModStep (R132, R133). The advance of PHOFF stays when the read raises ROM_RANGE (DEDUCED, unsafe, log 10). -/
def modStep (i : Nat) : Exec Unit := do
  upd fun s => s.setCh i Fld.phoff (s.ch i Fld.phoff + 1)
  let a ← look fun s => s.cfg.modTab.get (s.ch i Fld.modsel) + zext16 (s.ch i Fld.phoff)
  let v ← rom8 a
  if v = 0xFC then raise .modtabFc a else upd (·.modByte i v)

/-- The guarded writes of the refresh: key off for the sentinel note, else phase/amplitude, note and key on (R131). -/
def State.keyWrites (s : State) (i : Nat) : State :=
  let c := s.ym i
  if s.ch i Fld.note = 0xFF then s.gfmWrite i 0x08 c
  else
    let s := s.gfmWrite i (0x38 + c) (s.ch i Fld.phamp)
    let s := s.gfmWrite i (0x28 + c) (s.ch i Fld.note)
    s.gfmWrite i 0x08 (0x78 ||| c)

/-- FMRefresh (R131). -/
def fmRefresh (i : Nat) : Exec Unit := do
  onlyIf (← look fun s => s.ch i Fld.modsel != 0) (modStep i)
  upd (·.keyWrites i)

/-- Steps 3 and 4 of the channel step: a PCM channel has no refresh (R130). -/
def refreshStep (i : Nat) : Exec Unit := do
  if ← look (·.isPcm i) then
    endChannelStep
  else
    fmRefresh i
    endChannelStep

end Sys2Proof.Machine
end

