-- ==== Sys2Proof/Machine/Engine.lean ====
section
/-!
DEFINITION. The engine-tone pass (43_engine_tone.md R200-R213).
-/

namespace Sys2Proof.Machine

/-- A byte of the engine record of channel `n` (10_state.md R34). -/
def State.eng (s : State) (n : EngCh) (f : Nat) : Byte := s.ram8 (engRec n + f)

/-- The same byte written. -/
def State.setEng (s : State) (n : EngCh) (f : Nat) (v : Byte) : State := s.setRam8 (engRec n + f) v

/-- A bit of E_FLAGS (10_state.md R35). -/
def State.engFlag (s : State) (n : EngCh) (k : Nat) : Bool := bit (s.eng n EFld.flags) k

/-- The same bit written. -/
def State.setEngFlag (s : State) (n : EngCh) (k : Nat) (b : Bool) : State :=
  s.setEng n EFld.flags (setBit (s.eng n EFld.flags) k b)

/-- ENG_SLOT[n] (R200). -/
def State.engSlot (s : State) (n : EngCh) : Slot := s.cfg.engSlot.atEng n

/-- The telemetry channel `n` samples (R203, 10_state.md R49). -/
def State.engInput (s : State) (n : EngCh) : EngTelem :=
  match n with
  | .e1 => s.engTel.v1
  | .e2 => s.engTel.v2
  | .e3 => s.engTel.v3
  | .e4 => s.engTel.v4
  | .e5 | .e6 => { pitch := word s.telem.pitchHi s.telem.pitchLo, volume := s.telem.volume }

/-- EngMute (R211). -/
def engMute (n : EngCh) : Exec Unit := do
  upd (·.setEngFlag n EFlags.mute true)
  upd (·.setEng n EFld.active 0)
  silence (← look (·.engSlot n))

/-- The start address of a slot, with the loop address equal to it (R205, R208, 44_traffic_fx.md R236). -/
def putStart (sl : Slot) (start : Word) : Exec Unit := do
  putFront sl 4 (loByte start)
  putFront sl 5 (hiByte start)
  putBack sl 4 (loByte start)
  putBack sl 5 (hiByte start)

/-- The two volume bytes of a slot. -/
def putVolumes (sl : Slot) (l r : Byte) : Exec Unit := do
  putFront sl 2 l
  putFront sl 3 r

/-- The latch of the rev sample: start the one-shot once (R205). -/
def revStart (n : EngCh) (sl : Slot) : Exec Unit := do
  putStart sl (← look (·.cfg.revStart))
  putFront sl 6 (← look (·.cfg.revEndHi))
  putFront sl 7 (← look (·.cfg.revPitch))
  putBack sl 6 0x02
  upd (·.setEngFlag n EFlags.loopdis true)

/-- EngRev (R205). -/
def engRev (n : EngCh) (v : Byte) : Exec Unit := do
  let sl ← look (·.engSlot n)
  onlyIf (← look fun s => !s.engFlag n EFlags.loopdis) (revStart n sl)
  match ← look fun s => s.cfg.revPan.atEng n with
  | .left => putVolumes sl v 0
  | .right => putVolumes sl 0 v
  | .both => putVolumes sl v v
  upd (·.setEngFlag n EFlags.mute false)
  upd (·.setEngFlag n EFlags.addrset false)
  upd (·.setEng n EFld.active 1)

/-- The address of the ring slot E_RING stands at (10_state.md R36). -/
def State.ringAt (s : State) (n : EngCh) : Nat := ringBase n + 3 * (s.eng n EFld.ringPos &&& 7).toNat

/-- The pitch and volume the ring slot holds: the oldest entry (R206). -/
def State.ringOldest (s : State) (n : EngCh) : BitVec 9 × Byte :=
  (pitch9 (s.ram8 (s.ringAt n + 1) &&& 1) (s.ram8 (s.ringAt n)), s.ram8 (s.ringAt n + 2))

/-- The ring slot overwritten with the new entry and E_RING moved on (R206). -/
def State.ringPush (s : State) (n : EngCh) (p : BitVec 9) (v : Byte) : State :=
  let a := s.ringAt n
  let k := s.eng n EFld.ringPos &&& 7
  let s := s.setRam8 a (pitchLo p)
  let s := s.setRam8 (a + 1) (pitchHi p)
  let s := s.setRam8 (a + 2) v
  s.setEng n EFld.ringPos ((k + 1) &&& 7)

/-- RingStep: the oldest entry is read before its slot is overwritten (R206). -/
def ringStep (n : EngCh) (p : BitVec 9) (v : Byte) : Exec (BitVec 9 × Byte) := do
  let old ← look (·.ringOldest n)
  upd (·.ringPush n p v)
  pure old

/-- EngSetAddr (R208). -/
def engSetAddr (n : EngCh) (start : Word) (endHi : Byte) : Exec Unit := do
  let sl ← look (·.engSlot n)
  onlyIf (← look fun s => !s.engFlag n EFlags.addrset || s.engFlag n EFlags.mute) (do
    putStart sl start
    putFront sl 6 endHi
    putBack sl 6 (← look fun s => if s.engFlag n EFlags.loopset then 0x00 else 0x02)
    upd (·.setEngFlag n EFlags.addrset true)
    upd (·.setEngFlag n EFlags.loopdis false))
  upd (·.setEngFlag n EFlags.mute false)
  upd (·.setEng n EFld.active 1)

/-- The start address and end byte at a table entry, read in the order the rules write them (R209, R210, log 14). -/
def engEntry (a : Word) : Exec (Word × Byte) := do
  let hi ← rom8 (a + 1)
  let lo ← rom8 a
  let e ← rom8 (a + 2)
  pure (word hi lo, e)

/-- The adjusted volume into E_ADJVOL and, panned by parity, into the slot (R209, R210). -/
def engVolume (n : EngCh) (v : Byte) : Exec Unit := do
  upd (·.setEng n EFld.adjvol v)
  let sl ← look (·.engSlot n)
  if n.odd then putVolumes sl v 0 else putVolumes sl 0 v

/-- The Ferrari volume curve: `min(0x3F, (v * 0x18) >> 6)` on the 16-bit product (R209). -/
def ferrariVolume (v : Byte) : Byte :=
  if 0x3F < (mulBytes v 0x18 >>> 6).toNat then 0x3F else mulShift v 0x18 6

/-- EngFerrari (R209). -/
def engFerrari (n : EngCh) (p : BitVec 9) (v : Byte) : Exec Unit := do
  let c ← look State.cfg
  let r := c.ferrariRowOf (p - c.engIdle)
  if c.ferrariRows.toNat ≤ r.toNat then
    raise .param r
  else
    let a := c.ferrariTable + 4 * r
    let (start, endHi) ← engEntry a
    engSetAddr n start endHi
    engVolume n (ferrariVolume v)
    let base ← rom8 (a + 3)
    putFront (c.engSlot.atEng n) 7 (base + n.nudge)

/-- `min(p, ENG_PITCH_CLAMP)` as a byte (R210). -/
def clampPitch (p : BitVec 9) (clamp : Byte) : Byte := if p.toNat ≤ clamp.toNat then pitchLo p else clamp

/-- EngTable (R210). -/
def engTable (n : EngCh) (p : BitVec 9) (v : Byte) : Exec Unit := do
  let c ← look State.cfg
  let r := c.engRowOf p v
  if 53 < r.toNat then
    raise .param r
  else
    let a := c.engTable + 5 * r
    let (start, endHi) ← engEntry a
    engSetAddr n start endHi
    let mult ← rom8 (a + 3)
    engVolume n (mulShift v mult 8)
    let base ← rom8 (a + 4)
    putFront (c.engSlot.atEng n) 7 (base + clampPitch p c.engPitchClamp + n.nudge)

/-- The pitch of the previous pass (R204 step 5, R207). -/
def State.prevPitch (s : State) (n : EngCh) : BitVec 9 :=
  pitch9 (s.eng n EFld.pitchHi &&& 1) (s.eng n EFld.pitchLo)

/-- Step 5: the revs comparison and the pitch stored (R204, R207). -/
def State.compareRevs (s : State) (n : EngCh) (p : BitVec 9) : State :=
  let prev := s.prevPitch n
  let s :=
    if p = prev then s.setEngFlag n EFlags.addrset true
    else (s.setEngFlag n EFlags.loopset (decide (prev.toNat < p.toNat))).setEngFlag n EFlags.addrset false
  let s := s.setEng n EFld.pitchLo (pitchLo p)
  s.setEng n EFld.pitchHi (pitchHi p)

/-- Steps 4 to 7, with the pitch and volume the ring gave (R204). -/
def engVoice (n : EngCh) (p : BitVec 9) (v : Byte) : Exec Unit := do
  upd fun s => s.setEng n EFld.volprev (s.eng n EFld.vol)
  upd (·.setEng n EFld.vol v)
  if v = 0 then
    engMute n
  else
    upd (·.compareRevs n p)
    if n.player && (← look fun s => decide (s.cfg.engIdle.toNat ≤ p.toNat)) then
      engFerrari n p v
    else
      engTable n p v

/-- Steps 3 to 7 (R204). -/
def engNormal (n : EngCh) (p : BitVec 9) (v : Byte) : Exec Unit := do
  if n.odd then
    let (p', v') ← ringStep n p v
    engVoice n p' v'
  else
    engVoice n p v

/-- EngineChannel(n) (R204). -/
def engineChannel (n : EngCh) : Exec Unit := do
  upd (·.setEngCh (BitVec.ofNat 8 n.num))
  let t ← look (·.engInput n)
  let p := telemetryPitch t.pitch
  if ← look fun s => s.rev && p == 0 then
    engMute n
  else if ← look fun s => s.rev && decide (0xFA ≤ p.toNat) then
    engRev n t.volume
  else
    engNormal n p t.volume

end Sys2Proof.Machine
end

