-- ==== Sys2Proof/Machine/Traffic.lean ====
section
/-!
DEFINITION. The traffic-FX pass (44_traffic_fx.md R230-R240).
-/

namespace Sys2Proof.Machine

/-- A byte of the traffic record of channel `t` (10_state.md R37). -/
def State.trf (s : State) (t : TrfCh) (f : Nat) : Byte := s.ram8 (trfRec t + f)

/-- The same byte written. -/
def State.setTrf (s : State) (t : TrfCh) (f : Nat) (v : Byte) : State := s.setRam8 (trfRec t + f) v

/-- A bit of T_FLAGS (10_state.md R38). -/
def State.trfFlag (s : State) (t : TrfCh) (k : Nat) : Bool := bit (s.trf t TFld.flags) k

/-- The same bit written. -/
def State.setTrfFlag (s : State) (t : TrfCh) (k : Nat) (b : Bool) : State :=
  s.setTrf t TFld.flags (setBit (s.trf t TFld.flags) k b)

/-- TRF_SLOT[t] (R230). -/
def State.trfSlot (s : State) (t : TrfCh) : Slot := s.cfg.trfSlot.atTrf t

/-- The eight bytes of the record zeroed (R238). -/
def State.zeroTrf (s : State) (t : TrfCh) : State :=
  (List.range 8).foldl (fun s k => s.setTrf t k 0) s

/-- TrafficDisable (R238). -/
def trafficDisable (t : TrfCh) : Exec Unit := do
  upd (·.zeroTrf t)
  let sl ← look (·.trfSlot t)
  each (List.range 8) fun k => do
    putFront sl k 0
    putBack sl k 0
  putBack sl 6 0x01

/-- The volumes and the pitch of the record sent to the slot (R236, R237). -/
def trafficSend (t : TrfCh) (sl : Slot) : Exec Unit := do
  putFront sl 2 (← look (·.trf t TFld.voll))
  putFront sl 3 (← look (·.trf t TFld.volr))
  putFront sl 7 (← look (·.trf t TFld.pitch))

/-- The index `vidx - 1` of the volume and distance tables (R231). -/
def tableIndex (vidx : Byte) : Word := zext16 (vidx - 1)

/-- TrafficCompute (R236). -/
def trafficCompute (t : TrfCh) (vidx pidx : Byte) : Exec Unit := do
  let c ← look State.cfg
  let m ← rom8 (c.trfVolTab + tableIndex vidx)
  if m.toNat < 0x10 then
    trafficDisable t
  else
    upd (·.setTrf t TFld.mult m)
    let l ← rom8 (c.trfPanTab + 2 * zext16 pidx)
    upd (·.setTrf t TFld.voll (mulShift l m 8))
    let r ← rom8 (c.trfPanTab + 2 * zext16 pidx + 1)
    upd (·.setTrf t TFld.volr (mulShift r m 8))
    let d ← rom8 (c.trfDistTab + tableIndex vidx)
    upd (·.setTrf t TFld.pitch (d + t.pitchBase))
    let sl ← look (·.trfSlot t)
    putStart sl c.trfWave
    putFront sl 6 c.trfWaveEndHi
    onlyIf (← look fun s => !s.trfFlag t TFlags.seset) (putBack sl 6 0x00)
    upd (·.setTrfFlag t TFlags.seset true)
    trafficSend t sl

/-- The record after one reduction step: pitch down by 4 or 6, both volumes down by 1 (R237). -/
def State.reduceTrf (s : State) (t : TrfCh) : State :=
  let p := s.trf t TFld.pitch
  let s := s.setTrf t TFld.pitch (if p.toNat < s.cfg.trfPitchThresh.toNat then p - 4 else p - 6)
  let s := s.setTrf t TFld.voll (decClamp (s.trf t TFld.voll))
  s.setTrf t TFld.volr (decClamp (s.trf t TFld.volr))

/-- TrafficReduce (R237). -/
def trafficReduce (t : TrfCh) : Exec Unit := do
  upd (·.reduceTrf t)
  if ← look fun s => s.trf t TFld.voll == 0 && s.trf t TFld.volr == 0 then
    trafficDisable t
  else
    trafficSend t (← look (·.trfSlot t))

/-- The start of a reduction, for a sounding channel that is not reducing (R232, R234). -/
def State.startReduce (s : State) (t : TrfCh) : State :=
  if s.tpass.atTrf t && !s.trfFlag t TFlags.reduce && s.trfFlag t TFlags.seset then
    s.setTrfFlag t TFlags.reduce true
  else s

/-- The indices stored and the two "unchanged" bits rewritten (R232, R235). -/
def State.noteIndices (s : State) (t : TrfCh) (vidx pidx : Byte) : State :=
  let s := s.setTrfFlag t TFlags.unchVol (vidx == s.trf t TFld.pvidx)
  let s := s.setTrfFlag t TFlags.unchPan (pidx == s.trf t TFld.ppidx)
  let s := s.setTrf t TFld.pvidx vidx
  s.setTrf t TFld.ppidx pidx

/-- The pass of a channel that is not reducing, with its telemetry byte (R232). -/
def trafficFollow (t : TrfCh) (b : Byte) : Exec Unit := do
  let vidx := b >>> 3
  let pidx := b &&& 7
  if vidx = 0 then
    trafficDisable t
  else
    upd (·.noteIndices t vidx pidx)
    if ← look fun s => s.trfFlag t TFlags.unchVol && s.trfFlag t TFlags.unchPan && s.trfFlag t TFlags.seset then
      pure ()
    else
      trafficCompute t vidx pidx

/-- TrafficChannel(t) (R232). -/
def trafficChannel (t : TrfCh) : Exec Unit := do
  upd (·.setEngCh (BitVec.ofNat 8 t.num))
  upd (·.startReduce t)
  if ← look (·.trfFlag t TFlags.reduce) then
    trafficReduce t
  else
    trafficFollow t (← look fun s => s.telem.traffic.atTrf t)

end Sys2Proof.Machine
end

