-- ==== Sys2Proof/Machine/Sequencer.lean ====
section
/-!
DEFINITION. The micro-steps of the tick transaction other than the instructions (40_sequencer.md R110-R119, R139).
-/

namespace Sys2Proof.Machine

/-- CMD: command intake, then the channel pass from record 0 (R111, R116). -/
def cmdStep : Exec Unit := do
  commandIntake
  upd (·.setChan 0)
  upd (·.setFsm (.channels .start))

/-- Steps 1 and 2 of the channel step (R117-R119): an enabled record counts, and its section begins when the counter
meets SEQEND. -/
def channelStart (i : Nat) : Exec Unit := do
  if ← look (·.enabled i) then
    upd fun s => s.setCh16 i Fld.seqpos (s.ch16 i Fld.seqpos + 1)
    if ← look fun s => s.ch16 i Fld.seqpos == s.ch16 i Fld.seqend then
      upd fun s => s.setCur (s.ch16 i Fld.cmdptr)
      upd (·.setFsm (.channels .fetch))
    else
      upd (·.setFsm (.channels .refresh))
  else
    endChannelStep

/-- What follows the channel pass: the engine pass when TOG is 1, else IDLE (R110, R138). -/
def State.afterChannels (s : State) : Fsm := if s.tog then .engine .e1 else .idle

/-- The end of the step of record `i`: CHANPREV, and the next record or the end of the pass (R116). -/
def channelDone (i : Nat) : Exec Unit := do
  upd fun s => s.setChanPrev s.chan
  if i = 29 then
    upd fun s => s.setFsm s.afterChannels
  else
    upd fun s => s.setChan (s.chan + 1)
    upd (·.setFsm (.channels .start))

/-- One engine channel, then the next one or the traffic pass (R111). -/
def engineStep (n : EngCh) : Exec Unit := do
  engineChannel n
  upd (·.setFsm (match n.next with
    | some m => .engine m
    | none => .traffic .t1))

/-- One traffic channel, then the next one or IDLE (R111, R139). -/
def trafficStep (t : TrfCh) : Exec Unit := do
  trafficChannel t
  upd (·.setFsm (match t.next with
    | some u => .traffic u
    | none => .idle))

/-- One more lap of an FM block stream without a terminator (R150, log 18). -/
def streamStep (p : Word) (i : Nat) : Exec Unit := do
  upd (·.setFsm (.channels .fetch))
  fmStreamLap i p

end Sys2Proof.Machine
end

