-- ==== Sys2Proof/Machine/Step.lean ====
section
/-!
DEFINITION. One step of the machine: a micro-step of the tick transaction (40_sequencer.md R110), or between
transactions the next act of another agent.
-/

namespace Sys2Proof.Machine

/-- One step, by the FSM state (R110). -/
def step (s : State) : Host.Outcome State Fault Refusal :=
  match s.fsm with
  | .idle => .next s.betweenTicks
  | .cmd => .next (after (cmdStep s))
  | .channels .start => onChannel channelStart s
  | .channels .fetch => s.sectionStep exec
  | .channels (.stream p) => onChannel (streamStep p) s
  | .channels .refresh => onChannel refreshStep s
  | .channels .done => onChannel channelDone s
  | .engine n => .next (after (engineStep n s))
  | .traffic t => .next (after (trafficStep t s))
  | .fault => .next s.betweenTicks

/-- `s` with the instruction of a table word where `step` fetches its next instruction (log 4). -/
def State.withFetchWord (s : State) (nbits w : Nat) : State := s.placeWord nbits w

end Sys2Proof.Machine
end

