-- ==== Sys2Proof/Laws/PerInstr.lean ====
section
/-!
SUPPORT. A law of every instruction as syntax, one lemma per constructor: the length of its encoding
(30_encoding.md R90).
-/

namespace Sys2Proof.Laws

/-- An instruction's bytes are its opcode byte and as many operand bytes as it has in the context. -/
def Length.Statement (i : Instr) : Prop :=
  ∀ c : DecodeCtx, ∃ l, encode c i = i.opcode :: l ∧ l.length = i.operandBytes c

theorem disassemble_length (o : WordOrder) (a : Word) : (disassemble o a).length = 2 := by cases o <;> rfl

theorem Length.note (n : BitVec 7) (d1 d2 : Byte) : Length.Statement (.note n d1 d2) := by
  intro c
  refine ⟨_, rfl, ?_⟩
  simp only [Instr.operands, Instr.operandBytes]
  split <;> rfl

theorem Length.vol (l r : Byte) : Length.Statement (.vol l r) := by
  intro c
  refine ⟨_, rfl, ?_⟩
  simp only [Instr.operands, Instr.operandBytes]
  split <;> rfl

theorem Length.finfm : Length.Statement .finfm := fun _ => ⟨_, rfl, rfl⟩

theorem Length.modsel (sel : Byte) : Length.Statement (.modsel sel) := fun _ => ⟨_, rfl, rfl⟩

theorem Length.call (a : Word) : Length.Statement (.call a) := fun c => ⟨_, rfl, disassemble_length c.order a⟩

theorem Length.ret : Length.Statement .ret := fun _ => ⟨_, rfl, rfl⟩

theorem Length.jp (a : Word) : Length.Statement (.jp a) := fun c => ⟨_, rfl, disassemble_length c.order a⟩

theorem Length.transp (s : Byte) : Length.Statement (.transp s) := fun _ => ⟨_, rfl, rfl⟩

theorem Length.loop (k n : Byte) (a : Word) : Length.Statement (.loop k n a) := by
  intro c
  refine ⟨_, rfl, ?_⟩
  simp only [Instr.operands, Instr.operandBytes, List.length_append, disassemble_length, List.length_cons,
    List.length_nil]

theorem Length.fmblk (blk : Byte) : Length.Statement (.fmblk blk) := fun _ => ⟨_, rfl, rfl⟩

theorem Length.pitch (p : Byte) : Length.Statement (.pitch p) := fun _ => ⟨_, rfl, rfl⟩

theorem Length.litend : Length.Statement .litend := fun _ => ⟨_, rfl, rfl⟩

theorem Length.hiend : Length.Statement .hiend := fun _ => ⟨_, rfl, rfl⟩

theorem Length.panr : Length.Statement .panr := fun _ => ⟨_, rfl, rfl⟩

theorem Length.panl : Length.Statement .panl := fun _ => ⟨_, rfl, rfl⟩

theorem Length.panc : Length.Statement .panc := fun _ => ⟨_, rfl, rfl⟩

theorem Length.finpcm : Length.Statement .finpcm := fun _ => ⟨_, rfl, rfl⟩

theorem Length.perc (k : BitVec 4) : Length.Statement (.perc k) := fun _ => ⟨_, rfl, rfl⟩

theorem Length.sample (k : BitVec 6) : Length.Statement (.sample k) := fun _ => ⟨_, rfl, rfl⟩

theorem Length.pcmIndexFault (b : Byte) : Length.Statement (.pcmIndexFault b) := fun _ => ⟨_, rfl, rfl⟩

theorem Length.undef (code : BitVec 6) : Length.Statement (.undef code) := fun _ => ⟨_, rfl, rfl⟩

end Sys2Proof.Laws
end

