-- ==== Sys2Proof/Safety.lean ====
section
/-!
DEFINITION. The terms claims are stated in: the invariant of the machine, operands that lie in ROM, what a list of FM
writes comes to, and what a step leaves unchanged.
-/

namespace Sys2Proof.Machine

/-- Every byte space of the state has its canonical form. -/
def State.memWf (s : State) : Bool :=
  Memory.wf .ram s.ram && Memory.wf .pcm s.pcm && Memory.wf .fm s.fmShadow && Memory.wf .rom s.rom

/-- The invariant of the machine: what holds at reset and after every step, whatever the other agents do. -/
structure Inv (s : State) : Prop where
  /-- The byte spaces have their canonical form. -/
  mem : s.memWf = true
  /-- CHAN names a record (10_state.md R41). -/
  chan : s.chan.toNat < 30
  /-- CHANPREV names a record (R41). -/
  chanPrev : s.chanPrev.toNat < 30
  /-- STATE is FAULT exactly when FCODE is not 0 (60_exceptions.md R250, 10_state.md R47). -/
  faulted : s.fsm = .fault ↔ s.fcode ≠ 0
  /-- FCODE is 0 or one of the nine codes (60_exceptions.md R251). -/
  code : s.fcode.toNat ≤ 9
  /-- The engine and traffic passes run only in transactions with TOG = 1 (40_sequencer.md R138). -/
  gated : s.stateReg = .ENGINE ∨ s.stateReg = .TRAFFIC → s.tog = true

/-- The first `n` bytes after CUR lie in ROM, so that `n` operand fetches raise no fault (20_memory.md R61). -/
def State.romHas (s : State) (n : Nat) : Bool :=
  (List.range n).all fun k => decide ((s.cur + BitVec.ofNat 16 (k + 1)).toNat < s.cfg.romSize)

/-- Every ROM address in the list lies in ROM. -/
def State.inRom (s : State) (l : List Word) : Bool := l.all fun a => decide (a.toNat < s.cfg.romSize)

/-- The first ROM address of the list, in list order, that lies outside ROM. -/
def State.firstOut (s : State) (l : List Word) : Option Word := l.find? fun a => !s.inRom [a]

/-- From `s` to `t`, no Channel RAM byte outside the listed addresses changed. -/
def RamKept (s t : State) (written : List Nat) : Prop := ∀ a, a ∉ written → t.ram8 a = s.ram8 a

/-- From `s` to `t`, no PCM file byte outside the listed addresses changed. -/
def PcmKept (s t : State) (written : List Nat) : Prop := ∀ a, a ∉ written → t.pcm8 a = s.pcm8 a

/-- `t` differs from `s` at most in Channel RAM and CUR: every register, flag, port, input, the PCM file, the FM
shadow, ROM and the parameters are the same. -/
def OnlyRamCur (s t : State) : Prop := t = { s with ram := t.ram, cur := t.cur }

/-- `t` differs from `s` at most in Channel RAM, CUR and the FSM state. -/
def OnlyRamCurFsm (s t : State) : Prop := t = { s with ram := t.ram, cur := t.cur, fsm := t.fsm }

/-- `t` differs from `s` at most in Channel RAM, the PCM file, STDTOG and CUR. -/
def OnlyRamPcmTogCur (s t : State) : Prop :=
  t = { s with ram := t.ram, pcm := t.pcm, stdTog := t.stdTog, cur := t.cur }

/-- `t` differs from `s` at most in Channel RAM, the PCM file, ENGCH, the fault register and the FSM state: no FM
write and no register of the sequencer. -/
def OnlyRamPcmEng (s t : State) : Prop :=
  t = { s with ram := t.ram, pcm := t.pcm, engCh := t.engCh, fcode := t.fcode, finfo := t.finfo, fsm := t.fsm }

/-- `t` differs from `s` at most in Channel RAM, CUR, the FM port (its shadow, record and answers) and the FSM state. -/
def OnlyRamCurFm (s t : State) : Prop :=
  t = { s with ram := t.ram, cur := t.cur, fmShadow := t.fmShadow, fmOut := t.fmOut, fmIn := t.fmIn,
               fmDraws := t.fmDraws, fsm := t.fsm }

/-- From `s` to `t` the machine stored to Channel RAM at most at the listed addresses, moved CUR to `c`, and changed
nothing else. -/
def StoresOnly (s t : State) (written : List Nat) (c : Word) : Prop :=
  OnlyRamCur s t ∧ RamKept s t written ∧ t.cur = c

/-- `t` is `s` in which `raise Fault(c, info)` has happened (00_scope.md R15): FAULT and STATE are written, and
nothing else. -/
def Faulted (s t : State) (code : Byte) (info : Word) : Prop :=
  t = { s with fcode := code, finfo := info, fsm := .fault }

/-- The addresses of record `i` (10_state.md R22). -/
def recordAddrs (i : Nat) : List Nat := (List.range 32).map (recBase i + ·)

/-- The addresses of the two halves of a slot (10_state.md R30). -/
def slotAddrs (sl : Slot) : List Nat := (List.range 8).map (front sl) ++ (List.range 8).map (back sl)

/-- The addresses of the engine record of `n`, and of its ring when `n` is odd (10_state.md R34, R36). -/
def engAddrs (n : EngCh) : List Nat :=
  (List.range 9).map (engRec n + ·) ++ if n.odd then (List.range 24).map (ringBase n + ·) else []

/-- The addresses of the traffic record of `t` (10_state.md R37). -/
def trfAddrs (t : TrfCh) : List Nat := (List.range 8).map (trfRec t + ·)

/-- The index of the record CHAN names. -/
abbrev State.me (s : State) : Nat := s.chan.toNat

/-- The address of field `f` of the record CHAN names. -/
def State.myAddr (s : State) (f : Nat) : Nat := recBase s.me + f

/-- How many duration bytes a note of channel `i` has (30_encoding.md R93). -/
def State.durationBytes (s : State) (i : Nat) : Nat :=
  if s.emFlag i EmFlags.lit && s.emFlag i EmFlags.hi then 2 else 1

/-- The end marker a note of channel `i` computes from its duration bytes (40_sequencer.md R128). -/
def State.duration (s : State) (i : Nat) (d1 d2 : Byte) : Word :=
  if s.emFlag i EmFlags.lit then (if s.emFlag i EmFlags.hi then word d2 d1 else zext16 d1)
  else mulBytes (s.ch i Fld.emscale) d1

/-- EMFLAGS after an end marker: HI and LIT are cleared when both are set, LIT when it alone is (R128). -/
def emFlagsAfter (f : Byte) : Byte :=
  if bit f EmFlags.lit then (if bit f EmFlags.hi then f &&& 0x3F else f &&& 0xBF) else f

/-- From `s` to `t` the section of record `i` has ended with an end marker of these duration bytes (40_sequencer.md
R128, R129), CUR standing at the last of them. -/
def EndsSection (s t : State) (i : Nat) (d1 d2 : Byte) : Prop :=
  t.ch16 i Fld.seqend = s.duration i d1 d2 ∧ t.ch16 i Fld.seqpos = 0 ∧
  t.ch16 i Fld.cmdptr = s.cur + BitVec.ofNat 16 (s.durationBytes i) + 1 ∧
  t.ch i Fld.emflags = emFlagsAfter (s.ch i Fld.emflags) ∧
  t.cur = s.cur + BitVec.ofNat 16 (s.durationBytes i) ∧ t.fsm = .channels .refresh

/-- The addresses an end marker writes in record `i`. -/
def endAddrs (i : Nat) : List Nat :=
  [Fld.seqpos, Fld.seqpos + 1, Fld.seqend, Fld.seqend + 1, Fld.cmdptr, Fld.cmdptr + 1, Fld.emflags].map (recBase i + ·)

/-- ROM holds at `p` the register block `l`: its pairs, none of which starts with 0xFF, then the terminator, all
below ROM_SIZE (30_encoding.md R95). -/
def State.blockAt (s : State) (p : Word) : List (Byte × Byte) → Bool
  | [] => decide (p.toNat < s.cfg.romSize) && s.romAt p == 0xFF
  | (rb, v) :: l =>
    s.inRom [p, p + 1] && rb != 0xFF && s.romAt p == rb && s.romAt (p + 1) == v && s.blockAt (p + 2) l

/-- ROM holds at `p` the pairs `l` of a register block, none of which starts with 0xFF, all below ROM_SIZE; what follows
them is left open (30_encoding.md R95). -/
def State.pairsAt (s : State) (p : Word) : List (Byte × Byte) → Bool
  | [] => true
  | (rb, v) :: l =>
    s.inRom [p, p + 1] && rb != 0xFF && s.romAt p == rb && s.romAt (p + 1) == v && s.pairsAt (p + 2) l

/-- The first byte outside ROM that the stream of a register block meets at the pair at `q`, if it meets one there
(41_commands.md R150). -/
def State.pairOut (s : State) (q : Word) : Option Word :=
  s.firstOut (if s.romAt q = 0xFF then [q] else [q, q + 1])

/-- The guarded writes of a register block on channel `i` (41_commands.md R150). -/
def State.writeBlock (s : State) (i : Nat) (l : List (Byte × Byte)) : State :=
  l.foldl (fun u rv => u.gfmWrite i (rv.1 + u.ym i) rv.2) s

/-- The address of the register block FMBLK `blk` streams on channel `i` (41_commands.md R150). -/
def State.blockOf (s : State) (i : Nat) (blk : Byte) : Word := s.cfg.fmBlock.get (s.ch i Fld.cmdidx, 3, blk)

/-- The pairs of a list of writes that reach the chip when it gives these answers to their status reads: those whose
answer does not report busy (20_memory.md R72, 40_sequencer.md R137). -/
def issued (answers : List Byte) (writes : List (Byte × Byte)) : List (Byte × Byte) :=
  ((answers.zip writes).filter fun a => !bit a.1 7).map (·.2)

/-- `t` is `s` after these pairs were issued on the FM port with `rest` of the answers left: the port got them in
order, the shadow of each register holds the last value issued to it, and the rest of the FM port stayed (R72). -/
def FmIssuedAll (s t : State) (pairs : List (Byte × Byte)) (rest : List Byte) : Prop :=
  t.fmOut = s.fmOut ++ pairs ∧ t.fmIn = rest ∧
  ∀ r, t.shadow r = pairs.foldl (fun v rv => if rv.1 = r then rv.2 else v) (s.shadow r)

/-- FM writes attempted one after another (R72). -/
def State.fmWrites (s : State) (l : List (Byte × Byte)) : State := l.foldl (fun u rv => u.fmWrite rv.1 rv.2) s

/-- The writes the refresh of record `i` attempts, in order (40_sequencer.md R131, R134, R135). -/
def State.keyPairs (s : State) (i : Nat) : List (Byte × Byte) :=
  let c := s.ch i Fld.route &&& 7
  if s.ch i Fld.note = 0xFF then [(0x08, c)]
  else [(0x38 + c, s.ch i Fld.phamp), (0x28 + c, s.ch i Fld.note), (0x08, 0x78 ||| c)]

/-- The refresh of record `i` has gone from `s` to `u` when it comes to its writes: nothing for MODSEL 0, else the
modulation step (40_sequencer.md R131). -/
def Modulated (s u : State) (i : Nat) : Prop :=
  if s.ch i Fld.modsel = 0 then u = s else modStep i s = .ok () u

/-- The tests of a drum scan in order: the predicate of each list on each of its slots (42_pcm.md R185). -/
def drumTests (c : Config) : List (DrumTest × Slot) :=
  c.drumList1.toList.map (c.drumPred1, ·) ++ c.drumList2.toList.map (c.drumPred2, ·) ++
    c.drumList3.toList.map (c.drumPred3, ·)

/-- A test ends the drum scan: it passes, or it reads a byte of a slot above 15 (R185, log 15). -/
def State.drumEnds (s : State) (i : Nat) (t : DrumTest × Slot) : Bool :=
  (drumReadsSlot t.1 && decide (15 < t.2.toNat)) || evalDrum s t.2 i t.1

/-- The slot a drum scan comes to: that of the first test that ends it, and the base of the first list when none does
(R185). -/
def State.drumSlot (s : State) (i : Nat) : Slot :=
  match (drumTests s.cfg).find? (s.drumEnds i) with
  | some t => t.2
  | none => s.cfg.drumList1.v1

/-- Slot `sl` of `t` holds what PCM Send copies from record `i` of `t` (42_pcm.md R187). -/
def SentTo (t : State) (i : Nat) (sl : Slot) : Prop :=
  t.pcm8 (front sl 2) = t.ch i Fld.voll ∧ t.pcm8 (front sl 3) = t.ch i Fld.volr ∧
  t.pcm8 (front sl 4) = t.ch i Fld.pstartLo ∧ t.pcm8 (front sl 5) = t.ch i Fld.pstartHi ∧
  t.pcm8 (front sl 6) = t.ch i Fld.pendHi ∧ t.pcm8 (front sl 7) = t.ch i Fld.ppitch ∧
  t.pcm8 (back sl 4) = t.ch i Fld.pstartLo ∧ t.pcm8 (back sl 5) = t.ch i Fld.pstartHi ∧
  t.pcm8 (back sl 6) = t.ch i Fld.ctrl

/-- The addresses PCM Send writes in slot `sl` (42_pcm.md R187). -/
def sendAddrs (sl : Slot) : List Nat :=
  [front sl 2, front sl 3, front sl 4, front sl 5, front sl 6, front sl 7, back sl 4, back sl 5, back sl 6]

/-- `t` is `s` stopped by ROM_RANGE at the first of the `n` bytes after CUR that lies outside ROM; where the fault
leaves CUR is left open here (20_memory.md R61, 00_scope.md R14, log 10). -/
def FetchFaults (s t : State) (n : Nat) : Prop :=
  ∃ k, k < n ∧ s.romHas k = true ∧ s.romHas (k + 1) = false ∧
    t = { s with cur := t.cur, fcode := 0x05, finfo := s.cur + BitVec.ofNat 16 (k + 1), fsm := .fault }

/-- `t` is `s` after an FM write of `val` to `reg` was issued: the status was read, the port got the pair, the shadow
of `reg` holds `val`, and nothing else changed (20_memory.md R72). -/
def FmIssued (s t : State) (reg val : Byte) : Prop :=
  t = { s.fmDrawn with fmOut := s.fmOut ++ [(reg, val)], fmShadow := t.fmShadow } ∧
  ∀ x, t.shadow x = if x = reg then val else s.shadow x

/-- The four fields a SAMPLE loads from the entry at `e` (42_pcm.md R181). -/
def State.loadSample (s : State) (i : Nat) (e : Word) : State :=
  (((s.setCh i Fld.pstartLo (s.romAt e)).setCh i Fld.pstartHi (s.romAt (e + 1))).setCh i Fld.pendHi
    (s.romAt (e + 2))).setCh i Fld.ctrl (s.romAt (e + 3))

/-- The slot channel assignment picks for record `i` (42_pcm.md R184, R185, R186). -/
def State.pickedSlot (s : State) (i : Nat) : Slot :=
  if bit (s.ch i Fld.ctrl) ctrlDrum then s.drumSlot i
  else s.cfg.stdSlot (category (s.ch i Fld.ctrl)) (s.stdTog.at (category (s.ch i Fld.ctrl)))

/-- What picking a slot for record `i` leaves: the counter of a standard category has rotated (42_pcm.md R186). -/
def State.afterPick (s : State) (i : Nat) : State :=
  if bit (s.ch i Fld.ctrl) ctrlDrum then s else { s with stdTog := s.stdTog.flip (category (s.ch i Fld.ctrl)) }

/-- From `u` to `t` channel assignment sent record `i` to the slot it picks, the counter of a standard category
rotated, and nothing else changed but CUR (42_pcm.md R184, R186, R187). -/
def Assigned (u t : State) (i : Nat) : Prop :=
  SentTo t i (u.pickedSlot i) ∧ PcmKept u t (sendAddrs (u.pickedSlot i)) ∧
  t = { u.afterPick i with pcm := t.pcm, cur := t.cur }

/-- A finalize copy whose two blocks lie in their spaces (41_commands.md R158). -/
def copyFits (c : FinalCopy) : Bool := decide (c.ra.toNat + 7 < 0x800) && decide (c.pa.toNat + 7 < 0x100)

/-- The states a list of finalize copies leads to (41_commands.md R158). -/
def State.copyAll (s : State) (l : List FinalCopy) : State := l.foldl State.copyBytes s

/-- The word at a ROM address in ROM16_ORDER (20_memory.md R62). -/
def State.romWord (s : State) (a : Word) : Word :=
  match s.cfg.romOrder with
  | .le => word (s.romAt (a + 1)) (s.romAt a)
  | .be => word (s.romAt a) (s.romAt (a + 1))

/-- The address of the instrument block of the `k`-th record of `init_sound` (40_sequencer.md R114). -/
def State.instrument (s : State) (src : Word) (k : Nat) : Word := s.romWord (src + 1 + 2 * BitVec.ofNat 16 k)

/-- Every ROM byte that `init_sound` reads for record `k` lies in ROM (R114). -/
def State.instrumentInRom (s : State) (src : Word) (k : Nat) : Bool :=
  s.inRom [src + 1 + 2 * BitVec.ofNat 16 k, src + 1 + 2 * BitVec.ofNat 16 k + 1] &&
    s.inRom ((List.range 14).map fun j => s.instrument src k + BitVec.ofNat 16 j)

/-! ## The engine and traffic passes -/

/-- The 9-bit pitch engine channel `n` samples (43_engine_tone.md R203). -/
def State.engP (s : State) (n : EngCh) : BitVec 9 := telemetryPitch (s.engInput n).pitch

/-- The volume engine channel `n` samples (R203). -/
def State.engV (s : State) (n : EngCh) : Byte := (s.engInput n).volume

/-- Step 2 does not end the channel: REV is 0, or the pitch lies strictly between 0 and 0xFA (R204, R205). -/
def State.engNormal (s : State) (n : EngCh) : Bool :=
  !s.rev || (s.engP n != 0 && decide ((s.engP n).toNat < 0xFA))

/-- The pitch and volume that steps 4 to 7 work with: the oldest ring entry on odd channels (R204, R206). -/
def State.engVoiced (s : State) (n : EngCh) : BitVec 9 × Byte :=
  if n.odd then s.ringOldest n else (s.engP n, s.engV n)

/-- The state the engine pass goes to after channel `n` (40_sequencer.md R111). -/
def afterEngine (n : EngCh) : Fsm :=
  match n.next with
  | some m => .engine m
  | none => .traffic .t1

/-- The state the traffic pass goes to after channel `t` (R111, R139). -/
def afterTraffic (t : TrfCh) : Fsm :=
  match t.next with
  | some u => .traffic u
  | none => .idle

/-- `t` differs from `s` at most in Channel RAM and the PCM file, and channel `n` of the engine pass is over. -/
def EngineDone (s t : State) (n : EngCh) : Prop :=
  t = { s with ram := t.ram, pcm := t.pcm, engCh := BitVec.ofNat 8 n.num, fsm := afterEngine n }

/-- `t` differs from `s` at most in Channel RAM and the PCM file, and channel `c` of the traffic pass is over. -/
def TrafficDone (s t : State) (c : TrfCh) : Prop :=
  t = { s with ram := t.ram, pcm := t.pcm, engCh := BitVec.ofNat 8 c.num, fsm := afterTraffic c }

/-- The Channel RAM bytes of channel `n` that steps 3 to 7 write: the record without its last byte, E_RING and the
ring slot it stands at on odd channels only (43_engine_tone.md R204, R206). -/
def State.engWritten (s : State) (n : EngCh) : List Nat :=
  [0, 1, 2, 4, 5, 6, 7].map (engRec n + ·) ++
    if n.odd then [engRec n + EFld.ringPos, s.ringAt n, s.ringAt n + 1, s.ringAt n + 2] else []

/-- A slot has start and loop address `start` and end byte `endHi`. -/
def SlotPlays (t : State) (sl : Slot) (start : Word) (endHi : Byte) : Prop :=
  t.pcm8 (front sl 4) = loByte start ∧ t.pcm8 (front sl 5) = hiByte start ∧ t.pcm8 (back sl 4) = loByte start ∧
  t.pcm8 (back sl 5) = hiByte start ∧ t.pcm8 (front sl 6) = endHi

/-- `t` differs from `s` at most in Channel RAM and the PCM file, and a fault ended the pass of engine channel `n`
(R213). -/
def EngineFaulted (s t : State) (n : EngCh) (code : Byte) (info : Word) : Prop :=
  t = { s with ram := t.ram, pcm := t.pcm, engCh := BitVec.ofNat 8 n.num, fcode := code, finfo := info, fsm := .fault }

/-- `t` differs from `s` at most in Channel RAM, and a fault ended the pass of traffic channel `c` (44_traffic_fx.md
R240). -/
def TrafficFaulted (s t : State) (c : TrfCh) (code : Byte) (info : Word) : Prop :=
  t = { s with ram := t.ram, engCh := BitVec.ofNat 8 c.num, fcode := code, finfo := info, fsm := .fault }

/-- From `s` to `t` the ring step of odd channel `n` stored the sampled pitch and volume and moved on (R206). -/
def RingStored (s t : State) (n : EngCh) : Prop :=
  t.eng n EFld.ringPos = ((s.eng n EFld.ringPos &&& 7) + 1) &&& 7 ∧ t.ram8 (s.ringAt n) = pitchLo (s.engP n) ∧
  t.ram8 (s.ringAt n + 1) = pitchHi (s.engP n) ∧ t.ram8 (s.ringAt n + 2) = s.engV n

/-- Engine channel `n` gets fresh addresses: its pitch changed or it was muted (R204 step 5, R208). -/
def State.engFresh (s : State) (n : EngCh) : Bool :=
  (s.engVoiced n).1 != s.prevPitch n || s.engFlag n EFlags.mute

/-- From `s` to `t` engine channel `n` went through steps 3 to 5, and wrote no byte of Channel RAM but those of steps 3
to 7 (R204, R206, R207). -/
structure EngineCompared (s t : State) (n : EngCh) : Prop where
  ram : RamKept s t (s.engWritten n)
  volprev : t.eng n EFld.volprev = s.eng n EFld.vol
  vol : t.eng n EFld.vol = (s.engVoiced n).2
  lowPitch : t.eng n EFld.pitchLo = pitchLo (s.engVoiced n).1
  highPitch : t.eng n EFld.pitchHi = pitchHi (s.engVoiced n).1
  loopset : t.engFlag n EFlags.loopset =
    if (s.engVoiced n).1 = s.prevPitch n then s.engFlag n EFlags.loopset
    else decide ((s.prevPitch n).toNat < (s.engVoiced n).1.toNat)
  pending : t.eng n EFld.flags &&& 0xF0 = s.eng n EFld.flags &&& 0xF0
  ring : n.odd = true → RingStored s t n

/-- Engine channel `n` went through steps 3 to 5, and a fault ended its pass in step 6 or 7 (R213). -/
structure EngineStops (s t : State) (n : EngCh) (code : Byte) (info : Word) : Prop extends EngineCompared s t n where
  fault : EngineFaulted s t n code info
  pcm : PcmKept s t (sendAddrs (s.engSlot n))

/-- From `s` to `t` engine channel `n` went through steps 3 to 7 with this table entry, adjusted volume and pitch
byte (R204, R207 to R210). -/
structure EngineSounds (s t : State) (n : EngCh) (start : Word) (endHi adj pitch : Byte) : Prop
    extends EngineCompared s t n where
  done : EngineDone s t n
  adjvol : t.eng n EFld.adjvol = adj
  active : t.eng n EFld.active = 1
  mute : t.engFlag n EFlags.mute = false
  addrset : t.engFlag n EFlags.addrset = true
  left : t.pcm8 (front (s.engSlot n) 2) = if n.odd then adj else 0
  right : t.pcm8 (front (s.engSlot n) 3) = if n.odd then 0 else adj
  hwPitch : t.pcm8 (front (s.engSlot n) 7) = pitch
  /-- The pitch changed or the channel was muted: fresh addresses, and the one-shot latch is released (R208). -/
  fresh : s.engFresh n = true →
    SlotPlays t (s.engSlot n) start endHi ∧ t.engFlag n EFlags.loopdis = false ∧
    t.pcm8 (back (s.engSlot n) 6) = (if t.engFlag n EFlags.loopset then 0x00 else 0x02) ∧
    PcmKept s t (sendAddrs (s.engSlot n))
  /-- A sounding channel with an unchanged pitch is not restarted (R208). -/
  steady : s.engFresh n = false →
    t.engFlag n EFlags.loopdis = s.engFlag n EFlags.loopdis ∧
    PcmKept s t [front (s.engSlot n) 2, front (s.engSlot n) 3, front (s.engSlot n) 7]

/-- Entries pushed into the ring of `n` one after another (R206). -/
def State.ringPushes (s : State) (n : EngCh) (l : List (BitVec 9 × Byte)) : State :=
  l.foldl (fun u e => u.ringPush n e.1 e.2) s

/-- Traffic channel `c` is not reducing and does not start to (44_traffic_fx.md R232, R234). -/
def State.trfFollows (s : State) (c : TrfCh) : Bool :=
  !s.trfFlag c TFlags.reduce && !(s.tpass.atTrf c && s.trfFlag c TFlags.seset)

/-- The pitch of channel `c` after one reduction step: down by 4 below the threshold, else by 6 (R237). -/
def State.reducedPitch (s : State) (c : TrfCh) : Byte :=
  s.trf c TFld.pitch - if (s.trf c TFld.pitch).toNat < s.cfg.trfPitchThresh.toNat then 4 else 6

/-- The volume index of the telemetry byte of channel `c` (R230). -/
def State.trfVidx (s : State) (c : TrfCh) : Byte := s.telem.traffic.atTrf c >>> 3

/-- The pan index of the telemetry byte of channel `c` (R230). -/
def State.trfPidx (s : State) (c : TrfCh) : Byte := s.telem.traffic.atTrf c &&& 7

/-- The record of channel `c` and its slot are cleared, the slot inactive (44_traffic_fx.md R238). -/
def TrafficCleared (t : State) (c : TrfCh) (sl : Slot) : Prop :=
  (∀ k, k < 8 → t.trf c k = 0) ∧ (∀ k, k < 8 → t.pcm8 (front sl k) = 0) ∧
  (∀ k, k < 8 → t.pcm8 (back sl k) = if k = 6 then 1 else 0)

/-- `n` passes of traffic channel `c`, one after another (R232). -/
def trafficPasses (c : TrfCh) (n : Nat) (s : State) : State :=
  match n with
  | 0 => s
  | n + 1 => trafficPasses c n (after (trafficChannel c s))

/-- No act of another agent in the list is a reset. -/
def noReset (l : List Event) : Bool := l.all fun e => e != .reset

/-- `n` steps of the machine, stopping at the first fault or refusal. -/
def steps (n : Nat) (s : State) : Host.Outcome State Fault Refusal := Sys2Proof.core.run n s

end Sys2Proof.Machine
end

