-- ==== Sys2Proof/Certificates/Slice0/Obligations.lean ====
section
/-!
DEFINITION. The statements for the provers, from the numbered rules of spec/.
`Inv` is the machine's own invariant, stated below to hold at reset and to be kept by every step. The statements about
the channel pass and its instructions have as a premise the part of it they need: CHAN names one of the 30 records.
-/

open Sys2Proof Sys2Proof.Machine

/-! ## Encoding -/

/-- Decoding an encoded well-formed instruction gives it back, with the bytes after it (30_encoding.md R90, R99). -/
def Obligations.DecodeOfEncode : Prop :=
  ∀ (c : DecodeCtx) (i : Instr) (rest : List Byte), i.wellFormed c = true →
    decode c (encode c i ++ rest) = .ok (i, rest)

/-- What decodes is well-formed and encodes to the bytes it was decoded from (R86, R90, R99). -/
def Obligations.EncodeOfDecode : Prop :=
  ∀ (c : DecodeCtx) (bytes rest : List Byte) (i : Instr), decode c bytes = .ok (i, rest) →
    i.wellFormed c = true ∧ encode c i ++ rest = bytes

/-- The opcode byte decides the instruction (R85, R87, R88, R89, R99). -/
def Obligations.OpcodeByteDecides : Prop :=
  ∀ (c : DecodeCtx) (b b1 b2 b3 b4 : Byte),
    let i := decodeWindow c b b1 b2 b3 b4
    (b.toNat < 0x80 → ∃ n d1 d2, i = .note n d1 d2 ∧ n.toNat = b.toNat ∧ d1 = b1 ∧ (c.wide = true → d2 = b2)) ∧
    (b = 0x82 → ∃ r, i = .vol b1 r ∧ (c.pcm = true → r = b2)) ∧
    (b = 0x84 → i = .finfm) ∧ (b = 0x87 → i = .modsel b1) ∧ (b = 0x89 → i = .ret) ∧ (b = 0x8B → i = .transp b1) ∧
    (b = 0x91 → i = .fmblk b1) ∧ (b = 0x93 → i = .pitch b1) ∧ (b = 0x94 → i = .litend) ∧ (b = 0x95 → i = .hiend) ∧
    (b = 0x96 → i = .panr) ∧ (b = 0x97 → i = .panl) ∧ (b = 0x98 → i = .panc) ∧ (b = 0x99 → i = .finpcm) ∧
    (c.order = .le → b = 0x88 → i = .call (word b2 b1)) ∧ (c.order = .le → b = 0x8A → i = .jp (word b2 b1)) ∧
    (c.order = .le → b = 0x8C → i = .loop b1 b2 (word b4 b3)) ∧
    (0x80 ≤ b.toNat → b.toNat < 0xBF → (b.setWidth 6 : BitVec 6) ∉ definedCodes → i = .undef (b.setWidth 6)) ∧
    (0xC0 ≤ b.toNat → b.toNat ≤ 0xCE → ∃ k, i = .perc k ∧ k.toNat = b.toNat - 0xC0) ∧
    (0xD0 ≤ b.toNat → ∃ k, i = .sample k ∧ k.toNat = b.toNat - 0xD0) ∧
    (b = 0xBF ∨ b = 0xCF → i = .pcmIndexFault b)

/-- Words of the opcode table, written out bit by bit, decode to the instructions they stand for: a word of each
family, for the context right after reset. -/
def Obligations.TableWordsDecode : Prop :=
  decodeTableWord 8 0b00000101 = some (.note 0x05 0 0) ∧
  decodeTableWord 16 0b0101000010000010 = some (.vol 0x50 0) ∧
  decodeTableWord 24 0b001100010000000010001000 = some (.call 0x3100) ∧
  decodeTableWord 40 0b0011000000000000000000110000000010001100 = some (.loop 0 3 0x3000) ∧
  decodeTableWord 16 0b0000000110010001 = some (.fmblk 1) ∧
  decodeTableWord 8 0b10011001 = some .finpcm ∧
  decodeTableWord 8 0b11000000 = some (.perc 0) ∧
  decodeTableWord 8 0b11010001 = some (.sample 1) ∧
  decodeTableWord 8 0b10111111 = some (.pcmIndexFault 0xBF) ∧
  decodeTableWord 8 0b10011010 = some (.undef 0x1A)

/-! ## The step and the shared operations -/

/-- In a Process Section, when the bytes at CUR decode to `i` in the context of the current record, a step of the
machine is exactly `exec i`: this machine adds nothing around it, since the generic advance of CUR is part of the
meaning (40_sequencer.md R120, R122). An opcode byte outside ROM raises ROM_RANGE with CUR's value and writes nothing
else (20_memory.md R61). One step is one iteration of the section's loop by the model's choice (log 5, log 21). -/
def Obligations.StepRunsDecodedInstruction : Prop :=
  ∀ (s : State) (i : Instr) (rest : List Byte), s.fsm = .channels .fetch → s.chan.toNat < 30 →
    (s.cur.toNat < s.cfg.romSize → decode s.decodeCtx s.window = .ok (i, rest) →
      step s = exec i s ∧ i.wellFormed s.decodeCtx = true ∧ encode s.decodeCtx i ++ rest = s.window) ∧
    (¬ s.cur.toNat < s.cfg.romSize → ∃ t, step s = .next t ∧ Faulted s t 0x05 s.cur)

/-- ROM reads are checked (20_memory.md R61, R62): `ROM8` and each byte of `ROM16` raise ROM_RANGE with the address
outside ROM and write nothing else; in range they answer the byte, and the word in ROM16_ORDER. -/
def Obligations.RomReadsAreChecked : Prop :=
  ∀ (s : State) (a : Word),
    (a.toNat < s.cfg.romSize → rom8 a s = .ok (s.romAt a) s) ∧
    (¬ a.toNat < s.cfg.romSize → ∃ t, rom8 a s = .error () t ∧ Faulted s t 0x05 a) ∧
    (a.toNat < s.cfg.romSize → (a + 1).toNat < s.cfg.romSize → s.cfg.romOrder = .le →
      rom16 a s = .ok (word (s.romAt (a + 1)) (s.romAt a)) s) ∧
    (a.toNat < s.cfg.romSize → (a + 1).toNat < s.cfg.romSize → s.cfg.romOrder = .be →
      rom16 a s = .ok (word (s.romAt a) (s.romAt (a + 1))) s) ∧
    (¬ a.toNat < s.cfg.romSize → ∃ t, rom16 a s = .error () t ∧ Faulted s t 0x05 a) ∧
    (a.toNat < s.cfg.romSize → ¬ (a + 1).toNat < s.cfg.romSize →
      ∃ t, rom16 a s = .error () t ∧ Faulted s t 0x05 (a + 1))

/-- One write attempt on the FM port (20_memory.md R72): a status read that reports busy drops the write and changes
nothing else; otherwise the port gets the pair and the shadow the value. The answer is any byte: a given one, then a
free value, which is the model's form of the draw (log 6); the list of issued pairs is the model's too (log 7). -/
def Obligations.FmPortWrite : Prop :=
  ∀ (s : State) (reg val : Byte),
    (bit s.fmAnswer 7 = true → s.fmWrite reg val = s.fmDrawn) ∧
    (bit s.fmAnswer 7 = false → FmIssued s (s.fmWrite reg val) reg val) ∧
    (∀ st l, s.fmIn = st :: l → s.fmAnswer = st ∧ s.fmDrawn = { s with fmIn := l }) ∧
    (s.fmIn = [] → s.fmAnswer = Config.fmStatus s.fmDraws ∧ s.fmDrawn = { s with fmDraws := s.fmDraws + 1 })

/-- Write suppression (40_sequencer.md R136): a record is suppressed exactly when its MUTE bit is set or another
enabled record with MUTECORR has it as its corresponding channel; a guarded write of a suppressed record does
nothing, and that of any other record is an FM write. -/
def Obligations.GuardedWrites : Prop :=
  ∀ (s : State) (i : Nat) (reg val : Byte),
    (s.suppressed i = true ↔
      (bit (s.ch i Fld.route) 7 = true ∨
        ∃ j, j < 30 ∧ j ≠ i ∧ bit (s.ch j Fld.flags) 7 = true ∧ bit (s.ch j Fld.flags) 2 = true ∧
          s.cfg.corrOf j = some i)) ∧
    (s.suppressed i = true → s.gfmWrite i reg val = s) ∧
    (s.suppressed i = false → s.gfmWrite i reg val = s.fmWrite reg val)

/-! ## Instructions: the fields of a record -/

/-- VOL (41_commands.md R141), on both classes, with its operand faults. -/
def Obligations.VolSetsVolumes : Prop :=
  ∀ (s : State) (l r : Byte), s.chan.toNat < 30 →
    (s.isPcm s.me = true → s.romHas 2 = true →
      ∃ t, exec (.vol l r) s = .next t ∧ StoresOnly s t [s.myAddr Fld.voll, s.myAddr Fld.volr] (s.cur + 3) ∧
        t.ch s.me Fld.voll = (if 0x40 < l.toNat then 0 else l) ∧
        t.ch s.me Fld.volr = (if 0x40 < r.toNat then 0 else r)) ∧
    (s.isPcm s.me = false → s.romHas 1 = true →
      ∃ t, exec (.vol l r) s = .next t ∧ StoresOnly s t [s.myAddr Fld.voll] (s.cur + 2) ∧
        t.ch s.me Fld.voll = l) ∧
    (s.romHas (if s.isPcm s.me then 2 else 1) = false →
      ∃ t, exec (.vol l r) s = .next t ∧ FetchFaults s t (if s.isPcm s.me then 2 else 1))

/-- MODSEL (R143) stores its operand, and PHOFF stays; TRANSP (R147) adds its operand to NOTEOFF modulo 256. -/
def Obligations.ModselAndTranspSetFields : Prop :=
  ∀ (s : State) (v : Byte), s.chan.toNat < 30 →
    (s.romHas 1 = true →
      ∃ t, exec (.modsel v) s = .next t ∧ StoresOnly s t [s.myAddr Fld.modsel] (s.cur + 2) ∧
        t.ch s.me Fld.modsel = v) ∧
    (s.romHas 1 = true →
      ∃ t, exec (.transp v) s = .next t ∧ StoresOnly s t [s.myAddr Fld.noteoff] (s.cur + 2) ∧
        (t.ch s.me Fld.noteoff).toNat = ((s.ch s.me Fld.noteoff).toNat + v.toNat) % 256) ∧
    (s.romHas 1 = false →
      (∃ t, exec (.modsel v) s = .next t ∧ FetchFaults s t 1) ∧
      ∃ t, exec (.transp v) s = .next t ∧ FetchFaults s t 1)

/-- PITCH (R151) sets PPITCH on a PCM channel; on an FM channel it only consumes its operand. -/
def Obligations.PitchSetsPcmPitch : Prop :=
  ∀ (s : State) (p : Byte), s.chan.toNat < 30 →
    (s.isPcm s.me = true → s.romHas 1 = true →
      ∃ t, exec (.pitch p) s = .next t ∧ StoresOnly s t [s.myAddr Fld.ppitch] (s.cur + 2) ∧
        t.ch s.me Fld.ppitch = p) ∧
    (s.isPcm s.me = false → s.romHas 1 = true → exec (.pitch p) s = .next { s with cur := s.cur + 2 }) ∧
    (s.romHas 1 = false → ∃ t, exec (.pitch p) s = .next t ∧ FetchFaults s t 1)

/-- LITEND and HIEND (R152, R153) each set their own end-marker flag, keep the other bits of EMFLAGS, and move CUR to
the next byte. -/
def Obligations.EndMarkerFlagsAreSet : Prop :=
  ∀ s : State, s.chan.toNat < 30 →
    (∃ t, exec .litend s = .next t ∧ StoresOnly s t [s.myAddr Fld.emflags] (s.cur + 1) ∧
      t.ch s.me Fld.emflags = s.ch s.me Fld.emflags ||| 0x40) ∧
    (∃ t, exec .hiend s = .next t ∧ StoresOnly s t [s.myAddr Fld.emflags] (s.cur + 1) ∧
      t.ch s.me Fld.emflags = s.ch s.me Fld.emflags ||| 0x80)

/-! ## Instructions: control flow -/

/-- CALL (R144): MOFF down by 2 modulo 256, the address of the last operand byte pushed at `rec + MOFF` without a
bound, and never outside Channel RAM; the next fetch at the target. A push over MOFF itself (new MOFF 0x09 or 0x0A)
leaves the pushed byte there. -/
def Obligations.CallPushesAndJumps : Prop :=
  ∀ (s : State) (a : Word), s.chan.toNat < 30 →
    (s.romHas 2 = true →
      let m := s.ch s.me Fld.moff - 2
      let p := recBase s.me + m.toNat
      ∃ t, exec (.call a) s = .next t ∧ StoresOnly s t [s.myAddr Fld.moff, p, p + 1] a ∧
        t.ram16 p = s.cur + 2 ∧ p + 1 < 0x800 ∧ (m ≠ 0x09 → m ≠ 0x0A → t.ch s.me Fld.moff = m)) ∧
    (s.romHas 2 = false → ∃ t, exec (.call a) s = .next t ∧ FetchFaults s t 2)

/-- RET (R145): CUR to the popped address plus one, MOFF up by 2 modulo 256; no check. -/
def Obligations.RetPops : Prop :=
  ∀ s : State, s.chan.toNat < 30 →
    ∃ t, exec .ret s = .next t ∧
      StoresOnly s t [s.myAddr Fld.moff] (s.ram16 (recBase s.me + (s.ch s.me Fld.moff).toNat) + 1) ∧
      t.ch s.me Fld.moff = s.ch s.me Fld.moff + 2 ∧ recBase s.me + (s.ch s.me Fld.moff).toNat + 1 < 0x800

/-- JP (R146): the next fetch is at the target, and nothing else changes. -/
def Obligations.JpJumps : Prop :=
  ∀ (s : State) (a : Word), s.chan.toNat < 30 →
    (s.romHas 2 = true → exec (.jp a) s = .next { s with cur := a }) ∧
    (s.romHas 2 = false → ∃ t, exec (.jp a) s = .next t ∧ FetchFaults s t 2)

/-- LOOP (R148): the counter at `rec + 0x17 + k` is reloaded with `n` when 0, then decremented modulo 256; not 0
jumps, 0 skips the two target bytes. A target byte outside ROM faults only on the jump, with the counter already
written. -/
def Obligations.LoopCountsAndJumps : Prop :=
  ∀ (s : State) (k n : Byte) (a : Word), s.chan.toNat < 30 →
    let p := recBase s.me + 0x17 + k.toNat
    let c := (if s.ram8 p = 0 then n else s.ram8 p) - 1
    p < 0x800 ∧
    (s.romHas 2 = true → c = 0 →
      ∃ t, exec (.loop k n a) s = .next t ∧ StoresOnly s t [p] (s.cur + 5) ∧ t.ram8 p = 0) ∧
    (s.romHas 4 = true → c ≠ 0 →
      ∃ t, exec (.loop k n a) s = .next t ∧ StoresOnly s t [p] a ∧ t.ram8 p = c) ∧
    (s.romHas 2 = true → s.romHas 4 = false → c ≠ 0 →
      ∃ t, exec (.loop k n a) s = .next t ∧ RamKept s t [p] ∧ t.ram8 p = c ∧
        t = { s with ram := t.ram, cur := t.cur, fcode := 0x05,
                     finfo := s.cur + (if s.romHas 3 then 4 else 3), fsm := .fault }) ∧
    (s.romHas 2 = false → ∃ t, exec (.loop k n a) s = .next t ∧ FetchFaults s t 2)

/-! ## Instructions: FM writes -/

/-- FMBLK (R149, R150): the operand into FMBLK, then the block `FMBLOCK(CMDIDX, 3, blk)` of ROM streamed pair by pair
through the guarded port; CUR at the next opcode. Nothing but that byte, CUR and the FM port changes. An operand byte
outside ROM raises ROM_RANGE before any write; a byte of the block outside ROM raises it with the pairs before it
written and CUR at the operand. A block whose first 32768 pairs, one lap of the whole ROM space, hold no terminator
never ends (60_exceptions.md R256): each further step writes the same lap again. That a lap is one step is the model's
choice (log 18), and where the operand's fault leaves CUR is log 10. -/
def Obligations.FmblkStreamsBlock : Prop :=
  ∀ (s : State) (blk : Byte) (l : List (Byte × Byte)), s.chan.toNat < 30 →
    let u := s.setCh s.me Fld.fmblk blk
    let p := s.blockOf s.me blk
    (s.romHas 1 = true → s.blockAt p l = true →
      ∃ t, exec (.fmblk blk) s = .next t ∧ t = { u.writeBlock s.me l with cur := s.cur + 2 } ∧
        t.ch s.me Fld.fmblk = blk ∧ OnlyRamCurFm s t ∧ t.fsm = s.fsm ∧ RamKept s t [s.myAddr Fld.fmblk]) ∧
    (s.romHas 1 = false → ∃ t, exec (.fmblk blk) s = .next t ∧ FetchFaults s t 1) ∧
    (∀ x, s.romHas 1 = true → s.pairsAt p l = true → s.pairOut (p + 2 * BitVec.ofNat 16 l.length) = some x →
      ∃ t, exec (.fmblk blk) s = .next t ∧ Faulted { u.writeBlock s.me l with cur := s.cur + 1 } t 0x05 x) ∧
    (s.romHas 1 = true → s.pairsAt p l = true → l.length = 0x8000 →
      exec (.fmblk blk) s =
        .next { u.writeBlock s.me l with cur := s.cur + 1, fsm := .channels (.stream p) }) ∧
    (∀ q, s.fsm = .channels (.stream q) → s.pairsAt q l = true → l.length = 0x8000 →
      step s = .next (s.writeBlock s.me l))

/-- What the guarded writes of a block come to (R150, 40_sequencer.md R136, R137, 20_memory.md R72): nothing on a
suppressed record; on any other, the pairs in order with YMCH added to their register numbers modulo 256, but for
those whose status read reports busy, which are lost. The shadow of each register holds the last value issued to it.
The forms of the answers and of the port are the model's (log 6, log 7). -/
def Obligations.FmBlockWrites : Prop :=
  ∀ (s : State) (l : List (Byte × Byte)),
    (s.suppressed s.me = true → s.writeBlock s.me l = s) ∧
    (∀ answers rest, s.suppressed s.me = false → s.fmIn = answers ++ rest → answers.length = l.length →
      let t := s.writeBlock s.me l
      t = { s with fmOut := t.fmOut, fmIn := t.fmIn, fmShadow := t.fmShadow } ∧
      FmIssuedAll s t (issued answers (l.map fun rv => (rv.1 + (s.ch s.me Fld.route &&& 7), rv.2))) rest)

/-- PANR, PANL and PANC (41_commands.md R154, R155, R156): one guarded write of register 0x20 + YMCH, the low six bits
from its shadow and the pan bits of the opcode; nothing on a suppressed record, and only the status read when the
chip is busy. The forms of the answer and of the port are the model's (log 6, log 7). -/
def Obligations.PanWritesRouting : Prop :=
  ∀ s : State, s.chan.toNat < 30 → ∀ ib ∈ [(Instr.panr, (0x80 : Byte)), (Instr.panl, 0x40), (Instr.panc, 0xC0)],
    let r := 0x20 + (s.ch s.me Fld.route &&& 7)
    let v := (s.shadow r &&& 0x3F) ||| ib.2
    (s.suppressed s.me = true → exec ib.1 s = .next { s with cur := s.cur + 1 }) ∧
    (s.suppressed s.me = false → bit s.fmAnswer 7 = true → exec ib.1 s = .next { s.fmDrawn with cur := s.cur + 1 }) ∧
    (s.suppressed s.me = false → bit s.fmAnswer 7 = false →
      ∃ u, FmIssued s u r v ∧ exec ib.1 s = .next { u with cur := s.cur + 1 })

/-- FINFM (R142): key off of YMCH, not guarded, then FLAGS zeroed and the channel's step over; CUR and every other
field keep their values. A busy chip loses the key off and nothing else. The FSM phase (log 5) and the forms of the
answer and of the port (log 6, log 7) are the model's. -/
def Obligations.FinfmFreesChannel : Prop :=
  ∀ s : State, s.chan.toNat < 30 →
    let c := s.ch s.me Fld.route &&& 7
    ∃ t u, exec .finfm s = .next t ∧ t = { u with ram := t.ram, fsm := .channels .done } ∧
      t.ch s.me Fld.flags = 0 ∧ RamKept s t [s.myAddr Fld.flags] ∧
      (bit s.fmAnswer 7 = true → u = s.fmDrawn) ∧ (bit s.fmAnswer 7 = false → FmIssued s u 0x08 c)

/-! ## Instructions: PCM -/

/-- The eight bytes of a finalize copy (R158), in either direction, and nothing else. -/
def Obligations.CopyMovesEightBytes : Prop :=
  ∀ (s : State) (c : FinalCopy), copyFits c = true →
    copyBlock c s = .ok () (s.copyBytes c) ∧
    (c.dir = .ramToPcm →
      s.copyBytes c = { s with pcm := (s.copyBytes c).pcm } ∧
      (∀ j, j < 8 → (s.copyBytes c).pcm8 (c.pa.toNat + j) = s.ram8 (c.ra.toNat + j)) ∧
      PcmKept s (s.copyBytes c) ((List.range 8).map (c.pa.toNat + ·))) ∧
    (c.dir = .pcmToRam →
      s.copyBytes c = { s with ram := (s.copyBytes c).ram } ∧
      (∀ j, j < 8 → (s.copyBytes c).ram8 (c.ra.toNat + j) = s.pcm8 (c.pa.toNat + j)) ∧
      RamKept s (s.copyBytes c) ((List.range 8).map (c.ra.toNat + ·)))

/-- FINPCM (R158): the blocks of PCM_FINAL_COPIES in list order, then what FINFM does; the first block that does not
fit raises RAM_RANGE or PARAM, RAM first, with the blocks before it copied. The information is the last address of the
block; where that does not fit 16 bits, that the block faults and that the information is its low 16 bits are the
model's choice (log 24). -/
def Obligations.FinpcmCopiesThenFrees : Prop :=
  ∀ s : State, s.chan.toNat < 30 →
    let l := s.cfg.finalCopies.get s.chan
    ((∀ c ∈ l, copyFits c = true) → ∃ t, exec .finpcm s = .next t ∧ exec .finfm (s.copyAll l) = .next t ∧
      t.fsm = .channels .done ∧ t.ch s.me Fld.flags = 0) ∧
    (∀ pre c post, l = pre ++ c :: post → (∀ d ∈ pre, copyFits d = true) → copyFits c = false →
      ∃ t, exec .finpcm s = .next t ∧
        if 0x800 ≤ c.ra.toNat + 7 then Faulted (s.copyAll pre) t 0x04 (c.ra + 7)
        else Faulted (s.copyAll pre) t 0x06 (c.pa + 7))

/-- PERC (42_pcm.md R182, R184 to R188): the five fields of the percussion entry, entry 0 the fixed one, then channel
assignment; CUR at the next byte. When assignment comes to a slot above 15 it raises PARAM with that number, the five
fields loaded and no byte of the PCM file written; in a drum scan that may be at the test of the slot (log 15). -/
def Obligations.PercLoadsAndAssigns : Prop :=
  ∀ (s : State) (k : BitVec 4), s.chan.toNat < 30 →
    let e := s.cfg.percOf k
    let u := s.loadPerc s.me e
    ((u.pickedSlot s.me).toNat ≤ 15 →
      ∃ t, exec (.perc k) s = .next t ∧ Assigned u t s.me ∧ t.cur = s.cur + 1 ∧
        t.ch s.me Fld.pstartLo = loByte e.start ∧ t.ch s.me Fld.pstartHi = hiByte e.start ∧
        t.ch s.me Fld.pendHi = e.endHi ∧ t.ch s.me Fld.ppitch = e.pitch ∧ t.ch s.me Fld.ctrl = e.flags ∧
        RamKept s t ([Fld.pstartLo, Fld.pstartHi, Fld.pendHi, Fld.ppitch, Fld.ctrl].map s.myAddr) ∧
        OnlyRamPcmTogCur s t ∧ (k = 0 → e = { start := 0x17C0, endHi := 0x42, pitch := 0x84, flags := 0xD6 })) ∧
    (15 < (u.pickedSlot s.me).toNat →
      ∃ t, exec (.perc k) s = .next t ∧ Faulted (u.afterPick s.me) t 0x06 (zext16 (u.pickedSlot s.me)))

/-- SAMPLE (R181, R184 to R188): the four bytes of the ROM entry, then channel assignment; CUR at the next byte. A
byte of the entry outside ROM raises ROM_RANGE with the fields before it already written. When assignment comes to a
slot above 15 it raises PARAM with that number, the four fields loaded and no byte of the PCM file written; in a drum
scan that may be at the test of the slot (log 15). -/
def Obligations.SampleLoadsAndAssigns : Prop :=
  ∀ (s : State) (k : BitVec 6), s.chan.toNat < 30 →
    let e := s.cfg.pcmTable + 4 * k.setWidth 16
    let u := s.loadSample s.me e
    (s.inRom [e, e + 1, e + 2, e + 3] = true → (u.pickedSlot s.me).toNat ≤ 15 →
      ∃ t, exec (.sample k) s = .next t ∧ Assigned u t s.me ∧ t.cur = s.cur + 1 ∧
        t.ch s.me Fld.pstartLo = s.romAt e ∧ t.ch s.me Fld.pstartHi = s.romAt (e + 1) ∧
        t.ch s.me Fld.pendHi = s.romAt (e + 2) ∧ t.ch s.me Fld.ctrl = s.romAt (e + 3) ∧
        RamKept s t ([Fld.pstartLo, Fld.pstartHi, Fld.pendHi, Fld.ctrl].map s.myAddr) ∧ OnlyRamPcmTogCur s t) ∧
    (s.inRom [e, e + 1, e + 2, e + 3] = true → 15 < (u.pickedSlot s.me).toNat →
      ∃ t, exec (.sample k) s = .next t ∧ Faulted (u.afterPick s.me) t 0x06 (zext16 (u.pickedSlot s.me))) ∧
    (s.inRom [e] = false → ∃ t, exec (.sample k) s = .next t ∧ Faulted s t 0x05 e) ∧
    (s.inRom [e] = true → s.inRom [e + 1] = false →
      ∃ t, exec (.sample k) s = .next t ∧ Faulted (s.setCh s.me Fld.pstartLo (s.romAt e)) t 0x05 (e + 1)) ∧
    (s.inRom [e, e + 1] = true → s.inRom [e + 2] = false →
      ∃ t, exec (.sample k) s = .next t ∧
        Faulted ((s.setCh s.me Fld.pstartLo (s.romAt e)).setCh s.me Fld.pstartHi (s.romAt (e + 1))) t 0x05 (e + 2)) ∧
    (s.inRom [e, e + 1, e + 2] = true → s.inRom [e + 3] = false →
      ∃ t, exec (.sample k) s = .next t ∧
        Faulted (((s.setCh s.me Fld.pstartLo (s.romAt e)).setCh s.me Fld.pstartHi (s.romAt (e + 1))).setCh s.me
          Fld.pendHi (s.romAt (e + 2))) t 0x05 (e + 3))

/-- Channel assignment (R184): a drum sample goes to the slot of the first test of the three lists that passes, and to
the base of the first list when none does (R185); a standard sample to the slot the counter of its category selects,
the counter rotated (R186). A slot number 0 to 15 is sent to. A slot number above 15 raises PARAM with that number
before any byte of the PCM file is written; a drum test that reads the bytes of such a slot raises it there, whether
or not it would pass (log 15). -/
def Obligations.AssignmentChecksSlot : Prop :=
  ∀ (s : State) (i : Nat),
    ((s.pickedSlot i).toNat ≤ 15 → ∃ t, pcmAssign i s = .ok () t ∧ Assigned s t i ∧ t.cur = s.cur) ∧
    (15 < (s.pickedSlot i).toNat →
      ∃ t, pcmAssign i s = .error () t ∧ Faulted (s.afterPick i) t 0x06 (zext16 (s.pickedSlot i)))

/-- The two bytes of the PCM class without an entry raise PCM_INDEX with the byte, and the command codes without a
handler raise UNDEF_OPCODE with CUR at the opcode; nothing else is written (42_pcm.md R183, 41_commands.md R159). -/
def Obligations.IndexAndCodeFaults : Prop :=
  ∀ s : State, s.chan.toNat < 30 →
    (∀ b, (Instr.pcmIndexFault b).wellFormed s.decodeCtx = true →
      ∃ t, exec (.pcmIndexFault b) s = .next t ∧ Faulted s t 0x02 (zext16 b)) ∧
    (∀ code, (Instr.undef code).wellFormed s.decodeCtx = true →
      ∃ t, exec (.undef code) s = .next t ∧ Faulted s t 0x01 s.cur)

/-! ## Instructions: notes -/

/-- NOTE of index 1-127 on an FM channel (40_sequencer.md R123, R126, R128, R129): the note field from the note table
at `n + NOTEOFF` modulo 256, then the end marker. A table byte outside ROM raises ROM_RANGE before any write, a
duration byte outside ROM with the note field written. The phase after the section is the model's (log 5). -/
def Obligations.NoteOnFmChannel : Prop :=
  ∀ (s : State) (n : BitVec 7) (d1 d2 : Byte), s.chan.toNat < 30 → n ≠ 0 → s.isPcm s.me = false →
    let a := s.cfg.noteTable + zext16 (n.setWidth 8 + s.ch s.me Fld.noteoff)
    (s.inRom [a] = true → s.romHas (s.durationBytes s.me) = true →
      ∃ t, exec (.note n d1 d2) s = .next t ∧ t.ch s.me Fld.note = s.romAt a ∧ EndsSection s t s.me d1 d2 ∧
        RamKept s t (s.myAddr Fld.note :: endAddrs s.me) ∧ OnlyRamCurFsm s t) ∧
    (s.inRom [a] = true → s.romHas (s.durationBytes s.me) = false →
      ∃ t, exec (.note n d1 d2) s = .next t ∧
        FetchFaults (s.setCh s.me Fld.note (s.romAt a)) t (s.durationBytes s.me)) ∧
    (s.inRom [a] = false → ∃ t, exec (.note n d1 d2) s = .next t ∧ Faulted s t 0x05 a)

/-- A note byte on a PCM channel, index 0 included, only delimits an event: the end marker, and no note field (R124,
R127, R128, R129). The phase after the section is the model's (log 5). -/
def Obligations.NoteOnPcmChannel : Prop :=
  ∀ (s : State) (n : BitVec 7) (d1 d2 : Byte), s.chan.toNat < 30 → s.isPcm s.me = true →
    (s.romHas (s.durationBytes s.me) = true →
      ∃ t, exec (.note n d1 d2) s = .next t ∧ EndsSection s t s.me d1 d2 ∧ RamKept s t (endAddrs s.me) ∧
        OnlyRamCurFsm s t) ∧
    (s.romHas (s.durationBytes s.me) = false →
      ∃ t, exec (.note n d1 d2) s = .next t ∧ FetchFaults s t (s.durationBytes s.me))

/-- Note index 0 on an FM channel (R124, R128, R129): the mute sentinel, unless the corresponding music channel is
enabled; then the note field stays. A duration byte outside ROM raises ROM_RANGE with the sentinel already written.
The phase after the section is the model's (log 5), and where that fault leaves CUR is log 10. -/
def Obligations.NoteZeroMutes : Prop :=
  ∀ (s : State) (d1 d2 : Byte), s.chan.toNat < 30 → s.isPcm s.me = false →
    let music := ∃ j, s.cfg.corrOf s.me = some j ∧ bit (s.ch j Fld.flags) 7 = true
    (s.romHas (s.durationBytes s.me) = true →
      ∃ t, exec (.note 0 d1 d2) s = .next t ∧ EndsSection s t s.me d1 d2 ∧ OnlyRamCurFsm s t ∧
        RamKept s t (s.myAddr Fld.note :: endAddrs s.me) ∧
        (music → t.ch s.me Fld.note = s.ch s.me Fld.note) ∧ (¬ music → t.ch s.me Fld.note = 0xFF)) ∧
    (s.romHas (s.durationBytes s.me) = false →
      ∃ t, exec (.note 0 d1 d2) s = .next t ∧
        (music → FetchFaults s t (s.durationBytes s.me)) ∧
        (¬ music → FetchFaults (s.setCh s.me Fld.note 0xFF) t (s.durationBytes s.me)))

/-! ## The machine as a whole -/

/-- What reset leaves (70_reset_and_hazards.md R281). -/
def Obligations.ResetState : Prop :=
  (∀ a, State.reset.ram8 a = 0) ∧
  (∀ a, a < 0x100 → State.reset.pcm8 a = if 0x80 ≤ a ∧ a % 8 = 6 then 0x01 else 0x00) ∧
  (∀ r, State.reset.shadow r = 0) ∧
  State.reset.cur = 0 ∧ State.reset.chan = 0 ∧ State.reset.chanPrev = 0 ∧ State.reset.cmdPrev = 0 ∧
  State.reset.engCh = 0 ∧ State.reset.tog = false ∧ (∀ c, State.reset.stdTog.at c = false) ∧
  State.reset.fcode = 0 ∧ State.reset.finfo = 0 ∧ State.reset.stateReg = .IDLE ∧ State.reset.mbox = 0 ∧
  State.reset.telem =
    { unused := 0, pitchHi := 0, pitchLo := 0, volume := 0, traffic := { v1 := 0, v2 := 0, v3 := 0, v4 := 0 } } ∧
  (∀ n, State.reset.engInput n = { pitch := 0, volume := 0 }) ∧ State.reset.rev = false ∧
  (∀ t, State.reset.tpass.atTrf t = false)

/-- The invariant holds at reset. -/
def Obligations.InvAtReset : Prop := Inv State.reset

/-- Every step keeps the invariant: canonical byte spaces, CHAN and CHANPREV name records (10_state.md R41), STATE is
FAULT exactly when FCODE is not 0 (R47, 60_exceptions.md R250), no fault code above 9 (R251), and the engine and
traffic passes only with TOG = 1 (40_sequencer.md R138). -/
def Obligations.StepKeepsInv : Prop :=
  ∀ s t : State, Inv s → step s = .next t → Inv t

/-- Where the invariant holds the machine always answers a next state: the model's own stop is not reached (log 1). -/
def Obligations.StepAlwaysAnswers : Prop :=
  ∀ s : State, Inv s → ∃ t, step s = .next t

/-- No step changes a ROM byte or a parameter, whatever the instruction and whatever the other agents do (00_scope.md
R11, 20_memory.md R79); and during a transaction no other agent moves (R77): a step outside IDLE and FAULT changes no
input and takes no act of another agent. -/
def Obligations.WhatNoStepChanges : Prop :=
  ∀ s t : State, step s = .next t →
    t.rom = s.rom ∧ t.cfg = s.cfg ∧
    (s.fsm ≠ .idle → s.fsm ≠ .fault →
      t.mbox = s.mbox ∧ t.telem = s.telem ∧ t.engTel = s.engTel ∧ t.rev = s.rev ∧ t.tpass = s.tpass ∧
      t.events = s.events)

/-- No instruction reaches the inputs, the mailbox or a register of the sequencer (60_exceptions.md R259): CHAN,
CHANPREV, CMDPREV, ENGCH, TOG, every input, MBOX_ACK, the pending acts, ROM and the parameters stay; and the fault
register stays unless the instruction raised a fault. -/
def Obligations.InstructionsStayInside : Prop :=
  ∀ (i : Instr) (s t : State), exec i s = .next t →
    t.chan = s.chan ∧ t.chanPrev = s.chanPrev ∧ t.cmdPrev = s.cmdPrev ∧ t.engCh = s.engCh ∧ t.tog = s.tog ∧
    t.mbox = s.mbox ∧ t.telem = s.telem ∧ t.engTel = s.engTel ∧ t.rev = s.rev ∧ t.tpass = s.tpass ∧
    t.mboxAck = s.mboxAck ∧ t.events = s.events ∧ t.rom = s.rom ∧ t.cfg = s.cfg ∧
    (t.fsm ≠ .fault → t.fcode = s.fcode ∧ t.finfo = s.finfo)

/-- A fault is absorbing until reset (40_sequencer.md R110, 60_exceptions.md R250, R252): whatever the other agents do
short of a reset, for any number of steps the machine answers a next state, STATE stays FAULT, the fault register
and every register of the block stay, and no FM write is issued. That the other agents' acts are a list, one per
step, is the model's choice (log 8). -/
def Obligations.FaultIsAbsorbing : Prop :=
  ∀ (n : Nat) (s : State), s.fsm = .fault → noReset s.events = true →
    ∃ t, steps n s = .next t ∧ t.fsm = .fault ∧ t.fcode = s.fcode ∧ t.finfo = s.finfo ∧ t.cur = s.cur ∧
      t.chan = s.chan ∧ t.chanPrev = s.chanPrev ∧ t.cmdPrev = s.cmdPrev ∧ t.engCh = s.engCh ∧ t.tog = s.tog ∧
      t.stdTog = s.stdTog ∧ t.fmShadow = s.fmShadow ∧ t.fmOut = s.fmOut

/-- A tick pulse in IDLE starts a transaction with TOG flipped; in FAULT it is not seen (40_sequencer.md R110, R138,
60_exceptions.md R252); with no act pending an idle machine keeps all state (R264). The list of acts is the model's
choice (log 8). -/
def Obligations.TickPulse : Prop :=
  ∀ (s : State) (rest : List Event),
    (s.fsm = .idle → s.events = .tick :: rest →
      ∃ t, step s = .next t ∧ t = { s with fsm := .cmd, tog := !s.tog, events := rest, mboxAck := t.mboxAck }) ∧
    (s.fsm = .fault → s.events = .tick :: rest → step s = .next { s with events := rest }) ∧
    (s.fsm = .idle → s.events = [] → step s = .next s)

/-- Reset, between transactions and from FAULT too, gives every piece of the block's state its reset value and writes
nothing to the FM chip (70_reset_and_hazards.md R280, R281, R282). The list of acts is the model's choice (log 8). -/
def Obligations.ResetFromAnyState : Prop :=
  ∀ (s : State) (rest : List Event), s.fsm = .idle ∨ s.fsm = .fault → s.events = .reset :: rest →
    ∃ t, step s = .next t ∧ t.ram = State.reset.ram ∧ t.pcm = State.reset.pcm ∧
      t.fmShadow = State.reset.fmShadow ∧ t.cur = State.reset.cur ∧ t.chan = State.reset.chan ∧
      t.chanPrev = State.reset.chanPrev ∧ t.cmdPrev = State.reset.cmdPrev ∧ t.engCh = State.reset.engCh ∧
      t.tog = State.reset.tog ∧ t.stdTog = State.reset.stdTog ∧ t.fcode = State.reset.fcode ∧
      t.finfo = State.reset.finfo ∧ t.fsm = State.reset.fsm ∧ t.fmOut = s.fmOut ∧ t.rom = s.rom ∧ t.cfg = s.cfg

/-- Between transactions each act of another agent changes only what the spec lets it change. A write-back of the PCM
chip changes `H_LOOP_LO`, `H_LOOP_HI` or bit 0 of `H_FLAGS` of its slot (10_state.md R33, 20_memory.md R76); a host
write of the mailbox, of the telemetry, of REV or of TPASS changes that input (R73, R74); a host write to Channel RAM
or the PCM file changes that byte (R75); further answers of the FM chip come after those it already gives (R72). The
list of acts (log 8) and the list of answers (log 6) are the model's choice. -/
def Obligations.AgentActsChangeOnlyTheirOwn : Prop :=
  ∀ (s : State) (e : Event) (rest : List Event), s.fsm = .idle ∨ s.fsm = .fault → s.events = e :: rest →
    (∀ sl w, e = .chip sl w →
      let b := 0x80 + 8 * sl.toNat
      ∃ t, step s = .next t ∧ t = { s with pcm := t.pcm, events := rest } ∧
        PcmKept s t [match w with | .loopLo _ => b + 4 | .loopHi _ => b + 5 | .inactive _ => b + 6] ∧
        (∀ v, w = .loopLo v → t.pcm8 (b + 4) = v) ∧ (∀ v, w = .loopHi v → t.pcm8 (b + 5) = v) ∧
        (∀ x, w = .inactive x → bit (t.pcm8 (b + 6)) 0 = x ∧ t.pcm8 (b + 6) &&& 0xFE = s.pcm8 (b + 6) &&& 0xFE)) ∧
    (∀ v, e = .mbox v → step s = .next { s with mbox := v, events := rest }) ∧
    (∀ x, e = .telem x → step s = .next { s with telem := x, events := rest }) ∧
    (∀ x, e = .engTel x → step s = .next { s with engTel := x, events := rest }) ∧
    (∀ b, e = .rev b → step s = .next { s with rev := b, events := rest }) ∧
    (∀ x, e = .tpass x → step s = .next { s with tpass := x, events := rest }) ∧
    (∀ a v, e = .hostRam a v →
      ∃ t, step s = .next t ∧ t = { s with ram := t.ram, events := rest } ∧ t.ram8 a.toNat = v ∧
        RamKept s t [a.toNat]) ∧
    (∀ a v, e = .hostPcm a v →
      ∃ t, step s = .next t ∧ t = { s with pcm := t.pcm, events := rest } ∧ t.pcm8 a.toNat = v ∧
        PcmKept s t [a.toNat]) ∧
    (∀ l, e = .fmAnswers l → step s = .next { s with fmIn := s.fmIn ++ l, events := rest })

/-! ## Command intake and the channel pass -/

/-- Command intake without `init_sound` and stop (40_sequencer.md R112, R113): an empty mailbox does nothing; a
command is recorded in CMDPREV, acknowledged, and then ignored or faults by its class. The pass begins at record 0.
The flag that stands for the MBOX_ACK pulse (log 7) and the micro-steps (log 5) are the model's choice. -/
def Obligations.CommandIntake : Prop :=
  ∀ s : State, s.fsm = .cmd →
    let u := { s with mboxAck := true, cmdPrev := s.mbox }
    (s.mbox = 0 → step s = .next { s with chan := 0, fsm := .channels .start }) ∧
    (s.mbox ≠ 0 → s.mbox.toNat < 0x80 → ∃ t, step s = .next t ∧ Faulted u t 0x07 (zext16 s.mbox)) ∧
    (0x80 ≤ s.mbox.toNat → s.cfg.action s.mbox = .ignore →
      step s = .next { u with chan := 0, fsm := .channels .start }) ∧
    (0x80 ≤ s.mbox.toNat → s.cfg.action s.mbox = .undefined →
      ∃ t, step s = .next t ∧ Faulted u t 0x08 (zext16 s.mbox))

/-- `init_sound` (R114): for each `k` below the count, record `first + k` gets the 14 bytes of its instrument block,
the command index at 0x0E and zeros after; every other byte stays. A count past record 29 raises CHAN_COUNT before
any write to a record. A ROM byte it reads outside ROM raises ROM_RANGE with its address (20_memory.md R61): the count
before any write to a record, a byte of the address or of the block of record `k` with the records before it filled,
and of record `k` the block bytes read before it written. CMDPREV and MBOX_ACK are written in every case. The flag
that stands for the MBOX_ACK pulse (log 7) and the micro-step (log 5) are the model's choice. -/
def Obligations.InitSoundFillsRecords : Prop :=
  ∀ (s : State) (src : Word) (first : Byte), s.fsm = .cmd → 0x80 ≤ s.mbox.toNat →
    s.cfg.action s.mbox = .init src first →
    let n := (s.romAt src).toNat
    let u := { s with mboxAck := true, cmdPrev := s.mbox }
    let r := fun k => recBase (first.toNat + k)
    let p := fun k => src + 1 + 2 * BitVec.ofNat 16 k
    let b := fun k j => s.instrument src k + BitVec.ofNat 16 j
    let filled := fun (t : State) (k : Nat) =>
      (∀ j, j < 14 → t.ram8 (r k + j) = s.romAt (b k j)) ∧ t.ram8 (r k + 0x0E) = s.mbox ∧
      ∀ j, j < 17 → t.ram8 (r k + 0x0F + j) = 0
    let stopped := fun (t : State) (k j : Nat) (x : Word) =>
      t = { u with ram := t.ram, fcode := 0x05, finfo := x, fsm := .fault } ∧ (∀ i, i < k → filled t i) ∧
      (∀ i, i < j → t.ram8 (r k + i) = s.romAt (b k i)) ∧
      ∀ a, (∀ i, i < k → a < r i ∨ r i + 32 ≤ a) → (a < r k ∨ r k + j ≤ a) → t.ram8 a = s.ram8 a
    (s.inRom [src] = false → ∃ t, step s = .next t ∧ Faulted u t 0x05 src) ∧
    (s.inRom [src] = true → 30 < first.toNat + n → ∃ t, step s = .next t ∧ Faulted u t 0x09 (zext16 (s.romAt src))) ∧
    (s.inRom [src] = true → first.toNat + n ≤ 30 → (∀ k, k < n → s.instrumentInRom src k = true) →
      ∃ t, step s = .next t ∧ t = { u with ram := t.ram, chan := 0, fsm := .channels .start } ∧
        (∀ k, k < n → filled t k) ∧ ∀ a, (∀ k, k < n → a < r k ∨ r k + 32 ≤ a) → t.ram8 a = s.ram8 a) ∧
    (∀ k, s.inRom [src] = true → first.toNat + n ≤ 30 → k < n → (∀ i, i < k → s.instrumentInRom src i = true) →
      (∀ x, s.firstOut [p k, p k + 1] = some x → ∃ t, step s = .next t ∧ stopped t k 0 x) ∧
      (∀ j, s.inRom [p k, p k + 1] = true → j < 14 → (∀ i, i < j → s.inRom [b k i] = true) →
        s.inRom [b k j] = false → ∃ t, step s = .next t ∧ stopped t k j (b k j)))

/-- A stop command (R115) zeroes exactly its records and sets the inactive bit of exactly its slots; the stop-cheers
command is the one with records 14 and 15. A slot above 15 raises PARAM with its number (20_memory.md R65), the
records zeroed and the slots before it silenced by then (log 17). CMDPREV and MBOX_ACK are written in either case. The
flag that stands for the MBOX_ACK pulse (log 7) and the micro-step (log 5) are the model's choice. -/
def Obligations.StopCommandSilences : Prop :=
  ∀ (s : State) (chans : List (Fin 30)) (slots : List Slot), s.fsm = .cmd → 0x80 ≤ s.mbox.toNat →
    let u := { s with mboxAck := true, cmdPrev := s.mbox }
    let silenced := fun (t : State) (l : List Slot) =>
      (∀ j ∈ chans, ∀ b, b < 32 → t.ram8 (recBase j.val + b) = 0) ∧
      RamKept s t (chans.flatMap fun j => recordAddrs j.val) ∧
      (∀ sl ∈ l, t.pcm8 (back sl 6) = s.pcm8 (back sl 6) ||| 0x01) ∧ PcmKept s t (l.map fun sl => back sl 6)
    (s.mbox = s.cfg.cmdStopCheers → s.cfg.action s.mbox = .stop [14, 15] [s.cfg.cheerSlot1, s.cfg.cheerSlot2]) ∧
    (s.cfg.action s.mbox = .stop chans slots → (∀ sl ∈ slots, sl.toNat ≤ 15) →
      ∃ t, step s = .next t ∧
        t = { u with ram := t.ram, pcm := t.pcm, chan := 0, fsm := .channels .start } ∧ silenced t slots) ∧
    (∀ pre sl post, s.cfg.action s.mbox = .stop chans slots → slots = pre ++ sl :: post →
      (∀ x ∈ pre, x.toNat ≤ 15) → 15 < sl.toNat →
      ∃ t, step s = .next t ∧
        t = { u with ram := t.ram, pcm := t.pcm, fcode := 0x06, finfo := zext16 sl, fsm := .fault } ∧ silenced t pre)

/-- Steps 1 and 2 of a channel step (R117, R118, R119): a disabled record is passed over; an enabled one counts, and
its section begins at CMDPTR when the new count equals SEQEND, else its refresh follows. The micro-steps are the
model's choice (log 5). -/
def Obligations.ChannelStepCounts : Prop :=
  ∀ s : State, s.chan.toNat < 30 → s.fsm = .channels .start →
    let pos := s.ch16 s.me Fld.seqpos + 1
    (s.enabled s.me = false → step s = .next { s with fsm := .channels .done }) ∧
    (s.enabled s.me = true →
      ∃ t, step s = .next t ∧ t.ch16 s.me Fld.seqpos = pos ∧
        RamKept s t [s.myAddr Fld.seqpos, s.myAddr Fld.seqpos + 1] ∧
        (pos = s.ch16 s.me Fld.seqend →
          t = { s with ram := t.ram, cur := s.ch16 s.me Fld.cmdptr, fsm := .channels .fetch }) ∧
        (pos ≠ s.ch16 s.me Fld.seqend → t = { s with ram := t.ram, fsm := .channels .refresh }))

/-- The order of the channel pass (R116, R110): CHANPREV takes CHAN, then the next record's step begins; after record
29 comes the engine pass when TOG is 1, and IDLE when it is 0. The micro-steps are the model's choice (log 5), and
CHAN is the pass's loop index (log 1). -/
def Obligations.ChannelPassOrder : Prop :=
  ∀ s : State, s.chan.toNat < 30 → s.fsm = .channels .done →
    (s.chan ≠ 29 →
      step s = .next { s with chanPrev := s.chan, chan := s.chan + 1, fsm := .channels .start }) ∧
    (s.chan = 29 → s.tog = true → step s = .next { s with chanPrev := s.chan, fsm := .engine .e1 }) ∧
    (s.chan = 29 → s.tog = false → step s = .next { s with chanPrev := s.chan, fsm := .idle })

/-- Steps 3 and 4 of a channel step (R130, R131, R134, R135, R137): a PCM channel writes nothing. An FM channel with
MODSEL not 0 does the modulation step first; what faults there ends the step with no FM write, a modulation byte
outside ROM with PHOFF already advanced (log 10). A channel that is heard then attempts its writes in order, a key off
for the sentinel note, else phase/amplitude, note and key on, with the values the modulation left; a write whose
status read reports busy is lost, and the next one is attempted all the same. Nothing else changes. The micro-step
(log 5) and the forms of the answers and of the port (log 6, log 7) are the model's. -/
def Obligations.RefreshWritesKeys : Prop :=
  ∀ s : State, s.chan.toNat < 30 → s.fsm = .channels .refresh →
    let o := s.ch s.me Fld.phoff + 1
    let a := s.cfg.modTab.get (s.ch s.me Fld.modsel) + zext16 o
    (s.isPcm s.me = true → step s = .next { s with fsm := .channels .done }) ∧
    (∀ u, s.isPcm s.me = false → Modulated s u s.me → s.suppressed s.me = false →
      step s = .next { u.fmWrites (u.keyPairs s.me) with fsm := .channels .done } ∧
      ∀ answers rest, s.fmIn = answers ++ rest → answers.length = (u.keyPairs s.me).length →
        let t := u.fmWrites (u.keyPairs s.me)
        t = { s with ram := u.ram, fmIn := t.fmIn, fmOut := t.fmOut, fmShadow := t.fmShadow } ∧
        FmIssuedAll s t (issued answers (u.keyPairs s.me)) rest) ∧
    (∀ u, s.isPcm s.me = false → s.ch s.me Fld.modsel ≠ 0 → modStep s.me s = .error () u → step s = .next u) ∧
    (s.isPcm s.me = false → s.ch s.me Fld.modsel ≠ 0 → s.inRom [a] = false →
      ∃ t, step s = .next t ∧ Faulted (s.setCh s.me Fld.phoff o) t 0x05 a)

/-- The modulation step (R132, R133): PHOFF advances, the byte at `MODTAB(MODSEL) + PHOFF` resets PHOFF, holds it,
faults, or sets PHAMP to itself rotated right by 2. -/
def Obligations.ModulationStep : Prop :=
  ∀ (s : State) (i : Nat),
    let o := s.ch i Fld.phoff + 1
    let a := s.cfg.modTab.get (s.ch i Fld.modsel) + zext16 o
    let v := s.romAt a
    (s.inRom [a] = true → v ≠ 0xFC →
      ∃ t, modStep i s = .ok () t ∧ t = { s with ram := t.ram } ∧
        RamKept s t [recBase i + Fld.phoff, recBase i + Fld.phamp] ∧
        (v = 0xFD → t.ch i Fld.phoff = 0 ∧ t.ch i Fld.phamp = s.ch i Fld.phamp) ∧
        (v = 0xFE → t.ch i Fld.phoff = s.ch i Fld.phoff ∧ t.ch i Fld.phamp = s.ch i Fld.phamp) ∧
        (v ≠ 0xFD → v ≠ 0xFE → t.ch i Fld.phoff = o ∧ t.ch i Fld.phamp = v.rotateRight 2)) ∧
    (s.inRom [a] = true → v = 0xFC →
      ∃ t, modStep i s = .error () t ∧ Faulted (s.setCh i Fld.phoff o) t 0x03 a)

/-- A suppressed FM channel's refresh is silent and still counts (R136, 70_reset_and_hazards.md R289): the FM port and
the shadow stay, and Channel RAM is what the modulation step leaves. The micro-step is the model's choice (log 5). -/
def Obligations.SuppressedRefreshIsSilent : Prop :=
  ∀ s : State, s.chan.toNat < 30 → s.fsm = .channels .refresh → s.isPcm s.me = false → s.suppressed s.me = true →
    (s.ch s.me Fld.modsel = 0 → step s = .next { s with fsm := .channels .done }) ∧
    (∀ u, s.ch s.me Fld.modsel ≠ 0 → modStep s.me s = .ok () u →
      step s = .next { s with ram := u.ram, fsm := .channels .done })

/-! ## The engine and traffic passes -/

/-- Mute (43_engine_tone.md R204, R205, R211): with REV set and pitch 0 the channel is muted at once; volume 0 mutes
it at step 4, after E_VOLPREV and E_VOL are stored. On an even channel that is the sampled volume; on an odd channel
it is that of the oldest ring entry, and the ring step has then stored the sample and moved on (R206). Only MUTE,
E_ACTIVE and the slot's inactive bit change beside them. A slot above 15 raises PARAM with its number in place of the
inactive bit (R213), the record written by then (log 23). One engine channel per step is the model's choice
(log 5). -/
def Obligations.EngineMutes : Prop :=
  ∀ (s : State) (n : EngCh), s.fsm = .engine n →
    let sl := s.engSlot n
    let b := back sl 6
    let e := engRec n
    let muted := fun (t : State) (written : List Nat) =>
      t.ram8 (e + EFld.flags) = s.ram8 (e + EFld.flags) ||| 0x01 ∧ t.eng n EFld.active = 0 ∧
      RamKept s t ([e + EFld.flags, e + EFld.active] ++ written) ∧
      if sl.toNat ≤ 15 then EngineDone s t n ∧ t.pcm8 b = s.pcm8 b ||| 0x01 ∧ PcmKept s t [b]
      else EngineFaulted s t n 0x06 (zext16 sl) ∧ t.pcm = s.pcm
    (s.rev = true → s.engP n = 0 → ∃ t, step s = .next t ∧ muted t []) ∧
    (s.engNormal n = true → n.odd = false → s.engV n = 0 →
      ∃ t, step s = .next t ∧ muted t [e + EFld.vol, e + EFld.volprev] ∧
        t.eng n EFld.volprev = s.eng n EFld.vol ∧ t.eng n EFld.vol = 0) ∧
    (s.engNormal n = true → n.odd = true → (s.ringOldest n).2 = 0 →
      ∃ t, step s = .next t ∧
        muted t [e + EFld.vol, e + EFld.volprev, e + EFld.ringPos, s.ringAt n, s.ringAt n + 1, s.ringAt n + 2] ∧
        t.eng n EFld.volprev = s.eng n EFld.vol ∧ t.eng n EFld.vol = 0 ∧ RingStored s t n)

/-- The rev effect (R205): with REV set and pitch at or above 0xFA the volumes go out by REV_PAN, MUTE and ADDRSET are
cleared and E_ACTIVE is 1; the one-shot sample is started only when LOOPDIS was 0, which is then set. A slot above 15
raises PARAM with its number before any write of the record or the PCM file (R213). One engine channel per step is
the model's choice (log 5). -/
def Obligations.EngineRevEffect : Prop :=
  ∀ (s : State) (n : EngCh), s.fsm = .engine n → s.rev = true → 0xFA ≤ (s.engP n).toNat →
    let sl := s.engSlot n
    let f := engRec n + EFld.flags
    (sl.toNat ≤ 15 →
      ∃ t, step s = .next t ∧ EngineDone s t n ∧ RamKept s t [f, engRec n + EFld.active] ∧
        t.ram8 f = (s.ram8 f ||| 0x04) &&& 0xF6 ∧ t.eng n EFld.active = 1 ∧
        t.pcm8 (front sl 2) = (if s.cfg.revPan.atEng n = .right then 0 else s.engV n) ∧
        t.pcm8 (front sl 3) = (if s.cfg.revPan.atEng n = .left then 0 else s.engV n) ∧
        (s.engFlag n EFlags.loopdis = true → PcmKept s t [front sl 2, front sl 3]) ∧
        (s.engFlag n EFlags.loopdis = false →
          SlotPlays t sl s.cfg.revStart s.cfg.revEndHi ∧ t.pcm8 (front sl 7) = s.cfg.revPitch ∧
          t.pcm8 (back sl 6) = 0x02 ∧ PcmKept s t (sendAddrs sl))) ∧
    (15 < sl.toNat →
      ∃ t, step s = .next t ∧ EngineFaulted s t n 0x06 (zext16 sl) ∧ t.ram = s.ram ∧ t.pcm = s.pcm)

/-- The ring of an odd channel delays by eight passes (R206): what one pass pushes is the oldest entry when seven more
have been pushed, and the ring step of a pass answers the oldest entry before it overwrites it. -/
def Obligations.RingDelaysByEight : Prop :=
  ∀ (s : State) (n : EngCh) (p : BitVec 9) (v : Byte) (l : List (BitVec 9 × Byte)), n.odd = true →
    ringStep n p v s = .ok (s.ringOldest n) (s.ringPush n p v) ∧
    (l.length = 7 → ((s.ringPush n p v).ringPushes n l).ringOldest n = (p, v))

/-- The table path (R204, R207, R208, R210): a channel that step 2 lets through, with volume not 0, that is a traffic
engine channel or below the idle threshold, sounds with entry `ENG_ROW` of the engine table. Its faults (R213): a row
above 53 raises PARAM with the row; a byte of the entry outside ROM raises ROM_RANGE with the first of them in the
order of reads (log 14), the slot untouched while it is one of the first three; a slot above 15 raises PARAM with its
number where the slot is first touched, which is before the multiplier is read when the addresses are fresh and after
it when they are not. Steps 3 to 5 are done by then (log 23). One engine channel per step is the model's choice
(log 5). -/
def Obligations.EngineTablePath : Prop :=
  ∀ (s : State) (n : EngCh), s.fsm = .engine n → s.engNormal n = true →
    let sl := s.engSlot n
    let p := (s.engVoiced n).1
    let v := (s.engVoiced n).2
    let r := s.cfg.engRowOf p v
    let a := s.cfg.engTable + 5 * r
    v ≠ 0 → (5 ≤ n.num → p.toNat < s.cfg.engIdle.toNat) →
    (sl.toNat ≤ 15 → r.toNat ≤ 53 → s.inRom [a, a + 1, a + 2, a + 3, a + 4] = true →
      ∃ t, step s = .next t ∧
        EngineSounds s t n (word (s.romAt (a + 1)) (s.romAt a)) (s.romAt (a + 2))
          (BitVec.ofNat 8 (v.toNat * (s.romAt (a + 3)).toNat / 256))
          (BitVec.ofNat 8 ((s.romAt (a + 4)).toNat + min p.toNat s.cfg.engPitchClamp.toNat +
            (if n.odd then 0xFE else 3)))) ∧
    (53 < r.toNat → ∃ t, step s = .next t ∧ EngineStops s t n 0x06 r ∧ t.pcm = s.pcm) ∧
    (r.toNat ≤ 53 → ∀ x, s.firstOut [a + 1, a, a + 2] = some x →
      ∃ t, step s = .next t ∧ EngineStops s t n 0x05 x ∧ t.pcm = s.pcm) ∧
    (r.toNat ≤ 53 → s.inRom [a, a + 1, a + 2] = true →
      (∀ x, s.firstOut [a + 3, a + 4] = some x → sl.toNat ≤ 15 ∨ s.engFresh n = false ∧ x = a + 3 →
        ∃ t, step s = .next t ∧ EngineStops s t n 0x05 x) ∧
      (15 < sl.toNat → s.engFresh n = true ∨ s.inRom [a + 3] = true →
        ∃ t, step s = .next t ∧ EngineStops s t n 0x06 (zext16 sl) ∧ t.pcm = s.pcm))

/-- The Ferrari path (R204, R207, R208, R209) of the player's channels at or above the idle threshold, with its volume
curve `min(0x3F, v * 0x18 / 64)`. Its faults (R213): a row at or above FERRARI_ROWS raises PARAM with the row; one of
the first three bytes of the entry outside ROM raises ROM_RANGE with the first of them in the order of reads (log 14),
the slot untouched; then a slot above 15 raises PARAM with its number, the PCM file untouched; and last the pitch byte
outside ROM raises ROM_RANGE. Steps 3 to 5 are done by then (log 23). One engine channel per step is the model's
choice (log 5). -/
def Obligations.EngineFerrariPath : Prop :=
  ∀ (s : State) (n : EngCh), s.fsm = .engine n → s.engNormal n = true →
    let sl := s.engSlot n
    let p := (s.engVoiced n).1
    let v := (s.engVoiced n).2
    let r := s.cfg.ferrariRowOf (p - s.cfg.engIdle)
    let a := s.cfg.ferrariTable + 4 * r
    v ≠ 0 → 5 ≤ n.num → s.cfg.engIdle.toNat ≤ p.toNat →
    (sl.toNat ≤ 15 → r.toNat < s.cfg.ferrariRows.toNat → s.inRom [a, a + 1, a + 2, a + 3] = true →
      ∃ t, step s = .next t ∧
        EngineSounds s t n (word (s.romAt (a + 1)) (s.romAt a)) (s.romAt (a + 2))
          (BitVec.ofNat 8 (min 0x3F (v.toNat * 0x18 / 64)))
          (BitVec.ofNat 8 ((s.romAt (a + 3)).toNat + (if n.odd then 0xFE else 3)))) ∧
    (s.cfg.ferrariRows.toNat ≤ r.toNat → ∃ t, step s = .next t ∧ EngineStops s t n 0x06 r ∧ t.pcm = s.pcm) ∧
    (r.toNat < s.cfg.ferrariRows.toNat → ∀ x, s.firstOut [a + 1, a, a + 2] = some x →
      ∃ t, step s = .next t ∧ EngineStops s t n 0x05 x ∧ t.pcm = s.pcm) ∧
    (r.toNat < s.cfg.ferrariRows.toNat → s.inRom [a, a + 1, a + 2] = true →
      (15 < sl.toNat → ∃ t, step s = .next t ∧ EngineStops s t n 0x06 (zext16 sl) ∧ t.pcm = s.pcm) ∧
      (sl.toNat ≤ 15 → s.inRom [a + 3] = false → ∃ t, step s = .next t ∧ EngineStops s t n 0x05 (a + 3)))

/-- Ownership (R212, 44_traffic_fx.md R239): a pass of an engine channel writes only its record and ring and its slot,
a pass of a traffic channel only its record and its slot; neither issues an FM write nor touches another register
than ENGCH, STATE and, on a fault, the fault register. One channel per step is the model's choice (log 5). -/
def Obligations.PassesWriteOnlyTheirOwn : Prop :=
  ∀ s t : State, step s = .next t →
    (∀ n, s.fsm = .engine n →
      OnlyRamPcmEng s t ∧ RamKept s t (engAddrs n) ∧ PcmKept s t (slotAddrs (s.engSlot n))) ∧
    (∀ c, s.fsm = .traffic c →
      OnlyRamPcmEng s t ∧ RamKept s t (trfAddrs c) ∧ PcmKept s t (slotAddrs (s.trfSlot c)))

/-- Change detection (R235): with both indices as stored, a volume index not 0 and start/end set, a pass sets the two
"unchanged" bits and writes nothing else: nothing is recomputed from the tables. One traffic channel per step is the
model's choice (log 5). -/
def Obligations.TrafficUnchangedIsLeftAlone : Prop :=
  ∀ (s : State) (c : TrfCh), s.fsm = .traffic c → s.trfFollows c = true →
    s.trfVidx c ≠ 0 → s.trf c TFld.pvidx = s.trfVidx c → s.trf c TFld.ppidx = s.trfPidx c →
    s.trfFlag c TFlags.seset = true →
    ∃ t, step s = .next t ∧ TrafficDone s t c ∧ t.pcm = s.pcm ∧ RamKept s t [trfRec c + TFld.flags] ∧
      t.trf c TFld.flags = s.trf c TFld.flags ||| 0x06

/-- Compute (R232, R235, R236): with a volume index not 0 and an index changed or start/end unset, the indices and the
two "unchanged" bits are stored; with a multiplier of at least 0x10 the record and the slot then get the values of the
tables, the slot started only when start/end was unset. Its faults (R240) leave the PCM file as it was: a table byte
outside ROM raises ROM_RANGE with the first of them in the order of reads, and a slot above 15 raises PARAM with its
number when the record has its values and start/end is still as it was (log 23). One traffic channel per step is the
model's choice (log 5). -/
def Obligations.TrafficComputes : Prop :=
  ∀ (s : State) (c : TrfCh), s.fsm = .traffic c → s.trfFollows c = true →
    let vidx := s.trfVidx c
    let pidx := s.trfPidx c
    let sl := s.trfSlot c
    let k := BitVec.ofNat 16 (vidx.toNat - 1)
    let m := s.romAt (s.cfg.trfVolTab + k)
    let pan := s.cfg.trfPanTab + 2 * zext16 pidx
    let l := BitVec.ofNat 8 ((s.romAt pan).toNat * m.toNat / 256)
    let r := BitVec.ofNat 8 ((s.romAt (pan + 1)).toNat * m.toNat / 256)
    let q := s.romAt (s.cfg.trfDistTab + k) + (if c.num % 2 = 1 then 0x60 else 0x80)
    let started := s.trfFlag c TFlags.seset
    let noted := fun (t : State) (written : List Nat) =>
      t.trf c TFld.pvidx = vidx ∧ t.trf c TFld.ppidx = pidx ∧
      t.trfFlag c TFlags.unchVol = (s.trf c TFld.pvidx == vidx) ∧
      t.trfFlag c TFlags.unchPan = (s.trf c TFld.ppidx == pidx) ∧ t.trfFlag c TFlags.reduce = false ∧
      RamKept s t (([TFld.flags, TFld.pvidx, TFld.ppidx] ++ written).map (trfRec c + ·))
    let scaled := fun t : State =>
      t.trf c TFld.pitch = q ∧ t.trf c TFld.voll = l ∧ t.trf c TFld.volr = r ∧ t.trf c TFld.mult = m ∧
      noted t [TFld.pitch, TFld.voll, TFld.volr, TFld.mult]
    vidx ≠ 0 → ¬ (s.trf c TFld.pvidx = vidx ∧ s.trf c TFld.ppidx = pidx ∧ started = true) →
    (s.inRom [s.cfg.trfVolTab + k] = false →
      ∃ t, step s = .next t ∧ TrafficFaulted s t c 0x05 (s.cfg.trfVolTab + k) ∧ noted t [] ∧
        t.trfFlag c TFlags.seset = started) ∧
    (s.inRom [s.cfg.trfVolTab + k] = true → 0x10 ≤ m.toNat →
      (∀ x, s.firstOut [pan, pan + 1, s.cfg.trfDistTab + k] = some x →
        ∃ t, step s = .next t ∧ TrafficFaulted s t c 0x05 x ∧ noted t [TFld.voll, TFld.volr, TFld.mult] ∧
          t.trf c TFld.mult = m ∧ t.trfFlag c TFlags.seset = started) ∧
      (s.inRom [pan, pan + 1, s.cfg.trfDistTab + k] = true → 15 < sl.toNat →
        ∃ t, step s = .next t ∧ TrafficFaulted s t c 0x06 (zext16 sl) ∧ scaled t ∧
          t.trfFlag c TFlags.seset = started) ∧
      (s.inRom [pan, pan + 1, s.cfg.trfDistTab + k] = true → sl.toNat ≤ 15 →
        ∃ t, step s = .next t ∧ TrafficDone s t c ∧ scaled t ∧ t.trfFlag c TFlags.seset = true ∧
          SlotPlays t sl s.cfg.trfWave s.cfg.trfWaveEndHi ∧
          t.pcm8 (front sl 2) = l ∧ t.pcm8 (front sl 3) = r ∧ t.pcm8 (front sl 7) = q ∧
          t.pcm8 (back sl 6) = (if started then s.pcm8 (back sl 6) else 0x00) ∧ PcmKept s t (sendAddrs sl)))

/-- Disable (R232, R236, R238): a volume index of 0, or a multiplier below 0x10 where the tables are read, clears the
record and the slot, the slot inactive, and writes nothing else. A slot above 15 raises PARAM with its number, the
record cleared by then (R240, log 23). One traffic channel per step is the model's choice (log 5). -/
def Obligations.TrafficDisables : Prop :=
  ∀ (s : State) (c : TrfCh), s.fsm = .traffic c → s.trfFollows c = true →
    let vidx := s.trfVidx c
    let a := s.cfg.trfVolTab + BitVec.ofNat 16 (vidx.toNat - 1)
    let sl := s.trfSlot c
    vidx = 0 ∨
      (¬ (s.trf c TFld.pvidx = vidx ∧ s.trf c TFld.ppidx = s.trfPidx c ∧ s.trfFlag c TFlags.seset = true) ∧
        s.inRom [a] = true ∧ (s.romAt a).toNat < 0x10) →
    ∃ t, step s = .next t ∧ RamKept s t (trfAddrs c) ∧
      (sl.toNat ≤ 15 → TrafficDone s t c ∧ TrafficCleared t c sl ∧ PcmKept s t (slotAddrs sl)) ∧
      (15 < sl.toNat → TrafficFaulted s t c 0x06 (zext16 sl) ∧ ∀ k, k < 8 → t.trf c k = 0)

/-- A reduction (R232, R234, R237): it goes on while REDUCE is set, and starts when TPASS asks for it on a channel with
start/end set. A pass takes the pitch down by its step and both volumes down by 1, at least 0; while one is left it
sends them to the slot, and when none is left it disables the channel. So after `n` passes fewer than `max(L, R)` the
volumes are `L - n` and `R - n` and the channel still sounds, and at pass `max(L, R)`, or the first when both are 0,
it is disabled, whatever the telemetry. A slot above 15 raises PARAM with its number in place of the sends, the record
written by then (R240, log 23). One traffic channel per step is the model's choice (log 5). -/
def Obligations.ReductionEnds : Prop :=
  ∀ (s : State) (c : TrfCh),
    (s.trfFlag c TFlags.reduce = true ∨ s.tpass.atTrf c = true ∧ s.trfFlag c TFlags.seset = true) →
    let sl := s.trfSlot c
    let l := (s.trf c TFld.voll).toNat
    let r := (s.trf c TFld.volr).toNat
    (s.fsm = .traffic c → 1 < max l r →
      ∃ t, step s = .next t ∧ t.trf c TFld.flags = s.trf c TFld.flags ||| 0x01 ∧
        t.trf c TFld.pitch = s.reducedPitch c ∧ (t.trf c TFld.voll).toNat = l - 1 ∧
        (t.trf c TFld.volr).toNat = r - 1 ∧
        RamKept s t ([TFld.flags, TFld.pitch, TFld.voll, TFld.volr].map (trfRec c + ·)) ∧
        (sl.toNat ≤ 15 →
          TrafficDone s t c ∧ t.pcm8 (front sl 2) = t.trf c TFld.voll ∧ t.pcm8 (front sl 3) = t.trf c TFld.volr ∧
          t.pcm8 (front sl 7) = t.trf c TFld.pitch ∧ PcmKept s t [front sl 2, front sl 3, front sl 7]) ∧
        (15 < sl.toNat → TrafficFaulted s t c 0x06 (zext16 sl))) ∧
    (s.fsm = .traffic c → max l r ≤ 1 →
      ∃ t, step s = .next t ∧ RamKept s t (trfAddrs c) ∧
        (sl.toNat ≤ 15 → TrafficDone s t c ∧ TrafficCleared t c sl ∧ PcmKept s t (slotAddrs sl)) ∧
        (15 < sl.toNat → TrafficFaulted s t c 0x06 (zext16 sl) ∧ ∀ k, k < 8 → t.trf c k = 0)) ∧
    (sl.toNat ≤ 15 →
      (∀ n, n < max l r →
        let t := trafficPasses c n s
        t.fcode = s.fcode ∧ (n ≠ 0 ∨ s.trfFlag c TFlags.reduce = true → t.trfFlag c TFlags.reduce = true) ∧
          (t.trf c TFld.voll).toNat = l - n ∧ (t.trf c TFld.volr).toNat = r - n) ∧
      TrafficCleared (trafficPasses c (max 1 (max l r)) s) c sl ∧
      (trafficPasses c (max 1 (max l r)) s).fcode = s.fcode)

/-! ## Hangs, loops and a quiet tick -/

/-- A JP to itself hangs the section (41_commands.md R146, 60_exceptions.md R256): for any number of steps the state
is the same, and no fault code is invented. One iteration of the section per step is the model's choice (log 5). -/
def Obligations.JpToItselfHangs : Prop :=
  ∀ (n : Nat) (s : State), s.fsm = .channels .fetch → s.chan.toNat < 30 → s.cur.toNat < s.cfg.romSize →
    s.romHas 2 = true → s.instrAt = .jp s.cur → steps n s = .next s

/-- A LOOP whose body is itself runs `n` times in all from a zero counter, 256 times for `n = 0`, and leaves the
counter at 0 with CUR after it (41_commands.md R148), one arrival per step (log 5). -/
def Obligations.LoopRunsItsCount : Prop :=
  ∀ (s : State) (k n : Byte), Inv s → s.fsm = .channels .fetch → s.cur.toNat < s.cfg.romSize → s.romHas 4 = true →
    s.instrAt = .loop k n s.cur → s.ram8 (recBase s.me + 0x17 + k.toNat) = 0 →
    steps (if n = 0 then 256 else n.toNat) s = .next { s with cur := s.cur + 5 }

/-- A quiet tick completes (40_sequencer.md R110, R111, R138, R139): from IDLE with no enabled record and an empty
mailbox, a tick pulse leads back to IDLE. With TOG = 1 before it, through the command intake and the channel pass
only, in 62 steps, TOG = 0 after, and nothing changed but CHAN and CHANPREV, the pending acts and MBOX_ACK. With
TOG = 0 before it, through the engine and traffic passes too, in 72 steps, TOG = 1 after: where REV is 0, every engine
channel works with volume 0, and every traffic channel follows a volume index of 0, the six engine channels are muted
and the four traffic channels cleared (43_engine_tone.md R204, R211, 44_traffic_fx.md R232, R238). The counts of steps
rest on the model's micro-steps (log 5), the pulse in a list of acts on log 8. -/
def Obligations.QuietTickCompletes : Prop :=
  ∀ (s : State) (rest : List Event), s.fsm = .idle → s.events = .tick :: rest → s.mbox = 0 →
    (∀ i, i < 30 → s.enabled i = false) →
    (s.tog = true →
      ∃ t, steps 62 s = .next t ∧
        t = { s with tog := false, chan := 29, chanPrev := 29, events := rest, mboxAck := t.mboxAck }) ∧
    (s.tog = false → s.rev = false → (∀ n, (s.engVoiced n).2 = 0 ∧ (s.engSlot n).toNat ≤ 15) →
      (∀ c, s.trfFollows c = true ∧ s.trfVidx c = 0 ∧ (s.trfSlot c).toNat ≤ 15) →
      ∃ t, steps 72 s = .next t ∧
        t = { s with
                ram := t.ram, pcm := t.pcm, tog := true, chan := 29, chanPrev := 29, engCh := 4, events := rest,
                mboxAck := t.mboxAck } ∧
        (∀ n, t.engFlag n EFlags.mute = true ∧ t.eng n EFld.active = 0 ∧ t.eng n EFld.vol = 0 ∧
          bit (t.pcm8 (back (s.engSlot n) 6)) 0 = true) ∧
        (∀ c, TrafficCleared t c (s.trfSlot c)) ∧
        (∀ a, (∀ n, a ∉ engAddrs n) → (∀ c, a ∉ trfAddrs c) → t.ram8 a = s.ram8 a) ∧
        ∀ a, (∀ n, a ∉ slotAddrs (s.engSlot n)) → (∀ c, a ∉ slotAddrs (s.trfSlot c)) → t.pcm8 a = s.pcm8 a)
end

