-- ==== Sys2Proof/Laws/State.lean ====
section
/-!
SUPPORT. The small lemmas of State: one for each field under each update, and what the readers of memory see of an
update that writes another part of the state.
-/

namespace Sys2Proof.Machine

variable (s : State)

/-! ### setRam8 -/

@[simp] theorem State.setRam8_ram (a : Nat) (v : Byte) : (s.setRam8 a v).ram = Memory.write .ram s.ram a v := rfl
@[simp] theorem State.setRam8_pcm (a : Nat) (v : Byte) : (s.setRam8 a v).pcm = s.pcm := rfl
@[simp] theorem State.setRam8_fmShadow (a : Nat) (v : Byte) : (s.setRam8 a v).fmShadow = s.fmShadow := rfl
@[simp] theorem State.setRam8_cur (a : Nat) (v : Byte) : (s.setRam8 a v).cur = s.cur := rfl
@[simp] theorem State.setRam8_chan (a : Nat) (v : Byte) : (s.setRam8 a v).chan = s.chan := rfl
@[simp] theorem State.setRam8_chanPrev (a : Nat) (v : Byte) : (s.setRam8 a v).chanPrev = s.chanPrev := rfl
@[simp] theorem State.setRam8_cmdPrev (a : Nat) (v : Byte) : (s.setRam8 a v).cmdPrev = s.cmdPrev := rfl
@[simp] theorem State.setRam8_engCh (a : Nat) (v : Byte) : (s.setRam8 a v).engCh = s.engCh := rfl
@[simp] theorem State.setRam8_tog (a : Nat) (v : Byte) : (s.setRam8 a v).tog = s.tog := rfl
@[simp] theorem State.setRam8_stdTog (a : Nat) (v : Byte) : (s.setRam8 a v).stdTog = s.stdTog := rfl
@[simp] theorem State.setRam8_fcode (a : Nat) (v : Byte) : (s.setRam8 a v).fcode = s.fcode := rfl
@[simp] theorem State.setRam8_finfo (a : Nat) (v : Byte) : (s.setRam8 a v).finfo = s.finfo := rfl
@[simp] theorem State.setRam8_fsm (a : Nat) (v : Byte) : (s.setRam8 a v).fsm = s.fsm := rfl
@[simp] theorem State.setRam8_mbox (a : Nat) (v : Byte) : (s.setRam8 a v).mbox = s.mbox := rfl
@[simp] theorem State.setRam8_telem (a : Nat) (v : Byte) : (s.setRam8 a v).telem = s.telem := rfl
@[simp] theorem State.setRam8_engTel (a : Nat) (v : Byte) : (s.setRam8 a v).engTel = s.engTel := rfl
@[simp] theorem State.setRam8_rev (a : Nat) (v : Byte) : (s.setRam8 a v).rev = s.rev := rfl
@[simp] theorem State.setRam8_tpass (a : Nat) (v : Byte) : (s.setRam8 a v).tpass = s.tpass := rfl
@[simp] theorem State.setRam8_mboxAck (a : Nat) (v : Byte) : (s.setRam8 a v).mboxAck = s.mboxAck := rfl
@[simp] theorem State.setRam8_fmOut (a : Nat) (v : Byte) : (s.setRam8 a v).fmOut = s.fmOut := rfl
@[simp] theorem State.setRam8_fmIn (a : Nat) (v : Byte) : (s.setRam8 a v).fmIn = s.fmIn := rfl
@[simp] theorem State.setRam8_fmDraws (a : Nat) (v : Byte) : (s.setRam8 a v).fmDraws = s.fmDraws := rfl
@[simp] theorem State.setRam8_events (a : Nat) (v : Byte) : (s.setRam8 a v).events = s.events := rfl
@[simp] theorem State.setRam8_rom (a : Nat) (v : Byte) : (s.setRam8 a v).rom = s.rom := rfl
@[simp] theorem State.setRam8_cfg (a : Nat) (v : Byte) : (s.setRam8 a v).cfg = s.cfg := rfl

@[simp] theorem State.pcm8_setRam8 (a : Nat) (v : Byte) (x : Nat) : (s.setRam8 a v).pcm8 x = s.pcm8 x := rfl
@[simp] theorem State.shadow_setRam8 (a : Nat) (v : Byte) (r : Byte) : (s.setRam8 a v).shadow r = s.shadow r := rfl
@[simp] theorem State.romAt_setRam8 (a : Nat) (v : Byte) (x : Word) : (s.setRam8 a v).romAt x = s.romAt x := rfl
@[simp] theorem State.fmAnswer_setRam8 (a : Nat) (v : Byte) : (s.setRam8 a v).fmAnswer = s.fmAnswer := rfl
@[simp] theorem State.fmBusy_setRam8 (a : Nat) (v : Byte) : (s.setRam8 a v).fmBusy = s.fmBusy := rfl

/-! ### setRam16 -/

@[simp] theorem State.setRam16_pcm (a : Nat) (v : Word) : (s.setRam16 a v).pcm = s.pcm := rfl
@[simp] theorem State.setRam16_fmShadow (a : Nat) (v : Word) : (s.setRam16 a v).fmShadow = s.fmShadow := rfl
@[simp] theorem State.setRam16_cur (a : Nat) (v : Word) : (s.setRam16 a v).cur = s.cur := rfl
@[simp] theorem State.setRam16_chan (a : Nat) (v : Word) : (s.setRam16 a v).chan = s.chan := rfl
@[simp] theorem State.setRam16_chanPrev (a : Nat) (v : Word) : (s.setRam16 a v).chanPrev = s.chanPrev := rfl
@[simp] theorem State.setRam16_cmdPrev (a : Nat) (v : Word) : (s.setRam16 a v).cmdPrev = s.cmdPrev := rfl
@[simp] theorem State.setRam16_engCh (a : Nat) (v : Word) : (s.setRam16 a v).engCh = s.engCh := rfl
@[simp] theorem State.setRam16_tog (a : Nat) (v : Word) : (s.setRam16 a v).tog = s.tog := rfl
@[simp] theorem State.setRam16_stdTog (a : Nat) (v : Word) : (s.setRam16 a v).stdTog = s.stdTog := rfl
@[simp] theorem State.setRam16_fcode (a : Nat) (v : Word) : (s.setRam16 a v).fcode = s.fcode := rfl
@[simp] theorem State.setRam16_finfo (a : Nat) (v : Word) : (s.setRam16 a v).finfo = s.finfo := rfl
@[simp] theorem State.setRam16_fsm (a : Nat) (v : Word) : (s.setRam16 a v).fsm = s.fsm := rfl
@[simp] theorem State.setRam16_mbox (a : Nat) (v : Word) : (s.setRam16 a v).mbox = s.mbox := rfl
@[simp] theorem State.setRam16_telem (a : Nat) (v : Word) : (s.setRam16 a v).telem = s.telem := rfl
@[simp] theorem State.setRam16_engTel (a : Nat) (v : Word) : (s.setRam16 a v).engTel = s.engTel := rfl
@[simp] theorem State.setRam16_rev (a : Nat) (v : Word) : (s.setRam16 a v).rev = s.rev := rfl
@[simp] theorem State.setRam16_tpass (a : Nat) (v : Word) : (s.setRam16 a v).tpass = s.tpass := rfl
@[simp] theorem State.setRam16_mboxAck (a : Nat) (v : Word) : (s.setRam16 a v).mboxAck = s.mboxAck := rfl
@[simp] theorem State.setRam16_fmOut (a : Nat) (v : Word) : (s.setRam16 a v).fmOut = s.fmOut := rfl
@[simp] theorem State.setRam16_fmIn (a : Nat) (v : Word) : (s.setRam16 a v).fmIn = s.fmIn := rfl
@[simp] theorem State.setRam16_fmDraws (a : Nat) (v : Word) : (s.setRam16 a v).fmDraws = s.fmDraws := rfl
@[simp] theorem State.setRam16_events (a : Nat) (v : Word) : (s.setRam16 a v).events = s.events := rfl
@[simp] theorem State.setRam16_rom (a : Nat) (v : Word) : (s.setRam16 a v).rom = s.rom := rfl
@[simp] theorem State.setRam16_cfg (a : Nat) (v : Word) : (s.setRam16 a v).cfg = s.cfg := rfl

@[simp] theorem State.pcm8_setRam16 (a : Nat) (v : Word) (x : Nat) : (s.setRam16 a v).pcm8 x = s.pcm8 x := rfl
@[simp] theorem State.shadow_setRam16 (a : Nat) (v : Word) (r : Byte) : (s.setRam16 a v).shadow r = s.shadow r := rfl
@[simp] theorem State.romAt_setRam16 (a : Nat) (v : Word) (x : Word) : (s.setRam16 a v).romAt x = s.romAt x := rfl
@[simp] theorem State.fmAnswer_setRam16 (a : Nat) (v : Word) : (s.setRam16 a v).fmAnswer = s.fmAnswer := rfl
@[simp] theorem State.fmBusy_setRam16 (a : Nat) (v : Word) : (s.setRam16 a v).fmBusy = s.fmBusy := rfl

/-! ### setCh -/

@[simp] theorem State.setCh_pcm (i f : Nat) (v : Byte) : (s.setCh i f v).pcm = s.pcm := rfl
@[simp] theorem State.setCh_fmShadow (i f : Nat) (v : Byte) : (s.setCh i f v).fmShadow = s.fmShadow := rfl
@[simp] theorem State.setCh_cur (i f : Nat) (v : Byte) : (s.setCh i f v).cur = s.cur := rfl
@[simp] theorem State.setCh_chan (i f : Nat) (v : Byte) : (s.setCh i f v).chan = s.chan := rfl
@[simp] theorem State.setCh_chanPrev (i f : Nat) (v : Byte) : (s.setCh i f v).chanPrev = s.chanPrev := rfl
@[simp] theorem State.setCh_cmdPrev (i f : Nat) (v : Byte) : (s.setCh i f v).cmdPrev = s.cmdPrev := rfl
@[simp] theorem State.setCh_engCh (i f : Nat) (v : Byte) : (s.setCh i f v).engCh = s.engCh := rfl
@[simp] theorem State.setCh_tog (i f : Nat) (v : Byte) : (s.setCh i f v).tog = s.tog := rfl
@[simp] theorem State.setCh_stdTog (i f : Nat) (v : Byte) : (s.setCh i f v).stdTog = s.stdTog := rfl
@[simp] theorem State.setCh_fcode (i f : Nat) (v : Byte) : (s.setCh i f v).fcode = s.fcode := rfl
@[simp] theorem State.setCh_finfo (i f : Nat) (v : Byte) : (s.setCh i f v).finfo = s.finfo := rfl
@[simp] theorem State.setCh_fsm (i f : Nat) (v : Byte) : (s.setCh i f v).fsm = s.fsm := rfl
@[simp] theorem State.setCh_mbox (i f : Nat) (v : Byte) : (s.setCh i f v).mbox = s.mbox := rfl
@[simp] theorem State.setCh_telem (i f : Nat) (v : Byte) : (s.setCh i f v).telem = s.telem := rfl
@[simp] theorem State.setCh_engTel (i f : Nat) (v : Byte) : (s.setCh i f v).engTel = s.engTel := rfl
@[simp] theorem State.setCh_rev (i f : Nat) (v : Byte) : (s.setCh i f v).rev = s.rev := rfl
@[simp] theorem State.setCh_tpass (i f : Nat) (v : Byte) : (s.setCh i f v).tpass = s.tpass := rfl
@[simp] theorem State.setCh_mboxAck (i f : Nat) (v : Byte) : (s.setCh i f v).mboxAck = s.mboxAck := rfl
@[simp] theorem State.setCh_fmOut (i f : Nat) (v : Byte) : (s.setCh i f v).fmOut = s.fmOut := rfl
@[simp] theorem State.setCh_fmIn (i f : Nat) (v : Byte) : (s.setCh i f v).fmIn = s.fmIn := rfl
@[simp] theorem State.setCh_fmDraws (i f : Nat) (v : Byte) : (s.setCh i f v).fmDraws = s.fmDraws := rfl
@[simp] theorem State.setCh_events (i f : Nat) (v : Byte) : (s.setCh i f v).events = s.events := rfl
@[simp] theorem State.setCh_rom (i f : Nat) (v : Byte) : (s.setCh i f v).rom = s.rom := rfl
@[simp] theorem State.setCh_cfg (i f : Nat) (v : Byte) : (s.setCh i f v).cfg = s.cfg := rfl

@[simp] theorem State.pcm8_setCh (i f : Nat) (v : Byte) (x : Nat) : (s.setCh i f v).pcm8 x = s.pcm8 x := rfl
@[simp] theorem State.shadow_setCh (i f : Nat) (v : Byte) (r : Byte) : (s.setCh i f v).shadow r = s.shadow r := rfl
@[simp] theorem State.romAt_setCh (i f : Nat) (v : Byte) (x : Word) : (s.setCh i f v).romAt x = s.romAt x := rfl
@[simp] theorem State.fmAnswer_setCh (i f : Nat) (v : Byte) : (s.setCh i f v).fmAnswer = s.fmAnswer := rfl
@[simp] theorem State.fmBusy_setCh (i f : Nat) (v : Byte) : (s.setCh i f v).fmBusy = s.fmBusy := rfl

/-! ### setCh16 -/

@[simp] theorem State.setCh16_pcm (i f : Nat) (v : Word) : (s.setCh16 i f v).pcm = s.pcm := rfl
@[simp] theorem State.setCh16_fmShadow (i f : Nat) (v : Word) : (s.setCh16 i f v).fmShadow = s.fmShadow := rfl
@[simp] theorem State.setCh16_cur (i f : Nat) (v : Word) : (s.setCh16 i f v).cur = s.cur := rfl
@[simp] theorem State.setCh16_chan (i f : Nat) (v : Word) : (s.setCh16 i f v).chan = s.chan := rfl
@[simp] theorem State.setCh16_chanPrev (i f : Nat) (v : Word) : (s.setCh16 i f v).chanPrev = s.chanPrev := rfl
@[simp] theorem State.setCh16_cmdPrev (i f : Nat) (v : Word) : (s.setCh16 i f v).cmdPrev = s.cmdPrev := rfl
@[simp] theorem State.setCh16_engCh (i f : Nat) (v : Word) : (s.setCh16 i f v).engCh = s.engCh := rfl
@[simp] theorem State.setCh16_tog (i f : Nat) (v : Word) : (s.setCh16 i f v).tog = s.tog := rfl
@[simp] theorem State.setCh16_stdTog (i f : Nat) (v : Word) : (s.setCh16 i f v).stdTog = s.stdTog := rfl
@[simp] theorem State.setCh16_fcode (i f : Nat) (v : Word) : (s.setCh16 i f v).fcode = s.fcode := rfl
@[simp] theorem State.setCh16_finfo (i f : Nat) (v : Word) : (s.setCh16 i f v).finfo = s.finfo := rfl
@[simp] theorem State.setCh16_fsm (i f : Nat) (v : Word) : (s.setCh16 i f v).fsm = s.fsm := rfl
@[simp] theorem State.setCh16_mbox (i f : Nat) (v : Word) : (s.setCh16 i f v).mbox = s.mbox := rfl
@[simp] theorem State.setCh16_telem (i f : Nat) (v : Word) : (s.setCh16 i f v).telem = s.telem := rfl
@[simp] theorem State.setCh16_engTel (i f : Nat) (v : Word) : (s.setCh16 i f v).engTel = s.engTel := rfl
@[simp] theorem State.setCh16_rev (i f : Nat) (v : Word) : (s.setCh16 i f v).rev = s.rev := rfl
@[simp] theorem State.setCh16_tpass (i f : Nat) (v : Word) : (s.setCh16 i f v).tpass = s.tpass := rfl
@[simp] theorem State.setCh16_mboxAck (i f : Nat) (v : Word) : (s.setCh16 i f v).mboxAck = s.mboxAck := rfl
@[simp] theorem State.setCh16_fmOut (i f : Nat) (v : Word) : (s.setCh16 i f v).fmOut = s.fmOut := rfl
@[simp] theorem State.setCh16_fmIn (i f : Nat) (v : Word) : (s.setCh16 i f v).fmIn = s.fmIn := rfl
@[simp] theorem State.setCh16_fmDraws (i f : Nat) (v : Word) : (s.setCh16 i f v).fmDraws = s.fmDraws := rfl
@[simp] theorem State.setCh16_events (i f : Nat) (v : Word) : (s.setCh16 i f v).events = s.events := rfl
@[simp] theorem State.setCh16_rom (i f : Nat) (v : Word) : (s.setCh16 i f v).rom = s.rom := rfl
@[simp] theorem State.setCh16_cfg (i f : Nat) (v : Word) : (s.setCh16 i f v).cfg = s.cfg := rfl

@[simp] theorem State.pcm8_setCh16 (i f : Nat) (v : Word) (x : Nat) : (s.setCh16 i f v).pcm8 x = s.pcm8 x := rfl
@[simp] theorem State.shadow_setCh16 (i f : Nat) (v : Word) (r : Byte) : (s.setCh16 i f v).shadow r = s.shadow r := rfl
@[simp] theorem State.romAt_setCh16 (i f : Nat) (v : Word) (x : Word) : (s.setCh16 i f v).romAt x = s.romAt x := rfl
@[simp] theorem State.fmAnswer_setCh16 (i f : Nat) (v : Word) : (s.setCh16 i f v).fmAnswer = s.fmAnswer := rfl
@[simp] theorem State.fmBusy_setCh16 (i f : Nat) (v : Word) : (s.setCh16 i f v).fmBusy = s.fmBusy := rfl

/-! ### setPcm8 -/

@[simp] theorem State.setPcm8_ram (a : Nat) (v : Byte) : (s.setPcm8 a v).ram = s.ram := rfl
@[simp] theorem State.setPcm8_pcm (a : Nat) (v : Byte) : (s.setPcm8 a v).pcm = Memory.write .pcm s.pcm a v := rfl
@[simp] theorem State.setPcm8_fmShadow (a : Nat) (v : Byte) : (s.setPcm8 a v).fmShadow = s.fmShadow := rfl
@[simp] theorem State.setPcm8_cur (a : Nat) (v : Byte) : (s.setPcm8 a v).cur = s.cur := rfl
@[simp] theorem State.setPcm8_chan (a : Nat) (v : Byte) : (s.setPcm8 a v).chan = s.chan := rfl
@[simp] theorem State.setPcm8_chanPrev (a : Nat) (v : Byte) : (s.setPcm8 a v).chanPrev = s.chanPrev := rfl
@[simp] theorem State.setPcm8_cmdPrev (a : Nat) (v : Byte) : (s.setPcm8 a v).cmdPrev = s.cmdPrev := rfl
@[simp] theorem State.setPcm8_engCh (a : Nat) (v : Byte) : (s.setPcm8 a v).engCh = s.engCh := rfl
@[simp] theorem State.setPcm8_tog (a : Nat) (v : Byte) : (s.setPcm8 a v).tog = s.tog := rfl
@[simp] theorem State.setPcm8_stdTog (a : Nat) (v : Byte) : (s.setPcm8 a v).stdTog = s.stdTog := rfl
@[simp] theorem State.setPcm8_fcode (a : Nat) (v : Byte) : (s.setPcm8 a v).fcode = s.fcode := rfl
@[simp] theorem State.setPcm8_finfo (a : Nat) (v : Byte) : (s.setPcm8 a v).finfo = s.finfo := rfl
@[simp] theorem State.setPcm8_fsm (a : Nat) (v : Byte) : (s.setPcm8 a v).fsm = s.fsm := rfl
@[simp] theorem State.setPcm8_mbox (a : Nat) (v : Byte) : (s.setPcm8 a v).mbox = s.mbox := rfl
@[simp] theorem State.setPcm8_telem (a : Nat) (v : Byte) : (s.setPcm8 a v).telem = s.telem := rfl
@[simp] theorem State.setPcm8_engTel (a : Nat) (v : Byte) : (s.setPcm8 a v).engTel = s.engTel := rfl
@[simp] theorem State.setPcm8_rev (a : Nat) (v : Byte) : (s.setPcm8 a v).rev = s.rev := rfl
@[simp] theorem State.setPcm8_tpass (a : Nat) (v : Byte) : (s.setPcm8 a v).tpass = s.tpass := rfl
@[simp] theorem State.setPcm8_mboxAck (a : Nat) (v : Byte) : (s.setPcm8 a v).mboxAck = s.mboxAck := rfl
@[simp] theorem State.setPcm8_fmOut (a : Nat) (v : Byte) : (s.setPcm8 a v).fmOut = s.fmOut := rfl
@[simp] theorem State.setPcm8_fmIn (a : Nat) (v : Byte) : (s.setPcm8 a v).fmIn = s.fmIn := rfl
@[simp] theorem State.setPcm8_fmDraws (a : Nat) (v : Byte) : (s.setPcm8 a v).fmDraws = s.fmDraws := rfl
@[simp] theorem State.setPcm8_events (a : Nat) (v : Byte) : (s.setPcm8 a v).events = s.events := rfl
@[simp] theorem State.setPcm8_rom (a : Nat) (v : Byte) : (s.setPcm8 a v).rom = s.rom := rfl
@[simp] theorem State.setPcm8_cfg (a : Nat) (v : Byte) : (s.setPcm8 a v).cfg = s.cfg := rfl

@[simp] theorem State.ram8_setPcm8 (a : Nat) (v : Byte) (x : Nat) : (s.setPcm8 a v).ram8 x = s.ram8 x := rfl
@[simp] theorem State.ram16_setPcm8 (a : Nat) (v : Byte) (x : Nat) : (s.setPcm8 a v).ram16 x = s.ram16 x := rfl
@[simp] theorem State.ch_setPcm8 (a : Nat) (v : Byte) (j g : Nat) : (s.setPcm8 a v).ch j g = s.ch j g := rfl
@[simp] theorem State.ch16_setPcm8 (a : Nat) (v : Byte) (j g : Nat) : (s.setPcm8 a v).ch16 j g = s.ch16 j g := rfl
@[simp] theorem State.enabled_setPcm8 (a : Nat) (v : Byte) (j : Nat) : (s.setPcm8 a v).enabled j = s.enabled j := rfl
@[simp] theorem State.isPcm_setPcm8 (a : Nat) (v : Byte) (j : Nat) : (s.setPcm8 a v).isPcm j = s.isPcm j := rfl
@[simp] theorem State.muteCorr_setPcm8 (a : Nat) (v : Byte) (j : Nat) : (s.setPcm8 a v).muteCorr j = s.muteCorr j := rfl
@[simp] theorem State.ym_setPcm8 (a : Nat) (v : Byte) (j : Nat) : (s.setPcm8 a v).ym j = s.ym j := rfl
@[simp] theorem State.suppressed_setPcm8 (a : Nat) (v : Byte) (j : Nat) : (s.setPcm8 a v).suppressed j = s.suppressed j := rfl
@[simp] theorem State.shadow_setPcm8 (a : Nat) (v : Byte) (r : Byte) : (s.setPcm8 a v).shadow r = s.shadow r := rfl
@[simp] theorem State.romAt_setPcm8 (a : Nat) (v : Byte) (x : Word) : (s.setPcm8 a v).romAt x = s.romAt x := rfl
@[simp] theorem State.fmAnswer_setPcm8 (a : Nat) (v : Byte) : (s.setPcm8 a v).fmAnswer = s.fmAnswer := rfl
@[simp] theorem State.fmBusy_setPcm8 (a : Nat) (v : Byte) : (s.setPcm8 a v).fmBusy = s.fmBusy := rfl

/-! ### setCur -/

@[simp] theorem State.setCur_ram (a : Word) : (s.setCur a).ram = s.ram := rfl
@[simp] theorem State.setCur_pcm (a : Word) : (s.setCur a).pcm = s.pcm := rfl
@[simp] theorem State.setCur_fmShadow (a : Word) : (s.setCur a).fmShadow = s.fmShadow := rfl
@[simp] theorem State.setCur_cur (a : Word) : (s.setCur a).cur = a := rfl
@[simp] theorem State.setCur_chan (a : Word) : (s.setCur a).chan = s.chan := rfl
@[simp] theorem State.setCur_chanPrev (a : Word) : (s.setCur a).chanPrev = s.chanPrev := rfl
@[simp] theorem State.setCur_cmdPrev (a : Word) : (s.setCur a).cmdPrev = s.cmdPrev := rfl
@[simp] theorem State.setCur_engCh (a : Word) : (s.setCur a).engCh = s.engCh := rfl
@[simp] theorem State.setCur_tog (a : Word) : (s.setCur a).tog = s.tog := rfl
@[simp] theorem State.setCur_stdTog (a : Word) : (s.setCur a).stdTog = s.stdTog := rfl
@[simp] theorem State.setCur_fcode (a : Word) : (s.setCur a).fcode = s.fcode := rfl
@[simp] theorem State.setCur_finfo (a : Word) : (s.setCur a).finfo = s.finfo := rfl
@[simp] theorem State.setCur_fsm (a : Word) : (s.setCur a).fsm = s.fsm := rfl
@[simp] theorem State.setCur_mbox (a : Word) : (s.setCur a).mbox = s.mbox := rfl
@[simp] theorem State.setCur_telem (a : Word) : (s.setCur a).telem = s.telem := rfl
@[simp] theorem State.setCur_engTel (a : Word) : (s.setCur a).engTel = s.engTel := rfl
@[simp] theorem State.setCur_rev (a : Word) : (s.setCur a).rev = s.rev := rfl
@[simp] theorem State.setCur_tpass (a : Word) : (s.setCur a).tpass = s.tpass := rfl
@[simp] theorem State.setCur_mboxAck (a : Word) : (s.setCur a).mboxAck = s.mboxAck := rfl
@[simp] theorem State.setCur_fmOut (a : Word) : (s.setCur a).fmOut = s.fmOut := rfl
@[simp] theorem State.setCur_fmIn (a : Word) : (s.setCur a).fmIn = s.fmIn := rfl
@[simp] theorem State.setCur_fmDraws (a : Word) : (s.setCur a).fmDraws = s.fmDraws := rfl
@[simp] theorem State.setCur_events (a : Word) : (s.setCur a).events = s.events := rfl
@[simp] theorem State.setCur_rom (a : Word) : (s.setCur a).rom = s.rom := rfl
@[simp] theorem State.setCur_cfg (a : Word) : (s.setCur a).cfg = s.cfg := rfl

@[simp] theorem State.ram8_setCur (a : Word) (x : Nat) : (s.setCur a).ram8 x = s.ram8 x := rfl
@[simp] theorem State.ram16_setCur (a : Word) (x : Nat) : (s.setCur a).ram16 x = s.ram16 x := rfl
@[simp] theorem State.ch_setCur (a : Word) (j g : Nat) : (s.setCur a).ch j g = s.ch j g := rfl
@[simp] theorem State.ch16_setCur (a : Word) (j g : Nat) : (s.setCur a).ch16 j g = s.ch16 j g := rfl
@[simp] theorem State.enabled_setCur (a : Word) (j : Nat) : (s.setCur a).enabled j = s.enabled j := rfl
@[simp] theorem State.isPcm_setCur (a : Word) (j : Nat) : (s.setCur a).isPcm j = s.isPcm j := rfl
@[simp] theorem State.muteCorr_setCur (a : Word) (j : Nat) : (s.setCur a).muteCorr j = s.muteCorr j := rfl
@[simp] theorem State.ym_setCur (a : Word) (j : Nat) : (s.setCur a).ym j = s.ym j := rfl
@[simp] theorem State.suppressed_setCur (a : Word) (j : Nat) : (s.setCur a).suppressed j = s.suppressed j := rfl
@[simp] theorem State.pcm8_setCur (a : Word) (x : Nat) : (s.setCur a).pcm8 x = s.pcm8 x := rfl
@[simp] theorem State.shadow_setCur (a : Word) (r : Byte) : (s.setCur a).shadow r = s.shadow r := rfl
@[simp] theorem State.romAt_setCur (a : Word) (x : Word) : (s.setCur a).romAt x = s.romAt x := rfl
@[simp] theorem State.fmAnswer_setCur (a : Word) : (s.setCur a).fmAnswer = s.fmAnswer := rfl
@[simp] theorem State.fmBusy_setCur (a : Word) : (s.setCur a).fmBusy = s.fmBusy := rfl

/-! ### setChan -/

@[simp] theorem State.setChan_ram (i : Byte) : (s.setChan i).ram = s.ram := rfl
@[simp] theorem State.setChan_pcm (i : Byte) : (s.setChan i).pcm = s.pcm := rfl
@[simp] theorem State.setChan_fmShadow (i : Byte) : (s.setChan i).fmShadow = s.fmShadow := rfl
@[simp] theorem State.setChan_cur (i : Byte) : (s.setChan i).cur = s.cur := rfl
@[simp] theorem State.setChan_chan (i : Byte) : (s.setChan i).chan = i := rfl
@[simp] theorem State.setChan_chanPrev (i : Byte) : (s.setChan i).chanPrev = s.chanPrev := rfl
@[simp] theorem State.setChan_cmdPrev (i : Byte) : (s.setChan i).cmdPrev = s.cmdPrev := rfl
@[simp] theorem State.setChan_engCh (i : Byte) : (s.setChan i).engCh = s.engCh := rfl
@[simp] theorem State.setChan_tog (i : Byte) : (s.setChan i).tog = s.tog := rfl
@[simp] theorem State.setChan_stdTog (i : Byte) : (s.setChan i).stdTog = s.stdTog := rfl
@[simp] theorem State.setChan_fcode (i : Byte) : (s.setChan i).fcode = s.fcode := rfl
@[simp] theorem State.setChan_finfo (i : Byte) : (s.setChan i).finfo = s.finfo := rfl
@[simp] theorem State.setChan_fsm (i : Byte) : (s.setChan i).fsm = s.fsm := rfl
@[simp] theorem State.setChan_mbox (i : Byte) : (s.setChan i).mbox = s.mbox := rfl
@[simp] theorem State.setChan_telem (i : Byte) : (s.setChan i).telem = s.telem := rfl
@[simp] theorem State.setChan_engTel (i : Byte) : (s.setChan i).engTel = s.engTel := rfl
@[simp] theorem State.setChan_rev (i : Byte) : (s.setChan i).rev = s.rev := rfl
@[simp] theorem State.setChan_tpass (i : Byte) : (s.setChan i).tpass = s.tpass := rfl
@[simp] theorem State.setChan_mboxAck (i : Byte) : (s.setChan i).mboxAck = s.mboxAck := rfl
@[simp] theorem State.setChan_fmOut (i : Byte) : (s.setChan i).fmOut = s.fmOut := rfl
@[simp] theorem State.setChan_fmIn (i : Byte) : (s.setChan i).fmIn = s.fmIn := rfl
@[simp] theorem State.setChan_fmDraws (i : Byte) : (s.setChan i).fmDraws = s.fmDraws := rfl
@[simp] theorem State.setChan_events (i : Byte) : (s.setChan i).events = s.events := rfl
@[simp] theorem State.setChan_rom (i : Byte) : (s.setChan i).rom = s.rom := rfl
@[simp] theorem State.setChan_cfg (i : Byte) : (s.setChan i).cfg = s.cfg := rfl

@[simp] theorem State.ram8_setChan (i : Byte) (x : Nat) : (s.setChan i).ram8 x = s.ram8 x := rfl
@[simp] theorem State.ram16_setChan (i : Byte) (x : Nat) : (s.setChan i).ram16 x = s.ram16 x := rfl
@[simp] theorem State.ch_setChan (i : Byte) (j g : Nat) : (s.setChan i).ch j g = s.ch j g := rfl
@[simp] theorem State.ch16_setChan (i : Byte) (j g : Nat) : (s.setChan i).ch16 j g = s.ch16 j g := rfl
@[simp] theorem State.enabled_setChan (i : Byte) (j : Nat) : (s.setChan i).enabled j = s.enabled j := rfl
@[simp] theorem State.isPcm_setChan (i : Byte) (j : Nat) : (s.setChan i).isPcm j = s.isPcm j := rfl
@[simp] theorem State.muteCorr_setChan (i : Byte) (j : Nat) : (s.setChan i).muteCorr j = s.muteCorr j := rfl
@[simp] theorem State.ym_setChan (i : Byte) (j : Nat) : (s.setChan i).ym j = s.ym j := rfl
@[simp] theorem State.suppressed_setChan (i : Byte) (j : Nat) : (s.setChan i).suppressed j = s.suppressed j := rfl
@[simp] theorem State.pcm8_setChan (i : Byte) (x : Nat) : (s.setChan i).pcm8 x = s.pcm8 x := rfl
@[simp] theorem State.shadow_setChan (i : Byte) (r : Byte) : (s.setChan i).shadow r = s.shadow r := rfl
@[simp] theorem State.romAt_setChan (i : Byte) (x : Word) : (s.setChan i).romAt x = s.romAt x := rfl
@[simp] theorem State.fmAnswer_setChan (i : Byte) : (s.setChan i).fmAnswer = s.fmAnswer := rfl
@[simp] theorem State.fmBusy_setChan (i : Byte) : (s.setChan i).fmBusy = s.fmBusy := rfl

/-! ### setChanPrev -/

@[simp] theorem State.setChanPrev_ram (i : Byte) : (s.setChanPrev i).ram = s.ram := rfl
@[simp] theorem State.setChanPrev_pcm (i : Byte) : (s.setChanPrev i).pcm = s.pcm := rfl
@[simp] theorem State.setChanPrev_fmShadow (i : Byte) : (s.setChanPrev i).fmShadow = s.fmShadow := rfl
@[simp] theorem State.setChanPrev_cur (i : Byte) : (s.setChanPrev i).cur = s.cur := rfl
@[simp] theorem State.setChanPrev_chan (i : Byte) : (s.setChanPrev i).chan = s.chan := rfl
@[simp] theorem State.setChanPrev_chanPrev (i : Byte) : (s.setChanPrev i).chanPrev = i := rfl
@[simp] theorem State.setChanPrev_cmdPrev (i : Byte) : (s.setChanPrev i).cmdPrev = s.cmdPrev := rfl
@[simp] theorem State.setChanPrev_engCh (i : Byte) : (s.setChanPrev i).engCh = s.engCh := rfl
@[simp] theorem State.setChanPrev_tog (i : Byte) : (s.setChanPrev i).tog = s.tog := rfl
@[simp] theorem State.setChanPrev_stdTog (i : Byte) : (s.setChanPrev i).stdTog = s.stdTog := rfl
@[simp] theorem State.setChanPrev_fcode (i : Byte) : (s.setChanPrev i).fcode = s.fcode := rfl
@[simp] theorem State.setChanPrev_finfo (i : Byte) : (s.setChanPrev i).finfo = s.finfo := rfl
@[simp] theorem State.setChanPrev_fsm (i : Byte) : (s.setChanPrev i).fsm = s.fsm := rfl
@[simp] theorem State.setChanPrev_mbox (i : Byte) : (s.setChanPrev i).mbox = s.mbox := rfl
@[simp] theorem State.setChanPrev_telem (i : Byte) : (s.setChanPrev i).telem = s.telem := rfl
@[simp] theorem State.setChanPrev_engTel (i : Byte) : (s.setChanPrev i).engTel = s.engTel := rfl
@[simp] theorem State.setChanPrev_rev (i : Byte) : (s.setChanPrev i).rev = s.rev := rfl
@[simp] theorem State.setChanPrev_tpass (i : Byte) : (s.setChanPrev i).tpass = s.tpass := rfl
@[simp] theorem State.setChanPrev_mboxAck (i : Byte) : (s.setChanPrev i).mboxAck = s.mboxAck := rfl
@[simp] theorem State.setChanPrev_fmOut (i : Byte) : (s.setChanPrev i).fmOut = s.fmOut := rfl
@[simp] theorem State.setChanPrev_fmIn (i : Byte) : (s.setChanPrev i).fmIn = s.fmIn := rfl
@[simp] theorem State.setChanPrev_fmDraws (i : Byte) : (s.setChanPrev i).fmDraws = s.fmDraws := rfl
@[simp] theorem State.setChanPrev_events (i : Byte) : (s.setChanPrev i).events = s.events := rfl
@[simp] theorem State.setChanPrev_rom (i : Byte) : (s.setChanPrev i).rom = s.rom := rfl
@[simp] theorem State.setChanPrev_cfg (i : Byte) : (s.setChanPrev i).cfg = s.cfg := rfl

@[simp] theorem State.ram8_setChanPrev (i : Byte) (x : Nat) : (s.setChanPrev i).ram8 x = s.ram8 x := rfl
@[simp] theorem State.ram16_setChanPrev (i : Byte) (x : Nat) : (s.setChanPrev i).ram16 x = s.ram16 x := rfl
@[simp] theorem State.ch_setChanPrev (i : Byte) (j g : Nat) : (s.setChanPrev i).ch j g = s.ch j g := rfl
@[simp] theorem State.ch16_setChanPrev (i : Byte) (j g : Nat) : (s.setChanPrev i).ch16 j g = s.ch16 j g := rfl
@[simp] theorem State.enabled_setChanPrev (i : Byte) (j : Nat) : (s.setChanPrev i).enabled j = s.enabled j := rfl
@[simp] theorem State.isPcm_setChanPrev (i : Byte) (j : Nat) : (s.setChanPrev i).isPcm j = s.isPcm j := rfl
@[simp] theorem State.muteCorr_setChanPrev (i : Byte) (j : Nat) : (s.setChanPrev i).muteCorr j = s.muteCorr j := rfl
@[simp] theorem State.ym_setChanPrev (i : Byte) (j : Nat) : (s.setChanPrev i).ym j = s.ym j := rfl
@[simp] theorem State.suppressed_setChanPrev (i : Byte) (j : Nat) : (s.setChanPrev i).suppressed j = s.suppressed j := rfl
@[simp] theorem State.pcm8_setChanPrev (i : Byte) (x : Nat) : (s.setChanPrev i).pcm8 x = s.pcm8 x := rfl
@[simp] theorem State.shadow_setChanPrev (i : Byte) (r : Byte) : (s.setChanPrev i).shadow r = s.shadow r := rfl
@[simp] theorem State.romAt_setChanPrev (i : Byte) (x : Word) : (s.setChanPrev i).romAt x = s.romAt x := rfl
@[simp] theorem State.fmAnswer_setChanPrev (i : Byte) : (s.setChanPrev i).fmAnswer = s.fmAnswer := rfl
@[simp] theorem State.fmBusy_setChanPrev (i : Byte) : (s.setChanPrev i).fmBusy = s.fmBusy := rfl

/-! ### setCmdPrev -/

@[simp] theorem State.setCmdPrev_ram (c : Byte) : (s.setCmdPrev c).ram = s.ram := rfl
@[simp] theorem State.setCmdPrev_pcm (c : Byte) : (s.setCmdPrev c).pcm = s.pcm := rfl
@[simp] theorem State.setCmdPrev_fmShadow (c : Byte) : (s.setCmdPrev c).fmShadow = s.fmShadow := rfl
@[simp] theorem State.setCmdPrev_cur (c : Byte) : (s.setCmdPrev c).cur = s.cur := rfl
@[simp] theorem State.setCmdPrev_chan (c : Byte) : (s.setCmdPrev c).chan = s.chan := rfl
@[simp] theorem State.setCmdPrev_chanPrev (c : Byte) : (s.setCmdPrev c).chanPrev = s.chanPrev := rfl
@[simp] theorem State.setCmdPrev_cmdPrev (c : Byte) : (s.setCmdPrev c).cmdPrev = c := rfl
@[simp] theorem State.setCmdPrev_engCh (c : Byte) : (s.setCmdPrev c).engCh = s.engCh := rfl
@[simp] theorem State.setCmdPrev_tog (c : Byte) : (s.setCmdPrev c).tog = s.tog := rfl
@[simp] theorem State.setCmdPrev_stdTog (c : Byte) : (s.setCmdPrev c).stdTog = s.stdTog := rfl
@[simp] theorem State.setCmdPrev_fcode (c : Byte) : (s.setCmdPrev c).fcode = s.fcode := rfl
@[simp] theorem State.setCmdPrev_finfo (c : Byte) : (s.setCmdPrev c).finfo = s.finfo := rfl
@[simp] theorem State.setCmdPrev_fsm (c : Byte) : (s.setCmdPrev c).fsm = s.fsm := rfl
@[simp] theorem State.setCmdPrev_mbox (c : Byte) : (s.setCmdPrev c).mbox = s.mbox := rfl
@[simp] theorem State.setCmdPrev_telem (c : Byte) : (s.setCmdPrev c).telem = s.telem := rfl
@[simp] theorem State.setCmdPrev_engTel (c : Byte) : (s.setCmdPrev c).engTel = s.engTel := rfl
@[simp] theorem State.setCmdPrev_rev (c : Byte) : (s.setCmdPrev c).rev = s.rev := rfl
@[simp] theorem State.setCmdPrev_tpass (c : Byte) : (s.setCmdPrev c).tpass = s.tpass := rfl
@[simp] theorem State.setCmdPrev_mboxAck (c : Byte) : (s.setCmdPrev c).mboxAck = s.mboxAck := rfl
@[simp] theorem State.setCmdPrev_fmOut (c : Byte) : (s.setCmdPrev c).fmOut = s.fmOut := rfl
@[simp] theorem State.setCmdPrev_fmIn (c : Byte) : (s.setCmdPrev c).fmIn = s.fmIn := rfl
@[simp] theorem State.setCmdPrev_fmDraws (c : Byte) : (s.setCmdPrev c).fmDraws = s.fmDraws := rfl
@[simp] theorem State.setCmdPrev_events (c : Byte) : (s.setCmdPrev c).events = s.events := rfl
@[simp] theorem State.setCmdPrev_rom (c : Byte) : (s.setCmdPrev c).rom = s.rom := rfl
@[simp] theorem State.setCmdPrev_cfg (c : Byte) : (s.setCmdPrev c).cfg = s.cfg := rfl

@[simp] theorem State.ram8_setCmdPrev (c : Byte) (x : Nat) : (s.setCmdPrev c).ram8 x = s.ram8 x := rfl
@[simp] theorem State.ram16_setCmdPrev (c : Byte) (x : Nat) : (s.setCmdPrev c).ram16 x = s.ram16 x := rfl
@[simp] theorem State.ch_setCmdPrev (c : Byte) (j g : Nat) : (s.setCmdPrev c).ch j g = s.ch j g := rfl
@[simp] theorem State.ch16_setCmdPrev (c : Byte) (j g : Nat) : (s.setCmdPrev c).ch16 j g = s.ch16 j g := rfl
@[simp] theorem State.enabled_setCmdPrev (c : Byte) (j : Nat) : (s.setCmdPrev c).enabled j = s.enabled j := rfl
@[simp] theorem State.isPcm_setCmdPrev (c : Byte) (j : Nat) : (s.setCmdPrev c).isPcm j = s.isPcm j := rfl
@[simp] theorem State.muteCorr_setCmdPrev (c : Byte) (j : Nat) : (s.setCmdPrev c).muteCorr j = s.muteCorr j := rfl
@[simp] theorem State.ym_setCmdPrev (c : Byte) (j : Nat) : (s.setCmdPrev c).ym j = s.ym j := rfl
@[simp] theorem State.suppressed_setCmdPrev (c : Byte) (j : Nat) : (s.setCmdPrev c).suppressed j = s.suppressed j := rfl
@[simp] theorem State.pcm8_setCmdPrev (c : Byte) (x : Nat) : (s.setCmdPrev c).pcm8 x = s.pcm8 x := rfl
@[simp] theorem State.shadow_setCmdPrev (c : Byte) (r : Byte) : (s.setCmdPrev c).shadow r = s.shadow r := rfl
@[simp] theorem State.romAt_setCmdPrev (c : Byte) (x : Word) : (s.setCmdPrev c).romAt x = s.romAt x := rfl
@[simp] theorem State.fmAnswer_setCmdPrev (c : Byte) : (s.setCmdPrev c).fmAnswer = s.fmAnswer := rfl
@[simp] theorem State.fmBusy_setCmdPrev (c : Byte) : (s.setCmdPrev c).fmBusy = s.fmBusy := rfl

/-! ### setEngCh -/

@[simp] theorem State.setEngCh_ram (n : Byte) : (s.setEngCh n).ram = s.ram := rfl
@[simp] theorem State.setEngCh_pcm (n : Byte) : (s.setEngCh n).pcm = s.pcm := rfl
@[simp] theorem State.setEngCh_fmShadow (n : Byte) : (s.setEngCh n).fmShadow = s.fmShadow := rfl
@[simp] theorem State.setEngCh_cur (n : Byte) : (s.setEngCh n).cur = s.cur := rfl
@[simp] theorem State.setEngCh_chan (n : Byte) : (s.setEngCh n).chan = s.chan := rfl
@[simp] theorem State.setEngCh_chanPrev (n : Byte) : (s.setEngCh n).chanPrev = s.chanPrev := rfl
@[simp] theorem State.setEngCh_cmdPrev (n : Byte) : (s.setEngCh n).cmdPrev = s.cmdPrev := rfl
@[simp] theorem State.setEngCh_engCh (n : Byte) : (s.setEngCh n).engCh = n := rfl
@[simp] theorem State.setEngCh_tog (n : Byte) : (s.setEngCh n).tog = s.tog := rfl
@[simp] theorem State.setEngCh_stdTog (n : Byte) : (s.setEngCh n).stdTog = s.stdTog := rfl
@[simp] theorem State.setEngCh_fcode (n : Byte) : (s.setEngCh n).fcode = s.fcode := rfl
@[simp] theorem State.setEngCh_finfo (n : Byte) : (s.setEngCh n).finfo = s.finfo := rfl
@[simp] theorem State.setEngCh_fsm (n : Byte) : (s.setEngCh n).fsm = s.fsm := rfl
@[simp] theorem State.setEngCh_mbox (n : Byte) : (s.setEngCh n).mbox = s.mbox := rfl
@[simp] theorem State.setEngCh_telem (n : Byte) : (s.setEngCh n).telem = s.telem := rfl
@[simp] theorem State.setEngCh_engTel (n : Byte) : (s.setEngCh n).engTel = s.engTel := rfl
@[simp] theorem State.setEngCh_rev (n : Byte) : (s.setEngCh n).rev = s.rev := rfl
@[simp] theorem State.setEngCh_tpass (n : Byte) : (s.setEngCh n).tpass = s.tpass := rfl
@[simp] theorem State.setEngCh_mboxAck (n : Byte) : (s.setEngCh n).mboxAck = s.mboxAck := rfl
@[simp] theorem State.setEngCh_fmOut (n : Byte) : (s.setEngCh n).fmOut = s.fmOut := rfl
@[simp] theorem State.setEngCh_fmIn (n : Byte) : (s.setEngCh n).fmIn = s.fmIn := rfl
@[simp] theorem State.setEngCh_fmDraws (n : Byte) : (s.setEngCh n).fmDraws = s.fmDraws := rfl
@[simp] theorem State.setEngCh_events (n : Byte) : (s.setEngCh n).events = s.events := rfl
@[simp] theorem State.setEngCh_rom (n : Byte) : (s.setEngCh n).rom = s.rom := rfl
@[simp] theorem State.setEngCh_cfg (n : Byte) : (s.setEngCh n).cfg = s.cfg := rfl

@[simp] theorem State.ram8_setEngCh (n : Byte) (x : Nat) : (s.setEngCh n).ram8 x = s.ram8 x := rfl
@[simp] theorem State.ram16_setEngCh (n : Byte) (x : Nat) : (s.setEngCh n).ram16 x = s.ram16 x := rfl
@[simp] theorem State.ch_setEngCh (n : Byte) (j g : Nat) : (s.setEngCh n).ch j g = s.ch j g := rfl
@[simp] theorem State.ch16_setEngCh (n : Byte) (j g : Nat) : (s.setEngCh n).ch16 j g = s.ch16 j g := rfl
@[simp] theorem State.enabled_setEngCh (n : Byte) (j : Nat) : (s.setEngCh n).enabled j = s.enabled j := rfl
@[simp] theorem State.isPcm_setEngCh (n : Byte) (j : Nat) : (s.setEngCh n).isPcm j = s.isPcm j := rfl
@[simp] theorem State.muteCorr_setEngCh (n : Byte) (j : Nat) : (s.setEngCh n).muteCorr j = s.muteCorr j := rfl
@[simp] theorem State.ym_setEngCh (n : Byte) (j : Nat) : (s.setEngCh n).ym j = s.ym j := rfl
@[simp] theorem State.suppressed_setEngCh (n : Byte) (j : Nat) : (s.setEngCh n).suppressed j = s.suppressed j := rfl
@[simp] theorem State.pcm8_setEngCh (n : Byte) (x : Nat) : (s.setEngCh n).pcm8 x = s.pcm8 x := rfl
@[simp] theorem State.shadow_setEngCh (n : Byte) (r : Byte) : (s.setEngCh n).shadow r = s.shadow r := rfl
@[simp] theorem State.romAt_setEngCh (n : Byte) (x : Word) : (s.setEngCh n).romAt x = s.romAt x := rfl
@[simp] theorem State.fmAnswer_setEngCh (n : Byte) : (s.setEngCh n).fmAnswer = s.fmAnswer := rfl
@[simp] theorem State.fmBusy_setEngCh (n : Byte) : (s.setEngCh n).fmBusy = s.fmBusy := rfl

/-! ### setTog -/

@[simp] theorem State.setTog_ram (b : Bool) : (s.setTog b).ram = s.ram := rfl
@[simp] theorem State.setTog_pcm (b : Bool) : (s.setTog b).pcm = s.pcm := rfl
@[simp] theorem State.setTog_fmShadow (b : Bool) : (s.setTog b).fmShadow = s.fmShadow := rfl
@[simp] theorem State.setTog_cur (b : Bool) : (s.setTog b).cur = s.cur := rfl
@[simp] theorem State.setTog_chan (b : Bool) : (s.setTog b).chan = s.chan := rfl
@[simp] theorem State.setTog_chanPrev (b : Bool) : (s.setTog b).chanPrev = s.chanPrev := rfl
@[simp] theorem State.setTog_cmdPrev (b : Bool) : (s.setTog b).cmdPrev = s.cmdPrev := rfl
@[simp] theorem State.setTog_engCh (b : Bool) : (s.setTog b).engCh = s.engCh := rfl
@[simp] theorem State.setTog_tog (b : Bool) : (s.setTog b).tog = b := rfl
@[simp] theorem State.setTog_stdTog (b : Bool) : (s.setTog b).stdTog = s.stdTog := rfl
@[simp] theorem State.setTog_fcode (b : Bool) : (s.setTog b).fcode = s.fcode := rfl
@[simp] theorem State.setTog_finfo (b : Bool) : (s.setTog b).finfo = s.finfo := rfl
@[simp] theorem State.setTog_fsm (b : Bool) : (s.setTog b).fsm = s.fsm := rfl
@[simp] theorem State.setTog_mbox (b : Bool) : (s.setTog b).mbox = s.mbox := rfl
@[simp] theorem State.setTog_telem (b : Bool) : (s.setTog b).telem = s.telem := rfl
@[simp] theorem State.setTog_engTel (b : Bool) : (s.setTog b).engTel = s.engTel := rfl
@[simp] theorem State.setTog_rev (b : Bool) : (s.setTog b).rev = s.rev := rfl
@[simp] theorem State.setTog_tpass (b : Bool) : (s.setTog b).tpass = s.tpass := rfl
@[simp] theorem State.setTog_mboxAck (b : Bool) : (s.setTog b).mboxAck = s.mboxAck := rfl
@[simp] theorem State.setTog_fmOut (b : Bool) : (s.setTog b).fmOut = s.fmOut := rfl
@[simp] theorem State.setTog_fmIn (b : Bool) : (s.setTog b).fmIn = s.fmIn := rfl
@[simp] theorem State.setTog_fmDraws (b : Bool) : (s.setTog b).fmDraws = s.fmDraws := rfl
@[simp] theorem State.setTog_events (b : Bool) : (s.setTog b).events = s.events := rfl
@[simp] theorem State.setTog_rom (b : Bool) : (s.setTog b).rom = s.rom := rfl
@[simp] theorem State.setTog_cfg (b : Bool) : (s.setTog b).cfg = s.cfg := rfl

@[simp] theorem State.ram8_setTog (b : Bool) (x : Nat) : (s.setTog b).ram8 x = s.ram8 x := rfl
@[simp] theorem State.ram16_setTog (b : Bool) (x : Nat) : (s.setTog b).ram16 x = s.ram16 x := rfl
@[simp] theorem State.ch_setTog (b : Bool) (j g : Nat) : (s.setTog b).ch j g = s.ch j g := rfl
@[simp] theorem State.ch16_setTog (b : Bool) (j g : Nat) : (s.setTog b).ch16 j g = s.ch16 j g := rfl
@[simp] theorem State.enabled_setTog (b : Bool) (j : Nat) : (s.setTog b).enabled j = s.enabled j := rfl
@[simp] theorem State.isPcm_setTog (b : Bool) (j : Nat) : (s.setTog b).isPcm j = s.isPcm j := rfl
@[simp] theorem State.muteCorr_setTog (b : Bool) (j : Nat) : (s.setTog b).muteCorr j = s.muteCorr j := rfl
@[simp] theorem State.ym_setTog (b : Bool) (j : Nat) : (s.setTog b).ym j = s.ym j := rfl
@[simp] theorem State.suppressed_setTog (b : Bool) (j : Nat) : (s.setTog b).suppressed j = s.suppressed j := rfl
@[simp] theorem State.pcm8_setTog (b : Bool) (x : Nat) : (s.setTog b).pcm8 x = s.pcm8 x := rfl
@[simp] theorem State.shadow_setTog (b : Bool) (r : Byte) : (s.setTog b).shadow r = s.shadow r := rfl
@[simp] theorem State.romAt_setTog (b : Bool) (x : Word) : (s.setTog b).romAt x = s.romAt x := rfl
@[simp] theorem State.fmAnswer_setTog (b : Bool) : (s.setTog b).fmAnswer = s.fmAnswer := rfl
@[simp] theorem State.fmBusy_setTog (b : Bool) : (s.setTog b).fmBusy = s.fmBusy := rfl

/-! ### setFsm -/

@[simp] theorem State.setFsm_ram (f : Fsm) : (s.setFsm f).ram = s.ram := rfl
@[simp] theorem State.setFsm_pcm (f : Fsm) : (s.setFsm f).pcm = s.pcm := rfl
@[simp] theorem State.setFsm_fmShadow (f : Fsm) : (s.setFsm f).fmShadow = s.fmShadow := rfl
@[simp] theorem State.setFsm_cur (f : Fsm) : (s.setFsm f).cur = s.cur := rfl
@[simp] theorem State.setFsm_chan (f : Fsm) : (s.setFsm f).chan = s.chan := rfl
@[simp] theorem State.setFsm_chanPrev (f : Fsm) : (s.setFsm f).chanPrev = s.chanPrev := rfl
@[simp] theorem State.setFsm_cmdPrev (f : Fsm) : (s.setFsm f).cmdPrev = s.cmdPrev := rfl
@[simp] theorem State.setFsm_engCh (f : Fsm) : (s.setFsm f).engCh = s.engCh := rfl
@[simp] theorem State.setFsm_tog (f : Fsm) : (s.setFsm f).tog = s.tog := rfl
@[simp] theorem State.setFsm_stdTog (f : Fsm) : (s.setFsm f).stdTog = s.stdTog := rfl
@[simp] theorem State.setFsm_fcode (f : Fsm) : (s.setFsm f).fcode = s.fcode := rfl
@[simp] theorem State.setFsm_finfo (f : Fsm) : (s.setFsm f).finfo = s.finfo := rfl
@[simp] theorem State.setFsm_fsm (f : Fsm) : (s.setFsm f).fsm = f := rfl
@[simp] theorem State.setFsm_mbox (f : Fsm) : (s.setFsm f).mbox = s.mbox := rfl
@[simp] theorem State.setFsm_telem (f : Fsm) : (s.setFsm f).telem = s.telem := rfl
@[simp] theorem State.setFsm_engTel (f : Fsm) : (s.setFsm f).engTel = s.engTel := rfl
@[simp] theorem State.setFsm_rev (f : Fsm) : (s.setFsm f).rev = s.rev := rfl
@[simp] theorem State.setFsm_tpass (f : Fsm) : (s.setFsm f).tpass = s.tpass := rfl
@[simp] theorem State.setFsm_mboxAck (f : Fsm) : (s.setFsm f).mboxAck = s.mboxAck := rfl
@[simp] theorem State.setFsm_fmOut (f : Fsm) : (s.setFsm f).fmOut = s.fmOut := rfl
@[simp] theorem State.setFsm_fmIn (f : Fsm) : (s.setFsm f).fmIn = s.fmIn := rfl
@[simp] theorem State.setFsm_fmDraws (f : Fsm) : (s.setFsm f).fmDraws = s.fmDraws := rfl
@[simp] theorem State.setFsm_events (f : Fsm) : (s.setFsm f).events = s.events := rfl
@[simp] theorem State.setFsm_rom (f : Fsm) : (s.setFsm f).rom = s.rom := rfl
@[simp] theorem State.setFsm_cfg (f : Fsm) : (s.setFsm f).cfg = s.cfg := rfl

@[simp] theorem State.ram8_setFsm (f : Fsm) (x : Nat) : (s.setFsm f).ram8 x = s.ram8 x := rfl
@[simp] theorem State.ram16_setFsm (f : Fsm) (x : Nat) : (s.setFsm f).ram16 x = s.ram16 x := rfl
@[simp] theorem State.ch_setFsm (f : Fsm) (j g : Nat) : (s.setFsm f).ch j g = s.ch j g := rfl
@[simp] theorem State.ch16_setFsm (f : Fsm) (j g : Nat) : (s.setFsm f).ch16 j g = s.ch16 j g := rfl
@[simp] theorem State.enabled_setFsm (f : Fsm) (j : Nat) : (s.setFsm f).enabled j = s.enabled j := rfl
@[simp] theorem State.isPcm_setFsm (f : Fsm) (j : Nat) : (s.setFsm f).isPcm j = s.isPcm j := rfl
@[simp] theorem State.muteCorr_setFsm (f : Fsm) (j : Nat) : (s.setFsm f).muteCorr j = s.muteCorr j := rfl
@[simp] theorem State.ym_setFsm (f : Fsm) (j : Nat) : (s.setFsm f).ym j = s.ym j := rfl
@[simp] theorem State.suppressed_setFsm (f : Fsm) (j : Nat) : (s.setFsm f).suppressed j = s.suppressed j := rfl
@[simp] theorem State.pcm8_setFsm (f : Fsm) (x : Nat) : (s.setFsm f).pcm8 x = s.pcm8 x := rfl
@[simp] theorem State.shadow_setFsm (f : Fsm) (r : Byte) : (s.setFsm f).shadow r = s.shadow r := rfl
@[simp] theorem State.romAt_setFsm (f : Fsm) (x : Word) : (s.setFsm f).romAt x = s.romAt x := rfl
@[simp] theorem State.fmAnswer_setFsm (f : Fsm) : (s.setFsm f).fmAnswer = s.fmAnswer := rfl
@[simp] theorem State.fmBusy_setFsm (f : Fsm) : (s.setFsm f).fmBusy = s.fmBusy := rfl

/-! ### setMboxAck -/

@[simp] theorem State.setMboxAck_ram (b : Bool) : (s.setMboxAck b).ram = s.ram := rfl
@[simp] theorem State.setMboxAck_pcm (b : Bool) : (s.setMboxAck b).pcm = s.pcm := rfl
@[simp] theorem State.setMboxAck_fmShadow (b : Bool) : (s.setMboxAck b).fmShadow = s.fmShadow := rfl
@[simp] theorem State.setMboxAck_cur (b : Bool) : (s.setMboxAck b).cur = s.cur := rfl
@[simp] theorem State.setMboxAck_chan (b : Bool) : (s.setMboxAck b).chan = s.chan := rfl
@[simp] theorem State.setMboxAck_chanPrev (b : Bool) : (s.setMboxAck b).chanPrev = s.chanPrev := rfl
@[simp] theorem State.setMboxAck_cmdPrev (b : Bool) : (s.setMboxAck b).cmdPrev = s.cmdPrev := rfl
@[simp] theorem State.setMboxAck_engCh (b : Bool) : (s.setMboxAck b).engCh = s.engCh := rfl
@[simp] theorem State.setMboxAck_tog (b : Bool) : (s.setMboxAck b).tog = s.tog := rfl
@[simp] theorem State.setMboxAck_stdTog (b : Bool) : (s.setMboxAck b).stdTog = s.stdTog := rfl
@[simp] theorem State.setMboxAck_fcode (b : Bool) : (s.setMboxAck b).fcode = s.fcode := rfl
@[simp] theorem State.setMboxAck_finfo (b : Bool) : (s.setMboxAck b).finfo = s.finfo := rfl
@[simp] theorem State.setMboxAck_fsm (b : Bool) : (s.setMboxAck b).fsm = s.fsm := rfl
@[simp] theorem State.setMboxAck_mbox (b : Bool) : (s.setMboxAck b).mbox = s.mbox := rfl
@[simp] theorem State.setMboxAck_telem (b : Bool) : (s.setMboxAck b).telem = s.telem := rfl
@[simp] theorem State.setMboxAck_engTel (b : Bool) : (s.setMboxAck b).engTel = s.engTel := rfl
@[simp] theorem State.setMboxAck_rev (b : Bool) : (s.setMboxAck b).rev = s.rev := rfl
@[simp] theorem State.setMboxAck_tpass (b : Bool) : (s.setMboxAck b).tpass = s.tpass := rfl
@[simp] theorem State.setMboxAck_mboxAck (b : Bool) : (s.setMboxAck b).mboxAck = b := rfl
@[simp] theorem State.setMboxAck_fmOut (b : Bool) : (s.setMboxAck b).fmOut = s.fmOut := rfl
@[simp] theorem State.setMboxAck_fmIn (b : Bool) : (s.setMboxAck b).fmIn = s.fmIn := rfl
@[simp] theorem State.setMboxAck_fmDraws (b : Bool) : (s.setMboxAck b).fmDraws = s.fmDraws := rfl
@[simp] theorem State.setMboxAck_events (b : Bool) : (s.setMboxAck b).events = s.events := rfl
@[simp] theorem State.setMboxAck_rom (b : Bool) : (s.setMboxAck b).rom = s.rom := rfl
@[simp] theorem State.setMboxAck_cfg (b : Bool) : (s.setMboxAck b).cfg = s.cfg := rfl

@[simp] theorem State.ram8_setMboxAck (b : Bool) (x : Nat) : (s.setMboxAck b).ram8 x = s.ram8 x := rfl
@[simp] theorem State.ram16_setMboxAck (b : Bool) (x : Nat) : (s.setMboxAck b).ram16 x = s.ram16 x := rfl
@[simp] theorem State.ch_setMboxAck (b : Bool) (j g : Nat) : (s.setMboxAck b).ch j g = s.ch j g := rfl
@[simp] theorem State.ch16_setMboxAck (b : Bool) (j g : Nat) : (s.setMboxAck b).ch16 j g = s.ch16 j g := rfl
@[simp] theorem State.enabled_setMboxAck (b : Bool) (j : Nat) : (s.setMboxAck b).enabled j = s.enabled j := rfl
@[simp] theorem State.isPcm_setMboxAck (b : Bool) (j : Nat) : (s.setMboxAck b).isPcm j = s.isPcm j := rfl
@[simp] theorem State.muteCorr_setMboxAck (b : Bool) (j : Nat) : (s.setMboxAck b).muteCorr j = s.muteCorr j := rfl
@[simp] theorem State.ym_setMboxAck (b : Bool) (j : Nat) : (s.setMboxAck b).ym j = s.ym j := rfl
@[simp] theorem State.suppressed_setMboxAck (b : Bool) (j : Nat) : (s.setMboxAck b).suppressed j = s.suppressed j := rfl
@[simp] theorem State.pcm8_setMboxAck (b : Bool) (x : Nat) : (s.setMboxAck b).pcm8 x = s.pcm8 x := rfl
@[simp] theorem State.shadow_setMboxAck (b : Bool) (r : Byte) : (s.setMboxAck b).shadow r = s.shadow r := rfl
@[simp] theorem State.romAt_setMboxAck (b : Bool) (x : Word) : (s.setMboxAck b).romAt x = s.romAt x := rfl
@[simp] theorem State.fmAnswer_setMboxAck (b : Bool) : (s.setMboxAck b).fmAnswer = s.fmAnswer := rfl
@[simp] theorem State.fmBusy_setMboxAck (b : Bool) : (s.setMboxAck b).fmBusy = s.fmBusy := rfl

/-! ### flipStdTog -/

@[simp] theorem State.flipStdTog_ram (c : BitVec 2) : (s.flipStdTog c).ram = s.ram := rfl
@[simp] theorem State.flipStdTog_pcm (c : BitVec 2) : (s.flipStdTog c).pcm = s.pcm := rfl
@[simp] theorem State.flipStdTog_fmShadow (c : BitVec 2) : (s.flipStdTog c).fmShadow = s.fmShadow := rfl
@[simp] theorem State.flipStdTog_cur (c : BitVec 2) : (s.flipStdTog c).cur = s.cur := rfl
@[simp] theorem State.flipStdTog_chan (c : BitVec 2) : (s.flipStdTog c).chan = s.chan := rfl
@[simp] theorem State.flipStdTog_chanPrev (c : BitVec 2) : (s.flipStdTog c).chanPrev = s.chanPrev := rfl
@[simp] theorem State.flipStdTog_cmdPrev (c : BitVec 2) : (s.flipStdTog c).cmdPrev = s.cmdPrev := rfl
@[simp] theorem State.flipStdTog_engCh (c : BitVec 2) : (s.flipStdTog c).engCh = s.engCh := rfl
@[simp] theorem State.flipStdTog_tog (c : BitVec 2) : (s.flipStdTog c).tog = s.tog := rfl
@[simp] theorem State.flipStdTog_stdTog (c : BitVec 2) : (s.flipStdTog c).stdTog = s.stdTog.flip c := rfl
@[simp] theorem State.flipStdTog_fcode (c : BitVec 2) : (s.flipStdTog c).fcode = s.fcode := rfl
@[simp] theorem State.flipStdTog_finfo (c : BitVec 2) : (s.flipStdTog c).finfo = s.finfo := rfl
@[simp] theorem State.flipStdTog_fsm (c : BitVec 2) : (s.flipStdTog c).fsm = s.fsm := rfl
@[simp] theorem State.flipStdTog_mbox (c : BitVec 2) : (s.flipStdTog c).mbox = s.mbox := rfl
@[simp] theorem State.flipStdTog_telem (c : BitVec 2) : (s.flipStdTog c).telem = s.telem := rfl
@[simp] theorem State.flipStdTog_engTel (c : BitVec 2) : (s.flipStdTog c).engTel = s.engTel := rfl
@[simp] theorem State.flipStdTog_rev (c : BitVec 2) : (s.flipStdTog c).rev = s.rev := rfl
@[simp] theorem State.flipStdTog_tpass (c : BitVec 2) : (s.flipStdTog c).tpass = s.tpass := rfl
@[simp] theorem State.flipStdTog_mboxAck (c : BitVec 2) : (s.flipStdTog c).mboxAck = s.mboxAck := rfl
@[simp] theorem State.flipStdTog_fmOut (c : BitVec 2) : (s.flipStdTog c).fmOut = s.fmOut := rfl
@[simp] theorem State.flipStdTog_fmIn (c : BitVec 2) : (s.flipStdTog c).fmIn = s.fmIn := rfl
@[simp] theorem State.flipStdTog_fmDraws (c : BitVec 2) : (s.flipStdTog c).fmDraws = s.fmDraws := rfl
@[simp] theorem State.flipStdTog_events (c : BitVec 2) : (s.flipStdTog c).events = s.events := rfl
@[simp] theorem State.flipStdTog_rom (c : BitVec 2) : (s.flipStdTog c).rom = s.rom := rfl
@[simp] theorem State.flipStdTog_cfg (c : BitVec 2) : (s.flipStdTog c).cfg = s.cfg := rfl

@[simp] theorem State.ram8_flipStdTog (c : BitVec 2) (x : Nat) : (s.flipStdTog c).ram8 x = s.ram8 x := rfl
@[simp] theorem State.ram16_flipStdTog (c : BitVec 2) (x : Nat) : (s.flipStdTog c).ram16 x = s.ram16 x := rfl
@[simp] theorem State.ch_flipStdTog (c : BitVec 2) (j g : Nat) : (s.flipStdTog c).ch j g = s.ch j g := rfl
@[simp] theorem State.ch16_flipStdTog (c : BitVec 2) (j g : Nat) : (s.flipStdTog c).ch16 j g = s.ch16 j g := rfl
@[simp] theorem State.enabled_flipStdTog (c : BitVec 2) (j : Nat) : (s.flipStdTog c).enabled j = s.enabled j := rfl
@[simp] theorem State.isPcm_flipStdTog (c : BitVec 2) (j : Nat) : (s.flipStdTog c).isPcm j = s.isPcm j := rfl
@[simp] theorem State.muteCorr_flipStdTog (c : BitVec 2) (j : Nat) : (s.flipStdTog c).muteCorr j = s.muteCorr j := rfl
@[simp] theorem State.ym_flipStdTog (c : BitVec 2) (j : Nat) : (s.flipStdTog c).ym j = s.ym j := rfl
@[simp] theorem State.suppressed_flipStdTog (c : BitVec 2) (j : Nat) : (s.flipStdTog c).suppressed j = s.suppressed j := rfl
@[simp] theorem State.pcm8_flipStdTog (c : BitVec 2) (x : Nat) : (s.flipStdTog c).pcm8 x = s.pcm8 x := rfl
@[simp] theorem State.shadow_flipStdTog (c : BitVec 2) (r : Byte) : (s.flipStdTog c).shadow r = s.shadow r := rfl
@[simp] theorem State.romAt_flipStdTog (c : BitVec 2) (x : Word) : (s.flipStdTog c).romAt x = s.romAt x := rfl
@[simp] theorem State.fmAnswer_flipStdTog (c : BitVec 2) : (s.flipStdTog c).fmAnswer = s.fmAnswer := rfl
@[simp] theorem State.fmBusy_flipStdTog (c : BitVec 2) : (s.flipStdTog c).fmBusy = s.fmBusy := rfl

/-! ### raiseFault -/

@[simp] theorem State.raiseFault_ram (c : FaultCode) (info : Word) : (s.raiseFault c info).ram = s.ram := rfl
@[simp] theorem State.raiseFault_pcm (c : FaultCode) (info : Word) : (s.raiseFault c info).pcm = s.pcm := rfl
@[simp] theorem State.raiseFault_fmShadow (c : FaultCode) (info : Word) : (s.raiseFault c info).fmShadow = s.fmShadow := rfl
@[simp] theorem State.raiseFault_cur (c : FaultCode) (info : Word) : (s.raiseFault c info).cur = s.cur := rfl
@[simp] theorem State.raiseFault_chan (c : FaultCode) (info : Word) : (s.raiseFault c info).chan = s.chan := rfl
@[simp] theorem State.raiseFault_chanPrev (c : FaultCode) (info : Word) : (s.raiseFault c info).chanPrev = s.chanPrev := rfl
@[simp] theorem State.raiseFault_cmdPrev (c : FaultCode) (info : Word) : (s.raiseFault c info).cmdPrev = s.cmdPrev := rfl
@[simp] theorem State.raiseFault_engCh (c : FaultCode) (info : Word) : (s.raiseFault c info).engCh = s.engCh := rfl
@[simp] theorem State.raiseFault_tog (c : FaultCode) (info : Word) : (s.raiseFault c info).tog = s.tog := rfl
@[simp] theorem State.raiseFault_stdTog (c : FaultCode) (info : Word) : (s.raiseFault c info).stdTog = s.stdTog := rfl
@[simp] theorem State.raiseFault_fcode (c : FaultCode) (info : Word) : (s.raiseFault c info).fcode = c.code := rfl
@[simp] theorem State.raiseFault_finfo (c : FaultCode) (info : Word) : (s.raiseFault c info).finfo = info := rfl
@[simp] theorem State.raiseFault_fsm (c : FaultCode) (info : Word) : (s.raiseFault c info).fsm = .fault := rfl
@[simp] theorem State.raiseFault_mbox (c : FaultCode) (info : Word) : (s.raiseFault c info).mbox = s.mbox := rfl
@[simp] theorem State.raiseFault_telem (c : FaultCode) (info : Word) : (s.raiseFault c info).telem = s.telem := rfl
@[simp] theorem State.raiseFault_engTel (c : FaultCode) (info : Word) : (s.raiseFault c info).engTel = s.engTel := rfl
@[simp] theorem State.raiseFault_rev (c : FaultCode) (info : Word) : (s.raiseFault c info).rev = s.rev := rfl
@[simp] theorem State.raiseFault_tpass (c : FaultCode) (info : Word) : (s.raiseFault c info).tpass = s.tpass := rfl
@[simp] theorem State.raiseFault_mboxAck (c : FaultCode) (info : Word) : (s.raiseFault c info).mboxAck = s.mboxAck := rfl
@[simp] theorem State.raiseFault_fmOut (c : FaultCode) (info : Word) : (s.raiseFault c info).fmOut = s.fmOut := rfl
@[simp] theorem State.raiseFault_fmIn (c : FaultCode) (info : Word) : (s.raiseFault c info).fmIn = s.fmIn := rfl
@[simp] theorem State.raiseFault_fmDraws (c : FaultCode) (info : Word) : (s.raiseFault c info).fmDraws = s.fmDraws := rfl
@[simp] theorem State.raiseFault_events (c : FaultCode) (info : Word) : (s.raiseFault c info).events = s.events := rfl
@[simp] theorem State.raiseFault_rom (c : FaultCode) (info : Word) : (s.raiseFault c info).rom = s.rom := rfl
@[simp] theorem State.raiseFault_cfg (c : FaultCode) (info : Word) : (s.raiseFault c info).cfg = s.cfg := rfl

@[simp] theorem State.ram8_raiseFault (c : FaultCode) (info : Word) (x : Nat) : (s.raiseFault c info).ram8 x = s.ram8 x := rfl
@[simp] theorem State.ram16_raiseFault (c : FaultCode) (info : Word) (x : Nat) : (s.raiseFault c info).ram16 x = s.ram16 x := rfl
@[simp] theorem State.ch_raiseFault (c : FaultCode) (info : Word) (j g : Nat) : (s.raiseFault c info).ch j g = s.ch j g := rfl
@[simp] theorem State.ch16_raiseFault (c : FaultCode) (info : Word) (j g : Nat) : (s.raiseFault c info).ch16 j g = s.ch16 j g := rfl
@[simp] theorem State.enabled_raiseFault (c : FaultCode) (info : Word) (j : Nat) : (s.raiseFault c info).enabled j = s.enabled j := rfl
@[simp] theorem State.isPcm_raiseFault (c : FaultCode) (info : Word) (j : Nat) : (s.raiseFault c info).isPcm j = s.isPcm j := rfl
@[simp] theorem State.muteCorr_raiseFault (c : FaultCode) (info : Word) (j : Nat) : (s.raiseFault c info).muteCorr j = s.muteCorr j := rfl
@[simp] theorem State.ym_raiseFault (c : FaultCode) (info : Word) (j : Nat) : (s.raiseFault c info).ym j = s.ym j := rfl
@[simp] theorem State.suppressed_raiseFault (c : FaultCode) (info : Word) (j : Nat) : (s.raiseFault c info).suppressed j = s.suppressed j := rfl
@[simp] theorem State.pcm8_raiseFault (c : FaultCode) (info : Word) (x : Nat) : (s.raiseFault c info).pcm8 x = s.pcm8 x := rfl
@[simp] theorem State.shadow_raiseFault (c : FaultCode) (info : Word) (r : Byte) : (s.raiseFault c info).shadow r = s.shadow r := rfl
@[simp] theorem State.romAt_raiseFault (c : FaultCode) (info : Word) (x : Word) : (s.raiseFault c info).romAt x = s.romAt x := rfl
@[simp] theorem State.fmAnswer_raiseFault (c : FaultCode) (info : Word) : (s.raiseFault c info).fmAnswer = s.fmAnswer := rfl
@[simp] theorem State.fmBusy_raiseFault (c : FaultCode) (info : Word) : (s.raiseFault c info).fmBusy = s.fmBusy := rfl

/-! ### The FM port -/

@[simp] theorem State.fmDrawn_ram : s.fmDrawn.ram = s.ram := by unfold State.fmDrawn; split <;> rfl
@[simp] theorem State.fmDrawn_pcm : s.fmDrawn.pcm = s.pcm := by unfold State.fmDrawn; split <;> rfl
@[simp] theorem State.fmDrawn_fmShadow : s.fmDrawn.fmShadow = s.fmShadow := by unfold State.fmDrawn; split <;> rfl
@[simp] theorem State.fmDrawn_cur : s.fmDrawn.cur = s.cur := by unfold State.fmDrawn; split <;> rfl
@[simp] theorem State.fmDrawn_chan : s.fmDrawn.chan = s.chan := by unfold State.fmDrawn; split <;> rfl
@[simp] theorem State.fmDrawn_chanPrev : s.fmDrawn.chanPrev = s.chanPrev := by unfold State.fmDrawn; split <;> rfl
@[simp] theorem State.fmDrawn_cmdPrev : s.fmDrawn.cmdPrev = s.cmdPrev := by unfold State.fmDrawn; split <;> rfl
@[simp] theorem State.fmDrawn_engCh : s.fmDrawn.engCh = s.engCh := by unfold State.fmDrawn; split <;> rfl
@[simp] theorem State.fmDrawn_tog : s.fmDrawn.tog = s.tog := by unfold State.fmDrawn; split <;> rfl
@[simp] theorem State.fmDrawn_stdTog : s.fmDrawn.stdTog = s.stdTog := by unfold State.fmDrawn; split <;> rfl
@[simp] theorem State.fmDrawn_fcode : s.fmDrawn.fcode = s.fcode := by unfold State.fmDrawn; split <;> rfl
@[simp] theorem State.fmDrawn_finfo : s.fmDrawn.finfo = s.finfo := by unfold State.fmDrawn; split <;> rfl
@[simp] theorem State.fmDrawn_fsm : s.fmDrawn.fsm = s.fsm := by unfold State.fmDrawn; split <;> rfl
@[simp] theorem State.fmDrawn_mbox : s.fmDrawn.mbox = s.mbox := by unfold State.fmDrawn; split <;> rfl
@[simp] theorem State.fmDrawn_telem : s.fmDrawn.telem = s.telem := by unfold State.fmDrawn; split <;> rfl
@[simp] theorem State.fmDrawn_engTel : s.fmDrawn.engTel = s.engTel := by unfold State.fmDrawn; split <;> rfl
@[simp] theorem State.fmDrawn_rev : s.fmDrawn.rev = s.rev := by unfold State.fmDrawn; split <;> rfl
@[simp] theorem State.fmDrawn_tpass : s.fmDrawn.tpass = s.tpass := by unfold State.fmDrawn; split <;> rfl
@[simp] theorem State.fmDrawn_mboxAck : s.fmDrawn.mboxAck = s.mboxAck := by unfold State.fmDrawn; split <;> rfl
@[simp] theorem State.fmDrawn_fmOut : s.fmDrawn.fmOut = s.fmOut := by unfold State.fmDrawn; split <;> rfl
@[simp] theorem State.fmDrawn_events : s.fmDrawn.events = s.events := by unfold State.fmDrawn; split <;> rfl
@[simp] theorem State.fmDrawn_rom : s.fmDrawn.rom = s.rom := by unfold State.fmDrawn; split <;> rfl
@[simp] theorem State.fmDrawn_cfg : s.fmDrawn.cfg = s.cfg := by unfold State.fmDrawn; split <;> rfl

@[simp] theorem State.fmWrite_ram (r v : Byte) : (s.fmWrite r v).ram = s.ram := by simp [State.fmWrite]
@[simp] theorem State.fmWrite_pcm (r v : Byte) : (s.fmWrite r v).pcm = s.pcm := by simp [State.fmWrite]
@[simp] theorem State.fmWrite_cur (r v : Byte) : (s.fmWrite r v).cur = s.cur := by simp [State.fmWrite]
@[simp] theorem State.fmWrite_chan (r v : Byte) : (s.fmWrite r v).chan = s.chan := by simp [State.fmWrite]
@[simp] theorem State.fmWrite_chanPrev (r v : Byte) : (s.fmWrite r v).chanPrev = s.chanPrev := by simp [State.fmWrite]
@[simp] theorem State.fmWrite_cmdPrev (r v : Byte) : (s.fmWrite r v).cmdPrev = s.cmdPrev := by simp [State.fmWrite]
@[simp] theorem State.fmWrite_engCh (r v : Byte) : (s.fmWrite r v).engCh = s.engCh := by simp [State.fmWrite]
@[simp] theorem State.fmWrite_tog (r v : Byte) : (s.fmWrite r v).tog = s.tog := by simp [State.fmWrite]
@[simp] theorem State.fmWrite_stdTog (r v : Byte) : (s.fmWrite r v).stdTog = s.stdTog := by simp [State.fmWrite]
@[simp] theorem State.fmWrite_fcode (r v : Byte) : (s.fmWrite r v).fcode = s.fcode := by simp [State.fmWrite]
@[simp] theorem State.fmWrite_finfo (r v : Byte) : (s.fmWrite r v).finfo = s.finfo := by simp [State.fmWrite]
@[simp] theorem State.fmWrite_fsm (r v : Byte) : (s.fmWrite r v).fsm = s.fsm := by simp [State.fmWrite]
@[simp] theorem State.fmWrite_mbox (r v : Byte) : (s.fmWrite r v).mbox = s.mbox := by simp [State.fmWrite]
@[simp] theorem State.fmWrite_telem (r v : Byte) : (s.fmWrite r v).telem = s.telem := by simp [State.fmWrite]
@[simp] theorem State.fmWrite_engTel (r v : Byte) : (s.fmWrite r v).engTel = s.engTel := by simp [State.fmWrite]
@[simp] theorem State.fmWrite_rev (r v : Byte) : (s.fmWrite r v).rev = s.rev := by simp [State.fmWrite]
@[simp] theorem State.fmWrite_tpass (r v : Byte) : (s.fmWrite r v).tpass = s.tpass := by simp [State.fmWrite]
@[simp] theorem State.fmWrite_mboxAck (r v : Byte) : (s.fmWrite r v).mboxAck = s.mboxAck := by simp [State.fmWrite]
@[simp] theorem State.fmWrite_events (r v : Byte) : (s.fmWrite r v).events = s.events := by simp [State.fmWrite]
@[simp] theorem State.fmWrite_rom (r v : Byte) : (s.fmWrite r v).rom = s.rom := by simp [State.fmWrite]
@[simp] theorem State.fmWrite_cfg (r v : Byte) : (s.fmWrite r v).cfg = s.cfg := by simp [State.fmWrite]

@[simp] theorem State.gfmWrite_ram (i : Nat) (r v : Byte) : (s.gfmWrite i r v).ram = s.ram := by
  unfold State.gfmWrite; split <;> simp
@[simp] theorem State.gfmWrite_pcm (i : Nat) (r v : Byte) : (s.gfmWrite i r v).pcm = s.pcm := by
  unfold State.gfmWrite; split <;> simp
@[simp] theorem State.gfmWrite_cur (i : Nat) (r v : Byte) : (s.gfmWrite i r v).cur = s.cur := by
  unfold State.gfmWrite; split <;> simp
@[simp] theorem State.gfmWrite_chan (i : Nat) (r v : Byte) : (s.gfmWrite i r v).chan = s.chan := by
  unfold State.gfmWrite; split <;> simp
@[simp] theorem State.gfmWrite_chanPrev (i : Nat) (r v : Byte) : (s.gfmWrite i r v).chanPrev = s.chanPrev := by
  unfold State.gfmWrite; split <;> simp
@[simp] theorem State.gfmWrite_cmdPrev (i : Nat) (r v : Byte) : (s.gfmWrite i r v).cmdPrev = s.cmdPrev := by
  unfold State.gfmWrite; split <;> simp
@[simp] theorem State.gfmWrite_engCh (i : Nat) (r v : Byte) : (s.gfmWrite i r v).engCh = s.engCh := by
  unfold State.gfmWrite; split <;> simp
@[simp] theorem State.gfmWrite_tog (i : Nat) (r v : Byte) : (s.gfmWrite i r v).tog = s.tog := by
  unfold State.gfmWrite; split <;> simp
@[simp] theorem State.gfmWrite_stdTog (i : Nat) (r v : Byte) : (s.gfmWrite i r v).stdTog = s.stdTog := by
  unfold State.gfmWrite; split <;> simp
@[simp] theorem State.gfmWrite_fcode (i : Nat) (r v : Byte) : (s.gfmWrite i r v).fcode = s.fcode := by
  unfold State.gfmWrite; split <;> simp
@[simp] theorem State.gfmWrite_finfo (i : Nat) (r v : Byte) : (s.gfmWrite i r v).finfo = s.finfo := by
  unfold State.gfmWrite; split <;> simp
@[simp] theorem State.gfmWrite_fsm (i : Nat) (r v : Byte) : (s.gfmWrite i r v).fsm = s.fsm := by
  unfold State.gfmWrite; split <;> simp
@[simp] theorem State.gfmWrite_mbox (i : Nat) (r v : Byte) : (s.gfmWrite i r v).mbox = s.mbox := by
  unfold State.gfmWrite; split <;> simp
@[simp] theorem State.gfmWrite_telem (i : Nat) (r v : Byte) : (s.gfmWrite i r v).telem = s.telem := by
  unfold State.gfmWrite; split <;> simp
@[simp] theorem State.gfmWrite_engTel (i : Nat) (r v : Byte) : (s.gfmWrite i r v).engTel = s.engTel := by
  unfold State.gfmWrite; split <;> simp
@[simp] theorem State.gfmWrite_rev (i : Nat) (r v : Byte) : (s.gfmWrite i r v).rev = s.rev := by
  unfold State.gfmWrite; split <;> simp
@[simp] theorem State.gfmWrite_tpass (i : Nat) (r v : Byte) : (s.gfmWrite i r v).tpass = s.tpass := by
  unfold State.gfmWrite; split <;> simp
@[simp] theorem State.gfmWrite_mboxAck (i : Nat) (r v : Byte) : (s.gfmWrite i r v).mboxAck = s.mboxAck := by
  unfold State.gfmWrite; split <;> simp
@[simp] theorem State.gfmWrite_events (i : Nat) (r v : Byte) : (s.gfmWrite i r v).events = s.events := by
  unfold State.gfmWrite; split <;> simp
@[simp] theorem State.gfmWrite_rom (i : Nat) (r v : Byte) : (s.gfmWrite i r v).rom = s.rom := by
  unfold State.gfmWrite; split <;> simp
@[simp] theorem State.gfmWrite_cfg (i : Nat) (r v : Byte) : (s.gfmWrite i r v).cfg = s.cfg := by
  unfold State.gfmWrite; split <;> simp

@[simp] theorem State.ram8_fmWrite (r v : Byte) (x : Nat) : (s.fmWrite r v).ram8 x = s.ram8 x := by simp [State.ram8]
@[simp] theorem State.pcm8_fmWrite (r v : Byte) (x : Nat) : (s.fmWrite r v).pcm8 x = s.pcm8 x := by simp [State.pcm8]
@[simp] theorem State.romAt_fmWrite (r v : Byte) (x : Word) : (s.fmWrite r v).romAt x = s.romAt x := by simp [State.romAt]
@[simp] theorem State.ram16_fmWrite (r v : Byte) (x : Nat) : (s.fmWrite r v).ram16 x = s.ram16 x := by simp [State.ram16]
@[simp] theorem State.ch_fmWrite (r v : Byte) (j g : Nat) : (s.fmWrite r v).ch j g = s.ch j g := by simp [State.ch]
@[simp] theorem State.ch16_fmWrite (r v : Byte) (j g : Nat) : (s.fmWrite r v).ch16 j g = s.ch16 j g := by simp [State.ch16]
@[simp] theorem State.enabled_fmWrite (r v : Byte) (j : Nat) : (s.fmWrite r v).enabled j = s.enabled j := by simp [State.enabled]
@[simp] theorem State.isPcm_fmWrite (r v : Byte) (j : Nat) : (s.fmWrite r v).isPcm j = s.isPcm j := by simp [State.isPcm]
@[simp] theorem State.muteCorr_fmWrite (r v : Byte) (j : Nat) : (s.fmWrite r v).muteCorr j = s.muteCorr j := by simp [State.muteCorr]
@[simp] theorem State.ym_fmWrite (r v : Byte) (j : Nat) : (s.fmWrite r v).ym j = s.ym j := by simp [State.ym]
@[simp] theorem State.suppressed_fmWrite (r v : Byte) (j : Nat) : (s.fmWrite r v).suppressed j = s.suppressed j := by simp [State.suppressed]

@[simp] theorem State.ram8_gfmWrite (i : Nat) (r v : Byte) (x : Nat) : (s.gfmWrite i r v).ram8 x = s.ram8 x := by simp [State.ram8]
@[simp] theorem State.pcm8_gfmWrite (i : Nat) (r v : Byte) (x : Nat) : (s.gfmWrite i r v).pcm8 x = s.pcm8 x := by simp [State.pcm8]
@[simp] theorem State.romAt_gfmWrite (i : Nat) (r v : Byte) (x : Word) : (s.gfmWrite i r v).romAt x = s.romAt x := by simp [State.romAt]
@[simp] theorem State.ram16_gfmWrite (i : Nat) (r v : Byte) (x : Nat) : (s.gfmWrite i r v).ram16 x = s.ram16 x := by simp [State.ram16]
@[simp] theorem State.ch_gfmWrite (i : Nat) (r v : Byte) (j g : Nat) : (s.gfmWrite i r v).ch j g = s.ch j g := by simp [State.ch]
@[simp] theorem State.ch16_gfmWrite (i : Nat) (r v : Byte) (j g : Nat) : (s.gfmWrite i r v).ch16 j g = s.ch16 j g := by simp [State.ch16]
@[simp] theorem State.enabled_gfmWrite (i : Nat) (r v : Byte) (j : Nat) : (s.gfmWrite i r v).enabled j = s.enabled j := by simp [State.enabled]
@[simp] theorem State.isPcm_gfmWrite (i : Nat) (r v : Byte) (j : Nat) : (s.gfmWrite i r v).isPcm j = s.isPcm j := by simp [State.isPcm]
@[simp] theorem State.muteCorr_gfmWrite (i : Nat) (r v : Byte) (j : Nat) : (s.gfmWrite i r v).muteCorr j = s.muteCorr j := by simp [State.muteCorr]
@[simp] theorem State.ym_gfmWrite (i : Nat) (r v : Byte) (j : Nat) : (s.gfmWrite i r v).ym j = s.ym j := by simp [State.ym]
@[simp] theorem State.suppressed_gfmWrite (i : Nat) (r v : Byte) (j : Nat) : (s.gfmWrite i r v).suppressed j = s.suppressed j := by simp [State.suppressed]

end Sys2Proof.Machine
end

