-- ==== Sys2Proof/Laws/Exec.lean ====
section
/-!
SUPPORT. How computations run: each primitive and each shared operation in one lemma, and the two ways a property is
carried through a sequence.
-/

namespace Sys2Proof.Machine

variable {α β : Type} {s : State}

@[simp] theorem after_ok (a : α) (t : State) : after (.ok a t : EStateM.Result Unit State α) = t := rfl

@[simp] theorem after_error (e : Unit) (t : State) : after (.error e t : EStateM.Result Unit State α) = t := rfl

@[simp] theorem pure_run (a : α) : (pure a : Exec α) s = .ok a s := rfl

@[simp] theorem look_run (f : State → α) : look f s = .ok (f s) s := rfl

@[simp] theorem upd_run (f : State → State) : upd f s = .ok () (f s) := rfl

@[simp] theorem raise_run (c : FaultCode) (info : Word) :
    (raise c info : Exec α) s = .error () (s.raiseFault c info) := rfl

@[simp] theorem bind_pure_run (a : α) (g : α → Exec β) : (pure a >>= g) s = g a s := rfl

@[simp] theorem bind_look (f : State → α) (g : α → Exec β) : (look f >>= g) s = g (f s) s := rfl

@[simp] theorem bind_upd (f : State → State) (g : Unit → Exec β) : (upd f >>= g) s = g () (f s) := rfl

@[simp] theorem bind_raise (c : FaultCode) (info : Word) (g : α → Exec β) :
    ((raise c info : Exec α) >>= g) s = .error () (s.raiseFault c info) := rfl

theorem bind_of_ok {m : Exec α} {a : α} {t : State} (h : m s = .ok a t) (g : α → Exec β) :
    (m >>= g) s = g a t := by
  show EStateM.bind m g s = _
  simp [EStateM.bind, h]

theorem bind_of_error {m : Exec α} {t : State} (h : m s = .error () t) (g : α → Exec β) :
    (m >>= g) s = .error () t := by
  show EStateM.bind m g s = _
  simp [EStateM.bind, h]

@[simp] theorem bind_assoc_run {γ : Type} (m : Exec α) (f : α → Exec β) (g : β → Exec γ) :
    ((m >>= f) >>= g) s = (m >>= fun a => f a >>= g) s := by
  show EStateM.bind (EStateM.bind m f) g s = EStateM.bind m (fun a => EStateM.bind (f a) g) s
  unfold EStateM.bind
  cases m s <;> rfl

theorem onlyIf_run (b : Bool) (m : Exec Unit) : onlyIf b m s = if b then m s else .ok () s := rfl

@[simp] theorem onlyIf_true (m : Exec Unit) : onlyIf true m = m := rfl

@[simp] theorem onlyIf_false_run (m : Exec Unit) : onlyIf false m s = .ok () s := rfl

@[simp] theorem bind_onlyIf_false (m : Exec Unit) (g : Unit → Exec β) : (onlyIf false m >>= g) s = g () s := rfl

@[simp] theorem each_nil_run (f : α → Exec Unit) : each [] f s = .ok () s := rfl

@[simp] theorem each_cons_run (x : α) (xs : List α) (f : α → Exec Unit) :
    each (x :: xs) f s = (f x >>= fun _ => each xs f) s := rfl

/-- A computation for each element of two lists in turn: what it comes to for the second begins where the first ended. -/
theorem each_append_run (l l' : List α) (f : α → Exec Unit) :
    each (l ++ l') f s = (each l f >>= fun _ => each l' f) s := by
  induction l generalizing s with
  | nil => rfl
  | cons x xs ih =>
    rw [List.cons_append, each_cons_run]
    show EStateM.bind (f x) _ s = EStateM.bind (EStateM.bind (f x) _) _ s
    unfold EStateM.bind
    cases f x s with
    | ok _ t => exact ih
    | error _ _ => rfl

/-- Updates done for each element of a list are one update. -/
theorem each_upd (l : List α) (f : α → State → State) :
    each l (fun x => upd (f x)) s = .ok () (l.foldl (fun t x => f x t) s) := by
  induction l generalizing s with
  | nil => rfl
  | cons x xs ih => simp [ih]

/-! ## The operations that may raise a fault -/

/-- `ROM8` answers the byte of an address in ROM, and raises ROM_RANGE for any other. -/
theorem rom8_run (a : Word) :
    rom8 a s = if a.toNat < s.cfg.romSize then .ok (s.romAt a) s else .error () (s.raiseFault .romRange a) := rfl

theorem rom8_ok {a : Word} (h : a.toNat < s.cfg.romSize) : rom8 a s = .ok (s.romAt a) s := by simp [rom8_run, h]

theorem rom8_fault {a : Word} (h : ¬ a.toNat < s.cfg.romSize) :
    rom8 a s = .error () (s.raiseFault .romRange a) := by simp [rom8_run, h]

theorem bind_rom8_ok {a : Word} (h : a.toNat < s.cfg.romSize) (g : Byte → Exec β) :
    (rom8 a >>= g) s = g (s.romAt a) s := bind_of_ok (rom8_ok h) g

/-- A slot number up to 15 passes; any other raises PARAM. -/
theorem checkSlot_run (sl : Slot) :
    checkSlot sl s = if sl.toNat ≤ 15 then .ok () s else .error () (s.raiseFault .param (zext16 sl)) := rfl

theorem checkSlot_ok {sl : Slot} (h : sl.toNat ≤ 15) : checkSlot sl s = .ok () s := by simp [checkSlot_run, h]

theorem bind_checkSlot_ok {sl : Slot} (h : sl.toNat ≤ 15) (g : Unit → Exec β) :
    (checkSlot sl >>= g) s = g () s := bind_of_ok (checkSlot_ok h) g

theorem putFront_ok {sl : Slot} {off : Nat} {v : Byte} (h : sl.toNat ≤ 15) :
    putFront sl off v s = .ok () (s.setPcm8 (front sl off) v) := by simp [putFront, bind_checkSlot_ok h]

theorem bind_putFront_ok {sl : Slot} {off : Nat} {v : Byte} (h : sl.toNat ≤ 15) (g : Unit → Exec β) :
    (putFront sl off v >>= g) s = g () (s.setPcm8 (front sl off) v) := bind_of_ok (putFront_ok h) g

theorem putFront_fault {sl : Slot} {off : Nat} {v : Byte} (h : ¬ sl.toNat ≤ 15) :
    putFront sl off v s = .error () (s.raiseFault .param (zext16 sl)) := by
  unfold putFront
  apply bind_of_error
  simp [checkSlot_run, h]

theorem putBack_ok {sl : Slot} {off : Nat} {v : Byte} (h : sl.toNat ≤ 15) :
    putBack sl off v s = .ok () (s.setPcm8 (back sl off) v) := by simp [putBack, bind_checkSlot_ok h]

theorem bind_putBack_ok {sl : Slot} {off : Nat} {v : Byte} (h : sl.toNat ≤ 15) (g : Unit → Exec β) :
    (putBack sl off v >>= g) s = g () (s.setPcm8 (back sl off) v) := bind_of_ok (putBack_ok h) g

theorem putBack_fault {sl : Slot} {off : Nat} {v : Byte} (h : ¬ sl.toNat ≤ 15) :
    putBack sl off v s = .error () (s.raiseFault .param (zext16 sl)) := by
  unfold putBack
  apply bind_of_error
  simp [checkSlot_run, h]

theorem silence_ok {sl : Slot} (h : sl.toNat ≤ 15) :
    silence sl s = .ok () (s.setPcm8 (back sl 6) (s.pcm8 (back sl 6) ||| 0x01)) := by
  simp [silence, bind_checkSlot_ok h]

theorem silence_fault {sl : Slot} (h : ¬ sl.toNat ≤ 15) :
    silence sl s = .error () (s.raiseFault .param (zext16 sl)) := by
  unfold silence
  apply bind_of_error
  simp [checkSlot_run, h]

/-- `ROM16` of two addresses in ROM. -/
theorem rom16_ok {a : Word} (h0 : a.toNat < s.cfg.romSize) (h1 : (a + 1).toNat < s.cfg.romSize) :
    rom16 a s = .ok (match s.cfg.romOrder with
      | .le => word (s.romAt (a + 1)) (s.romAt a)
      | .be => word (s.romAt a) (s.romAt (a + 1))) s := by
  unfold rom16
  rw [bind_rom8_ok h0, bind_rom8_ok h1]
  rfl

/-! ## A property carried through a sequence -/

/-- From `s`, a computation that runs to its end leaves a state related by `Q`, and one that raises a fault leaves a
state related by `E`. -/
def Leaves (Q E : State → State → Prop) (m : Exec α) : Prop :=
  ∀ s, match m s with
    | .ok _ t => Q s t
    | .error _ t => E s t

/-- What a computation leaves is related by `R` to what it began with, whether or not it raised a fault. -/
abbrev Keeps (R : State → State → Prop) (m : Exec α) : Prop := Leaves R R m

theorem Keeps.after {R : State → State → Prop} {m : Exec α} (h : Keeps R m) (s : State) : R s (after (m s)) := by
  have := h s
  cases hm : m s <;> simp_all

section Leaves

variable {Q E : State → State → Prop}

theorem Leaves.pure (hQ : ∀ s, Q s s) (a : α) : Leaves Q E (pure a : Exec α) := fun s => hQ s

theorem Leaves.look (hQ : ∀ s, Q s s) (f : State → α) : Leaves Q E (look f) := fun s => hQ s

theorem Leaves.upd {f : State → State} (h : ∀ s, Q s (f s)) : Leaves Q E (upd f) := fun s => h s

theorem Leaves.raise {c : FaultCode} {info : Word} (h : ∀ s, E s (s.raiseFault c info)) :
    Leaves Q E (raise c info : Exec α) := fun s => h s

theorem Leaves.bind (hQ : ∀ a b c, Q a b → Q b c → Q a c) (hE : ∀ a b c, Q a b → E b c → E a c)
    {m : Exec α} {g : α → Exec β} (hm : Leaves Q E m) (hg : ∀ a, Leaves Q E (g a)) : Leaves Q E (m >>= g) := by
  intro s
  have h := hm s
  cases hs : m s with
  | ok a t =>
    rw [bind_of_ok hs]
    rw [hs] at h
    have h' := hg a t
    cases hg' : g a t with
    | ok b u => rw [hg'] at h'; exact hQ _ _ _ h h'
    | error e u => rw [hg'] at h'; exact hE _ _ _ h h'
  | error e t =>
    rw [bind_of_error hs]
    rw [hs] at h
    exact h

theorem Leaves.onlyIf (hQ : ∀ s, Q s s) {b : Bool} {m : Exec Unit} (h : Leaves Q E m) :
    Leaves Q E (onlyIf b m) := by
  cases b
  · exact fun s => hQ s
  · exact h

theorem Leaves.ite {p : Prop} [Decidable p] {m n : Exec α} (hm : p → Leaves Q E m) (hn : ¬ p → Leaves Q E n) :
    Leaves Q E (if p then m else n) := by
  split
  · exact hm ‹_›
  · exact hn ‹_›

theorem Leaves.each (hr : ∀ s, Q s s) (hQ : ∀ a b c, Q a b → Q b c → Q a c)
    (hE : ∀ a b c, Q a b → E b c → E a c) {f : α → Exec Unit} (l : List α)
    (h : ∀ x, x ∈ l → Leaves Q E (f x)) : Leaves Q E (each l f) := by
  induction l with
  | nil => exact fun s => hr s
  | cons x xs ih =>
    exact Leaves.bind hQ hE (h x (by simp)) fun _ => ih fun y hy => h y (by simp [hy])

theorem Leaves.rom8 (hQ : ∀ s, Q s s) (hE : ∀ s i, E s (s.raiseFault .romRange i)) (a : Word) :
    Leaves Q E (rom8 a) := by
  intro s
  by_cases h : a.toNat < s.cfg.romSize
  · rw [rom8_ok h]
    exact hQ s
  · rw [rom8_fault h]
    exact hE s a

theorem Leaves.checkSlot (hQ : ∀ s, Q s s) (hE : ∀ s i, E s (s.raiseFault .param i)) (sl : Slot) :
    Leaves Q E (checkSlot sl) := by
  intro s
  by_cases h : sl.toNat ≤ 15
  · rw [checkSlot_ok h]
    exact hQ s
  · rw [checkSlot_run, if_neg h]
    exact hE s _

end Leaves

/-- A micro-step of the channel CHAN names. -/
theorem onChannel_ok (m : Nat → Exec Unit) (h : s.chan.toNat < 30) :
    onChannel m s = .next (after (m s.chan.toNat s)) := by simp [onChannel, h]

/-- If a channel micro-step answers a next state, CHAN names a record and the state is what the computation leaves. -/
theorem onChannel_next {m : Nat → Exec Unit} {t : State} (h : onChannel m s = .next t) :
    s.chan.toNat < 30 ∧ t = after (m s.chan.toNat s) := by
  unfold onChannel at h
  split at h
  · exact ⟨‹_›, by injection h with h; exact h.symm⟩
  · cases h

end Sys2Proof.Machine
end

