-- ==== Sys2Proof/Laws/Memory.lean ====
section
/-!
SUPPORT. The laws of the byte spaces: what a read after a write gives, for every list of cells, and that every
operation keeps the canonical form.
-/

namespace Sys2Proof.Machine.Memory

variable {sp : Space} {m : List Host.Cell} {a b lo : Nat} {v w : Byte}

/-! ## Reads after writes -/

theorem read_above (h : a < b) : read sp (above a m) b = read sp m b := by
  induction m with
  | nil => rfl
  | cons c m ih =>
    unfold above
    split
    · rw [ih]
      simp only [read, show ¬ b = c.1 by omega, show ¬ b < c.1 by omega, if_false]
    · rfl

theorem read_above_below (h : b ≤ a) : read sp (above a m) b = sp.blank b := by
  induction m with
  | nil => rfl
  | cons c m ih =>
    unfold above
    split
    · exact ih
    · simp only [read, show ¬ b = c.1 by omega, show b < c.1 by omega, if_false, if_true]

/-- Where the cells from `a` on are put back with the byte `v` at `a`, reads below `m`'s addresses see only that. -/
theorem read_put (hm : ∀ x, x ≤ a → read sp m x = sp.blank x) :
    read sp (put sp a v m) b = if b = a then v else read sp m b := by
  unfold put
  split
  · rename_i hv
    split
    · rename_i hb
      rw [hb, hm a (Nat.le_refl a), hv]
    · rfl
  · simp only [read]
    split
    · rfl
    · split
      · rw [hm b (by omega)]
      · rfl

/-- A read after a write, in any list of cells. -/
theorem read_write : read sp (write sp m a v) b = if b = a then v else read sp m b := by
  induction m with
  | nil => exact read_put fun _ _ => rfl
  | cons c m ih =>
    unfold write
    split
    · rename_i h
      apply read_put
      intro x hx
      simp only [read, show ¬ x = c.1 by omega, show x < c.1 by omega, if_false, if_true]
    · split
      · rename_i h1 h2
        rw [read_put fun x hx => read_above_below hx]
        split
        · rfl
        · simp only [read]
          rcases Nat.lt_trichotomy b a with hba | hba | hba
          · rw [read_above_below (by omega), if_neg (by omega), if_pos (by omega)]
          · omega
          · rw [read_above hba, if_neg (by omega), if_neg (by omega)]
      · simp only [read]
        split
        · rw [if_neg (by omega)]
        · split
          · rw [if_neg (by omega)]
          · exact ih

theorem read_write_self : read sp (write sp m a v) a = v := by rw [read_write, if_pos rfl]

theorem read_write_ne (hne : b ≠ a) : read sp (write sp m a v) b = read sp m b := by rw [read_write, if_neg hne]

/-! ## The canonical form -/

theorem above_of_wfFrom (h : wfFrom sp (a + 1) m = true) : above a m = m := by
  cases m with
  | nil => rfl
  | cons c m =>
    simp only [wfFrom, Bool.and_eq_true, decide_eq_true_eq] at h
    unfold above
    rw [if_neg (by omega)]

theorem wfFrom_mono (h : wfFrom sp a m = true) (hb : b ≤ a) : wfFrom sp b m = true := by
  cases m with
  | nil => rfl
  | cons c m =>
    simp only [wfFrom, Bool.and_eq_true, decide_eq_true_eq] at h ⊢
    exact ⟨⟨⟨by omega, h.1.1.2⟩, h.1.2⟩, h.2⟩

theorem wfFrom_put (h : wfFrom sp (a + 1) m = true) (ha : a < sp.size) (hlo : lo ≤ a) :
    wfFrom sp lo (put sp a v m) = true := by
  unfold put
  split
  · exact wfFrom_mono h (by omega)
  · rename_i hv
    simp only [wfFrom, Bool.and_eq_true, decide_eq_true_eq, bne_iff_ne, ne_eq]
    exact ⟨⟨⟨hlo, ha⟩, hv⟩, h⟩

theorem wfFrom_write (h : wfFrom sp lo m = true) (ha : a < sp.size) (hlo : lo ≤ a) :
    wfFrom sp lo (write sp m a v) = true := by
  induction m generalizing lo with
  | nil => exact wfFrom_put rfl ha hlo
  | cons c m ih =>
    obtain ⟨b, w⟩ := c
    simp only [wfFrom, Bool.and_eq_true, decide_eq_true_eq] at h
    unfold write
    split
    · rename_i hlt
      apply wfFrom_put _ ha hlo
      simp only [wfFrom, Bool.and_eq_true, decide_eq_true_eq]
      exact ⟨⟨⟨by omega, h.1.1.2⟩, h.1.2⟩, h.2⟩
    · split
      · rename_i h1 h2
        subst h2
        rw [above_of_wfFrom h.2]
        exact wfFrom_put h.2 ha hlo
      · rename_i h1 h2
        simp only [wfFrom, Bool.and_eq_true, decide_eq_true_eq]
        exact ⟨⟨⟨h.1.1.1, h.1.1.2⟩, h.1.2⟩, ih h.2 (by omega)⟩

/-- A write inside the space keeps the canonical form. -/
theorem wf_write (h : wf sp m = true) (ha : a < sp.size) : wf sp (write sp m a v) = true :=
  wfFrom_write h ha (Nat.zero_le a)

theorem size_pos (sp : Space) : 0 < sp.size := by cases sp <;> decide

/-- A load keeps the canonical form. -/
theorem wf_load (vs : List Byte) (h : wf sp m = true) : wf sp (load sp m a vs) = true := by
  induction vs generalizing m a with
  | nil => exact h
  | cons v vs ih => exact ih (wf_write h (Nat.mod_lt _ (size_pos sp)))

/-- Below its first listed address a canonical list reads as blank. -/
theorem read_below (h : wfFrom sp lo m = true) (hb : b < lo) : read sp m b = sp.blank b := by
  cases m with
  | nil => rfl
  | cons c m =>
    simp only [wfFrom, Bool.and_eq_true, decide_eq_true_eq] at h
    simp only [read, show ¬ b = c.1 by omega, show b < c.1 by omega, if_false, if_true]

/-- In canonical form a space is determined by what its addresses read as. -/
theorem ext_of_read {n : List Host.Cell} (hm : wfFrom sp lo m = true) (hn : wfFrom sp lo n = true)
    (h : ∀ x, lo ≤ x → read sp m x = read sp n x) : m = n := by
  induction m generalizing lo n with
  | nil =>
    cases n with
    | nil => rfl
    | cons d n =>
      simp only [wfFrom, Bool.and_eq_true, decide_eq_true_eq, bne_iff_ne, ne_eq] at hn
      have := h d.1 hn.1.1.1
      simp only [read, if_true] at this
      exact absurd this.symm hn.1.2
  | cons c m ih =>
    simp only [wfFrom, Bool.and_eq_true, decide_eq_true_eq, bne_iff_ne, ne_eq] at hm
    cases n with
    | nil =>
      have := h c.1 hm.1.1.1
      simp only [read, if_true] at this
      exact absurd this hm.1.2
    | cons d n =>
      simp only [wfFrom, Bool.and_eq_true, decide_eq_true_eq, bne_iff_ne, ne_eq] at hn
      obtain ⟨x, v⟩ := c
      obtain ⟨y, w⟩ := d
      simp only at hm hn
      rcases Nat.lt_trichotomy x y with hxy | hxy | hxy
      · have := h x hm.1.1.1
        simp only [read, if_true, Nat.ne_of_lt hxy, hxy, if_false] at this
        exact absurd this hm.1.2
      · subst hxy
        have hv := h x hm.1.1.1
        simp only [read, if_true] at hv
        subst hv
        congr 1
        apply ih hm.2 hn.2
        intro z hz
        have := h z (by omega)
        simpa only [read, show ¬ z = x by omega, show ¬ z < x by omega, if_false] using this
      · have := h y hn.1.1.1
        simp only [read, if_true, Nat.ne_of_lt hxy, hxy, if_false] at this
        exact absurd this.symm hn.1.2

end Sys2Proof.Machine.Memory
end

