-- ==== Sys2Proof/Laws/Ops.lean ====
section
/-!
SUPPORT. What the named operations read and write, and that each keeps the canonical form of memory.
-/

namespace Sys2Proof.Machine

variable {s : State}

/-! ## Reads after writes -/

theorem memWf_ram (h : s.memWf = true) : Memory.wf .ram s.ram = true := by
  simp only [State.memWf, Bool.and_eq_true] at h
  exact h.1.1.1

theorem memWf_pcm (h : s.memWf = true) : Memory.wf .pcm s.pcm = true := by
  simp only [State.memWf, Bool.and_eq_true] at h
  exact h.1.1.2

theorem memWf_fm (h : s.memWf = true) : Memory.wf .fm s.fmShadow = true := by
  simp only [State.memWf, Bool.and_eq_true] at h
  exact h.1.2

theorem memWf_rom (h : s.memWf = true) : Memory.wf .rom s.rom = true := by
  simp only [State.memWf, Bool.and_eq_true] at h
  exact h.2

/-- The whole effect of a RAM write on RAM reads. -/
@[simp] theorem ram8_setRam8 (a b : Nat) (v : Byte) :
    (s.setRam8 a v).ram8 b = if b = a then v else s.ram8 b := Memory.read_write

/-- The whole effect of a PCM file write on PCM file reads. -/
@[simp] theorem pcm8_setPcm8 (a b : Nat) (v : Byte) :
    (s.setPcm8 a v).pcm8 b = if b = a then v else s.pcm8 b := Memory.read_write

@[simp] theorem ram8_setCh (i f b : Nat) (v : Byte) :
    (s.setCh i f v).ram8 b = if b = recBase i + f then v else s.ram8 b := ram8_setRam8 _ _ _

/-- The two bytes of a word written to RAM. -/
@[simp] theorem ram8_setRam16 (a b : Nat) (v : Word) :
    (s.setRam16 a v).ram8 b = if b = a + 1 then hiByte v else if b = a then loByte v else s.ram8 b := by
  rw [State.setRam16, ram8_setRam8, ram8_setRam8]

@[simp] theorem ram8_setCh16 (i f b : Nat) (v : Word) :
    (s.setCh16 i f v).ram8 b =
      if b = recBase i + f + 1 then hiByte v else if b = recBase i + f then loByte v else s.ram8 b :=
  ram8_setRam16 _ _ _

@[simp] theorem word_hi_lo (v : Word) : word (hiByte v) (loByte v) = v := by
  unfold word hiByte loByte
  apply BitVec.eq_of_getLsbD_eq
  intro i hi
  simp only [BitVec.getLsbD_or, BitVec.getLsbD_shiftLeft, BitVec.getLsbD_setWidth, BitVec.getLsbD_ushiftRight]
  by_cases h8 : i < 8
  · simp [h8, hi]
  · simp [h8, hi, show 8 + (i - 8) = i by omega, show i - 8 < 16 by omega, show i - 8 < 8 by omega]

theorem ram16_setRam16 (a : Nat) (v : Word) : (s.setRam16 a v).ram16 a = v := by
  unfold State.ram16
  rw [ram8_setRam16, ram8_setRam16, if_pos rfl, if_neg (by omega), if_pos rfl, word_hi_lo]

/-! ## The canonical form is kept -/

theorem memWf_of_eq {t : State} (h : s.memWf = true) (hr : t.ram = s.ram) (hp : t.pcm = s.pcm)
    (hf : t.fmShadow = s.fmShadow) (ho : t.rom = s.rom) : t.memWf = true := by
  simpa only [State.memWf, hr, hp, hf, ho] using h

theorem memWf_setRam8 (h : s.memWf = true) {a : Nat} (ha : a < 0x800) (v : Byte) : (s.setRam8 a v).memWf = true := by
  simp only [State.memWf, Bool.and_eq_true, State.setRam8_ram, State.setRam8_pcm, State.setRam8_fmShadow,
    State.setRam8_rom] at h ⊢
  exact ⟨⟨⟨Memory.wf_write h.1.1.1 ha, h.1.1.2⟩, h.1.2⟩, h.2⟩

theorem memWf_setPcm8 (h : s.memWf = true) {a : Nat} (ha : a < 0x100) (v : Byte) : (s.setPcm8 a v).memWf = true := by
  simp only [State.memWf, Bool.and_eq_true, State.setPcm8_ram, State.setPcm8_pcm, State.setPcm8_fmShadow,
    State.setPcm8_rom] at h ⊢
  exact ⟨⟨⟨h.1.1.1, Memory.wf_write h.1.1.2 ha⟩, h.1.2⟩, h.2⟩

theorem memWf_setCh (h : s.memWf = true) {i f : Nat} (hi : i < 30) (hf : f < 0x400) (v : Byte) :
    (s.setCh i f v).memWf = true := memWf_setRam8 h (by unfold recBase; omega) v

theorem memWf_setRam16 (h : s.memWf = true) {a : Nat} (ha : a + 1 < 0x800) (v : Word) :
    (s.setRam16 a v).memWf = true :=
  memWf_setRam8 (memWf_setRam8 h (by omega) _) ha _

theorem memWf_setCh16 (h : s.memWf = true) {i f : Nat} (hi : i < 30) (hf : f < 0x400) (v : Word) :
    (s.setCh16 i f v).memWf = true := memWf_setRam16 h (by unfold recBase; omega) v

theorem memWf_fmWrite (h : s.memWf = true) (r v : Byte) : (s.fmWrite r v).memWf = true := by
  simp only [State.memWf, Bool.and_eq_true, State.fmWrite_ram, State.fmWrite_pcm, State.fmWrite_rom] at h ⊢
  refine ⟨⟨h.1.1, ?_⟩, h.2⟩
  show Memory.wf .fm (if s.fmBusy then s.fmShadow else Memory.write .fm s.fmShadow r.toNat v) = true
  split
  · exact h.1.2
  · exact Memory.wf_write h.1.2 r.isLt

theorem memWf_gfmWrite (h : s.memWf = true) (i : Nat) (r v : Byte) : (s.gfmWrite i r v).memWf = true := by
  unfold State.gfmWrite
  split
  · exact h
  · exact memWf_fmWrite h r v

/-! ## The FM port -/

/-- A busy chip: the status is drawn and nothing else happens. -/
theorem fmWrite_busy (h : s.fmBusy = true) (r v : Byte) : s.fmWrite r v = s.fmDrawn := by
  unfold State.fmWrite State.fmDrawn
  cases s.fmIn <;> simp [h]

/-- A ready chip: the write is issued and shadowed. -/
theorem fmWrite_ready (h : s.fmBusy = false) (r v : Byte) :
    s.fmWrite r v =
      { s.fmDrawn with fmOut := s.fmOut ++ [(r, v)], fmShadow := Memory.write .fm s.fmShadow r.toNat v } := by
  simp [State.fmWrite, h]

/-- A ready chip: what the port, the shadow and the rest of the state hold after the write. -/
theorem fmIssued_fmWrite (hb : s.fmBusy = false) (r v : Byte) : FmIssued s (s.fmWrite r v) r v := by
  rw [fmWrite_ready hb]
  refine ⟨rfl, fun x => ?_⟩
  show Memory.read .fm (Memory.write .fm s.fmShadow r.toNat v) x.toNat = _
  rw [Memory.read_write]
  simp [BitVec.toNat_inj, State.shadow]

theorem gfmWrite_suppressed {i : Nat} (h : s.suppressed i = true) (r v : Byte) : s.gfmWrite i r v = s := by
  simp [State.gfmWrite, h]

theorem gfmWrite_heard {i : Nat} (h : s.suppressed i = false) (r v : Byte) : s.gfmWrite i r v = s.fmWrite r v := by
  simp [State.gfmWrite, h]

/-! ## Addresses in ROM -/

@[simp] theorem inRom_nil : s.inRom [] = true := rfl

theorem inRom_cons (a : Word) (l : List Word) : s.inRom (a :: l) = (decide (a.toNat < s.cfg.romSize) && s.inRom l) :=
  rfl

@[simp] theorem firstOut_nil : s.firstOut [] = none := rfl

theorem firstOut_cons (a : Word) (l : List Word) :
    s.firstOut (a :: l) = if a.toNat < s.cfg.romSize then s.firstOut l else some a := by
  unfold State.firstOut
  by_cases h : a.toNat < s.cfg.romSize <;> simp [State.inRom, h]

/-- No address of the list lies outside ROM exactly when all lie in it. -/
theorem firstOut_eq_none (l : List Word) : s.firstOut l = none ↔ s.inRom l = true := by
  induction l with
  | nil => simp
  | cons a l ih => by_cases h : a.toNat < s.cfg.romSize <;> simp [firstOut_cons, inRom_cons, h, ih]

/-! ## Operand fetches -/

theorem romHas_iff {n : Nat} :
    s.romHas n = true ↔ ∀ k, k < n → (s.cur + BitVec.ofNat 16 (k + 1)).toNat < s.cfg.romSize := by
  simp [State.romHas]

/-- An operand fetch moves the cursor, and raises ROM_RANGE at the new address when that is not in ROM. -/
theorem next8_run :
    next8 s = if (s.cur + 1).toNat < s.cfg.romSize then .ok () (s.setCur (s.cur + 1))
      else .error () ((s.setCur (s.cur + 1)).raiseFault .romRange (s.cur + 1)) := rfl

theorem next8_ok (h : (s.cur + 1).toNat < s.cfg.romSize) : next8 s = .ok () (s.setCur (s.cur + 1)) := by
  rw [next8_run, if_pos h]

theorem bind_next8_ok {β : Type} (h : (s.cur + 1).toNat < s.cfg.romSize) (g : Unit → Exec β) :
    (next8 >>= g) s = g () (s.setCur (s.cur + 1)) := bind_of_ok (next8_ok h) g

theorem next16_ok (h : s.romHas 2 = true) : next16 s = .ok () (s.setCur (s.cur + 2)) := by
  rw [romHas_iff] at h
  have h0 := h 0 (by omega)
  have h1 := h 1 (by omega)
  have e : s.cur + 1 + 1 = s.cur + 2 := by rw [BitVec.add_assoc]; rfl
  have e' : (s.setCur (s.cur + 1)).cur + 1 = s.cur + 2 := e
  unfold next16
  rw [bind_next8_ok h0, next8_ok (by rw [e']; exact h1), e']
  rfl

theorem bind_next16_ok {β : Type} (h : s.romHas 2 = true) (g : Unit → Exec β) :
    (next16 >>= g) s = g () (s.setCur (s.cur + 2)) := bind_of_ok (next16_ok h) g

theorem romHas_zero : s.romHas 0 = true := rfl

/-- One byte more. -/
theorem romHas_succ (n : Nat) :
    s.romHas (n + 1) = (s.romHas n && decide ((s.cur + BitVec.ofNat 16 (n + 1)).toNat < s.cfg.romSize)) := by
  simp [State.romHas, List.range_succ]

theorem romHas_one : s.romHas 1 = decide ((s.cur + 1).toNat < s.cfg.romSize) := by
  simp [State.romHas]

theorem romHas_mono {m n : Nat} (h : s.romHas n = true) (hm : m ≤ n) : s.romHas m = true := by
  rw [romHas_iff] at h ⊢
  exact fun k hk => h k (by omega)

theorem cur_step (c : Word) (n : Nat) : c + BitVec.ofNat 16 (n + 1 + 1) = c + 1 + BitVec.ofNat 16 (n + 1) := by
  rw [BitVec.add_assoc]
  congr 1
  apply BitVec.eq_of_toNat_eq
  simp
  omega

/-- The bytes after the first one, seen from the first one. -/
theorem romHas_next (n : Nat) :
    s.romHas (n + 1) = (decide ((s.cur + 1).toNat < s.cfg.romSize) && (s.setCur (s.cur + 1)).romHas n) := by
  induction n with
  | zero => rw [romHas_one, romHas_zero, Bool.and_true]
  | succ n ih =>
    rw [romHas_succ (n + 1), ih, romHas_succ n, Bool.and_assoc, cur_step]
    rfl

theorem next8_fault (h : ¬ (s.cur + 1).toNat < s.cfg.romSize) :
    next8 s = .error () ((s.setCur (s.cur + 1)).raiseFault .romRange (s.cur + 1)) := by
  rw [next8_run, if_neg h]

theorem bind_next8_fault {β : Type} (h : ¬ (s.cur + 1).toNat < s.cfg.romSize) (g : Unit → Exec β) :
    (next8 >>= g) s = .error () ((s.setCur (s.cur + 1)).raiseFault .romRange (s.cur + 1)) :=
  bind_of_error (next8_fault h) g

/-- An operand fetch outside ROM is the fault of the first of the bytes to fetch. -/
theorem fetchFaults_first {n : Nat} (hn : 0 < n) (h : ¬ (s.cur + 1).toNat < s.cfg.romSize) :
    FetchFaults s ((s.setCur (s.cur + 1)).raiseFault .romRange (s.cur + 1)) n :=
  ⟨0, hn, rfl, by rw [romHas_one, decide_eq_false_iff_not]; exact h, rfl⟩

/-- The fault of a later byte, seen from the byte before. -/
theorem fetchFaults_next {t : State} {n : Nat} (h : (s.cur + 1).toNat < s.cfg.romSize)
    (hf : FetchFaults (s.setCur (s.cur + 1)) t n) : FetchFaults s t (n + 1) := by
  obtain ⟨k, hk, h0, h1, ht⟩ := hf
  refine ⟨k + 1, by omega, ?_, ?_, ?_⟩
  · rw [romHas_next, h0]
    simpa using h
  · rw [romHas_next, h1, Bool.and_false]
  · rw [cur_step]
    exact ht

/-- An address operand that does not lie in ROM whole faults at its first byte outside ROM. -/
theorem next16_fault (h : s.romHas 2 = false) : ∃ u, next16 s = .error () u ∧ FetchFaults s u 2 := by
  by_cases h0 : (s.cur + 1).toNat < s.cfg.romSize
  · have h1 : ¬ ((s.setCur (s.cur + 1)).cur + 1).toNat < (s.setCur (s.cur + 1)).cfg.romSize := by
      rw [romHas_next, romHas_one, decide_eq_true h0, Bool.true_and, decide_eq_false_iff_not] at h
      exact h
    refine ⟨_, ?_, fetchFaults_next h0 (fetchFaults_first Nat.one_pos h1)⟩
    unfold next16
    rw [bind_next8_ok h0, next8_fault h1]
  · exact ⟨_, bind_next8_fault h0 _, fetchFaults_first (by decide) h0⟩

/-- A jump and the generic advance after it come to the target. -/
theorem jump_advance (a : Word) : (jump a >>= fun _ => advance) s = .ok () (s.setCur a) := by
  simp [jump, advance, State.setCur]

end Sys2Proof.Machine
end

