-- ==== Sys2Proof/Laws/Engine.lean ====
section
/-!
SUPPORT. The operations of the engine pass (43_engine_tone.md R204 to R211) on a slot number 0..15 and entries that lie
in ROM: each runs to its end, and leaves the state named here. On any other each raises the fault named here.
-/

namespace Sys2Proof.Machine

variable {s : State}

/-! ## Flags of the engine record -/

theorem bit_setBit (v : Byte) (j k : Nat) (b : Bool) (hj : j < 8) :
    bit (setBit v j b) k = if k = j then b else bit v k := by
  unfold setBit bit
  cases b
  · simp only [Bool.false_eq_true, if_false, BitVec.getLsbD_and, BitVec.getLsbD_not, BitVec.getLsbD_shiftLeft,
      BitVec.getLsbD_one]
    by_cases hk : k < 8
    · by_cases e : k = j
      · simp [e, hj]
      · rcases Nat.lt_or_gt_of_ne e with h | h
        · simp [hk, e, h]
        · simp [hk, e, show ¬ k < j by omega, show k - j ≠ 0 by omega]
    · rw [if_neg (by omega)]
      simp [BitVec.getLsbD_of_ge, show 8 ≤ k by omega]
  · simp only [if_true, BitVec.getLsbD_or, BitVec.getLsbD_shiftLeft, BitVec.getLsbD_one]
    by_cases hk : k < 8
    · by_cases e : k = j
      · simp [e, hj]
      · rcases Nat.lt_or_gt_of_ne e with h | h
        · simp [hk, e, h]
        · simp [hk, e, show ¬ k < j by omega, show k - j ≠ 0 by omega]
    · rw [if_neg (by omega)]
      simp [hk]

theorem eng_setEng (n : EngCh) (f x : Nat) (v : Byte) :
    (s.setEng n f v).eng n x = if x = f then v else s.eng n x := by simp [State.setEng, State.eng]

theorem eng_setEngFlag (n : EngCh) (k : Nat) (b : Bool) (x : Nat) :
    (s.setEngFlag n k b).eng n x = if x = EFld.flags then setBit (s.eng n EFld.flags) k b else s.eng n x := by
  simp [State.setEngFlag, State.setEng, State.eng]

@[simp] theorem eng_setPcm8 (n : EngCh) (x a : Nat) (v : Byte) : (s.setPcm8 a v).eng n x = s.eng n x := rfl

/-! ## Operations -/

/-- A slot with start and loop address `a`. -/
def State.withStart (s : State) (sl : Slot) (a : Word) : State :=
  (((s.setPcm8 (front sl 4) (loByte a)).setPcm8 (front sl 5) (hiByte a)).setPcm8 (back sl 4) (loByte a)).setPcm8
    (back sl 5) (hiByte a)

theorem putStart_ok {sl : Slot} {a : Word} (h : sl.toNat ≤ 15) : putStart sl a s = .ok () (s.withStart sl a) := by
  unfold putStart
  rw [bind_putFront_ok h, bind_putFront_ok h, bind_putBack_ok h, putBack_ok h]
  rfl

theorem putVolumes_ok {sl : Slot} {l r : Byte} (h : sl.toNat ≤ 15) :
    putVolumes sl l r s = .ok () ((s.setPcm8 (front sl 2) l).setPcm8 (front sl 3) r) := by
  unfold putVolumes
  rw [bind_putFront_ok h, putFront_ok h]

theorem engMute_ok {n : EngCh} (h : (s.engSlot n).toNat ≤ 15) :
    let u := (s.setEngFlag n EFlags.mute true).setEng n EFld.active 0
    engMute n s = .ok () (u.setPcm8 (back (s.engSlot n) 6) (u.pcm8 (back (s.engSlot n) 6) ||| 0x01)) := by
  intro u
  unfold engMute
  simp only [bind_upd, bind_look]
  exact silence_ok h

theorem engEntry_ok {a : Word} (h : s.inRom [a, a + 1, a + 2] = true) :
    engEntry a s = .ok (word (s.romAt (a + 1)) (s.romAt a), s.romAt (a + 2)) s := by
  simp only [State.inRom, List.all_cons, List.all_nil, Bool.and_true, Bool.and_eq_true, decide_eq_true_eq] at h
  unfold engEntry
  rw [bind_rom8_ok h.2.1, bind_rom8_ok h.1, bind_rom8_ok h.2.2]
  rfl

/-! ## Faults (R213) -/

theorem putStart_fault {sl : Slot} {a : Word} (h : ¬ sl.toNat ≤ 15) :
    putStart sl a s = .error () (s.raiseFault .param (zext16 sl)) := by
  unfold putStart
  exact bind_of_error (putFront_fault h) _

theorem putVolumes_fault {sl : Slot} {l r : Byte} (h : ¬ sl.toNat ≤ 15) :
    putVolumes sl l r s = .error () (s.raiseFault .param (zext16 sl)) := by
  unfold putVolumes
  exact bind_of_error (putFront_fault h) _

/-- A mute on a slot above 15 has written the record before the fault. -/
theorem engMute_fault {n : EngCh} (h : ¬ (s.engSlot n).toNat ≤ 15) :
    engMute n s = .error () (((s.setEngFlag n EFlags.mute true).setEng n EFld.active 0).raiseFault .param
      (zext16 (s.engSlot n))) := by
  unfold engMute
  simp only [bind_upd, bind_look]
  exact silence_fault h

/-- An entry with a byte outside ROM raises ROM_RANGE at the first one in the order of reads (log 14). -/
theorem engEntry_fault {a x : Word} (h : s.firstOut [a + 1, a, a + 2] = some x) :
    engEntry a s = .error () (s.raiseFault .romRange x) := by
  simp only [firstOut_cons, firstOut_nil] at h
  unfold engEntry
  split at h
  · rw [bind_rom8_ok ‹_›]
    split at h
    · rw [bind_rom8_ok ‹_›]
      split at h
      · cases h
      · cases h
        exact bind_of_error (rom8_fault ‹_›) _
    · cases h
      exact bind_of_error (rom8_fault ‹_›) _
  · cases h
    exact bind_of_error (rom8_fault ‹_›) _

/-- A table path whose row is out of range stops at once (R210). -/
theorem engTable_row_fault {n : EngCh} {p : BitVec 9} {v : Byte} (h : 53 < (s.cfg.engRowOf p v).toNat) :
    engTable n p v s = .error () (s.raiseFault .param (s.cfg.engRowOf p v)) := by
  simp [engTable, h]

/-- A Ferrari path whose row is out of range stops at once (R209). -/
theorem engFerrari_row_fault {n : EngCh} {p : BitVec 9} {v : Byte}
    (h : s.cfg.ferrariRows.toNat ≤ (s.cfg.ferrariRowOf (p - s.cfg.engIdle)).toNat) :
    engFerrari n p v s = .error () (s.raiseFault .param (s.cfg.ferrariRowOf (p - s.cfg.engIdle))) := by
  simp [engFerrari, h]

/-! ## Operations that go on -/

/-- What EngSetAddr leaves (R208). -/
def State.addrSet (s : State) (n : EngCh) (start : Word) (endHi : Byte) : State :=
  let sl := s.engSlot n
  let u :=
    if !s.engFlag n EFlags.addrset || s.engFlag n EFlags.mute then
      let u := (s.withStart sl start).setPcm8 (front sl 6) endHi
      let u := u.setPcm8 (back sl 6) (if u.engFlag n EFlags.loopset then 0x00 else 0x02)
      (u.setEngFlag n EFlags.addrset true).setEngFlag n EFlags.loopdis false
    else s
  (u.setEngFlag n EFlags.mute false).setEng n EFld.active 1

theorem engSetAddr_ok {n : EngCh} {start : Word} {endHi : Byte} (h : (s.engSlot n).toNat ≤ 15) :
    engSetAddr n start endHi s = .ok () (s.addrSet n start endHi) := by
  unfold engSetAddr State.addrSet
  simp only [bind_look]
  cases hc : (!s.engFlag n EFlags.addrset || s.engFlag n EFlags.mute)
  · simp only [bind_onlyIf_false, bind_upd, upd_run, Bool.false_eq_true, if_false]
  · simp only [onlyIf_true, bind_assoc_run, if_true]
    rw [bind_of_ok (putStart_ok h)]
    simp only [bind_assoc_run]
    rw [bind_putFront_ok h]
    simp only [bind_look, bind_assoc_run]
    rw [bind_putBack_ok h]
    rfl

/-- What the panned adjusted volume leaves (R209, R210). -/
def State.volumeSet (s : State) (n : EngCh) (v : Byte) : State :=
  let u := s.setEng n EFld.adjvol v
  if n.odd then (u.setPcm8 (front (s.engSlot n) 2) v).setPcm8 (front (s.engSlot n) 3) 0
  else (u.setPcm8 (front (s.engSlot n) 2) 0).setPcm8 (front (s.engSlot n) 3) v

theorem engVolume_ok {n : EngCh} {v : Byte} (h : (s.engSlot n).toNat ≤ 15) :
    engVolume n v s = .ok () (s.volumeSet n v) := by
  unfold engVolume State.volumeSet
  simp only [bind_upd, bind_look]
  have h' : ((s.setEng n EFld.adjvol v).engSlot n).toNat ≤ 15 := h
  cases n.odd
  · simp only [Bool.false_eq_true, if_false]
    rw [putVolumes_ok h']
    rfl
  · simp only [if_true]
    rw [putVolumes_ok h']
    rfl

@[simp] theorem addrSet_cfg (n : EngCh) (a : Word) (e : Byte) : (s.addrSet n a e).cfg = s.cfg := by
  unfold State.addrSet
  split <;> rfl

@[simp] theorem addrSet_romAt (n : EngCh) (a : Word) (e : Byte) (x : Word) :
    (s.addrSet n a e).romAt x = s.romAt x := by
  unfold State.addrSet
  split <;> rfl

@[simp] theorem volumeSet_cfg (n : EngCh) (v : Byte) : (s.volumeSet n v).cfg = s.cfg := by
  unfold State.volumeSet
  split <;> rfl

@[simp] theorem volumeSet_romAt (n : EngCh) (v : Byte) (x : Word) : (s.volumeSet n v).romAt x = s.romAt x := by
  unfold State.volumeSet
  split <;> rfl

/-- EngTable with a row in range and an entry in ROM (R210). -/
theorem engTable_ok {n : EngCh} {p : BitVec 9} {v : Byte} {a : Word} (hs : (s.engSlot n).toNat ≤ 15)
    (hr : (s.cfg.engRowOf p v).toNat ≤ 53) (ha : s.cfg.engTable + 5 * s.cfg.engRowOf p v = a)
    (hm : s.inRom [a, a + 1, a + 2, a + 3, a + 4] = true) :
    engTable n p v s = .ok () (((s.addrSet n (word (s.romAt (a + 1)) (s.romAt a)) (s.romAt (a + 2))).volumeSet n
      (mulShift v (s.romAt (a + 3)) 8)).setPcm8 (front (s.engSlot n) 7)
      (s.romAt (a + 4) + clampPitch p s.cfg.engPitchClamp + n.nudge)) := by
  simp only [State.inRom, List.all_cons, List.all_nil, Bool.and_true, Bool.and_eq_true, decide_eq_true_eq] at hm
  have he : s.inRom [a, a + 1, a + 2] = true := by
    simp only [State.inRom, List.all_cons, List.all_nil, Bool.and_true, Bool.and_eq_true, decide_eq_true_eq]
    exact ⟨hm.1, hm.2.1, hm.2.2.1⟩
  unfold engTable
  simp only [bind_look, ha, if_neg (show ¬ 53 < (s.cfg.engRowOf p v).toNat by omega)]
  rw [bind_of_ok (engEntry_ok he)]
  show (engSetAddr n _ _ >>= _) s = _
  rw [bind_of_ok (engSetAddr_ok hs)]
  generalize hu : s.addrSet n (word (s.romAt (a + 1)) (s.romAt a)) (s.romAt (a + 2)) = u
  have hcfg : u.cfg = s.cfg := by rw [← hu, addrSet_cfg]
  have hrom : ∀ x, u.romAt x = s.romAt x := fun x => by rw [← hu, addrSet_romAt]
  rw [bind_rom8_ok (by rw [hcfg]; exact hm.2.2.2.1)]
  have hs' : (u.engSlot n).toNat ≤ 15 := by
    unfold State.engSlot
    rw [hcfg]
    exact hs
  rw [bind_of_ok (engVolume_ok hs'), bind_rom8_ok (by rw [volumeSet_cfg, hcfg]; exact hm.2.2.2.2), volumeSet_romAt, hrom,
    hrom]
  exact putFront_ok hs

/-- EngFerrari with a row in range and an entry in ROM (R209). -/
theorem engFerrari_ok {n : EngCh} {p : BitVec 9} {v : Byte} {a : Word} (hs : (s.engSlot n).toNat ≤ 15)
    (hr : (s.cfg.ferrariRowOf (p - s.cfg.engIdle)).toNat < s.cfg.ferrariRows.toNat)
    (ha : s.cfg.ferrariTable + 4 * s.cfg.ferrariRowOf (p - s.cfg.engIdle) = a)
    (hm : s.inRom [a, a + 1, a + 2, a + 3] = true) :
    engFerrari n p v s = .ok () (((s.addrSet n (word (s.romAt (a + 1)) (s.romAt a)) (s.romAt (a + 2))).volumeSet n
      (ferrariVolume v)).setPcm8 (front (s.engSlot n) 7) (s.romAt (a + 3) + n.nudge)) := by
  simp only [State.inRom, List.all_cons, List.all_nil, Bool.and_true, Bool.and_eq_true, decide_eq_true_eq] at hm
  have he : s.inRom [a, a + 1, a + 2] = true := by
    simp only [State.inRom, List.all_cons, List.all_nil, Bool.and_true, Bool.and_eq_true, decide_eq_true_eq]
    exact ⟨hm.1, hm.2.1, hm.2.2.1⟩
  unfold engFerrari
  simp only [bind_look, ha, if_neg (Nat.not_le.mpr hr)]
  rw [bind_of_ok (engEntry_ok he)]
  show (engSetAddr n _ _ >>= _) s = _
  rw [bind_of_ok (engSetAddr_ok hs)]
  generalize hu : s.addrSet n (word (s.romAt (a + 1)) (s.romAt a)) (s.romAt (a + 2)) = u
  have hcfg : u.cfg = s.cfg := by rw [← hu, addrSet_cfg]
  have hrom : ∀ x, u.romAt x = s.romAt x := fun x => by rw [← hu, addrSet_romAt]
  have hs' : (u.engSlot n).toNat ≤ 15 := by
    unfold State.engSlot
    rw [hcfg]
    exact hs
  rw [bind_of_ok (engVolume_ok hs'), bind_rom8_ok (by rw [volumeSet_cfg, hcfg]; exact hm.2.2.2), volumeSet_romAt, hrom]
  exact putFront_ok hs

end Sys2Proof.Machine
end

