-- ==== Sys2Proof/Laws/Fill.lean ====
section
/-!
SUPPORT. Runs of consecutive writes: a record zeroed (40_sequencer.md R115), a traffic record and its slot cleared
(44_traffic_fx.md R238), a traffic channel sent (R236, R237).
-/

namespace Sys2Proof.Machine

variable {s : State}

/-- What Channel RAM reads after the first `n` bytes from `r` on have been written. -/
theorem ram8_fill (n r : Nat) (f : Nat → Byte) (a : Nat) :
    ((List.range n).foldl (fun s k => s.setRam8 (r + k) (f k)) s).ram8 a =
      if r ≤ a ∧ a < r + n then f (a - r) else s.ram8 a := by
  induction n with
  | zero => simp [show ¬ (r ≤ a ∧ a < r) by omega]
  | succ n ih =>
    rw [List.range_succ, List.foldl_append, List.foldl_cons, List.foldl_nil, ram8_setRam8, ih]
    by_cases h : a = r + n
    · rw [if_pos h, if_pos (by omega), h, Nat.add_sub_cancel_left]
    · rw [if_neg h]
      by_cases h2 : r ≤ a ∧ a < r + n
      · rw [if_pos h2, if_pos (by omega)]
      · rw [if_neg h2, if_neg (by omega)]

/-- Such a run writes Channel RAM only. -/
theorem fill_only (n r : Nat) (f : Nat → Byte) :
    (List.range n).foldl (fun s k => s.setRam8 (r + k) (f k)) s =
      { s with ram := ((List.range n).foldl (fun s k => s.setRam8 (r + k) (f k)) s).ram } := by
  induction n with
  | zero => rfl
  | succ n ih =>
    rw [List.range_succ, List.foldl_append, List.foldl_cons, List.foldl_nil]
    conv => lhs; rw [ih]
    rfl

/-- The 32 bytes of a record, zeroed (R115). -/
theorem ram8_zeroRecord (i a : Nat) :
    (s.zeroRecord i).ram8 a = if recBase i ≤ a ∧ a < recBase i + 32 then 0 else s.ram8 a :=
  ram8_fill 32 (recBase i) (fun _ => 0) a

theorem zeroRecord_only (i : Nat) : s.zeroRecord i = { s with ram := (s.zeroRecord i).ram } :=
  fill_only 32 (recBase i) fun _ => 0

/-- The 8 bytes of a traffic record, zeroed (R238). -/
theorem ram8_zeroTrf (t : TrfCh) (a : Nat) :
    (s.zeroTrf t).ram8 a = if trfRec t ≤ a ∧ a < trfRec t + 8 then 0 else s.ram8 a :=
  ram8_fill 8 (trfRec t) (fun _ => 0) a

theorem zeroTrf_only (t : TrfCh) : s.zeroTrf t = { s with ram := (s.zeroTrf t).ram } :=
  fill_only 8 (trfRec t) fun _ => 0

/-- The slot of a disabled traffic channel: both halves 0 but for the inactive bit (R238). -/
def State.clearSlot (s : State) (sl : Slot) : State :=
  ((List.range 8).foldl (fun s k => (s.setPcm8 (front sl k) 0).setPcm8 (back sl k) 0) s).setPcm8 (back sl 6) 0x01

/-- TrafficDisable with a slot number 0..15 (R238). -/
theorem trafficDisable_ok {t : TrfCh} (h : (s.trfSlot t).toNat ≤ 15) :
    trafficDisable t s = .ok () ((s.zeroTrf t).clearSlot (s.trfSlot t)) := by
  unfold trafficDisable
  simp only [bind_upd, bind_look]
  have hc : (s.zeroTrf t).trfSlot t = s.trfSlot t := by
    rw [zeroTrf_only]
    rfl
  rw [hc]
  generalize s.zeroTrf t = u
  have he : ∀ (l : List Nat) (u : State),
      each l (fun k => do
        putFront (s.trfSlot t) k 0
        putBack (s.trfSlot t) k 0) u =
      .ok () (l.foldl (fun s' k => (s'.setPcm8 (front (s.trfSlot t) k) 0).setPcm8 (back (s.trfSlot t) k) 0) u) := by
    intro l
    induction l with
    | nil => exact fun _ => rfl
    | cons k l ih =>
      intro u
      rw [each_cons_run, bind_assoc_run, bind_putFront_ok h, bind_putBack_ok h, ih]
      rfl
  rw [bind_of_ok (he _ u)]
  exact putBack_ok h

/-- The two volumes and the pitch sent to a slot number 0..15 (R236, R237). -/
theorem trafficSend_ok {t : TrfCh} {sl : Slot} (h : sl.toNat ≤ 15) :
    trafficSend t sl s = .ok () (((s.setPcm8 (front sl 2) (s.trf t TFld.voll)).setPcm8 (front sl 3)
      (s.trf t TFld.volr)).setPcm8 (front sl 7) (s.trf t TFld.pitch)) := by
  unfold trafficSend
  simp only [bind_look]
  rw [bind_putFront_ok h]
  simp only [bind_look]
  rw [bind_putFront_ok h]
  simp only [bind_look]
  rw [putFront_ok h]
  rfl

end Sys2Proof.Machine
end

