-- ==== Sys2Proof/Laws/Fm.lean ====
section
/-!
SUPPORT. The FM block stream (41_commands.md R150): a block that ends is shorter than a lap, and a stream over pairs does
their guarded writes. What a list of FM writes comes to under given answers of the chip (20_memory.md R72).
-/

namespace Sys2Proof.Machine

variable {s : State} {p : Word} {l : List (Byte × Byte)}

/-- The rest of a block after its first `k` pairs is a block. -/
theorem blockAt_drop (h : s.blockAt p l = true) (k : Nat) (hk : k ≤ l.length) :
    s.blockAt (p + BitVec.ofNat 16 (2 * k)) (l.drop k) = true := by
  induction k generalizing p l with
  | zero => simpa using h
  | succ k ih =>
    cases l with
    | nil => simp at hk
    | cons rv l =>
      simp only [State.blockAt, Bool.and_eq_true] at h
      have := ih h.2 (by simpa using hk)
      have e : p + 2 + BitVec.ofNat 16 (2 * k) = p + BitVec.ofNat 16 (2 * (k + 1)) := by
        rw [BitVec.add_assoc]
        congr 1
        apply BitVec.eq_of_toNat_eq
        simp
        omega
      rw [e] at this
      simpa using this

/-- A block that ends is shorter than a lap: after a lap the stream would stand at the same byte again. -/
theorem blockAt_length (h : s.blockAt p l = true) : l.length < fmLap := by
  show l.length < 0x8000
  by_contra hl
  have h1 := blockAt_drop h (l.length - 0x8000) (by omega)
  generalize hp : p + BitVec.ofNat 16 (2 * (l.length - 32768)) = p1 at h1
  have h2 := blockAt_drop h1 0x8000 (by simp; omega)
  have e : p1 + BitVec.ofNat 16 (2 * 32768) = p1 := by simp
  rw [e, List.drop_drop, show l.length - 0x8000 + 0x8000 = l.length by omega, List.drop_length] at h2
  cases hc : l.drop (l.length - 0x8000) with
  | nil =>
    have := congrArg List.length hc
    simp at this
    omega
  | cons rv m =>
    rw [hc] at h1
    simp only [State.blockAt, Bool.and_eq_true, beq_iff_eq, bne_iff_ne] at h1 h2
    exact h1.1.1.1.2 (h1.1.1.2.symm.trans h2.2)

/-- An FM write does not touch ROM. -/
theorem blockAt_gfmWrite (i : Nat) (r v : Byte) (p : Word) (l : List (Byte × Byte)) :
    (s.gfmWrite i r v).blockAt p l = s.blockAt p l := by
  induction l generalizing p with
  | nil => simp [State.blockAt]
  | cons rv l ih => simp [State.blockAt, ih, State.inRom]

/-- A stream over a block, with fuel for its pairs and its terminator. -/
theorem fmStream_block (i : Nat) (fuel : Nat) (hf : l.length < fuel) (h : s.blockAt p l = true) :
    fmStream i fuel p s = .ok none (s.writeBlock i l) := by
  induction l generalizing s p fuel with
  | nil =>
    cases fuel with
    | zero => simp at hf
    | succ fuel =>
      simp only [State.blockAt, Bool.and_eq_true, decide_eq_true_eq, beq_iff_eq] at h
      unfold fmStream
      rw [bind_rom8_ok h.1, h.2]
      rfl
  | cons rv l ih =>
    obtain ⟨rb, v⟩ := rv
    cases fuel with
    | zero => simp at hf
    | succ fuel =>
      simp only [State.blockAt, Bool.and_eq_true, beq_iff_eq, bne_iff_ne, State.inRom, List.all_cons, List.all_nil,
        decide_eq_true_eq] at h
      unfold fmStream
      rw [bind_rom8_ok h.1.1.1.1.1, h.1.1.2, if_neg h.1.1.1.2, bind_rom8_ok h.1.1.1.1.2.1, h.1.2]
      simp only [bind_upd]
      rw [ih _ (by simpa using hf) (by rw [blockAt_gfmWrite]; exact h.2)]
      rfl

/-- A lap over a block that ends does its guarded writes and the generic advance. -/
theorem fmStreamLap_block (i : Nat) (h : s.blockAt p l = true) :
    fmStreamLap i p s = .ok () ((s.writeBlock i l).setCur ((s.writeBlock i l).cur + 1)) := by
  unfold fmStreamLap
  rw [bind_of_ok (fmStream_block i fmLap (blockAt_length h) h)]
  rfl

/-! ## Blocks that do not end in ROM -/

theorem pair_step (p : Word) (k : Nat) : p + 2 + 2 * BitVec.ofNat 16 k = p + 2 * BitVec.ofNat 16 (k + 1) := by
  rw [BitVec.ofNat_add, BitVec.mul_add, BitVec.add_assoc, BitVec.add_comm 2]
  rfl

/-- The rest of a run of pairs after its first `k` is a run of pairs. -/
theorem pairsAt_drop (h : s.pairsAt p l = true) (k : Nat) (hk : k ≤ l.length) :
    s.pairsAt (p + 2 * BitVec.ofNat 16 k) (l.drop k) = true := by
  induction k generalizing p l with
  | zero => simpa using h
  | succ k ih =>
    cases l with
    | nil => simp at hk
    | cons rv l =>
      simp only [State.pairsAt, Bool.and_eq_true] at h
      have := ih h.2 (by simpa using hk)
      rwa [pair_step] at this

/-- A run of pairs of a lap or more meets no byte outside ROM and no terminator after it: it stands at one of its own
pairs again. -/
theorem pairOut_of_lap (h : s.pairsAt p l = true) (hl : fmLap ≤ l.length) :
    s.pairOut (p + 2 * BitVec.ofNat 16 l.length) = none := by
  obtain ⟨k, hk⟩ := Nat.exists_eq_add_of_le' hl
  have h1 := pairsAt_drop h k (by omega)
  have e : 2 * BitVec.ofNat 16 k = 2 * BitVec.ofNat 16 l.length := by
    rw [hk, show fmLap = 0x8000 from rfl]
    apply BitVec.eq_of_toNat_eq
    simp
    omega
  rw [e] at h1
  generalize p + 2 * BitVec.ofNat 16 l.length = q at h1
  cases hc : l.drop k with
  | nil =>
    have := congrArg List.length hc
    simp [hk] at this
  | cons rv m =>
    rw [hc] at h1
    simp only [State.pairsAt, Bool.and_eq_true, beq_iff_eq, bne_iff_ne, State.inRom, List.all_cons, List.all_nil] at h1
    have hne : s.romAt q ≠ 0xFF := h1.1.1.2 ▸ h1.1.1.1.2
    rw [State.pairOut, if_neg hne, State.firstOut, List.find?_eq_none]
    simp only [State.inRom, List.all_cons, List.all_nil, List.forall_mem_cons, List.not_mem_nil, h1.1.1.1.1.1,
      h1.1.1.1.1.2.1]
    simp

/-- An FM write does not touch ROM. -/
theorem pairsAt_gfmWrite (i : Nat) (r v : Byte) (p : Word) (l : List (Byte × Byte)) :
    (s.gfmWrite i r v).pairsAt p l = s.pairsAt p l := by
  induction l generalizing p with
  | nil => rfl
  | cons rv l ih => simp [State.pairsAt, ih, State.inRom]

/-- A stream does the guarded writes of a run of pairs, and goes on after it with the fuel that is left. -/
theorem fmStream_pairs (i : Nat) (fuel : Nat) (h : s.pairsAt p l = true) :
    fmStream i (fuel + l.length) p s = fmStream i fuel (p + 2 * BitVec.ofNat 16 l.length) (s.writeBlock i l) := by
  induction l generalizing s p with
  | nil => simp [State.writeBlock]
  | cons rv l ih =>
    obtain ⟨rb, v⟩ := rv
    simp only [State.pairsAt, Bool.and_eq_true, beq_iff_eq, bne_iff_ne, State.inRom, List.all_cons, List.all_nil,
      decide_eq_true_eq] at h
    rw [List.length_cons, ← Nat.add_assoc, fmStream, bind_rom8_ok h.1.1.1.1.1, h.1.1.2, if_neg h.1.1.1.2,
      bind_rom8_ok h.1.1.1.1.2.1, h.1.2]
    simp only [bind_upd]
    rw [ih (by rw [pairsAt_gfmWrite]; exact h.2), pair_step]
    rfl

/-- A stream that stands at a pair with a byte outside ROM faults at that byte. -/
theorem fmStream_out (i : Nat) (fuel : Nat) {x : Word} (h : s.pairOut p = some x) :
    fmStream i (fuel + 1) p s = .error () (s.raiseFault .romRange x) := by
  rw [fmStream]
  by_cases h0 : p.toNat < s.cfg.romSize
  · rw [bind_rom8_ok h0]
    by_cases hf : s.romAt p = 0xFF
    · rw [State.pairOut, if_pos hf] at h
      simp [State.firstOut, State.inRom, h0] at h
    · rw [State.pairOut, if_neg hf] at h
      rw [if_neg hf]
      by_cases h1 : (p + 1).toNat < s.cfg.romSize
      · simp only [State.firstOut, State.inRom, List.find?, List.all_cons, List.all_nil, decide_eq_true h0,
          decide_eq_true h1, Bool.and_true, Bool.not_true] at h
        cases h
      · have hx : p + 1 = x := by
          simp only [State.firstOut, State.inRom, List.find?, List.all_cons, List.all_nil, decide_eq_true h0,
            decide_eq_false h1, Bool.and_true, Bool.not_true, Bool.not_false, Option.some.injEq] at h
          exact h
        rw [hx] at h1
        rw [hx, bind_of_error (rom8_fault h1)]
  · have hx : p = x := by
      unfold State.pairOut State.firstOut State.inRom at h
      split at h <;> simpa [h0] using h
    rw [hx] at h0
    rw [hx, bind_of_error (rom8_fault h0)]

/-! ## Lists of FM writes -/

@[simp] theorem fmWrites_nil : s.fmWrites [] = s := rfl

@[simp] theorem fmWrites_cons (rv : Byte × Byte) (l : List (Byte × Byte)) :
    s.fmWrites (rv :: l) = (s.fmWrite rv.1 rv.2).fmWrites l := rfl

@[simp] theorem issued_nil (l : List (Byte × Byte)) : issued [] l = [] := rfl

@[simp] theorem issued_cons (st : Byte) (answers : List Byte) (rv : Byte × Byte) (l : List (Byte × Byte)) :
    issued (st :: answers) (rv :: l) = if bit st 7 then issued answers l else rv :: issued answers l := by
  unfold issued
  cases h : bit st 7 <;> simp [h]

/-- Writes attempted under given answers: those with a ready answer are issued in order, and only the port moves. -/
theorem fmWrites_answered {answers rest : List Byte} (h : s.fmIn = answers ++ rest)
    (hl : answers.length = l.length) :
    s.fmWrites l = { s with fmOut := (s.fmWrites l).fmOut, fmIn := (s.fmWrites l).fmIn,
                            fmShadow := (s.fmWrites l).fmShadow } ∧
    FmIssuedAll s (s.fmWrites l) (issued answers l) rest := by
  induction l generalizing s answers with
  | nil =>
    cases answers with
    | nil => exact ⟨rfl, by simp, h, fun _ => rfl⟩
    | cons _ _ => cases hl
  | cons rv l ih =>
    cases answers with
    | nil => cases hl
    | cons st answers =>
      have hd : s.fmDrawn = { s with fmIn := answers ++ rest } := by rw [State.fmDrawn, h]; rfl
      have hb : s.fmBusy = bit st 7 := by rw [State.fmBusy, State.fmAnswer, h]; rfl
      have hin : (s.fmWrite rv.1 rv.2).fmIn = answers ++ rest := by rw [State.fmWrite, hd]
      obtain ⟨he, ho, hr, hs⟩ := ih hin (by simpa using hl)
      rw [fmWrites_cons, issued_cons]
      cases hst : bit st 7 with
      | true =>
        rw [fmWrite_busy (hb.trans hst), hd] at he ho hr hs ⊢
        exact ⟨he, by simpa using ho, hr, by simpa [State.shadow] using hs⟩
      | false =>
        obtain ⟨hw, hx⟩ := fmIssued_fmWrite (hb.trans hst) rv.1 rv.2
        rw [hd] at hw
        generalize s.fmWrite rv.1 rv.2 = u at *
        have hout : u.fmOut = s.fmOut ++ [rv] := by rw [hw]
        refine ⟨?_, ?_, hr, fun r => ?_⟩
        · rw [he, hw]
        · simpa [hout] using ho
        · rw [hs r, hx r]
          simp [eq_comm]

/-- An FM write changes nothing that decides whether a record is suppressed. -/
theorem suppressed_fmWrite (i : Nat) (r v : Byte) : (s.fmWrite r v).suppressed i = s.suppressed i := by
  simp only [State.suppressed, State.ch, State.ram8, State.enabled, State.muteCorr, State.fmWrite_ram,
    State.fmWrite_cfg]

theorem ym_fmWrite (i : Nat) (r v : Byte) : (s.fmWrite r v).ym i = s.ym i := by
  simp [State.ym, State.ch, State.ram8]

/-- The guarded writes of a block on a record that is heard are FM writes. -/
theorem writeBlock_heard {i : Nat} (h : s.suppressed i = false) :
    s.writeBlock i l = s.fmWrites (l.map fun rv => (rv.1 + s.ym i, rv.2)) := by
  induction l generalizing s with
  | nil => rfl
  | cons rv l ih =>
    show (s.gfmWrite i (rv.1 + s.ym i) rv.2).writeBlock i l = _
    rw [gfmWrite_heard h, ih (by rwa [suppressed_fmWrite]), ym_fmWrite]
    rfl

/-- The guarded writes of the refresh of a record that is heard are FM writes (40_sequencer.md R131, R136). -/
theorem keyWrites_heard {i : Nat} (h : s.suppressed i = false) : s.keyWrites i = s.fmWrites (s.keyPairs i) := by
  unfold State.keyWrites State.keyPairs
  have hy : s.ym i = s.ch i Fld.route &&& 7 := rfl
  have hc : ∀ r v f, (s.fmWrite r v).ch i f = s.ch i f := fun r v f => by simp [State.ch, State.ram8]
  by_cases hn : s.ch i Fld.note = 0xFF
  · simp only [hn, if_true, gfmWrite_heard h, hy, fmWrites_cons, fmWrites_nil]
  · simp only [hn, if_false, gfmWrite_heard h, hy, hc, gfmWrite_heard, suppressed_fmWrite, h, fmWrites_cons,
      fmWrites_nil]

end Sys2Proof.Machine
end

