-- ==== Sys2Proof/Laws/Notes.lean ====
section
/-!
SUPPORT. The end marker (40_sequencer.md R128): the state it leads to when its duration bytes lie in ROM, and what that
state holds.
-/

namespace Sys2Proof.Machine

variable {s : State}

/-- The state an end marker leaves when its duration bytes lie in ROM, by the three cases of R128. -/
def endMarked (s : State) (i : Nat) (d1 d2 : Byte) : State :=
  if s.emFlag i EmFlags.lit && s.emFlag i EmFlags.hi then
    (((s.setCur (s.cur + 2)).clearEmFlag i EmFlags.hi).clearEmFlag i EmFlags.lit).endSection i (word d2 d1)
  else if s.emFlag i EmFlags.lit then
    ((s.setCur (s.cur + 1)).clearEmFlag i EmFlags.lit).endSection i (zext16 d1)
  else
    (s.setCur (s.cur + 1)).endSection i (mulBytes (s.ch i Fld.emscale) d1)

theorem endMarker_ok (i : Nat) (d1 d2 : Byte) (h : s.romHas (s.durationBytes i) = true) :
    endMarker i d1 d2 s = .ok () (endMarked s i d1 d2) := by
  unfold endMarker endMarked
  unfold State.durationBytes at h
  cases hl : s.emFlag i EmFlags.lit <;> cases hh : s.emFlag i EmFlags.hi <;>
    simp only [hl, hh, Bool.and_true, Bool.and_false, Bool.false_eq_true, if_true, if_false,
      romHas_one, decide_eq_true_eq] at h ⊢
  · rw [bind_next8_ok h]
    have hl' : (s.setCur (s.cur + 1)).emFlag i EmFlags.lit = false := hl
    simp only [bind_look, hl', Bool.false_and, Bool.false_eq_true, if_false, upd_run]
    rfl
  · rw [bind_next8_ok h]
    have hl' : (s.setCur (s.cur + 1)).emFlag i EmFlags.lit = false := hl
    simp only [bind_look, hl', Bool.false_and, Bool.false_eq_true, if_false, upd_run]
    rfl
  · rw [bind_next8_ok h]
    have hl' : (s.setCur (s.cur + 1)).emFlag i EmFlags.lit = true := hl
    have hh' : (s.setCur (s.cur + 1)).emFlag i EmFlags.hi = false := hh
    simp only [bind_look, hl', hh', Bool.and_false, Bool.false_eq_true, if_false, if_true, upd_run, bind_upd]
  · rw [romHas_next, Bool.and_eq_true, decide_eq_true_eq, romHas_one, decide_eq_true_eq] at h
    rw [bind_next8_ok h.1]
    have hl' : (s.setCur (s.cur + 1)).emFlag i EmFlags.lit = true := hl
    have hh' : (s.setCur (s.cur + 1)).emFlag i EmFlags.hi = true := hh
    simp only [bind_look, hl', hh', Bool.and_self, if_true]
    rw [bind_next8_ok h.2]
    have : (s.setCur (s.cur + 1)).setCur ((s.setCur (s.cur + 1)).cur + 1) = s.setCur (s.cur + 2) := by
      simp [State.setCur, BitVec.add_assoc]
    simp only [bind_upd, upd_run, this]

theorem setBit_hi_lit (x : Byte) : setBit x 7 false &&& 191#8 = x &&& 63#8 := by revert x; decide

theorem setBit_lit (x : Byte) : setBit x 6 false = x &&& 0xBF := by revert x; decide

/-- What an end marker leaves: the section's end, only its own bytes of the record, and CUR at the last byte read. -/
theorem endMarked_spec (i : Nat) (d1 d2 : Byte) :
    EndsSection s ((endMarked s i d1 d2).setFsm (.channels .refresh)) i d1 d2 ∧
    RamKept s (endMarked s i d1 d2) (endAddrs i) ∧
    endMarked s i d1 d2 = { s with ram := (endMarked s i d1 d2).ram, cur := (endMarked s i d1 d2).cur } := by
  unfold endMarked EndsSection State.duration State.durationBytes
  cases hl : s.emFlag i EmFlags.lit <;> cases hh : s.emFlag i EmFlags.hi <;>
    simp only [Bool.and_true, Bool.and_false, Bool.false_eq_true, if_true, if_false]
  all_goals
    simp only [State.emFlag, State.ch, EmFlags.lit, EmFlags.hi, Fld.emflags] at hl hh
    refine ⟨⟨?_, ?_, ?_, ?_, ?_, rfl⟩, ?_, rfl⟩
    · simp [State.endSection, State.clearEmFlag, State.ch16, State.setCh16, State.setCh, State.ram16, State.setRam16,
        Nat.add_assoc, Fld.emflags, Fld.seqend, Fld.seqpos, Fld.cmdptr]
    · simp [State.endSection, State.clearEmFlag, State.ch16, State.setCh16, State.setCh, State.ram16, State.setRam16,
        Nat.add_assoc, Fld.emflags, Fld.seqend, Fld.seqpos, Fld.cmdptr]
      try rfl
    · simp [State.endSection, State.clearEmFlag, State.ch16, State.setCh16, State.setCh, State.ram16, State.setRam16,
        Nat.add_assoc, Fld.emflags, Fld.seqend, Fld.seqpos, Fld.cmdptr]
    · simp [State.endSection, State.clearEmFlag, State.ch, State.setCh16, State.setCh, State.setRam16, Nat.add_assoc,
        emFlagsAfter, Fld.emflags, Fld.seqend, Fld.seqpos, Fld.cmdptr, EmFlags.lit, EmFlags.hi, hl, hh, setBit_hi_lit,
        setBit_lit]
    · simp [State.endSection, State.clearEmFlag]
    · intro b hb
      simp only [endAddrs, List.mem_cons, List.not_mem_nil, or_false, not_or, List.map_cons, List.map_nil] at hb
      simp [State.endSection, State.clearEmFlag, State.setCh16, State.setCh, State.setRam16, hb, Nat.add_assoc]

end Sys2Proof.Machine
end

