-- ==== Sys2Proof/Laws/Pcm.lean ====
section
/-!
SUPPORT. Channel assignment (42_pcm.md R184 to R187): what the scan answers or raises and what the send writes.
-/

namespace Sys2Proof.Machine

variable {s : State}

/-- A test that reads the bytes of a slot above 15. -/
def badTest (t : DrumTest × Slot) : Bool := drumReadsSlot t.1 && decide (15 < t.2.toNat)

/-- A list of tests goes to the first one that ends the scan: it answers its slot, or raises PARAM with the slot's
number when the test reads the bytes of a slot above 15 (log 15). No test writes anything. -/
theorem scanList_run (i : Nat) (p : DrumTest) (l : List Slot) :
    scanList i p l s =
      match (l.map (p, ·)).find? (s.drumEnds i) with
      | none => .ok none s
      | some t => if badTest t then .error () (s.raiseFault .param (zext16 t.2)) else .ok (some t.2) s := by
  induction l with
  | nil => rfl
  | cons sl l ih =>
    rw [List.map_cons, List.find?_cons]
    unfold scanList
    cases hb : badTest (p, sl) with
    | true =>
      have he : s.drumEnds i (p, sl) = true := by
        rw [State.drumEnds]
        exact Bool.or_eq_true_iff.mpr (.inl hb)
      simp only [badTest, Bool.and_eq_true, decide_eq_true_eq] at hb
      rw [he, hb.1, onlyIf_true]
      have hc : checkSlot sl s = .error () (s.raiseFault .param (zext16 sl)) := by
        rw [checkSlot_run, if_neg (by omega)]
      rw [bind_of_error hc]
      simp [badTest, hb]
    | false =>
      have hc : onlyIf (drumReadsSlot p) (checkSlot sl) s = .ok () s := by
        cases hp : drumReadsSlot p
        · rfl
        · simp only [badTest, hp, Bool.true_and, decide_eq_false_iff_not] at hb
          exact checkSlot_ok (by omega)
      have he : s.drumEnds i (p, sl) = evalDrum s sl i p := by
        rw [State.drumEnds]
        exact (congrArg (· || evalDrum s sl i p) hb).trans (Bool.false_or _)
      rw [bind_of_ok hc, he]
      simp only [bind_look]
      cases evalDrum s sl i p
      · simpa using ih
      · simp [hb]

/-- The drum scan writes nothing; it answers the slot it comes to, or raises PARAM with it when that is above 15. -/
theorem drumScan_run (i : Nat) :
    drumScan i s = .ok (s.drumSlot i) s ∨
      15 < (s.drumSlot i).toNat ∧ drumScan i s = .error () (s.raiseFault .param (zext16 (s.drumSlot i))) := by
  have bad : ∀ t : DrumTest × Slot, badTest t = true → 15 < t.2.toNat := fun t h => by
    simp only [badTest, Bool.and_eq_true, decide_eq_true_eq] at h
    exact h.2
  unfold drumScan State.drumSlot drumTests
  simp only [bind_look, List.find?_append]
  cases h1 : (s.cfg.drumList1.toList.map (s.cfg.drumPred1, ·)).find? (s.drumEnds i) with
  | some t =>
    cases hb : badTest t
    · exact .inl (by rw [bind_of_ok (a := some t.2) (t := s) (by simp [scanList_run, h1, hb])]; rfl)
    · exact .inr ⟨bad t hb, bind_of_error (by simp [scanList_run, h1, hb]) _⟩
  | none =>
    rw [bind_of_ok (a := none) (t := s) (by simp [scanList_run, h1])]
    show (scanList i _ _ >>= _) s = _ ∨ _ ∧ (scanList i _ _ >>= _) s = _
    cases h2 : (s.cfg.drumList2.toList.map (s.cfg.drumPred2, ·)).find? (s.drumEnds i) with
    | some t =>
      cases hb : badTest t
      · exact .inl (by rw [bind_of_ok (a := some t.2) (t := s) (by simp [scanList_run, h2, hb])]; rfl)
      · exact .inr ⟨bad t hb, bind_of_error (by simp [scanList_run, h2, hb]) _⟩
    | none =>
      rw [bind_of_ok (a := none) (t := s) (by simp [scanList_run, h2])]
      show (scanList i _ _ >>= _) s = _ ∨ _ ∧ (scanList i _ _ >>= _) s = _
      cases h3 : (s.cfg.drumList3.toList.map (s.cfg.drumPred3, ·)).find? (s.drumEnds i) with
      | some t =>
        cases hb : badTest t
        · exact .inl (by rw [bind_of_ok (a := some t.2) (t := s) (by simp [scanList_run, h3, hb])]; rfl)
        · exact .inr ⟨bad t hb, bind_of_error (by simp [scanList_run, h3, hb]) _⟩
      | none => exact .inl (by rw [bind_of_ok (a := none) (t := s) (by simp [scanList_run, h3])]; rfl)

/-- A drum scan that comes to a slot number 0..15 answers it. -/
theorem drumScan_ok (i : Nat) (h : (s.drumSlot i).toNat ≤ 15) : drumScan i s = .ok (s.drumSlot i) s :=
  (drumScan_run i).resolve_right fun hc => by omega

/-- The send writes the nine bytes of the slot it copies, and nothing else. -/
theorem pcmSend_spec (i : Nat) (sl : Slot) (_h : sl.toNat ≤ 15) :
    SentTo (s.pcmSend i sl) i sl ∧ PcmKept s (s.pcmSend i sl) (sendAddrs sl) ∧
    s.pcmSend i sl = { s with pcm := (s.pcmSend i sl).pcm } := by
  refine ⟨?_, ?_, rfl⟩
  · unfold SentTo front back
    refine ⟨?_, ?_, ?_, ?_, ?_, ?_, ?_, ?_, ?_⟩ <;>
      (simp only [State.pcmSend, front, back, pcm8_setPcm8]; repeat (first | rw [if_pos rfl] | rw [if_neg (by omega)]))
      <;> rfl
  · intro b hb
    simp only [sendAddrs, List.mem_cons, List.not_mem_nil, or_false, not_or] at hb
    simp [State.pcmSend, hb]

end Sys2Proof.Machine
end

