-- ==== Sys2Proof/Tests/Slice0.lean ====
section
/-!
SUPPORT. Tests of one decoding or one step each, with results from the spec's encodings, the examples of its rules and
its vectors (95_test_vectors.md), and for every statement with hypotheses a witness that meets them.
-/

namespace Sys2Proof.Tests

open Sys2Proof.Machine

/-! ## Well-formedness: what each check refuses -/

/-- An FM channel with no end-marker flag; words low byte first. -/
abbrev fm : DecodeCtx := { pcm := false, wide := false, order := .le }

/-- A PCM channel with both end-marker flags; words high byte first. -/
abbrev pcmWide : DecodeCtx := { pcm := true, wide := true, order := .be }

theorem test_wf_second_duration : (Instr.note 5 1 2).wellFormed fm = false := by decide
theorem test_wf_second_duration_wide : (Instr.note 5 1 2).wellFormed pcmWide = true := by decide
theorem test_wf_second_volume : (Instr.vol 1 2).wellFormed fm = false := by decide
theorem test_wf_second_volume_pcm : (Instr.vol 1 2).wellFormed pcmWide = true := by decide
theorem test_wf_perc_entry : (Instr.perc 15).wellFormed fm = false := by decide
theorem test_wf_sample_entry : (Instr.sample 48).wellFormed fm = false := by decide
theorem test_wf_index_fault_byte : (Instr.pcmIndexFault 0xC0).wellFormed fm = false := by decide
theorem test_wf_undef_defined : (Instr.undef 0x02).wellFormed fm = false := by decide
theorem test_wf_undef_no_command : (Instr.undef 0x3F).wellFormed fm = false := by decide

/-! ## Decoding: bytes written out from 30_encoding.md R85 to R93 -/

theorem test_decode_note : decode fm [0b00000101, 0x10, 0x20] = .ok (.note 5 0x10 0, [0x20]) := by decide
theorem test_decode_note_wide : decode pcmWide [0b01111111, 0x10, 0x02] = .ok (.note 0x7F 0x10 0x02, []) := by decide
theorem test_decode_vol_fm : decode fm [0b10000010, 0x55, 0x20] = .ok (.vol 0x55 0, [0x20]) := by decide
theorem test_decode_vol_pcm : decode pcmWide [0b10000010, 0x50, 0x20] = .ok (.vol 0x50 0x20, []) := by decide
theorem test_decode_finfm : decode fm [0b10000100] = .ok (.finfm, []) := by decide
theorem test_decode_modsel : decode fm [0b10000111, 2] = .ok (.modsel 2, []) := by decide
theorem test_decode_call : decode fm [0b10001000, 0x00, 0x31] = .ok (.call 0x3100, []) := by decide
theorem test_decode_call_be : decode pcmWide [0b10001000, 0x00, 0x31] = .ok (.call 0x0031, []) := by decide
theorem test_decode_ret : decode fm [0b10001001] = .ok (.ret, []) := by decide
theorem test_decode_jp : decode fm [0b10001010, 0x00, 0x32] = .ok (.jp 0x3200, []) := by decide
theorem test_decode_transp : decode fm [0b10001011, 0xFD] = .ok (.transp 0xFD, []) := by decide
theorem test_decode_loop : decode fm [0b10001100, 0, 3, 0x00, 0x30] = .ok (.loop 0 3 0x3000, []) := by decide
theorem test_decode_fmblk : decode fm [0b10010001, 1] = .ok (.fmblk 1, []) := by decide
theorem test_decode_pitch : decode fm [0b10010011, 0x84] = .ok (.pitch 0x84, []) := by decide
theorem test_decode_litend : decode fm [0b10010100] = .ok (.litend, []) := by decide
theorem test_decode_hiend : decode fm [0b10010101] = .ok (.hiend, []) := by decide
theorem test_decode_panr : decode fm [0b10010110] = .ok (.panr, []) := by decide
theorem test_decode_panl : decode fm [0b10010111] = .ok (.panl, []) := by decide
theorem test_decode_panc : decode fm [0b10011000] = .ok (.panc, []) := by decide
theorem test_decode_finpcm : decode fm [0b10011001] = .ok (.finpcm, []) := by decide
theorem test_decode_perc_last : decode fm [0b11001110] = .ok (.perc 14, []) := by decide
theorem test_decode_sample_last : decode fm [0b11111111] = .ok (.sample 47, []) := by decide
theorem test_decode_index_faults :
    decode fm [0b10111111] = .ok (.pcmIndexFault 0xBF, []) ∧
    decode fm [0b11001111] = .ok (.pcmIndexFault 0xCF, []) := by decide
theorem test_decode_undef :
    decode fm [0b10000000] = .ok (.undef 0x00, []) ∧ decode fm [0b10011010] = .ok (.undef 0x1A, []) ∧
    decode fm [0b10111110] = .ok (.undef 0x3E, []) := by decide
theorem test_decode_rejects : decode fm [] = .error .noOpcode ∧ decode fm [0x8A, 0] = .error (.noOperand 0x8A) := by
  decide

/-! ## One step -/

/-- ROM with runs of bytes. -/
def image (runs : List (Nat × List Byte)) : List Host.Cell :=
  runs.foldl (fun m r => Memory.load .rom m r.1 r.2) []

/-- A state about to fetch at `a` in the section of record `i`, with ROM bytes there and record bytes `(field,
    value)`;
the FM chip is ready. -/
def fetching (i : Byte) (a : Word) (bytes : List Byte) (fields : List (Nat × Byte)) : State :=
  fields.foldl (fun s f => s.setCh i.toNat f.1 f.2)
    { State.reset with
      rom := image [(a.toNat, bytes)], cur := a, chan := i, fsm := .channels .fetch, fmIn := [0, 0, 0] }

/-- The state after one step; a stop leaves the state. -/
def stepped (s : State) : State :=
  match step s with
  | .next t => t
  | .fault _ => s
  | .refused _ => s

/-- V22: the largest product; the section ends at the byte after the duration. -/
theorem test_note_product :
    let t := stepped (fetching 3 0x3000 [0x05, 0xFF] [(Fld.flags, 0x80), (Fld.emscale, 0xFF)])
    t.ch16 3 Fld.seqend = 0xFE01 ∧ t.ch16 3 Fld.cmdptr = 0x3002 ∧ t.fsm = .channels .refresh := by decide

/-- R153: `05 10 02` after HIEND and LITEND gives 0x0210 and clears both flags. -/
theorem test_note_wide :
    let t := stepped (fetching 3 0x3000 [0x05, 0x10, 0x02] [(Fld.flags, 0xC0), (Fld.emflags, 0xC0)])
    t.ch16 3 Fld.seqend = 0x0210 ∧ t.ch 3 Fld.emflags = 0 ∧ t.ch16 3 Fld.cmdptr = 0x3003 := by decide

/-- V2: `82 50 20` and the boundary `82 40 41` on a PCM record. -/
theorem test_vol_pcm :
    let t := stepped (fetching 3 0x3000 [0x82, 0x50, 0x20] [(Fld.flags, 0xC0)])
    let u := stepped (fetching 3 0x3000 [0x82, 0x40, 0x41] [(Fld.flags, 0xC0)])
    t.ch 3 Fld.voll = 0 ∧ t.ch 3 Fld.volr = 0x20 ∧ u.ch 3 Fld.voll = 0x40 ∧ u.ch 3 Fld.volr = 0 := by decide

/-- V41: one operand on an FM record. -/
theorem test_vol_fm :
    let t := stepped (fetching 3 0x3000 [0x82, 0x55, 0x20] [(Fld.flags, 0x80), (Fld.volr, 7)])
    t.ch 3 Fld.voll = 0x55 ∧ t.ch 3 Fld.volr = 7 ∧ t.cur = 0x3002 := by decide

/-- R142: `ROUTE = 0x03`, byte `84`. -/
theorem test_finfm :
    let t := stepped (fetching 3 0x3000 [0x84] [(Fld.flags, 0x80), (Fld.route, 3)])
    t.fmOut = [(0x08, 0x03)] ∧ t.ch 3 Fld.flags = 0 ∧ t.fsm = .channels .done := by decide

/-- V42: PHOFF stays. -/
theorem test_modsel :
    let t := stepped (fetching 3 0x3000 [0x87, 2] [(Fld.phoff, 5)])
    t.ch 3 Fld.modsel = 2 ∧ t.ch 3 Fld.phoff = 5 := by decide

/-- R144: `CALL 0x3100` at 0x3005 with MOFF 0x1C. -/
theorem test_call :
    let t := stepped (fetching 3 0x3005 [0x88, 0x00, 0x31] [(Fld.moff, 0x1C)])
    t.ch 3 Fld.moff = 0x1A ∧ t.ch16 3 0x1A = 0x3007 ∧ t.cur = 0x3100 := by decide

/-- V43: a wrapping MOFF on record 2 pushes into record 9. -/
theorem test_call_wraps :
    let t := stepped (fetching 2 0x3010 [0x88, 0x00, 0x34] [])
    t.ch 2 Fld.moff = 0xFE ∧ t.ram8 0x13E = 0x12 ∧ t.ram8 0x13F = 0x30 := by decide

/-- R145: the return of the CALL above. -/
theorem test_ret :
    let t := stepped (fetching 3 0x3100 [0x89] [(Fld.moff, 0x1A), (0x1A, 0x07), (0x1B, 0x30)])
    t.cur = 0x3008 ∧ t.ch 3 Fld.moff = 0x1C := by decide

/-- R146 and V45. -/
theorem test_jp :
    (stepped (fetching 3 0x3010 [0x8A, 0x00, 0x32] [])).cur = 0x3200 ∧
    (stepped (fetching 3 0x3010 [0x8A, 0, 0] [])).cur = 0 := by decide

/-- R147 and V46. -/
theorem test_transp :
    (stepped (fetching 3 0x3000 [0x8B, 0xFD] [(Fld.noteoff, 2)])).ch 3 Fld.noteoff = 0xFF ∧
    (stepped (fetching 3 0x3000 [0x8B, 0x01] [(Fld.noteoff, 0x7F)])).ch 3 Fld.noteoff = 0x80 := by decide

/-- V10, first arrival, and V47. -/
theorem test_loop_jumps :
    let t := stepped (fetching 3 0x3010 [0x8C, 0, 3, 0x00, 0x30] [])
    let u := stepped (fetching 3 0x3010 [0x8C, 0, 0, 0x00, 0x30] [])
    t.cur = 0x3000 ∧ t.ch 3 Fld.loopcnt = 2 ∧ u.cur = 0x3000 ∧ u.ch 3 Fld.loopcnt = 0xFF := by decide

/-- V10, third arrival. -/
theorem test_loop_falls_through :
    let t := stepped (fetching 3 0x3010 [0x8C, 0, 3, 0x00, 0x30] [(Fld.loopcnt, 1)])
    t.cur = 0x3015 ∧ t.ch 3 Fld.loopcnt = 0 := by decide

/-- V49: the block at 0x0700 of CMDIDX 0x81. -/
theorem test_fmblk :
    let s := fetching 3 0x3000 [0x91, 1] [(Fld.route, 3), (Fld.cmdidx, 0x81)]
    let t := stepped { s with rom := image [(0x0700, [0x20, 0xC7, 0x40, 0x1F, 0xFF]), (0x3000, [0x91, 1])] }
    t.fmOut = [(0x23, 0xC7), (0x43, 0x1F)] ∧ t.ch 3 Fld.fmblk = 1 ∧ t.cur = 0x3002 := by decide

/-- R151 and V51. -/
theorem test_pitch :
    let t := stepped (fetching 3 0x3000 [0x93, 0x84] [(Fld.flags, 0xC0)])
    let u := stepped (fetching 3 0x3000 [0x93, 0x84] [(Fld.flags, 0x80)])
    t.ch 3 Fld.ppitch = 0x84 ∧ u.ch 3 Fld.ppitch = 0 ∧ u.cur = 0x3002 := by decide

/-- R152 and R153: the flag, and the next fetch at the byte after. -/
theorem test_litend :
    let t := stepped (fetching 3 0x3000 [0x94] [(Fld.emflags, 0x80)])
    t.ch 3 Fld.emflags = 0xC0 ∧ t.cur = 0x3001 := by decide
theorem test_hiend :
    let t := stepped (fetching 3 0x3000 [0x95] [])
    t.ch 3 Fld.emflags = 0x80 ∧ t.cur = 0x3001 := by decide

/-- R154 to R156, with ROUTE 3 and the shadow of register 0x23. -/
theorem test_panr :
    (stepped { fetching 3 0x3000 [0x96] [(Fld.route, 3)] with fmShadow := [(0x23, 0xC7)] }).fmOut = [(0x23,
    0x87)] := by
  decide
theorem test_panl :
    (stepped { fetching 3 0x3000 [0x97] [(Fld.route, 3)] with fmShadow := [(0x23, 0xC7)] }).fmOut = [(0x23,
    0x47)] := by
  decide
theorem test_panc :
    (stepped { fetching 3 0x3000 [0x98] [(Fld.route, 3)] with fmShadow := [(0x23, 0x07)] }).fmOut = [(0x23,
    0xC7)] := by
  decide

/-- A configuration with one copy list, for record 14. -/
def copying (l : List FinalCopy) : Config :=
  { Config.reference with finalCopies := { listed := [(14, l)], other := [] } }

/-- V54: the copy, then the key off. -/
theorem test_finpcm :
    let s := { fetching 14 0x3000 [0x99] [(Fld.flags, 0xC0)] with cfg := copying [⟨.ramToPcm, 0x4B0, 0x08⟩] }
    let t := stepped ((s.setRam8 0x4B0 1).setRam8 0x4B7 8)
    t.pcm8 0x08 = 1 ∧ t.pcm8 0x0F = 8 ∧ t.fmOut = [(0x08, 0x00)] ∧ t.ch 14 Fld.flags = 0 := by decide

/-- V54: the two faults, with FLAGS unchanged. -/
theorem test_finpcm_faults :
    let s := fetching 14 0x3000 [0x99] [(Fld.flags, 0xC0)]
    let t := stepped { s with cfg := copying [⟨.ramToPcm, 0x7FC, 0x08⟩] }
    let u := stepped { s with cfg := copying [⟨.pcmToRam, 0x4B0, 0xFC⟩] }
    (t.fcode, t.finfo) = (0x04, 0x0803) ∧ (u.fcode, u.finfo) = (0x06, 0x0103) ∧ t.ch 14 Fld.flags = 0xC0 := by decide

/-- V56: the first percussion entry on slot 0. -/
theorem test_perc :
    let t := stepped (fetching 8 0x3000 [0xC0] [(Fld.flags, 0xC0), (Fld.voll, 0x20), (Fld.volr, 0x30)])
    [2, 3, 4, 5, 6, 7].map t.pcm8 = [0x20, 0x30, 0xC0, 0x17, 0x42, 0x84] ∧
    [0x84, 0x85, 0x86].map t.pcm8 = [0xC0, 0x17, 0xD6] := by decide

/-- V58: every front half has the end byte, slot 3 has its loop disabled. -/
theorem test_perc_second_list :
    let s := fetching 8 0x3000 [0xC0] [(Fld.flags, 0xC0), (Fld.voll, 0x20)]
    let s := [0, 1, 2, 3, 14, 15].foldl (fun s k => (s.setPcm8 (8 * k + 6) 0x42).setPcm8 (0x80 + 8 * k + 6) 0) s
    (stepped (s.setPcm8 0x9E 2)).pcm8 0x1A = 0x20 := by decide

/-- V5: `D0` reads the entry at 0x0200 and the standard path picks slot 14. -/
theorem test_sample :
    let s := fetching 8 0x3000 [0xD0] [(Fld.flags, 0xC0)]
    let t := stepped { s with rom := image [(0x0200, [0x00, 0x30, 0x38, 0x00]), (0x3000, [0xD0])] }
    t.ch 8 Fld.pstartHi = 0x30 ∧ t.pcm8 (8 * 14 + 6) = 0x38 ∧ t.stdTog.c0 = true := by decide

/-- R183, R159 and V55. -/
theorem test_index_fault :
    let t := stepped (fetching 3 0x3300 [0xCF] [])
    (t.fsm, t.fcode, t.finfo) = (.fault, 0x02, 0x00CF) := by decide
theorem test_undef :
    let t := stepped (fetching 3 0x3300 [0x83] [])
    (t.fsm, t.fcode, t.finfo) = (.fault, 0x01, 0x3300) := by decide

/-- V65: the rev effect on channel 5. -/
theorem test_engine_rev :
    let t := stepped { State.reset with
      fsm := .engine .e5, rev := true,
      telem := { unused := 0, pitchHi := 0x1F, pitchLo := 0x40, volume := 0x30, traffic := ⟨0, 0, 0, 0⟩ } }
    [0x42, 0x43, 0x44, 0x45, 0x46, 0x47].map t.pcm8 = [0x30, 0, 0, 0x60, 0x68, 0xC0] ∧
    t.eng .e5 EFld.flags = 0x04 := by
  decide

/-- V71: a traffic channel computed from the tables. -/
theorem test_traffic_compute :
    let t := stepped { State.reset with
      fsm := .traffic .t1,
      telem := { unused := 0, pitchHi := 0, pitchLo := 0, volume := 0, traffic := ⟨0x2B, 0, 0, 0⟩ },
      rom := image [(0x0604, [0x80]), (0x0626, [0xFF, 0x40]), (0x0644, [0x10])] }
    [0x52, 0x53, 0x54, 0x55, 0x56, 0x57].map t.pcm8 = [0x7F, 0x20, 0, 0x78, 0x7C, 0x70] ∧
    t.trf .t1 TFld.flags = 0x08 := by decide

/-- V61: the table path of channel 2, with row 4. -/
theorem test_engine_table :
    let t := stepped { State.reset with
      fsm := .engine .e2, engTel := ⟨⟨0, 0⟩, ⟨0x0A00, 0x80⟩, ⟨0, 0⟩, ⟨0, 0⟩⟩,
      rom := image [(0x0414, [0x00, 0x50, 0x58, 0xC0, 0x20])] }
    [0x2A, 0x2B, 0x2C, 0x2D, 0x2E, 0x2F].map t.pcm8 = [0, 0x60, 0, 0x50, 0x58, 0x62] ∧
    t.eng .e2 EFld.flags = 0x0A := by decide

/-- V34: the first modulation step. -/
theorem test_modulation :
    let s := fetching 3 0x0300 [0x00, 0x08, 0xFD] [(Fld.flags, 0x80), (Fld.modsel, 1)]
    let t := stepped { s with fsm := .channels .refresh }
    t.ch 3 Fld.phoff = 1 ∧ t.ch 3 Fld.phamp = 2 := by decide

/-! ## Witnesses: states that meet the hypotheses of a statement, clause by clause -/

theorem wit_DecodeOfEncode :
    (Instr.note 0x7F 0xFF 0).wellFormed fm = true ∧ (Instr.vol 0xFF 0xFF).wellFormed pcmWide = true ∧
    (Instr.perc 14).wellFormed fm = true ∧ (Instr.sample 47).wellFormed pcmWide = true ∧
    (Instr.pcmIndexFault 0xCF).wellFormed fm = true ∧ (Instr.undef 0x3E).wellFormed fm = true := by decide

theorem wit_EncodeOfDecode : decode fm [0x8A, 0x00, 0x32, 0x84] = .ok (.jp 0x3200, [0x84]) := by decide

theorem wit_OpcodeByteDecides :
    (0x7F : Byte).toNat < 0x80 ∧ 0x80 ≤ (0xBE : Byte).toNat ∧ (0xBE : Byte).toNat < 0xBF ∧
    ((0xBE : Byte).setWidth 6 : BitVec 6) ∉ definedCodes ∧ ((0x80 : Byte).setWidth 6 : BitVec 6) ∉ definedCodes ∧
    0xC0 ≤ (0xCE : Byte).toNat ∧ (0xCE : Byte).toNat ≤ 0xCE ∧ 0xD0 ≤ (0xD0 : Byte).toNat ∧ pcmWide.wide = true ∧
    pcmWide.pcm = true ∧ fm.order = .le := by decide

theorem wit_StepRunsDecodedInstruction :
    let s := fetching 29 0x7FFB [0x8C, 0, 3, 0x00, 0x30] []
    s.fsm = .channels .fetch ∧ s.chan.toNat < 30 ∧ s.cur.toNat < s.cfg.romSize ∧
    decode s.decodeCtx s.window = .ok (.loop 0 3 0x3000, []) := by decide
theorem wit_StepRunsDecodedInstruction_fault :
    let s := fetching 29 0x8000 [] []
    s.fsm = .channels .fetch ∧ s.chan.toNat < 30 ∧ ¬ s.cur.toNat < s.cfg.romSize := by decide

theorem wit_RomReadsAreChecked :
    let s := State.reset
    (0x7FFE : Word).toNat < s.cfg.romSize ∧ (0x7FFE + 1 : Word).toNat < s.cfg.romSize ∧ s.cfg.romOrder = .le ∧
    { s.cfg with romOrder := .be }.romOrder = .be ∧ (0x7FFF : Word).toNat < s.cfg.romSize ∧
    ¬ (0x7FFF + 1 : Word).toNat < s.cfg.romSize ∧ ¬ (0x8000 : Word).toNat < s.cfg.romSize := by decide

theorem wit_FmPortWrite :
    bit { State.reset with fmIn := [0x80] }.fmAnswer 7 = true ∧
    bit { State.reset with fmIn := [0x7F] }.fmAnswer 7 = false ∧ State.reset.fmIn = [] := by decide

theorem wit_GuardedWrites :
    (fetching 3 0 [] [(Fld.route, 0x80)]).suppressed 3 = true ∧
    (fetching 22 0 [] [(Fld.flags, 0x84)]).suppressed 6 = true ∧
    (fetching 22 0 [] [(Fld.flags, 0x84)]).suppressed 22 = false := by decide

theorem wit_VolSetsVolumes_pcm :
    let s := fetching 29 0x7FFD [0x82, 0x40, 0x41] [(Fld.flags, 0xC0)]
    s.chan.toNat < 30 ∧ s.isPcm s.me = true ∧ s.romHas 2 = true := by decide
theorem wit_VolSetsVolumes_fm :
    let s := fetching 29 0x7FFE [0x82, 0x40] [(Fld.flags, 0x80)]
    s.chan.toNat < 30 ∧ s.isPcm s.me = false ∧ s.romHas 1 = true := by decide
theorem wit_VolSetsVolumes_fault :
    let s := fetching 29 0x7FFE [0x82, 0x40] [(Fld.flags, 0xC0)]
    let t := fetching 0 0x7FFF [0x82] [(Fld.flags, 0x80)]
    s.chan.toNat < 30 ∧ s.romHas (if s.isPcm s.me then 2 else 1) = false ∧ t.chan.toNat < 30 ∧
    t.romHas (if t.isPcm t.me then 2 else 1) = false := by decide

/-- One operand in ROM, and not: for MODSEL, TRANSP and PITCH, on both classes. -/
theorem wit_OneOperand :
    let s := fetching 29 0x7FFE [0x93, 0x40] [(Fld.flags, 0xC0)]
    let t := fetching 0 0x7FFF [0x93] [(Fld.flags, 0x80)]
    s.chan.toNat < 30 ∧ s.romHas 1 = true ∧ s.isPcm s.me = true ∧ t.chan.toNat < 30 ∧ t.romHas 1 = false ∧
    t.isPcm t.me = false ∧ { t with cur := 0 }.romHas 1 = true := by decide

/-- CHAN at the last record, for the statements without another hypothesis. -/
theorem wit_Chan : (fetching 29 0 [] []).chan.toNat < 30 := by decide

theorem wit_CallPushesAndJumps :
    let s := fetching 29 0x7FFD [0x88, 0, 0] [(Fld.moff, 0)]
    let m := s.ch s.me Fld.moff - 2
    s.chan.toNat < 30 ∧ s.romHas 2 = true ∧ m ≠ 0x09 ∧ m ≠ 0x0A ∧
    { s with cur := 0x7FFE }.romHas 2 = false := by decide

theorem wit_LoopCountsAndJumps_exit :
    let s := fetching 29 0x7FFD [0x8C, 0xFF, 1] []
    s.chan.toNat < 30 ∧ s.romHas 2 = true ∧

    (if s.ram8 (recBase s.me + 0x17 + 0xFF) = 0 then 1 else s.ram8 (recBase s.me + 0x17 + 0xFF)) - (1 : Byte) = 0 := by
  decide
theorem wit_LoopCountsAndJumps_jump :
    let s := fetching 29 0x7FFB [0x8C, 0, 3, 0, 0] []
    s.chan.toNat < 30 ∧ s.romHas 4 = true ∧
    (if s.ram8 (recBase s.me + 0x17 + 0) = 0 then 3 else s.ram8 (recBase s.me + 0x17 + 0)) - (1 : Byte) ≠ 0 ∧
    { s with cur := 0x7FFC }.romHas 2 = true ∧ { s with cur := 0x7FFC }.romHas 4 = false ∧
    { s with cur := 0x7FFC }.romHas 3 = true ∧ { s with cur := 0x7FFD }.romHas 3 = false ∧
    { s with cur := 0x7FFE }.romHas 2 = false := by decide

/-- An FM channel with a block of one pair at the address of its selector 1. -/
def blockState : State :=
  { fetching 29 0x3000 [0x91, 1] [(Fld.route, 3), (Fld.cmdidx, 0x81)] with
    rom := image [(0x0700, [0x20, 0xC7, 0xFF]), (0x3000, [0x91, 1])] }

theorem wit_FmblkStreamsBlock :
    let s := blockState
    s.chan.toNat < 30 ∧ s.romHas 1 = true ∧ s.blockAt (s.blockOf s.me 1) [(0x20, 0xC7)] = true ∧
    s.blockAt 0x0702 [] = true ∧ { s with cur := 0x7FFF }.romHas 1 = false := by decide

/-- A block that leaves ROM: at the second byte of its second pair, and at its first byte. -/
theorem wit_FmblkStreamsBlock_out :
    let s := { fetching 29 0x3000 [0x91, 7] [] with
      cfg := { Config.reference with fmBlock := { listed := [((0, 3, 7), 0x7FFD)], other := 0x8000 } } }
    s.chan.toNat < 30 ∧ s.romHas 1 = true ∧ s.blockOf s.me 7 = 0x7FFD ∧ s.pairsAt 0x7FFD [(0, 0)] = true ∧
    s.pairOut (0x7FFD + 2 * BitVec.ofNat 16 [((0 : Byte), (0 : Byte))].length) = some 0x8000 ∧
    s.blockOf s.me 8 = 0x8000 ∧ s.pairsAt 0x8000 [] = true ∧
    s.pairOut (0x8000 + 2 * BitVec.ofNat 16 ([] : List (Byte × Byte)).length) = some 0x8000 := by decide

/-- A blank ROM of full size, in which no block ends, with this FSM state. -/
def blank (f : Fsm) : State :=
  { fetching 29 0x3000 [] [] with fsm := f, rom := [], cfg := { Config.reference with romSize := 0x10000 } }

theorem blank_inRom (f : Fsm) (l : List Word) : (blank f).inRom l = true :=
  List.all_eq_true.mpr fun a _ => decide_eq_true a.isLt

theorem blank_pairsAt (f : Fsm) (n : Nat) (p : Word) : (blank f).pairsAt p (List.replicate n (0, 0)) = true := by
  induction n generalizing p with
  | zero => rfl
  | succ n ih =>
    have h : ∀ a, (blank f).romAt a = 0 := fun _ => rfl
    simpa [List.replicate_succ, State.pairsAt, blank_inRom, h] using ih (p + 2)

theorem wit_FmblkStreamsBlock_endless :
    let s := blank (.channels .fetch)
    s.chan.toNat < 30 ∧ s.romHas 1 = true ∧
    s.pairsAt (s.blockOf s.me 1) (List.replicate 0x8000 (0, 0)) = true ∧
    (List.replicate 0x8000 ((0 : Byte), (0 : Byte))).length = 0x8000 :=
  ⟨by decide, by decide, blank_pairsAt _ _ _, List.length_replicate⟩
theorem wit_FmblkStreamsBlock_stream :
    let s := blank (.channels (.stream 0xFFFF))
    s.chan.toNat < 30 ∧ s.fsm = .channels (.stream 0xFFFF) ∧
    s.pairsAt 0xFFFF (List.replicate 0x8000 (0, 0)) = true := ⟨by decide, rfl, blank_pairsAt _ _ _⟩

theorem wit_FmBlockWrites :
    { blockState with ram := (blockState.setCh 29 Fld.route 0x80).ram }.suppressed 29 = true ∧
    blockState.suppressed blockState.me = false ∧ blockState.fmIn = [0, 0] ++ [0] ∧
    { blockState with fmIn := [0x80, 0x7F] }.fmIn = [0x80, 0x7F] ++ [] ∧
    [(0x80 : Byte), 0x7F].length = [((0x20 : Byte), (0xC7 : Byte)), (0x20, 0xC8)].length ∧
    issued [0x80, 0x7F] [(0x23, 0xC7), (0x23, 0xC8)] = [(0x23, 0xC8)] := by decide

theorem wit_PanWritesRouting :
    let s := fetching 29 0 [] [(Fld.route, 7)]
    let m := fetching 29 0 [] [(Fld.route, 0x87)]
    s.chan.toNat < 30 ∧ s.suppressed s.me = false ∧ bit s.fmAnswer 7 = false ∧ m.suppressed m.me = true ∧
    bit { s with fmIn := [0x80] }.fmAnswer 7 = true := by decide

theorem wit_CopyMovesEightBytes :
    copyFits ⟨.ramToPcm, 0x7F8, 0xF8⟩ = true ∧ copyFits ⟨.pcmToRam, 0x7F8, 0xF8⟩ = true := by decide

theorem wit_FinpcmCopiesThenFrees :
    let s := { fetching 14 0 [] [] with cfg := copying [⟨.ramToPcm, 0x7F8, 0xF8⟩] }
    let t := { fetching 14 0 [] [] with cfg := copying [⟨.ramToPcm, 0x7F8, 0xF8⟩, ⟨.pcmToRam, 0x7F9, 0xF9⟩] }
    let u := { fetching 14 0 [] [] with cfg := copying [⟨.pcmToRam, 0x7F8, 0xF9⟩] }
    s.chan.toNat < 30 ∧ (∀ c ∈ s.cfg.finalCopies.get s.chan, copyFits c = true) ∧
    t.cfg.finalCopies.get t.chan = [⟨.ramToPcm, 0x7F8, 0xF8⟩] ++ ⟨.pcmToRam, 0x7F9, 0xF9⟩ :: [] ∧
    (∀ d ∈ [(⟨.ramToPcm, 0x7F8, 0xF8⟩ : FinalCopy)], copyFits d = true) ∧
    copyFits ⟨.pcmToRam, 0x7F9, 0xF9⟩ = false ∧ t.chan.toNat < 30 ∧ u.chan.toNat < 30 ∧
    u.cfg.finalCopies.get u.chan = [] ++ ⟨.pcmToRam, 0x7F8, 0xF9⟩ :: [] ∧
    copyFits ⟨.pcmToRam, 0x7F8, 0xF9⟩ = false := by decide

theorem wit_PercLoadsAndAssigns :
    let s := fetching 29 0 [] []
    s.chan.toNat < 30 ∧ ((s.loadPerc s.me (s.cfg.percOf 0)).pickedSlot s.me).toNat ≤ 15 ∧
    ((s.loadPerc s.me (s.cfg.percOf 14)).pickedSlot s.me).toNat ≤ 15 := by decide

/-- The lists of a drum scan with the first slot above 15, all with this predicate. -/
def drumming (p : DrumTest) : Config :=
  { Config.reference with drumList1 := ⟨16, 1, 2, 3, 14, 15⟩, drumPred1 := p, drumPred2 := p, drumPred3 := p }

theorem wit_PercLoadsAndAssigns_fault :
    let s := { fetching 29 0 [] [] with cfg := drumming .endDiffers }
    s.chan.toNat < 30 ∧ (s.loadPerc s.me (s.cfg.percOf 0)).pickedSlot s.me = 16 := by decide
/-- R182, R184: the entry is loaded, and the slot is refused. -/
theorem test_perc_slot_fault :
    let t := stepped { fetching 8 0x3000 [0xC0] [(Fld.flags, 0xC0)] with cfg := drumming .endDiffers }
    (t.fcode, t.finfo) = (0x06, 16) ∧ t.ch 8 Fld.ctrl = 0xD6 ∧ t.pcm = [] ∧ t.cur = 0x3000 := by decide

/-- A sample table whose entry 0 begins at `a`. -/
def sampling (a : Word) : State := { fetching 29 0 [] [] with cfg := { Config.reference with pcmTable := a } }

theorem wit_SampleLoadsAndAssigns :
    let s := sampling 0x7FFC
    s.chan.toNat < 30 ∧ s.inRom [0x7FFC, 0x7FFD, 0x7FFE, 0x7FFF] = true ∧
    s.cfg.pcmTable + 4 * (0 : BitVec 6).setWidth 16 = 0x7FFC ∧
    ((s.loadSample s.me 0x7FFC).pickedSlot s.me).toNat ≤ 15 := by decide
theorem wit_SampleLoadsAndAssigns_fault0 :
    let s := sampling 0x8000
    s.chan.toNat < 30 ∧ s.cfg.pcmTable + 4 * (0 : BitVec 6).setWidth 16 = 0x8000 ∧
    s.inRom [0x8000] = false := by decide
theorem wit_SampleLoadsAndAssigns_fault1 :
    let s := sampling 0x7FFF
    s.chan.toNat < 30 ∧ s.cfg.pcmTable + 4 * (0 : BitVec 6).setWidth 16 = 0x7FFF ∧
    s.inRom [0x7FFF] = true ∧ s.inRom [0x7FFF + 1] = false := by decide
theorem wit_SampleLoadsAndAssigns_fault2 :
    let s := sampling 0x7FFE
    s.chan.toNat < 30 ∧ s.cfg.pcmTable + 4 * (0 : BitVec 6).setWidth 16 = 0x7FFE ∧
    s.inRom [0x7FFE, 0x7FFE + 1] = true ∧ s.inRom [0x7FFE + 2] = false := by decide
theorem wit_SampleLoadsAndAssigns_fault3 :
    let s := sampling 0x7FFD
    s.chan.toNat < 30 ∧ s.cfg.pcmTable + 4 * (0 : BitVec 6).setWidth 16 = 0x7FFD ∧
    s.inRom [0x7FFD, 0x7FFD + 1, 0x7FFD + 2] = true ∧ s.inRom [0x7FFD + 3] = false := by decide

theorem wit_SampleLoadsAndAssigns_slot :
    let s := { sampling 0x7FFC with
      cfg := { Config.reference with pcmTable := 0x7FFC, stdPair := ⟨(16, 15), (14, 15), (2, 3), (0, 1)⟩ } }
    s.chan.toNat < 30 ∧ s.cfg.pcmTable + 4 * (0 : BitVec 6).setWidth 16 = 0x7FFC ∧
    s.inRom [0x7FFC, 0x7FFC + 1, 0x7FFC + 2, 0x7FFC + 3] = true ∧
    (s.loadSample s.me 0x7FFC).pickedSlot s.me = 16 := by decide

/-- The standard path: the two slots of a pair, the second above 15. -/
theorem wit_AssignmentChecksSlot :
    let s := fetching 8 0 [] []
    let c := { Config.reference with stdPair := ⟨(15, 16), (14, 15), (2, 3), (0, 1)⟩ }
    (State.pickedSlot { s with cfg := c } 8).toNat ≤ 15 ∧
    15 < (State.pickedSlot { s with cfg := c, stdTog := ⟨true, false, false, false⟩ } 8).toNat := by decide
/-- The drum path with slot 16 first in the first list: a test that reads the slot, one that passes without reading it,
and the base after no test has passed; and one that leaves slot 16 out. -/
theorem wit_AssignmentChecksSlot_drum :
    let s := fun p => { fetching 8 0 [] [(Fld.ctrl, 0x80)] with cfg := drumming p }
    15 < ((s (.both (.const false) .endDiffers)).pickedSlot 8).toNat ∧
    15 < ((s (.const true)).pickedSlot 8).toNat ∧ 15 < ((s (.const false)).pickedSlot 8).toNat ∧
    ((s (.slotIs 15)).pickedSlot 8).toNat = 15 := by decide

theorem wit_IndexAndCodeFaults :
    let s := fetching 29 0 [] []
    s.chan.toNat < 30 ∧ (Instr.pcmIndexFault 0xBF).wellFormed s.decodeCtx = true ∧
    (Instr.undef 0x00).wellFormed s.decodeCtx = true := by decide

theorem wit_NoteOnFmChannel :
    let s := fetching 29 0x7FFE [0x7F, 0xFF] [(Fld.noteoff, 0x80)]
    let a := s.cfg.noteTable + zext16 ((0x7F : BitVec 7).setWidth 8 + s.ch s.me Fld.noteoff)
    s.chan.toNat < 30 ∧ (0x7F : BitVec 7) ≠ 0 ∧ s.isPcm s.me = false ∧ s.inRom [a] = true ∧ a = 0x01FF ∧
    s.romHas (s.durationBytes s.me) = true ∧
    { s with cur := 0x7FFF }.romHas (State.durationBytes { s with cur := 0x7FFF } s.me) = false ∧
    State.inRom { s with cfg := { s.cfg with romSize := 0x01FF } } [a] = false := by decide

/-- Two duration bytes, the second of them in ROM and not. -/
theorem wit_NoteOnPcmChannel :
    let s := fetching 29 0x7FFD [0x00, 1, 2] [(Fld.flags, 0xC0), (Fld.emflags, 0xC0)]
    s.chan.toNat < 30 ∧ s.isPcm s.me = true ∧ s.durationBytes s.me = 2 ∧ s.romHas (s.durationBytes s.me) = true ∧
    { s with cur := 0x7FFE }.romHas (State.durationBytes { s with cur := 0x7FFE } s.me) = false := by decide

theorem wit_NoteZeroMutes :
    let s := fetching 22 0x7FFE [0, 1] []
    let t := s.setCh 6 Fld.flags 0x80
    s.chan.toNat < 30 ∧ s.isPcm s.me = false ∧ s.romHas (s.durationBytes s.me) = true ∧ s.cfg.corrOf s.me = some 6 ∧
    bit (s.ch 6 Fld.flags) 7 = false ∧ t.isPcm t.me = false ∧ t.romHas (t.durationBytes t.me) = true ∧
    t.cfg.corrOf t.me = some 6 ∧
    bit (t.ch 6 Fld.flags) 7 = true ∧ (fetching 3 0 [] []).cfg.corrOf 3 = none := by decide
theorem wit_NoteZeroMutes_fault :
    let s := fetching 22 0x7FFF [0] []
    let t := s.setCh 6 Fld.flags 0x80
    s.chan.toNat < 30 ∧ s.isPcm s.me = false ∧ s.romHas (s.durationBytes s.me) = false ∧
    t.isPcm t.me = false ∧ t.romHas (t.durationBytes t.me) = false := by decide

/-- A state in the middle of a transaction meets the invariant, and steps. -/
theorem wit_StepKeepsInv :
    let s := fetching 29 0x3000 [0x8A, 0x00, 0x30] [(Fld.flags, 0x80)]
    Inv s ∧ step s = .next s :=
  ⟨⟨by decide, by decide, by decide, by decide, by decide, by decide⟩, rfl⟩
theorem wit_WhatNoStepChanges :
    let s := fetching 29 0x3000 [0x8A, 0x00, 0x30] [(Fld.flags, 0x80)]
    (∃ t, step s = .next t) ∧ s.fsm ≠ .idle ∧ s.fsm ≠ .fault := ⟨⟨_, rfl⟩, by decide, by decide⟩

theorem wit_InstructionsStayInside :
    let s := fetching 29 0x3000 [0x87, 2] []
    ∃ t, exec (.modsel 2) s = .next t ∧ t.fsm ≠ .fault := ⟨_, rfl, by decide⟩

theorem wit_FaultIsAbsorbing :
    let s := { State.reset with fsm := .fault, fcode := 1, events := [.tick, .mbox 0x81, .hostPcm 255 3] }
    s.fsm = .fault ∧ noReset s.events = true := by decide

theorem wit_TickPulse :
    let s := { State.reset with events := [.tick] }
    s.fsm = .idle ∧ s.events = .tick :: [] ∧ State.reset.fsm = .idle ∧ State.reset.events = [] ∧
    { s with fsm := .fault, fcode := 1 }.fsm = .fault ∧
    { s with fsm := .fault, fcode := 1 }.events = .tick :: [] := by decide

theorem wit_ResetFromAnyState :
    let s := { State.reset with fsm := .fault, fcode := 1, events := [.reset, .tick] }
    (s.fsm = .idle ∨ s.fsm = .fault) ∧ s.events = .reset :: [.tick] := by decide

/-- Each act of another agent, in IDLE, as the next of the list. -/
theorem wit_AgentActsChangeOnlyTheirOwn :
    ∀ e ∈ [Event.chip 15 (.loopLo 0x30), .chip 15 (.loopHi 0x30), .chip 0 (.inactive false), .mbox 0xFF,
        .telem ⟨1, 2, 3, 4, ⟨5, 6, 7, 8⟩⟩, .engTel ⟨⟨1, 2⟩, ⟨3, 4⟩, ⟨5, 6⟩, ⟨7, 8⟩⟩, .rev true,
        .tpass ⟨true, false, true, false⟩, .hostRam 0x7FF 0, .hostPcm 0xFF 1, .fmAnswers [0x80]],
      let s := { State.reset with events := [e, .tick] }
      (s.fsm = .idle ∨ s.fsm = .fault) ∧ s.events = e :: [.tick] := by decide
/-- R75 and R76: the last byte of Channel RAM, and one byte of a slot. -/
theorem test_agent_acts :
    (stepped { State.reset with events := [.hostRam 0x7FF 9] }).ram = [(0x7FF, 9)] ∧
    (stepped { State.reset with events := [.chip 15 (.loopHi 0x30)] }).pcm = [(0xFD, 0x30)] := by decide

/-- A state at command intake with a mailbox byte. -/
def intake (c : Byte) : State := { State.reset with fsm := .cmd, tog := true, mbox := c }

theorem wit_CommandIntake :
    (intake 0).fsm = .cmd ∧ (intake 0).mbox = 0 ∧ (intake 1).mbox ≠ 0 ∧ (intake 0x7F).mbox.toNat < 0x80 ∧
    0x80 ≤ (intake 0x80).mbox.toNat ∧ (intake 0x80).cfg.action (intake 0x80).mbox = .ignore ∧
    (intake 0xFF).cfg.action (intake 0xFF).mbox = .undefined := by decide

theorem wit_InitSoundFillsRecords :
    let s := { intake 0xA1 with rom := image [(0x2130, [1, 0x00, 0x20])] }
    s.fsm = .cmd ∧ 0x80 ≤ s.mbox.toNat ∧ s.cfg.action s.mbox = .init 0x2130 29 ∧ s.inRom [0x2130] = true ∧
    (29 : Byte).toNat + (s.romAt 0x2130).toNat ≤ 30 ∧
    ∀ k, k < (s.romAt 0x2130).toNat → s.instrumentInRom 0x2130 k = true := by decide
theorem wit_InitSoundFillsRecords_fault :
    let s := { intake 0xA1 with rom := image [(0x2130, [2, 0x00, 0x20, 0x00, 0x20])] }
    s.fsm = .cmd ∧ 0x80 ≤ s.mbox.toNat ∧ s.cfg.action s.mbox = .init 0x2130 29 ∧ s.inRom [0x2130] = true ∧
    30 < (29 : Byte).toNat + (s.romAt 0x2130).toNat := by
  decide

/-- A state at the intake of an `init_sound` from `src` with these bytes there, to records 28 and 29. -/
def initing (src : Word) (bytes : List Byte) : State :=
  { intake 0xA1 with
    rom := image [(src.toNat, bytes)],
    cfg := { Config.reference with cmdAction := { listed := [(0xA1, .init src 28)], other := .ignore } } }

/-- The count byte outside ROM. -/
theorem wit_InitSoundFillsRecords_count :
    let s := initing 0x8000 []
    s.fsm = .cmd ∧ 0x80 ≤ s.mbox.toNat ∧ s.cfg.action s.mbox = .init 0x8000 28 ∧ s.inRom [0x8000] = false := by decide
/-- The second byte of the second address outside ROM, record 28 filled. -/
theorem wit_InitSoundFillsRecords_address :
    let s := initing 0x7FFC [2, 0x00, 0x20, 0xF3]
    s.fsm = .cmd ∧ 0x80 ≤ s.mbox.toNat ∧ s.cfg.action s.mbox = .init 0x7FFC 28 ∧ s.inRom [0x7FFC] = true ∧
    (28 : Byte).toNat + (s.romAt 0x7FFC).toNat ≤ 30 ∧ 1 < (s.romAt 0x7FFC).toNat ∧
    (∀ i, i < 1 → s.instrumentInRom 0x7FFC i = true) ∧
    s.firstOut [0x7FFC + 1 + 2 * BitVec.ofNat 16 1, 0x7FFC + 1 + 2 * BitVec.ofNat 16 1 + 1] = some 0x8000 := by decide
/-- The last of the 14 bytes of the second block outside ROM. -/
theorem wit_InitSoundFillsRecords_block :
    let s := initing 0x2000 [2, 0x00, 0x20, 0xF3, 0x7F]
    s.fsm = .cmd ∧ 0x80 ≤ s.mbox.toNat ∧ s.cfg.action s.mbox = .init 0x2000 28 ∧ s.inRom [0x2000] = true ∧
    (28 : Byte).toNat + (s.romAt 0x2000).toNat ≤ 30 ∧ 1 < (s.romAt 0x2000).toNat ∧
    (∀ i, i < 1 → s.instrumentInRom 0x2000 i = true) ∧
    s.inRom [0x2000 + 1 + 2 * BitVec.ofNat 16 1, 0x2000 + 1 + 2 * BitVec.ofNat 16 1 + 1] = true ∧
    (∀ i, i < 13 → s.inRom [s.instrument 0x2000 1 + BitVec.ofNat 16 i] = true) ∧
    s.inRom [s.instrument 0x2000 1 + BitVec.ofNat 16 13] = false := by decide

theorem wit_StopCommandSilences :
    let s := intake 0xA0
    s.fsm = .cmd ∧ 0x80 ≤ s.mbox.toNat ∧ s.mbox = s.cfg.cmdStopCheers ∧
    s.cfg.action s.mbox = .stop [14, 15] [14, 15] ∧
    ∀ sl ∈ [(14 : Slot), 15], sl.toNat ≤ 15 := by decide

/-- The second slot of a stop action above 15. -/
theorem wit_StopCommandSilences_fault :
    let s := { intake 0xA0 with cfg := { Config.reference with cheerSlot2 := 16 } }
    s.fsm = .cmd ∧ 0x80 ≤ s.mbox.toNat ∧ s.cfg.action s.mbox = .stop [14, 15] ([14] ++ 16 :: []) ∧
    (∀ x ∈ [(14 : Slot)], x.toNat ≤ 15) ∧ 15 < (16 : Slot).toNat := by decide
/-- R115, R65: the records are zeroed and slot 14 is silent when slot 16 is refused. -/
theorem test_stop_slot_fault :
    let s := { intake 0xA0 with cfg := { Config.reference with cheerSlot2 := 16 } }
    let t := stepped ((s.setCh 14 Fld.flags 0x80).setPcm8 (back 14 6) 0x02)
    (t.fcode, t.finfo) = (0x06, 16) ∧ t.ch 14 Fld.flags = 0 ∧ t.pcm8 (back 14 6) = 0x03 := by decide

theorem wit_ChannelStepCounts :
    let s := fun f => { fetching 29 0 [] f with fsm := .channels .start }
    let a := s [(Fld.flags, 0x80), (Fld.seqpos, 0xFF), (Fld.seqpos + 1, 0xFF)]
    a.chan.toNat < 30 ∧ a.fsm = .channels .start ∧ (s []).enabled (s []).me = false ∧ a.enabled a.me = true ∧
    a.ch16 a.me Fld.seqpos + 1 = a.ch16 a.me Fld.seqend ∧
    (s [(Fld.flags, 0x80)]).ch16 29 Fld.seqpos + 1 ≠ (s [(Fld.flags, 0x80)]).ch16 29 Fld.seqend := by decide

theorem wit_ChannelPassOrder :
    let s := fun i => { fetching i 0 [] [] with fsm := .channels .done }
    (s 28).fsm = .channels .done ∧ (s 28).chan ≠ 29 ∧ (s 28).chan.toNat < 30 ∧ (s 29).chan.toNat < 30 ∧
    (s 29).chan = 29 ∧ (s 29).tog = false ∧
    { s 29 with tog := true }.tog = true := by decide

/-- A state about to refresh record 29. -/
def refreshing (fields : List (Nat × Byte)) : State := { fetching 29 0 [] fields with fsm := .channels .refresh }

theorem wit_RefreshWritesKeys :
    let p := refreshing [(Fld.flags, 0xC0)]
    let o := { refreshing [(Fld.note, 0xFF)] with fmIn := [0x80] }
    let k := { refreshing [(Fld.note, 0x47)] with fmIn := [0, 0x80, 0, 0] }
    p.chan.toNat < 30 ∧ p.fsm = .channels .refresh ∧ p.isPcm p.me = true ∧ o.isPcm o.me = false ∧
    o.ch o.me Fld.modsel = 0 ∧ o.suppressed o.me = false ∧ o.fmIn = [0x80] ++ [] ∧
    [(0x80 : Byte)].length = (o.keyPairs o.me).length ∧ k.isPcm k.me = false ∧ k.ch k.me Fld.modsel = 0 ∧
    k.suppressed k.me = false ∧ k.fmIn = [0, 0x80, 0] ++ [0] ∧
    [(0 : Byte), 0x80, 0].length = (k.keyPairs k.me).length := by decide
/-- With MODSEL not 0: a modulation byte that is played, one that faults, and one outside ROM. -/
theorem wit_RefreshWritesKeys_mod :
    let s := { refreshing [(Fld.modsel, 1)] with rom := [(0x0301, 0x08)] }
    s.isPcm s.me = false ∧ s.suppressed s.me = false ∧ ∃ u, Modulated s u s.me :=
  ⟨by decide, by decide, _, by rw [Modulated, if_neg (by decide)]; rfl⟩
theorem wit_RefreshWritesKeys_fault :
    let s := { refreshing [(Fld.modsel, 1)] with rom := [(0x0301, 0xFC)] }
    let t := refreshing [(Fld.modsel, 9)]
    (s.isPcm s.me = false ∧ s.ch s.me Fld.modsel ≠ 0 ∧ ∃ u, modStep s.me s = .error () u) ∧
    t.isPcm t.me = false ∧ t.ch t.me Fld.modsel ≠ 0 ∧
    t.inRom [t.cfg.modTab.get (t.ch t.me Fld.modsel) + zext16 (t.ch t.me Fld.phoff + 1)] = false :=
  ⟨⟨by decide, by decide, _, rfl⟩, by decide, by decide, by decide⟩

theorem wit_ModulationStep :
    let s := { refreshing [(Fld.modsel, 1)] with rom := [(0x0301, 0x08)] }
    let a := s.cfg.modTab.get (s.ch 29 Fld.modsel) + zext16 (s.ch 29 Fld.phoff + 1)
    a = 0x0301 ∧ s.inRom [a] = true ∧ s.romAt a ≠ 0xFC ∧ s.romAt a ≠ 0xFD ∧ s.romAt a ≠ 0xFE ∧
    State.romAt { s with rom := [(0x0301, 0xFC)] } a = 0xFC ∧
    State.romAt { s with rom := [(0x0301, 0xFD)] } a = 0xFD ∧
    State.romAt { s with rom := [(0x0301, 0xFE)] } a = 0xFE := by decide

theorem wit_SuppressedRefreshIsSilent :
    let s := refreshing [(Fld.route, 0x80)]
    s.chan.toNat < 30 ∧ s.fsm = .channels .refresh ∧ s.isPcm s.me = false ∧ s.suppressed s.me = true ∧
    s.ch s.me Fld.modsel = 0 := by decide
theorem wit_SuppressedRefreshIsSilent_mod :
    let m := { refreshing [(Fld.route, 0x80), (Fld.modsel, 1)] with rom := [(0x0301, 0x08)] }
    m.chan.toNat < 30 ∧ m.fsm = .channels .refresh ∧ m.isPcm m.me = false ∧ m.suppressed m.me = true ∧
    m.ch m.me Fld.modsel ≠ 0 ∧ ∃ u, modStep m.me m = .ok () u :=
  ⟨by decide, by decide, by decide, by decide, by decide, _, rfl⟩

/-- A state about to run an engine channel, with this telemetry for channels 1 to 4. -/
def revving (n : EngCh) (pt : Word) (v : Byte) : State :=
  { State.reset with fsm := .engine n, engTel := ⟨⟨pt, v⟩, ⟨pt, v⟩, ⟨pt, v⟩, ⟨pt, v⟩⟩ }

/-- A configuration whose engine and traffic slots are all above 15. -/
def slotless : Config :=
  { Config.reference with engSlot := ⟨16, 16, 16, 16, 16, 255⟩, trfSlot := ⟨16, 16, 16, 255⟩ }

theorem wit_EngineMutes :
    let s := { revving .e1 0x001F 0x80 with rev := true }
    let t := revving .e2 0x0A00 0
    s.fsm = .engine .e1 ∧ t.fsm = .engine .e2 ∧ (s.engSlot .e1).toNat ≤ 15 ∧ s.rev = true ∧ s.engP .e1 = 0 ∧
    (t.engSlot .e2).toNat ≤ 15 ∧
    t.engNormal .e2 = true ∧ EngCh.e2.odd = false ∧ t.engV .e2 = 0 ∧
    ¬ (State.engSlot { s with cfg := slotless } .e1).toNat ≤ 15 := by decide
/-- V60: an odd channel with a blank ring. -/
theorem wit_EngineMutes_odd :
    let s := revving .e1 0x0A00 0x80
    s.fsm = .engine .e1 ∧ s.engNormal .e1 = true ∧ EngCh.e1.odd = true ∧ (s.ringOldest .e1).2 = 0 ∧
    (s.engSlot .e1).toNat ≤ 15 := by decide
theorem test_engine_mute_odd :
    let t := stepped (revving .e1 0x0A00 0x80)
    t.eng .e1 EFld.flags = 0x01 ∧ t.eng .e1 EFld.ringPos = 1 ∧ t.ram8 0x442 = 0x80 ∧ t.pcm8 0xA6 = 0x01 := by decide

/-- The boundary pitch 0xFA, with the latch open and closed, and with a slot above 15. -/
theorem wit_EngineRevEffect :
    let s := { revving .e1 0x1F40 0x80 with rev := true }
    let t := s.setEng .e1 EFld.flags 0x04
    s.fsm = .engine .e1 ∧ t.fsm = .engine .e1 ∧ t.rev = true ∧ s.rev = true ∧ 0xFA ≤ (s.engP .e1).toNat ∧
    (s.engSlot .e1).toNat ≤ 15 ∧ s.engP .e1 = 0xFA ∧
    s.engFlag .e1 EFlags.loopdis = false ∧ t.engFlag .e1 EFlags.loopdis = true ∧
    0xFA ≤ (t.engP .e1).toNat ∧ (t.engSlot .e1).toNat ≤ 15 ∧
    15 < (State.engSlot { s with cfg := slotless } .e1).toNat := by decide

theorem wit_RingDelaysByEight :
    EngCh.e5.odd = true ∧ (List.replicate 7 ((0 : BitVec 9), (0 : Byte))).length = 7 := by decide

theorem wit_EngineTablePath :
    let s := revving .e2 0x0A00 0x80
    let p := (s.engVoiced .e2).1
    let r := s.cfg.engRowOf p (s.engVoiced .e2).2
    let a := s.cfg.engTable + 5 * r
    s.fsm = .engine .e2 ∧ s.engNormal .e2 = true ∧ (s.engSlot .e2).toNat ≤ 15 ∧ (s.engVoiced .e2).2 ≠ 0 ∧
    (5 ≤ EngCh.e2.num → p.toNat < s.cfg.engIdle.toNat) ∧ r.toNat ≤ 53 ∧
    s.inRom [a, a + 1, a + 2, a + 3, a + 4] = true := by decide

/-- Channel 2 with this configuration; its row is 4 unless the configuration lists one. -/
def tabled (c : Config) : State := { revving .e2 0x0A00 0x80 with cfg := c }

/-- The premises that the clauses of EngineTablePath share, for channel 2. -/
def onTablePath (s : State) : Prop :=
  s.fsm = .engine .e2 ∧ s.engNormal .e2 = true ∧ (s.engVoiced .e2).2 ≠ 0 ∧
    (5 ≤ EngCh.e2.num → (s.engVoiced .e2).1.toNat < s.cfg.engIdle.toNat)

/-- The row of channel 2. -/
abbrev rowOf (s : State) : Word := s.cfg.engRowOf (s.engVoiced .e2).1 (s.engVoiced .e2).2

theorem wit_EngineTablePath_row :
    let s := tabled { slotless with engRow := [((0x50, 0x80), 54)] }
    onTablePath s ∧ 53 < (rowOf s).toNat := by unfold onTablePath; decide
/-- The low byte of the start address is the last byte of ROM, and its high byte, which is read first, is outside. -/
theorem wit_EngineTablePath_entry :
    let s := tabled { slotless with engTable := 0x7FFF - 20 }
    let a := s.cfg.engTable + 5 * rowOf s
    onTablePath s ∧ (rowOf s).toNat ≤ 53 ∧ s.firstOut [a + 1, a, a + 2] = some 0x8000 := by
  unfold onTablePath; decide
theorem wit_EngineTablePath_multiplier :
    let s := tabled { Config.reference with engTable := 0x7FFD - 20 }
    let a := s.cfg.engTable + 5 * rowOf s
    onTablePath s ∧ (rowOf s).toNat ≤ 53 ∧ s.inRom [a, a + 1, a + 2] = true ∧
    s.firstOut [a + 3, a + 4] = some 0x8000 ∧ (s.engSlot .e2).toNat ≤ 15 := by unfold onTablePath; decide
theorem wit_EngineTablePath_pitch_base :
    let s := tabled { Config.reference with engTable := 0x7FFC - 20 }
    let a := s.cfg.engTable + 5 * rowOf s
    onTablePath s ∧ (rowOf s).toNat ≤ 53 ∧ s.inRom [a, a + 1, a + 2] = true ∧
    s.firstOut [a + 3, a + 4] = some 0x8000 ∧ (s.engSlot .e2).toNat ≤ 15 := by unfold onTablePath; decide
/-- The multiplier outside ROM before an untouched slot above 15, with an unchanged pitch. -/
theorem wit_EngineTablePath_steady :
    let s := (tabled { slotless with engTable := 0x7FFD - 20 }).setEng .e2 EFld.pitchLo 0x50
    let a := s.cfg.engTable + 5 * rowOf s
    onTablePath s ∧ (rowOf s).toNat ≤ 53 ∧ s.inRom [a, a + 1, a + 2] = true ∧
    s.firstOut [a + 3, a + 4] = some (a + 3) ∧ 15 < (s.engSlot .e2).toNat ∧ s.engFresh .e2 = false := by
  unfold onTablePath; decide
/-- A slot above 15: fresh addresses with the multiplier outside ROM. -/
theorem wit_EngineTablePath_slot :
    let s := tabled { slotless with engTable := 0x7FFD - 20 }
    let a := s.cfg.engTable + 5 * rowOf s
    onTablePath s ∧ (rowOf s).toNat ≤ 53 ∧ s.inRom [a, a + 1, a + 2] = true ∧ 15 < (s.engSlot .e2).toNat ∧
    s.engFresh .e2 = true := by unfold onTablePath; decide
/-- A slot above 15: an unchanged pitch with the multiplier inside ROM. -/
theorem wit_EngineTablePath_slot_steady :
    let s := (tabled { slotless with engTable := 0x7FFC - 20 }).setEng .e2 EFld.pitchLo 0x50
    let a := s.cfg.engTable + 5 * rowOf s
    onTablePath s ∧ (rowOf s).toNat ≤ 53 ∧ s.inRom [a, a + 1, a + 2] = true ∧ 15 < (s.engSlot .e2).toNat ∧
    s.inRom [a + 3] = true := by unfold onTablePath; decide

/-- A state about to run channel 6 with this volume, its pitch at the idle threshold of the configuration. -/
def playing (v : Byte) (c : Config) : State :=
  { State.reset with
    fsm := .engine .e6, cfg := c,
    telem := { unused := 0, pitchHi := 0x08, pitchLo := 0, volume := v, traffic := ⟨0, 0, 0, 0⟩ } }

/-- The premises that the clauses of EngineFerrariPath share, for channel 6. -/
def onFerrariPath (s : State) : Prop :=
  s.fsm = .engine .e6 ∧ s.engNormal .e6 = true ∧ (s.engVoiced .e6).2 ≠ 0 ∧ 5 ≤ EngCh.e6.num ∧
    s.cfg.engIdle.toNat ≤ (s.engVoiced .e6).1.toNat

/-- The row of channel 6 on that path. -/
abbrev ferrariRowOf (s : State) : Word := s.cfg.ferrariRowOf ((s.engVoiced .e6).1 - s.cfg.engIdle)

/-- The boundary: channel 6 at the idle threshold takes the Ferrari path. -/
theorem wit_EngineFerrariPath :
    let s := playing 1 Config.reference
    let a := s.cfg.ferrariTable + 4 * ferrariRowOf s
    onFerrariPath s ∧ (s.engVoiced .e6).1 = s.cfg.engIdle ∧ (s.engSlot .e6).toNat ≤ 15 ∧
    (ferrariRowOf s).toNat < s.cfg.ferrariRows.toNat ∧ s.inRom [a, a + 1, a + 2, a + 3] = true := by
  unfold onFerrariPath; decide
theorem wit_EngineFerrariPath_row :
    let s := playing 1 { slotless with ferrariRow := [(0, 64)] }
    onFerrariPath s ∧ s.cfg.ferrariRows.toNat ≤ (ferrariRowOf s).toNat := by unfold onFerrariPath; decide
theorem wit_EngineFerrariPath_entry :
    let s := playing 1 { slotless with ferrariTable := 0x7FFE }
    let a := s.cfg.ferrariTable + 4 * ferrariRowOf s
    onFerrariPath s ∧ (ferrariRowOf s).toNat < s.cfg.ferrariRows.toNat ∧
    s.firstOut [a + 1, a, a + 2] = some 0x8000 := by unfold onFerrariPath; decide
/-- The pitch byte outside ROM, with a slot above 15 and with one below. -/
theorem wit_EngineFerrariPath_slot :
    let s := playing 1 { slotless with ferrariTable := 0x7FFD }
    let t := playing 1 { Config.reference with ferrariTable := 0x7FFD }
    let a := s.cfg.ferrariTable + 4 * ferrariRowOf s
    onFerrariPath s ∧ (ferrariRowOf s).toNat < s.cfg.ferrariRows.toNat ∧ s.inRom [a, a + 1, a + 2] = true ∧
    15 < (s.engSlot .e6).toNat ∧ onFerrariPath t ∧ ferrariRowOf t = ferrariRowOf s ∧
    t.inRom [a, a + 1, a + 2] = true ∧ (t.engSlot .e6).toNat ≤ 15 ∧ t.inRom [a + 3] = false := by
  unfold onFerrariPath; decide

/-- A state about to run a traffic channel, with this telemetry byte for each, these record bytes, and the reference
tables of V71. -/
def passing (c : TrfCh) (b : Byte) (fields : List (Nat × Byte)) : State :=
  fields.foldl (fun s f => s.setTrf c f.1 f.2)
    { State.reset with
      fsm := .traffic c, telem := { unused := 0, pitchHi := 0, pitchLo := 0, volume := 0, traffic := ⟨b, b, b, b⟩ },
      rom := image [(0x0600, [0x08]), (0x0604, [0x10]), (0x0626, [0xFF, 0x40]), (0x0644, [0x10])] }

theorem wit_PassesWriteOnlyTheirOwn :
    (∃ t, step (revving .e1 0 0) = .next t) ∧ (∃ t, step (passing .t1 0x2B []) = .next t) ∧
    (revving .e1 0 0).fsm = .engine .e1 ∧ (passing .t1 0x2B []).fsm = .traffic .t1 := ⟨⟨_, rfl⟩, ⟨_, rfl⟩, rfl, rfl⟩

theorem wit_TrafficUnchangedIsLeftAlone :
    let s := passing .t4 0x2B [(TFld.flags, 0x08), (TFld.pvidx, 5), (TFld.ppidx, 3)]
    s.fsm = .traffic .t4 ∧ s.trfFollows .t4 = true ∧ s.trfVidx .t4 ≠ 0 ∧ s.trf .t4 TFld.pvidx = s.trfVidx .t4 ∧
    s.trf .t4 TFld.ppidx = s.trfPidx .t4 ∧ s.trfFlag .t4 TFlags.seset = true := by decide

/-- The premises that the clauses of TrafficComputes share, for channel 1. -/
def onComputePath (s : State) : Prop :=
  s.fsm = .traffic .t1 ∧ s.trfFollows .t1 = true ∧ s.trfVidx .t1 ≠ 0 ∧
    ¬ (s.trf .t1 TFld.pvidx = s.trfVidx .t1 ∧ s.trf .t1 TFld.ppidx = s.trfPidx .t1 ∧
      s.trfFlag .t1 TFlags.seset = true)

/-- The volume, pan and distance entries channel 1 reads. -/
abbrev volEntry (s : State) : Word := s.cfg.trfVolTab + BitVec.ofNat 16 ((s.trfVidx .t1).toNat - 1)
abbrev panEntry (s : State) : Word := s.cfg.trfPanTab + 2 * zext16 (s.trfPidx .t1)
abbrev distEntry (s : State) : Word := s.cfg.trfDistTab + BitVec.ofNat 16 ((s.trfVidx .t1).toNat - 1)

/-- The boundary multiplier 0x10. -/
theorem wit_TrafficComputes :
    let s := passing .t1 0x2B []
    onComputePath s ∧ s.inRom [volEntry s] = true ∧ (s.romAt (volEntry s)).toNat = 0x10 ∧
    s.inRom [panEntry s, panEntry s + 1, distEntry s] = true ∧ (s.trfSlot .t1).toNat ≤ 15 := by
  unfold onComputePath; decide
theorem wit_TrafficComputes_slot :
    let s := { passing .t1 0x2B [] with cfg := slotless }
    onComputePath s ∧ s.inRom [volEntry s] = true ∧ 0x10 ≤ (s.romAt (volEntry s)).toNat ∧
    s.inRom [panEntry s, panEntry s + 1, distEntry s] = true ∧ 15 < (s.trfSlot .t1).toNat := by
  unfold onComputePath; decide
theorem wit_TrafficComputes_volume :
    let s := { passing .t1 0x2B [] with cfg := { slotless with trfVolTab := 0x7FFC } }
    onComputePath s ∧ volEntry s = 0x8000 ∧ s.inRom [volEntry s] = false := by unfold onComputePath; decide
/-- A pan table that ends inside the entry, and a distance table that ends before it. -/
theorem wit_TrafficComputes_out :
    ∀ c ∈ [{ slotless with trfPanTab := 0x7FF9 }, { slotless with trfDistTab := 0x7FFC }],
      let s := { passing .t1 0x2B [] with cfg := c }
      onComputePath s ∧ s.inRom [volEntry s] = true ∧ 0x10 ≤ (s.romAt (volEntry s)).toNat ∧
      s.firstOut [panEntry s, panEntry s + 1, distEntry s] = some 0x8000 := by unfold onComputePath; decide

theorem wit_TrafficDisables :
    let z := passing .t1 0x03 []
    let s := passing .t1 0x0B []
    let a := s.cfg.trfVolTab + BitVec.ofNat 16 ((s.trfVidx .t1).toNat - 1)
    z.fsm = .traffic .t1 ∧ z.trfFollows .t1 = true ∧ (z.trfSlot .t1).toNat ≤ 15 ∧ z.trfVidx .t1 = 0 ∧
    s.fsm = .traffic .t1 ∧ s.trfFollows .t1 = true ∧ (s.trfSlot .t1).toNat ≤ 15 ∧
    ¬ (s.trf .t1 TFld.pvidx = s.trfVidx .t1 ∧ s.trf .t1 TFld.ppidx = s.trfPidx .t1 ∧
      s.trfFlag .t1 TFlags.seset = true) ∧ s.inRom [a] = true ∧ (s.romAt a).toNat < 0x10 ∧
    15 < (State.trfSlot { z with cfg := slotless } .t1).toNat := by decide

/-- Going on with volumes 2 and 1, and the last pass with 1 and 1. -/
theorem wit_ReductionEnds :
    let s := passing .t1 0 [(TFld.flags, 0x09), (TFld.pitch, 0x42), (TFld.voll, 2), (TFld.volr, 1)]
    let t := s.setTrf .t1 TFld.voll 1
    s.trfFlag .t1 TFlags.reduce = true ∧ s.fsm = .traffic .t1 ∧ (s.trfSlot .t1).toNat ≤ 15 ∧
    1 < max (s.trf .t1 TFld.voll).toNat (s.trf .t1 TFld.volr).toNat ∧ t.trfFlag .t1 TFlags.reduce = true ∧
    t.fsm = .traffic .t1 ∧ max (t.trf .t1 TFld.voll).toNat (t.trf .t1 TFld.volr).toNat ≤ 1 ∧
    15 < (State.trfSlot { s with cfg := slotless } .t1).toNat := by decide
/-- Starting by TPASS, with start/end set and REDUCE not. -/
theorem wit_ReductionEnds_start :
    let s := { passing .t1 0x2B [(TFld.flags, 0x08), (TFld.voll, 2)] with tpass := ⟨true, false, false, false⟩ }
    s.tpass.atTrf .t1 = true ∧ s.trfFlag .t1 TFlags.seset = true ∧ s.trfFlag .t1 TFlags.reduce = false ∧
    s.fsm = .traffic .t1 ∧ 1 < max (s.trf .t1 TFld.voll).toNat (s.trf .t1 TFld.volr).toNat := by decide
/-- R237: the step is 6 at the threshold 0x40 and 4 below it. -/
theorem test_traffic_reduce :
    let s := fun p => passing .t1 0 [(TFld.flags, 0x09), (TFld.pitch, p), (TFld.voll, 3)]
    (stepped (s 0x40)).pcm8 0x57 = 0x3A ∧ (stepped (s 0x3F)).pcm8 0x57 = 0x3B ∧
    (stepped (s 0x40)).pcm8 0x52 = 2 := by decide

theorem wit_JpToItselfHangs :
    let s := fetching 29 0x3000 [0x8A, 0x00, 0x30] []
    s.fsm = .channels .fetch ∧ s.chan.toNat < 30 ∧ s.cur.toNat < s.cfg.romSize ∧ s.romHas 2 = true ∧
    s.instrAt = .jp s.cur := by decide

theorem wit_LoopRunsItsCount :
    let s := fetching 29 0x3000 [0x8C, 0, 0, 0x00, 0x30] []
    Inv s ∧ s.fsm = .channels .fetch ∧ s.cur.toNat < s.cfg.romSize ∧ s.romHas 4 = true ∧
    s.instrAt = .loop 0 0 s.cur ∧ s.ram8 (recBase s.me + 0x17 + (0 : Byte).toNat) = 0 :=
  ⟨⟨by decide, by decide, by decide, by decide, by decide, by decide⟩, by decide, by decide, by decide, by decide,
    by decide⟩

theorem wit_QuietTickCompletes :
    let s := { State.reset with tog := true, events := [.tick, .tick] }
    s.fsm = .idle ∧ s.events = .tick :: [.tick] ∧ s.mbox = 0 ∧ s.tog = true ∧
    ∀ i, i < 30 → s.enabled i = false := by decide
theorem wit_QuietTickCompletes_passes :
    let s := { State.reset with events := [.tick] }
    s.fsm = .idle ∧ s.events = .tick :: [] ∧ s.mbox = 0 ∧ s.tog = false ∧ s.rev = false ∧
    (∀ n, (s.engVoiced n).2 = 0 ∧ (s.engSlot n).toNat ≤ 15) ∧
    ∀ c, s.trfFollows c = true ∧ s.trfVidx c = 0 ∧ (s.trfSlot c).toNat ≤ 15 := by
  refine ⟨rfl, rfl, rfl, rfl, rfl, fun n => ?_, fun c => ?_⟩
  · cases n <;> decide
  · cases c <;> decide

end Sys2Proof.Tests
end

section
/-!
SUPPORT. What the micro-steps of a transaction and the instructions write, for whatever relation allows the writes of
the named operations: once the operations are known to stay inside a relation, every computation built of them does.
-/

namespace Sys2Proof.Machine

variable {α β : Type} {Q E : State → State → Prop} {s t u : State}

/-- A channel micro-step leaves what its computation leaves. -/
theorem Leaves.onChannel {m : Nat → Exec Unit} (hm : ∀ i, Leaves Q E (m i)) (h : onChannel m s = .next t) :
    Q s t ∨ E s t := by
  obtain ⟨-, rfl⟩ := onChannel_next h
  have hs := hm s.chan.toNat s
  split at hs
  · rename_i heq
    rw [heq]
    exact .inl hs
  · rename_i heq
    rw [heq]
    exact .inr hs

/-- `Q` allows every write an instruction makes, and `E` such writes followed by a raised fault. Intake, the refresh,
the engine pass and the traffic pass are built of the same writes, but for registers of the sequencer
(`MicroWrites`). -/
structure InstrWrites (Q E : State → State → Prop) : Prop where
  refl : ∀ s, Q s s
  trans : ∀ s t u, Q s t → Q t u → Q s u
  faultAfter : ∀ s t u, Q s t → E t u → E s u
  ram : ∀ s a v, Q s (s.setRam8 a v)
  pcm : ∀ s a v, Q s (s.setPcm8 a v)
  fm : ∀ s r v, Q s (s.fmWrite r v)
  cur : ∀ s a, Q s (s.setCur a)
  std : ∀ s c, Q s (s.flipStdTog c)
  fsm : ∀ s f, Q s (s.setFsm f)
  fault : ∀ s c i, E s (s.raiseFault c i)

/-- `Q` allows the writes of the sequencer too: its own registers and the mailbox acknowledge. -/
structure MicroWrites (Q E : State → State → Prop) : Prop extends InstrWrites Q E where
  chan : ∀ s i, Q s (s.setChan i)
  chanPrev : ∀ s i, Q s (s.setChanPrev i)
  cmdPrev : ∀ s c, Q s (s.setCmdPrev c)
  engCh : ∀ s n, Q s (s.setEngCh n)
  ack : ∀ s b, Q s (s.setMboxAck b)

namespace InstrWrites

variable (h : InstrWrites Q E)
include h

/-! ### One more write of the state -/

theorem setRam8 {a : Nat} {v : Byte} (hu : Q s u) : Q s (u.setRam8 a v) := h.trans _ _ _ hu (h.ram _ _ _)

theorem setPcm8 {a : Nat} {v : Byte} (hu : Q s u) : Q s (u.setPcm8 a v) := h.trans _ _ _ hu (h.pcm _ _ _)

theorem setCh {i f : Nat} {v : Byte} (hu : Q s u) : Q s (u.setCh i f v) := h.setRam8 hu

theorem setRam16 {a : Nat} {v : Word} (hu : Q s u) : Q s (u.setRam16 a v) := h.setRam8 (h.setRam8 hu)

theorem setCh16 {i f : Nat} {v : Word} (hu : Q s u) : Q s (u.setCh16 i f v) := h.setRam16 hu

theorem gfmWrite {i : Nat} {r v : Byte} (hu : Q s u) : Q s (u.gfmWrite i r v) := by
  cases hs : u.suppressed i with
  | true => rwa [gfmWrite_suppressed hs]
  | false =>
    rw [gfmWrite_heard hs]
    exact h.trans _ _ _ hu (h.fm _ _ _)

/-! ### Computations -/

theorem pure (a : α) : Leaves Q E (pure a : Exec α) := Leaves.pure h.refl a

theorem look (f : State → α) : Leaves Q E (look f) := Leaves.look h.refl f

theorem raise (c : FaultCode) (info : Word) : Leaves Q E (raise c info : Exec α) :=
  Leaves.raise fun s => h.fault s c info

theorem bind {m : Exec α} {g : α → Exec β} (hm : Leaves Q E m) (hg : ∀ a, Leaves Q E (g a)) :
    Leaves Q E (m >>= g) := Leaves.bind h.trans h.faultAfter hm hg

/-- What is read of the state decides how the computation goes on. -/
theorem read {f : State → α} {g : α → Exec β} (hg : ∀ a, Leaves Q E (g a)) : Leaves Q E (Machine.look f >>= g) :=
  h.bind (h.look f) hg

/-- A write of the state and what follows it. -/
theorem write {f : State → State} {g : Unit → Exec β} (hf : ∀ s, Q s (f s)) (hg : ∀ a, Leaves Q E (g a)) :
    Leaves Q E (upd f >>= g) := h.bind (.upd hf) hg

theorem onlyIf {b : Bool} {m : Exec Unit} (hm : Leaves Q E m) : Leaves Q E (onlyIf b m) := Leaves.onlyIf h.refl hm

theorem each (l : List α) {f : α → Exec Unit} (hf : ∀ x, Leaves Q E (f x)) : Leaves Q E (each l f) :=
  Leaves.each h.refl h.trans h.faultAfter l fun x _ => hf x

theorem rom8 (a : Word) : Leaves Q E (rom8 a) := Leaves.rom8 h.refl (fun s => h.fault s .romRange) a

theorem rom16 (a : Word) : Leaves Q E (rom16 a) := h.bind (h.rom8 _) fun _ => h.bind (h.rom8 _) fun _ => h.look _

theorem checkSlot (sl : Slot) : Leaves Q E (checkSlot sl) := Leaves.checkSlot h.refl (fun s => h.fault s .param) sl

theorem putFront (sl : Slot) (off : Nat) (v : Byte) : Leaves Q E (putFront sl off v) :=
  h.bind (h.checkSlot sl) fun _ => .upd fun s => h.pcm s _ _

theorem putBack (sl : Slot) (off : Nat) (v : Byte) : Leaves Q E (putBack sl off v) :=
  h.bind (h.checkSlot sl) fun _ => .upd fun s => h.pcm s _ _

theorem silence (sl : Slot) : Leaves Q E (silence sl) :=
  h.bind (h.checkSlot sl) fun _ => .upd fun s => h.pcm s _ _

theorem endChannelStep : Leaves Q E endChannelStep := .upd fun s => h.fsm s _

theorem next8 : Leaves Q E next8 := by
  intro s
  by_cases hr : (s.cur + 1).toNat < s.cfg.romSize
  · rw [next8_ok hr]
    exact h.cur s _
  · rw [next8_fault hr]
    exact h.faultAfter _ _ _ (h.cur s _) (h.fault _ _ _)

theorem next16 : Leaves Q E next16 := h.bind h.next8 fun _ => h.next8

theorem advance : Leaves Q E advance := .upd fun s => h.cur s _

theorem jump (a : Word) : Leaves Q E (jump a) := .upd fun s => h.cur s _

theorem jumpAdvance (a : Word) : Leaves Q E (Machine.jump a >>= fun _ => Machine.advance) :=
  h.bind (h.jump a) fun _ => h.advance

/-! ### The instructions that set fields -/

theorem execVol {l r : Byte} : execVol l r s = .next t → Q s t ∨ E s t :=
  Leaves.onChannel fun _ => h.read fun _ => .ite
    (fun _ => h.bind h.next8 fun _ => h.bind h.next8 fun _ => h.write (fun s => h.ram s _ _) fun _ =>
      h.write (fun s => h.ram s _ _) fun _ => h.advance)
    (fun _ => h.bind h.next8 fun _ => h.write (fun s => h.ram s _ _) fun _ => h.advance)

theorem execModsel {sel : Byte} : execModsel sel s = .next t → Q s t ∨ E s t :=
  Leaves.onChannel fun _ => h.bind h.next8 fun _ => h.write (fun s => h.ram s _ _) fun _ => h.advance

theorem execTransp {v : Byte} : execTransp v s = .next t → Q s t ∨ E s t :=
  Leaves.onChannel fun _ => h.bind h.next8 fun _ => h.write (fun s => h.ram s _ _) fun _ => h.advance

theorem execPitch {p : Byte} : execPitch p s = .next t → Q s t ∨ E s t :=
  Leaves.onChannel fun _ => h.bind h.next8 fun _ => h.read fun _ =>
    h.bind (h.onlyIf (.upd fun s => h.ram s _ _)) fun _ => h.advance

theorem setEmFlag (i k : Nat) : Leaves Q E (setEmFlag i k) :=
  h.write (fun s => h.ram s _ _) fun _ => h.write (fun s => h.cur s _) fun _ => .upd fun s => h.cur s _

theorem execLitend : execLitend s = .next t → Q s t ∨ E s t :=
  Leaves.onChannel fun _ => h.bind (h.setEmFlag _ _) fun _ => h.advance

theorem execHiend : execHiend s = .next t → Q s t ∨ E s t :=
  Leaves.onChannel fun _ => h.bind (h.setEmFlag _ _) fun _ => h.advance

/-! ### The finalize instructions -/

theorem finalize (i : Nat) : Leaves Q E (finalize i) :=
  h.write (fun s => h.fm s _ _) fun _ => h.write (fun s => h.ram s _ _) fun _ => h.endChannelStep

theorem execFinfm : execFinfm s = .next t → Q s t ∨ E s t := Leaves.onChannel h.finalize

theorem copyByte {c : FinalCopy} {j : Nat} (hu : Q s u) : Q s (u.copyByte c j) := by
  unfold State.copyByte
  split
  · exact h.setPcm8 hu
  · exact h.setRam8 hu

theorem copyBytes {c : FinalCopy} (hu : Q s u) : Q s (u.copyBytes c) :=
  List.foldlRecOn (List.range 8) _ hu fun _ hb _ _ => h.copyByte hb

theorem copyBlock (c : FinalCopy) : Leaves Q E (copyBlock c) :=
  .ite (fun _ => h.raise _ _) fun _ => .ite (fun _ => h.raise _ _) fun _ => .upd fun s => h.copyBytes (h.refl s)

theorem execFinpcm : execFinpcm s = .next t → Q s t ∨ E s t :=
  Leaves.onChannel fun i => h.read fun _ => h.bind (h.each _ h.copyBlock) fun _ => h.finalize i

/-! ### Control flow -/

theorem execCall {a : Word} : execCall a s = .next t → Q s t ∨ E s t :=
  Leaves.onChannel fun _ => h.bind h.next16 fun _ => h.write (fun s => h.ram s _ _) fun _ =>
    h.write (fun s => h.setRam16 (h.refl s)) fun _ => h.jumpAdvance a

theorem execRet : execRet s = .next t → Q s t ∨ E s t :=
  Leaves.onChannel fun _ => h.write (fun s => h.cur s _) fun _ => h.write (fun s => h.ram s _ _) fun _ => h.advance

theorem execJp {a : Word} : execJp a s = .next t → Q s t ∨ E s t :=
  Leaves.onChannel fun _ => h.bind h.next16 fun _ => h.jumpAdvance a

theorem execLoop {k n : Byte} {a : Word} : execLoop k n a s = .next t → Q s t ∨ E s t :=
  Leaves.onChannel fun _ => h.bind h.next8 fun _ => h.bind h.next8 fun _ => h.read fun _ =>
    h.write (fun s => h.ram s _ _) fun _ => .ite
      (fun _ => h.write (fun s => h.cur s _) fun _ => h.advance)
      (fun _ => h.bind h.next16 fun _ => h.jumpAdvance a)

/-! ### Writes of FM registers -/

theorem fmStream (i fuel : Nat) (p : Word) : Leaves Q E (fmStream i fuel p) := by
  induction fuel generalizing p with
  | zero => exact h.pure _
  | succ fuel ih =>
    exact h.bind (h.rom8 p) fun _ => .ite (fun _ => h.pure _) fun _ =>
      h.bind (h.rom8 _) fun _ => h.write (fun s => h.gfmWrite (h.refl s)) fun _ => ih _

theorem fmStreamLap (i : Nat) (p : Word) : Leaves Q E (fmStreamLap i p) :=
  h.bind (h.fmStream i _ p) fun
    | none => h.advance
    | some _ => .upd fun s => h.fsm s _

theorem execFmblk {blk : Byte} : execFmblk blk s = .next t → Q s t ∨ E s t :=
  Leaves.onChannel fun i => h.bind h.next8 fun _ => h.write (fun s => h.ram s _ _) fun _ => h.read fun p =>
    h.fmStreamLap i p

theorem pan (i : Nat) (bits : Byte) : Leaves Q E (pan i bits) := .upd fun s => h.gfmWrite (h.refl s)

theorem execPanr : execPanr s = .next t → Q s t ∨ E s t :=
  Leaves.onChannel fun _ => h.bind (h.pan _ _) fun _ => h.advance

theorem execPanl : execPanl s = .next t → Q s t ∨ E s t :=
  Leaves.onChannel fun _ => h.bind (h.pan _ _) fun _ => h.advance

theorem execPanc : execPanc s = .next t → Q s t ∨ E s t :=
  Leaves.onChannel fun _ => h.bind (h.pan _ _) fun _ => h.advance

/-! ### Notes -/

theorem noteByte (i : Nat) (n : BitVec 7) : Leaves Q E (noteByte i n) := by
  refine .ite (fun _ => .upd fun s => ?_) fun _ => h.read fun _ => .ite (fun _ => h.pure _) fun _ =>
    h.read fun a => h.bind (h.rom8 a) fun _ => .upd fun s => h.ram s _ _
  split
  · exact h.ram s _ _
  · exact h.refl s

theorem endSection {i : Nat} {m : Word} (hu : Q s u) : Q s (u.endSection i m) :=
  h.setCh16 (h.setCh16 (h.setCh16 hu))

theorem endMarker (i : Nat) (d1 d2 : Byte) : Leaves Q E (endMarker i d1 d2) :=
  h.bind h.next8 fun _ => h.read fun _ => .ite
    (fun _ => h.bind h.next8 fun _ => h.write (fun s => h.setCh (h.ram s _ _)) fun _ =>
      .upd fun s => h.endSection (h.refl s))
    (fun _ => h.read fun _ => .ite
      (fun _ => h.write (fun s => h.ram s _ _) fun _ => .upd fun s => h.endSection (h.refl s))
      (fun _ => .upd fun s => h.endSection (h.refl s)))

theorem execNote {n : BitVec 7} {d1 d2 : Byte} : execNote n d1 d2 s = .next t → Q s t ∨ E s t :=
  Leaves.onChannel fun i => h.bind (h.noteByte i n) fun _ => h.bind (h.endMarker i d1 d2) fun _ =>
    .upd fun s => h.fsm s _

/-! ### PCM channels and undefined codes -/

theorem scanList (i : Nat) (p : DrumTest) (l : List Slot) : Leaves Q E (scanList i p l) := by
  induction l with
  | nil => exact h.pure _
  | cons sl rest ih =>
    exact h.bind (h.onlyIf (h.checkSlot sl)) fun _ => h.read fun _ => .ite (fun _ => h.pure _) fun _ => ih

theorem drumScan (i : Nat) : Leaves Q E (drumScan i) :=
  h.read fun _ => h.bind (h.scanList i _ _) fun
    | some _ => h.pure _
    | none => h.bind (h.scanList i _ _) fun
      | some _ => h.pure _
      | none => h.bind (h.scanList i _ _) fun
        | some _ => h.pure _
        | none => h.pure _

theorem stdPick (i : Nat) : Leaves Q E (stdPick i) :=
  h.read fun _ => h.read fun _ => h.write (fun s => h.std s _) fun _ => h.pure _

theorem pcmSend {i : Nat} {sl : Slot} (hu : Q s u) : Q s (u.pcmSend i sl) := by
  unfold State.pcmSend
  iterate 9 apply h.setPcm8
  exact hu

theorem pcmAssign (i : Nat) : Leaves Q E (pcmAssign i) := by
  have hsend (sl : Slot) : Leaves Q E (do Machine.checkSlot sl; upd fun s => s.pcmSend i sl) :=
    h.bind (h.checkSlot sl) fun _ => .upd fun s => h.pcmSend (h.refl s)
  exact h.read fun _ => .ite (fun _ => h.bind (h.drumScan i) hsend) fun _ => h.bind (h.stdPick i) hsend

theorem execSample {k : BitVec 6} : execSample k s = .next t → Q s t ∨ E s t :=
  Leaves.onChannel fun i => h.read fun _ =>
    h.bind (h.rom8 _) fun _ => h.write (fun s => h.ram s _ _) fun _ =>
    h.bind (h.rom8 _) fun _ => h.write (fun s => h.ram s _ _) fun _ =>
    h.bind (h.rom8 _) fun _ => h.write (fun s => h.ram s _ _) fun _ =>
    h.bind (h.rom8 _) fun _ => h.write (fun s => h.ram s _ _) fun _ =>
    h.bind (h.pcmAssign i) fun _ => h.advance

theorem loadPerc {i : Nat} {e : PercEntry} (hu : Q s u) : Q s (u.loadPerc i e) := by
  unfold State.loadPerc
  iterate 5 apply h.setCh
  exact hu

theorem execPerc {k : BitVec 4} : execPerc k s = .next t → Q s t ∨ E s t :=
  Leaves.onChannel fun i => h.write (fun s => h.loadPerc (h.refl s)) fun _ =>
    h.bind (h.pcmAssign i) fun _ => h.advance

theorem execPcmIndexFault {b : Byte} : execPcmIndexFault b s = .next t → Q s t ∨ E s t :=
  Leaves.onChannel fun _ => h.raise _ _

theorem execUndef {code : BitVec 6} : execUndef code s = .next t → Q s t ∨ E s t :=
  Leaves.onChannel fun _ s => h.fault s _ _

/-- Every instruction stays inside the relations that allow the writes of the operations it is built of. -/
theorem exec {i : Instr} (hx : exec i s = .next t) : Q s t ∨ E s t := by
  cases i with
  | note n d1 d2 => exact h.execNote hx
  | vol l r => exact h.execVol hx
  | finfm => exact h.execFinfm hx
  | modsel sel => exact h.execModsel hx
  | call a => exact h.execCall hx
  | ret => exact h.execRet hx
  | jp a => exact h.execJp hx
  | transp v => exact h.execTransp hx
  | loop k n a => exact h.execLoop hx
  | fmblk blk => exact h.execFmblk hx
  | pitch p => exact h.execPitch hx
  | litend => exact h.execLitend hx
  | hiend => exact h.execHiend hx
  | panr => exact h.execPanr hx
  | panl => exact h.execPanl hx
  | panc => exact h.execPanc hx
  | finpcm => exact h.execFinpcm hx
  | perc k => exact h.execPerc hx
  | sample k => exact h.execSample hx
  | pcmIndexFault b => exact h.execPcmIndexFault hx
  | undef code => exact h.execUndef (code := code) hx

/-- A fetch in the Process Section raises ROM_RANGE or runs the instruction. -/
theorem sectionStep (hx : s.sectionStep Machine.exec = .next t) : Q s t ∨ E s t := by
  unfold State.sectionStep at hx
  split at hx
  · split at hx
    · exact h.exec hx
    · cases hx
      exact .inr (h.fault s _ _)
  · cases hx

/-! ### The refresh of a channel -/

theorem modByte {i : Nat} {v : Byte} (hu : Q s u) : Q s (u.modByte i v) := by
  unfold State.modByte
  split
  · exact h.setCh hu
  · split
    · exact h.setCh hu
    · exact h.setCh hu

theorem modStep (i : Nat) : Leaves Q E (modStep i) :=
  h.write (fun s => h.ram s _ _) fun _ => h.read fun a => h.bind (h.rom8 a) fun _ => .ite
    (fun _ => h.raise _ _) fun _ => .upd fun s => h.modByte (h.refl s)

theorem keyWrites {i : Nat} (hu : Q s u) : Q s (u.keyWrites i) := by
  unfold State.keyWrites
  split
  · exact h.gfmWrite hu
  · exact h.gfmWrite (h.gfmWrite (h.gfmWrite hu))

theorem fmRefresh (i : Nat) : Leaves Q E (fmRefresh i) :=
  h.read fun _ => h.bind (h.onlyIf (h.modStep i)) fun _ => .upd fun s => h.keyWrites (h.refl s)

theorem refreshStep (i : Nat) : Leaves Q E (refreshStep i) :=
  h.read fun _ => .ite (fun _ => h.endChannelStep) fun _ => h.bind (h.fmRefresh i) fun _ => h.endChannelStep

theorem channelStart (i : Nat) : Leaves Q E (channelStart i) :=
  h.read fun _ => .ite
    (fun _ => h.write (fun s => h.setCh16 (h.refl s)) fun _ => h.read fun _ => .ite
      (fun _ => h.write (fun s => h.cur s _) fun _ => .upd fun s => h.fsm s _)
      (fun _ => .upd fun s => h.fsm s _))
    (fun _ => h.endChannelStep)

theorem streamStep (p : Word) (i : Nat) : Leaves Q E (streamStep p i) :=
  h.write (fun s => h.fsm s _) fun _ => h.fmStreamLap i p

/-! ### The engine pass -/

theorem engMute (n : EngCh) : Leaves Q E (engMute n) :=
  h.write (fun s => h.ram s _ _) fun _ => h.write (fun s => h.ram s _ _) fun _ => h.read fun sl => h.silence sl

theorem putStart (sl : Slot) (start : Word) : Leaves Q E (putStart sl start) :=
  h.bind (h.putFront sl _ _) fun _ => h.bind (h.putFront sl _ _) fun _ =>
    h.bind (h.putBack sl _ _) fun _ => h.putBack sl _ _

theorem putVolumes (sl : Slot) (l r : Byte) : Leaves Q E (putVolumes sl l r) :=
  h.bind (h.putFront sl _ _) fun _ => h.putFront sl _ _

theorem revStart (n : EngCh) (sl : Slot) : Leaves Q E (revStart n sl) :=
  h.read fun _ => h.bind (h.putStart sl _) fun _ => h.read fun _ => h.bind (h.putFront sl _ _) fun _ =>
    h.read fun _ => h.bind (h.putFront sl _ _) fun _ => h.bind (h.putBack sl _ _) fun _ =>
    .upd fun s => h.ram s _ _

theorem engRev (n : EngCh) (v : Byte) : Leaves Q E (engRev n v) := by
  refine h.read fun sl => h.read fun _ => h.bind (h.onlyIf (h.revStart n sl)) fun _ => h.read fun pan => ?_
  have hend : Leaves Q E (do
      upd (·.setEngFlag n EFlags.mute false)
      upd (·.setEngFlag n EFlags.addrset false)
      upd (·.setEng n EFld.active 1)) :=
    h.write (fun s => h.ram s _ _) fun _ => h.write (fun s => h.ram s _ _) fun _ => .upd fun s => h.ram s _ _
  cases pan with
  | left => exact h.bind (h.putVolumes sl _ _) fun _ => hend
  | right => exact h.bind (h.putVolumes sl _ _) fun _ => hend
  | both => exact h.bind (h.putVolumes sl _ _) fun _ => hend

theorem ringStep (n : EngCh) (p : BitVec 9) (v : Byte) : Leaves Q E (ringStep n p v) :=
  h.read fun _ => h.write (fun s => h.setRam8 (h.setRam8 (h.setRam8 (h.ram s _ _)))) fun _ => h.pure _

theorem engSetAddr (n : EngCh) (start : Word) (endHi : Byte) : Leaves Q E (engSetAddr n start endHi) :=
  h.read fun sl => h.read fun _ => h.bind
    (h.onlyIf (h.bind (h.putStart sl start) fun _ => h.bind (h.putFront sl _ _) fun _ => h.read fun _ =>
      h.bind (h.putBack sl _ _) fun _ => h.write (fun s => h.ram s _ _) fun _ => .upd fun s => h.ram s _ _))
    fun _ => h.write (fun s => h.ram s _ _) fun _ => .upd fun s => h.ram s _ _

theorem engEntry (a : Word) : Leaves Q E (engEntry a) :=
  h.bind (h.rom8 _) fun _ => h.bind (h.rom8 _) fun _ => h.bind (h.rom8 _) fun _ => h.pure _

theorem engVolume (n : EngCh) (v : Byte) : Leaves Q E (engVolume n v) :=
  h.write (fun s => h.ram s _ _) fun _ => h.read fun sl => .ite
    (fun _ => h.putVolumes sl _ _) fun _ => h.putVolumes sl _ _

theorem engFerrari (n : EngCh) (p : BitVec 9) (v : Byte) : Leaves Q E (engFerrari n p v) :=
  h.read fun _ => .ite (fun _ => h.raise _ _) fun _ => h.bind (h.engEntry _) fun (_, _) =>
    h.bind (h.engSetAddr n _ _) fun _ => h.bind (h.engVolume n _) fun _ => h.bind (h.rom8 _) fun _ =>
    h.putFront _ _ _

theorem engTable (n : EngCh) (p : BitVec 9) (v : Byte) : Leaves Q E (engTable n p v) :=
  h.read fun _ => .ite (fun _ => h.raise _ _) fun _ => h.bind (h.engEntry _) fun (_, _) =>
    h.bind (h.engSetAddr n _ _) fun _ => h.bind (h.rom8 _) fun _ => h.bind (h.engVolume n _) fun _ =>
    h.bind (h.rom8 _) fun _ => h.putFront _ _ _

theorem compareRevs {n : EngCh} {p : BitVec 9} (hu : Q s u) : Q s (u.compareRevs n p) := by
  unfold State.compareRevs
  refine h.setRam8 (h.setRam8 ?_)
  split
  · exact h.setRam8 hu
  · exact h.setRam8 (h.setRam8 hu)

theorem engVoice (n : EngCh) (p : BitVec 9) (v : Byte) : Leaves Q E (engVoice n p v) :=
  h.write (fun s => h.ram s _ _) fun _ => h.write (fun s => h.ram s _ _) fun _ => .ite
    (fun _ => h.engMute n)
    (fun _ => h.write (fun s => h.compareRevs (h.refl s)) fun _ => h.read fun _ => .ite
      (fun _ => h.engFerrari n p v) fun _ => h.engTable n p v)

theorem engNormal (n : EngCh) (p : BitVec 9) (v : Byte) : Leaves Q E (engNormal n p v) :=
  .ite (fun _ => h.bind (h.ringStep n p v) fun (p', v') => h.engVoice n p' v') fun _ => h.engVoice n p v

/-! ### The traffic pass -/

theorem zeroTrf {c : TrfCh} (hu : Q s u) : Q s (u.zeroTrf c) :=
  List.foldlRecOn (List.range 8) _ hu fun _ hb _ _ => h.setRam8 hb

theorem trafficDisable (c : TrfCh) : Leaves Q E (trafficDisable c) :=
  h.write (fun s => h.zeroTrf (h.refl s)) fun _ => h.read fun sl =>
    h.bind (h.each _ fun _ => h.bind (h.putFront sl _ _) fun _ => h.putBack sl _ _) fun _ => h.putBack sl _ _

theorem trafficSend (c : TrfCh) (sl : Slot) : Leaves Q E (trafficSend c sl) :=
  h.read fun _ => h.bind (h.putFront sl _ _) fun _ => h.read fun _ => h.bind (h.putFront sl _ _) fun _ =>
    h.read fun _ => h.putFront sl _ _

theorem trafficCompute (c : TrfCh) (vidx pidx : Byte) : Leaves Q E (trafficCompute c vidx pidx) :=
  h.read fun _ => h.bind (h.rom8 _) fun _ => .ite (fun _ => h.trafficDisable c) fun _ =>
    h.write (fun s => h.ram s _ _) fun _ =>
    h.bind (h.rom8 _) fun _ => h.write (fun s => h.ram s _ _) fun _ =>
    h.bind (h.rom8 _) fun _ => h.write (fun s => h.ram s _ _) fun _ =>
    h.bind (h.rom8 _) fun _ => h.write (fun s => h.ram s _ _) fun _ =>
    h.read fun sl => h.bind (h.putStart sl _) fun _ => h.bind (h.putFront sl _ _) fun _ =>
    h.read fun _ => h.bind (h.onlyIf (h.putBack sl _ _)) fun _ =>
    h.write (fun s => h.ram s _ _) fun _ => h.trafficSend c sl

theorem reduceTrf {c : TrfCh} (hu : Q s u) : Q s (u.reduceTrf c) := h.setRam8 (h.setRam8 (h.setRam8 hu))

theorem trafficReduce (c : TrfCh) : Leaves Q E (trafficReduce c) :=
  h.write (fun s => h.reduceTrf (h.refl s)) fun _ => h.read fun _ => .ite
    (fun _ => h.trafficDisable c) fun _ => h.read fun sl => h.trafficSend c sl

theorem startReduce {c : TrfCh} (hu : Q s u) : Q s (u.startReduce c) := by
  unfold State.startReduce
  split
  · exact h.setRam8 hu
  · exact hu

theorem noteIndices {c : TrfCh} {vidx pidx : Byte} (hu : Q s u) : Q s (u.noteIndices c vidx pidx) :=
  h.setRam8 (h.setRam8 (h.setRam8 (h.setRam8 hu)))

theorem trafficFollow (c : TrfCh) (b : Byte) : Leaves Q E (trafficFollow c b) :=
  .ite (fun _ => h.trafficDisable c) fun _ => h.write (fun s => h.noteIndices (h.refl s)) fun _ =>
    h.read fun _ => .ite (fun _ => h.pure _) fun _ => h.trafficCompute c _ _

/-! ### `init_sound` and the stop command -/

theorem initRecord (cmd : Byte) (r : Nat) (a : Word) : Leaves Q E (initRecord cmd r a) :=
  h.bind (h.each _ fun _ => h.bind (h.rom8 _) fun _ => .upd fun s => h.ram s _ _) fun _ =>
    h.write (fun s => h.ram s _ _) fun _ => h.each _ fun _ => .upd fun s => h.ram s _ _

theorem initSound (cmd : Byte) (src : Word) (first : Byte) : Leaves Q E (initSound cmd src first) :=
  h.bind (h.rom8 src) fun _ => .ite (fun _ => h.raise _ _) fun _ =>
    h.each _ fun _ => h.bind (h.rom16 _) fun _ => h.initRecord cmd _ _

theorem zeroRecord {i : Nat} (hu : Q s u) : Q s (u.zeroRecord i) :=
  List.foldlRecOn (List.range 32) _ hu fun _ hb _ _ => h.setRam8 hb

theorem stopChannels (chans : List (Fin 30)) (slots : List Slot) : Leaves Q E (stopChannels chans slots) :=
  h.bind (h.each _ fun _ => .upd fun s => h.zeroRecord (h.refl s)) fun _ => h.each _ h.silence

end InstrWrites

/-! ### The micro-steps that write registers of the sequencer -/

namespace MicroWrites

variable (h : MicroWrites Q E)
include h

theorem commandIntake : Leaves Q E commandIntake := by
  refine h.read fun c => .ite (fun _ => h.pure _) fun _ => h.write (fun s => h.ack s _) fun _ =>
    h.write (fun s => h.cmdPrev s _) fun _ => .ite (fun _ => h.raise _ _) fun _ => h.read fun act => ?_
  cases act with
  | init src first => exact h.initSound c src first
  | stop chans slots => exact h.stopChannels chans slots
  | ignore => exact h.pure _
  | undefined => exact h.raise _ _

theorem cmdStep : Leaves Q E cmdStep :=
  h.bind h.commandIntake fun _ => h.write (fun s => h.chan s _) fun _ => .upd fun s => h.fsm s _

theorem channelDone (i : Nat) : Leaves Q E (channelDone i) :=
  h.write (fun s => h.chanPrev s _) fun _ => .ite
    (fun _ => .upd fun s => h.fsm s _)
    (fun _ => h.write (fun s => h.chan s _) fun _ => .upd fun s => h.fsm s _)

theorem engineChannel (n : EngCh) : Leaves Q E (engineChannel n) :=
  h.write (fun s => h.engCh s _) fun _ => h.read fun _ => h.read fun _ => .ite
    (fun _ => h.engMute n)
    (fun _ => h.read fun _ => .ite (fun _ => h.engRev n _) fun _ => h.engNormal n _ _)

theorem engineStep (n : EngCh) : Leaves Q E (engineStep n) :=
  h.bind (h.engineChannel n) fun _ => .upd fun s => h.fsm s _

theorem trafficChannel (c : TrfCh) : Leaves Q E (trafficChannel c) :=
  h.write (fun s => h.engCh s _) fun _ => h.write (fun s => h.startReduce (h.refl s)) fun _ =>
    h.read fun _ => .ite (fun _ => h.trafficReduce c) fun _ => h.read fun b => h.trafficFollow c b

theorem trafficStep (c : TrfCh) : Leaves Q E (trafficStep c) :=
  h.bind (h.trafficChannel c) fun _ => .upd fun s => h.fsm s _

end MicroWrites

end Sys2Proof.Machine
end

section
/-!
The scope of a step (00_scope.md R11, 20_memory.md R77, R79): what lies outside the block, and that no micro-step of a
transaction writes it.
-/

namespace Sys2Proof.Machine

/-- ROM, the parameters, the inputs and the pending acts of the other agents are the same in both states. -/
structure SameOutside (s t : State) : Prop where
  rom : t.rom = s.rom
  cfg : t.cfg = s.cfg
  mbox : t.mbox = s.mbox
  telem : t.telem = s.telem
  engTel : t.engTel = s.engTel
  rev : t.rev = s.rev
  tpass : t.tpass = s.tpass
  events : t.events = s.events

theorem SameOutside.refl (s : State) : SameOutside s s := ⟨rfl, rfl, rfl, rfl, rfl, rfl, rfl, rfl⟩

theorem SameOutside.trans {s t u : State} (hst : SameOutside s t) (htu : SameOutside t u) : SameOutside s u where
  rom := htu.rom.trans hst.rom
  cfg := htu.cfg.trans hst.cfg
  mbox := htu.mbox.trans hst.mbox
  telem := htu.telem.trans hst.telem
  engTel := htu.engTel.trans hst.engTel
  rev := htu.rev.trans hst.rev
  tpass := htu.tpass.trans hst.tpass
  events := htu.events.trans hst.events

/-- No write of a transaction, and no fault, reaches what lies outside the block. -/
theorem sameOutside_microWrites : MicroWrites SameOutside SameOutside where
  refl := .refl
  trans _ _ _ := .trans
  faultAfter _ _ _ := .trans
  ram s _ _ := { SameOutside.refl s with }
  pcm s _ _ := { SameOutside.refl s with }
  fm s r v := by constructor <;> simp
  cur s _ := { SameOutside.refl s with }
  std s _ := { SameOutside.refl s with }
  fsm s _ := { SameOutside.refl s with }
  fault s _ _ := { SameOutside.refl s with }
  chan s _ := { SameOutside.refl s with }
  chanPrev s _ := { SameOutside.refl s with }
  cmdPrev s _ := { SameOutside.refl s with }
  engCh s _ := { SameOutside.refl s with }
  ack s _ := { SameOutside.refl s with }

variable {s t : State}

/-- During a transaction a step leaves what lies outside the block as it was (20_memory.md R77). -/
theorem step_sameOutside (hi : s.fsm ≠ .idle) (hf : s.fsm ≠ .fault) (hx : step s = .next t) : SameOutside s t := by
  have h := sameOutside_microWrites
  unfold step at hx
  split at hx
  next hs => exact absurd hs hi
  next => cases hx; exact Keeps.after h.cmdStep s
  next => exact or_self_iff.mp (Leaves.onChannel h.channelStart hx)
  next => exact or_self_iff.mp (h.sectionStep hx)
  next p _ => exact or_self_iff.mp (Leaves.onChannel (h.streamStep p) hx)
  next => exact or_self_iff.mp (Leaves.onChannel h.refreshStep hx)
  next => exact or_self_iff.mp (Leaves.onChannel h.channelDone hx)
  next n _ => cases hx; exact Keeps.after (h.engineStep n) s
  next c _ => cases hx; exact Keeps.after (h.trafficStep c) s
  next hs => exact absurd hs hf

theorem tickPulse_rom_cfg : s.tickPulse.rom = s.rom ∧ s.tickPulse.cfg = s.cfg := by
  cases hs : s.fsm <;> simp [State.tickPulse, hs]

theorem chipWrite_rom_cfg (sl : BitVec 4) (w : ChipWrite) :
    (s.chipWrite sl w).rom = s.rom ∧ (s.chipWrite sl w).cfg = s.cfg := by cases w <;> exact ⟨rfl, rfl⟩

/-- No act of another agent writes ROM or a parameter. -/
theorem applyEvent_rom_cfg (e : Event) : (s.applyEvent e).rom = s.rom ∧ (s.applyEvent e).cfg = s.cfg := by
  cases e with
  | tick => exact tickPulse_rom_cfg
  | chip sl w => exact chipWrite_rom_cfg sl w
  | reset | mbox | telem | engTel | rev | tpass | hostRam | hostPcm | fmAnswers => exact ⟨rfl, rfl⟩

/-- Between transactions a step waits or takes one act, so ROM and the parameters stay. -/
theorem betweenTicks_rom_cfg : s.betweenTicks.rom = s.rom ∧ s.betweenTicks.cfg = s.cfg := by
  unfold State.betweenTicks
  split
  · exact ⟨rfl, rfl⟩
  · exact applyEvent_rom_cfg _

/-- In IDLE and FAULT a step is an act of another agent. -/
theorem step_betweenTicks (h : s.fsm = .idle ∨ s.fsm = .fault) : step s = .next s.betweenTicks := by
  unfold step
  rcases h with h | h <;> rw [h]

/-- Settles O34: between transactions by the acts of the other agents, and during one by what its writes can reach. -/
theorem whatNoStepChanges : Obligations.WhatNoStepChanges := by
  intro s t hx
  by_cases hb : s.fsm = .idle ∨ s.fsm = .fault
  · rw [step_betweenTicks hb] at hx
    cases hx
    obtain ⟨hrom, hcfg⟩ := betweenTicks_rom_cfg (s := s)
    exact ⟨hrom, hcfg, fun hi hf => absurd hb (not_or.mpr ⟨hi, hf⟩)⟩
  · obtain ⟨hi, hf⟩ := not_or.mp hb
    have h := step_sameOutside hi hf hx
    exact ⟨h.rom, h.cfg, fun _ _ => ⟨h.mbox, h.telem, h.engTel, h.rev, h.tpass, h.events⟩⟩

end Sys2Proof.Machine
end

section
/-!
The machine's invariant under a raised fault, the acts of the other agents and the writes of the named operations
(10_state.md R41, R47, 60_exceptions.md R250, R251, 40_sequencer.md R138). What a micro-step does before it raises a
fault keeps a stronger predicate, `Running`.
-/

namespace Sys2Proof.Machine

variable {b : Bool} {s : State} {i a : Nat}

/-! ### Raising a fault -/

theorem FaultCode.code_ne_zero (c : FaultCode) : c.code ≠ 0 := by cases c <;> decide

theorem FaultCode.code_le_nine (c : FaultCode) : c.code.toNat ≤ 9 := by cases c <;> decide

/-- A raised fault keeps the invariant: it writes STATE and FCODE together. -/
theorem Inv.raiseFault (h : Inv s) (c : FaultCode) (info : Word) : Inv (s.raiseFault c info) where
  mem := h.mem
  chan := h.chan
  chanPrev := h.chanPrev
  faulted := iff_of_true rfl c.code_ne_zero
  code := c.code_le_nine
  gated := by rintro (h | h) <;> cases h

/-! ### Acts of the other agents -/

/-- A write to Channel RAM inside its space. -/
theorem Inv.setRam8 (h : Inv s) (ha : a < 0x800) (v : Byte) : Inv (s.setRam8 a v) :=
  { h with mem := memWf_setRam8 h.mem ha v }

/-- A write to the PCM file inside its space. -/
theorem Inv.setPcm8 (h : Inv s) (ha : a < 0x100) (v : Byte) : Inv (s.setPcm8 a v) :=
  { h with mem := memWf_setPcm8 h.mem ha v }

/-- Reset establishes the invariant: only the ROM image is not the block's own. -/
theorem inv_resetBlock (h : Memory.wf .rom s.rom = true) : Inv s.resetBlock where
  mem := h
  chan := show State.reset.chan.toNat < 30 by decide
  chanPrev := show State.reset.chanPrev.toNat < 30 by decide
  faulted := show State.reset.fsm = .fault ↔ State.reset.fcode ≠ 0 by decide
  code := show State.reset.fcode.toNat ≤ 9 by decide
  gated := by rintro (h | h) <;> cases h

/-- Settles O31: the state after reset is what a reset makes of itself. -/
theorem invAtReset : Obligations.InvAtReset := inv_resetBlock (s := State.reset) rfl

/-- Leaving IDLE for the command intake turns TOG, and no pass that TOG gates is running. -/
theorem Inv.tickPulse (h : Inv s) : Inv s.tickPulse := by
  unfold State.tickPulse
  split
  next hs =>
    have hcode : ¬ s.fcode ≠ 0 := fun hc => by cases hs.symm.trans (h.faulted.mpr hc)
    exact { h with faulted := iff_of_false (by simp) hcode, gated := by rintro (h | h) <;> cases h }
  all_goals exact h

theorem back_lt {sl : Slot} {off : Nat} (hs : sl.toNat ≤ 15) (ho : off < 8) : back sl off < 0x100 := by
  unfold back
  omega

theorem front_lt {sl : Slot} {off : Nat} (hs : sl.toNat ≤ 15) (ho : off < 8) : front sl off < 0x100 := by
  unfold front
  omega

/-- The slots of the PCM chip are 0 to 15 (10_state.md R30). -/
theorem chipSlot_le (sl : BitVec 4) : (sl.setWidth 8 : Slot).toNat ≤ 15 := by
  rw [BitVec.toNat_setWidth]
  omega

theorem Inv.chipWrite (h : Inv s) (sl : BitVec 4) (w : ChipWrite) : Inv (s.chipWrite sl w) := by
  cases w with
  | loopLo v => exact h.setPcm8 (back_lt (chipSlot_le sl) (by decide)) v
  | loopHi v => exact h.setPcm8 (back_lt (chipSlot_le sl) (by decide)) v
  | inactive x => exact h.setPcm8 (back_lt (chipSlot_le sl) (by decide)) _

theorem Inv.applyEvent (h : Inv s) (e : Event) : Inv (s.applyEvent e) := by
  cases e with
  | tick => exact h.tickPulse
  | reset => exact inv_resetBlock (memWf_rom h.mem)
  | hostRam x v => exact h.setRam8 x.isLt v
  | hostPcm x v => exact h.setPcm8 x.isLt v
  | chip sl w => exact h.chipWrite sl w
  | mbox | telem | engTel | rev | tpass | fmAnswers => exact { h with }

theorem Inv.betweenTicks (h : Inv s) : Inv s.betweenTicks := by
  unfold State.betweenTicks
  split
  next => exact h
  next e rest _ =>
    have hrest : Inv { s with events := rest } := { h with }
    exact hrest.applyEvent e

/-! ### Writes of a transaction -/

/-- The invariant holds, no fault is raised, and TOG is `b`. -/
structure Running (b : Bool) (s : State) : Prop extends Inv s where
  awake : s.fsm ≠ .fault
  tog : s.tog = b

theorem Inv.running (h : Inv s) (hf : s.fsm ≠ .fault) : Running s.tog s := { h with awake := hf, tog := rfl }

namespace Running

theorem setRam8 (h : Running b s) (ha : a < 0x800) (v : Byte) : Running b (s.setRam8 a v) :=
  { h with mem := memWf_setRam8 h.mem ha v }

theorem setPcm8 (h : Running b s) (ha : a < 0x100) (v : Byte) : Running b (s.setPcm8 a v) :=
  { h with mem := memWf_setPcm8 h.mem ha v }

theorem setRam16 (h : Running b s) (ha : a + 1 < 0x800) (v : Word) : Running b (s.setRam16 a v) :=
  { h with mem := memWf_setRam16 h.mem ha v }

theorem setCh (h : Running b s) (hi : i < 30) {f : Nat} (hf : f < 0x20) (v : Byte) :
    Running b (s.setCh i f v) :=
  { h with mem := memWf_setCh h.mem hi (Nat.lt_trans hf (by decide)) v }

theorem setCh16 (h : Running b s) (hi : i < 30) {f : Nat} (hf : f < 0x20) (v : Word) :
    Running b (s.setCh16 i f v) :=
  { h with mem := memWf_setCh16 h.mem hi (Nat.lt_trans hf (by decide)) v }

/-- The engine records end below the rings (10_state.md R34). -/
theorem setEng (h : Running b s) (n : EngCh) {f : Nat} (hf : f < 9) (v : Byte) :
    Running b (s.setEng n f v) := by
  have hn : n.num ≤ 6 := by cases n <;> decide
  exact h.setRam8 (by unfold engRec; omega) v

theorem setEngFlag (h : Running b s) (n : EngCh) (k : Nat) (x : Bool) : Running b (s.setEngFlag n k x) :=
  h.setEng n (by decide) _

/-- The traffic records end below 0x4B0 (10_state.md R37). -/
theorem setTrf (h : Running b s) (c : TrfCh) {f : Nat} (hf : f < 8) (v : Byte) :
    Running b (s.setTrf c f v) := by
  have hc : c.num ≤ 4 := by cases c <;> decide
  exact h.setRam8 (by unfold trfRec; omega) v

theorem setTrfFlag (h : Running b s) (c : TrfCh) (k : Nat) (x : Bool) : Running b (s.setTrfFlag c k x) :=
  h.setTrf c (by decide) _

theorem fmWrite (h : Running b s) (r v : Byte) : Running b (s.fmWrite r v) where
  mem := memWf_fmWrite h.mem r v
  chan := by simpa using h.chan
  chanPrev := by simpa using h.chanPrev
  faulted := by simpa using h.faulted
  code := by simpa using h.code
  gated := by simpa [State.stateReg] using h.gated
  awake := by simpa using h.awake
  tog := by simpa using h.tog

theorem gfmWrite (h : Running b s) (j : Nat) (r v : Byte) : Running b (s.gfmWrite j r v) := by
  cases hs : s.suppressed j with
  | true => rwa [gfmWrite_suppressed hs]
  | false =>
    rw [gfmWrite_heard hs]
    exact h.fmWrite r v

theorem setCur (h : Running b s) (x : Word) : Running b (s.setCur x) := { h with }

theorem flipStdTog (h : Running b s) (c : BitVec 2) : Running b (s.flipStdTog c) := { h with }

theorem setEngCh (h : Running b s) (n : Byte) : Running b (s.setEngCh n) := { h with }

theorem setCmdPrev (h : Running b s) (c : Byte) : Running b (s.setCmdPrev c) := { h with }

theorem setMboxAck (h : Running b s) (x : Bool) : Running b (s.setMboxAck x) := { h with }

theorem setChan (h : Running b s) {c : Byte} (hc : c.toNat < 30) : Running b (s.setChan c) := { h with chan := hc }

theorem setChanPrev (h : Running b s) {c : Byte} (hc : c.toNat < 30) : Running b (s.setChanPrev c) :=
  { h with chanPrev := hc }

/-- STATE moves to anything but FAULT, and to a pass that TOG gates only when TOG is 1. -/
theorem setFsm (h : Running b s) {f : Fsm} (hf : f ≠ .fault)
    (hg : (s.setFsm f).stateReg = .ENGINE ∨ (s.setFsm f).stateReg = .TRAFFIC → b = true) : Running b (s.setFsm f) :=
  { h with
    faulted := iff_of_false hf fun hc => h.awake (h.faulted.mpr hc)
    gated := fun hx => h.tog.trans (hg hx)
    awake := hf }

theorem setChannels (h : Running b s) (ph : ChPhase) : Running b (s.setFsm (.channels ph)) :=
  h.setFsm (by simp) (by rintro (h | h) <;> cases h)

end Running

end Sys2Proof.Machine
end

section
/-!
What the micro-steps of a transaction and the instructions do keeps the invariant: each RAM address lies in Channel
RAM, each PCM address is that of a checked slot, and a raised fault keeps what held before it.
-/

namespace Sys2Proof.Machine

variable {α β : Type} {b : Bool} {s t : State} {i : Nat}

/-- Run in a transaction with TOG `b`, a computation keeps `Running` or raises a fault with the invariant kept. -/
abbrev Safe (b : Bool) (m : Exec α) : Prop :=
  Leaves (fun s t => Running b s → Running b t) (fun s t => Running b s → Inv t) m

/-- From a state of a transaction with TOG `b`, a next state meets the invariant. -/
def Lands (b : Bool) (f : State → Host.Outcome State Fault Refusal) : Prop :=
  ∀ s t, Running b s → f s = .next t → Inv t

namespace Running

theorem setFront (h : Running b s) {sl : Slot} {off : Nat} (hs : sl.toNat ≤ 15) (ho : off < 8) (v : Byte) :
    Running b (s.setPcm8 (front sl off) v) := h.setPcm8 (front_lt hs ho) v

theorem setBack (h : Running b s) {sl : Slot} {off : Nat} (hs : sl.toNat ≤ 15) (ho : off < 8) (v : Byte) :
    Running b (s.setPcm8 (back sl off) v) := h.setPcm8 (back_lt hs ho) v

end Running

namespace Safe

/-- What a safe computation leaves meets the invariant. -/
theorem inv_after {m : Exec α} (h : Safe b m) (hs : Running b s) : Inv (after (m s)) := by
  have hm := h s
  split at hm
  next heq =>
    rw [heq]
    exact (hm hs).toInv
  next heq =>
    rw [heq]
    exact hm hs

/-! ### Sequences -/

theorem pure (a : α) : Safe b (pure a : Exec α) := Leaves.pure (fun _ => id) a

theorem look (f : State → α) : Safe b (look f) := Leaves.look (fun _ => id) f

theorem raise (c : FaultCode) (info : Word) : Safe b (raise c info : Exec α) :=
  Leaves.raise fun _ hs => hs.toInv.raiseFault c info

theorem upd {f : State → State} (hf : ∀ s, Running b s → Running b (f s)) : Safe b (upd f) := Leaves.upd hf

theorem bind {m : Exec α} {g : α → Exec β} (hm : Safe b m) (hg : ∀ a, Safe b (g a)) : Safe b (m >>= g) :=
  Leaves.bind (fun _ _ _ hst htu hs => htu (hst hs)) (fun _ _ _ hst htu hs => htu (hst hs)) hm hg

/-- What is read of the state decides how the computation goes on. -/
theorem read {f : State → α} {g : α → Exec β} (hg : ∀ a, Safe b (g a)) : Safe b (Machine.look f >>= g) :=
  bind (look f) hg

/-- A write of the state and what follows it. -/
theorem write {f : State → State} {g : Unit → Exec β} (hf : ∀ s, Running b s → Running b (f s))
    (hg : ∀ a, Safe b (g a)) : Safe b (Machine.upd f >>= g) := bind (upd hf) hg

theorem onlyIf {x : Bool} {m : Exec Unit} (hm : Safe b m) : Safe b (onlyIf x m) := Leaves.onlyIf (fun _ => id) hm

theorem ite {p : Prop} [Decidable p] {m n : Exec α} (hm : p → Safe b m) (hn : ¬ p → Safe b n) :
    Safe b (if p then m else n) := Leaves.ite hm hn

theorem each (l : List α) {f : α → Exec Unit} (hf : ∀ x, x ∈ l → Safe b (f x)) : Safe b (each l f) :=
  Leaves.each (fun _ => id) (fun _ _ _ hst htu hs => htu (hst hs)) (fun _ _ _ hst htu hs => htu (hst hs)) l hf

theorem onChannel {m : Nat → Exec Unit} (hm : ∀ i, i < 30 → Safe b (m i)) : Lands b (onChannel m) := by
  intro s t hs hx
  obtain ⟨hi, rfl⟩ := onChannel_next hx
  exact inv_after (hm _ hi) hs

/-! ### ROM, slots and the cursor -/

theorem rom8 (a : Word) : Safe b (rom8 a) :=
  Leaves.rom8 (fun _ => id) (fun _ i hs => hs.toInv.raiseFault .romRange i) a

theorem rom16 (a : Word) : Safe b (rom16 a) := bind (rom8 a) fun _ => bind (rom8 _) fun _ => look _

theorem checkSlot (sl : Slot) : Safe b (checkSlot sl) :=
  Leaves.checkSlot (fun _ => id) (fun _ i hs => hs.toInv.raiseFault .param i) sl

/-- After the check of a slot number, the number is at most 15. -/
theorem checked {sl : Slot} {g : Unit → Exec β} (hg : sl.toNat ≤ 15 → Safe b (g ())) :
    Safe b (Machine.checkSlot sl >>= g) := by
  by_cases h : sl.toNat ≤ 15
  · exact bind (checkSlot sl) fun _ => hg h
  · intro s
    have hc : Machine.checkSlot sl s = .error () (s.raiseFault .param (zext16 sl)) := by rw [checkSlot_run, if_neg h]
    rw [bind_of_error hc]
    exact fun hs => hs.toInv.raiseFault _ _

theorem putFront (sl : Slot) {off : Nat} {v : Byte} (ho : off < 8) : Safe b (putFront sl off v) :=
  checked fun hsl => upd fun _ hs => hs.setFront hsl ho v

theorem putBack (sl : Slot) {off : Nat} {v : Byte} (ho : off < 8) : Safe b (putBack sl off v) :=
  checked fun hsl => upd fun _ hs => hs.setBack hsl ho v

theorem silence (sl : Slot) : Safe b (silence sl) := checked fun hsl => upd fun _ hs => hs.setBack hsl (by decide) _

theorem endChannelStep : Safe b endChannelStep := upd fun _ hs => hs.setChannels _

theorem next8 : Safe b next8 := by
  intro s
  by_cases hr : (s.cur + 1).toNat < s.cfg.romSize
  · rw [next8_ok hr]
    exact fun hs => hs.setCur _
  · rw [next8_fault hr]
    exact fun hs => (hs.setCur _).toInv.raiseFault _ _

theorem next16 : Safe b next16 := bind next8 fun _ => next8

theorem advance : Safe b advance := upd fun _ hs => hs.setCur _

theorem jumpAdvance (a : Word) : Safe b (jump a >>= fun _ => Machine.advance) :=
  write (fun _ hs => hs.setCur _) fun _ => advance

/-! ### Fields of a record -/

theorem setCh {f : Nat} {v : State → Byte} (hi : i < 30) (hf : f < 0x20) :
    Safe b (Machine.upd fun s => s.setCh i f (v s)) := upd fun _ hs => hs.setCh hi hf _

theorem setEng {f : Nat} {v : State → Byte} (n : EngCh) (hf : f < 9) :
    Safe b (Machine.upd fun s => s.setEng n f (v s)) := upd fun _ hs => hs.setEng n hf _

theorem setTrf {f : Nat} {v : State → Byte} (c : TrfCh) (hf : f < 8) :
    Safe b (Machine.upd fun s => s.setTrf c f (v s)) := upd fun _ hs => hs.setTrf c hf _

/-! ### The instructions that set fields -/

theorem execVol (l r : Byte) : Lands b (execVol l r) :=
  onChannel fun _ hi => read fun _ => ite
    (fun _ => bind next8 fun _ => bind next8 fun _ => bind (setCh hi (by decide)) fun _ =>
      bind (setCh hi (by decide)) fun _ => advance)
    (fun _ => bind next8 fun _ => bind (setCh hi (by decide)) fun _ => advance)

theorem execModsel (sel : Byte) : Lands b (execModsel sel) :=
  onChannel fun _ hi => bind next8 fun _ => bind (setCh hi (by decide)) fun _ => advance

theorem execTransp (v : Byte) : Lands b (execTransp v) :=
  onChannel fun _ hi => bind next8 fun _ => bind (setCh hi (by decide)) fun _ => advance

theorem execPitch (p : Byte) : Lands b (execPitch p) :=
  onChannel fun _ hi => bind next8 fun _ => read fun _ =>
    bind (onlyIf (setCh hi (by decide))) fun _ => advance

theorem setEmFlag (k : Nat) (hi : i < 30) : Safe b (setEmFlag i k) :=
  bind (setCh hi (by decide)) fun _ => write (fun _ hs => hs.setCur _) fun _ => upd fun _ hs => hs.setCur _

theorem execLitend : Lands b execLitend := onChannel fun _ hi => bind (setEmFlag _ hi) fun _ => advance

theorem execHiend : Lands b execHiend := onChannel fun _ hi => bind (setEmFlag _ hi) fun _ => advance

/-! ### The finalize instructions -/

theorem finalize (hi : i < 30) : Safe b (finalize i) :=
  write (fun _ hs => hs.fmWrite _ _) fun _ => bind (setCh hi (by decide)) fun _ => endChannelStep

theorem execFinfm : Lands b execFinfm := onChannel fun _ hi => finalize hi

end Safe

/-- A block that fits both spaces is copied inside them (41_commands.md R158). -/
theorem Running.copyBytes (hs : Running b s) {c : FinalCopy} (hra : c.ra.toNat + 7 < 0x800)
    (hpa : c.pa.toNat + 7 < 0x100) : Running b (s.copyBytes c) :=
  List.foldlRecOn (List.range 8) _ hs fun u hu j hj => by
    have hj : j < 8 := List.mem_range.mp hj
    show Running b (u.copyByte c j)
    unfold State.copyByte
    split
    · exact hu.setPcm8 (by omega) _
    · exact hu.setRam8 (by omega) _

namespace Safe

theorem copyBlock (c : FinalCopy) : Safe b (copyBlock c) :=
  ite (fun _ => raise _ _) fun hra => ite (fun _ => raise _ _) fun hpa =>
    upd fun _ hs => hs.copyBytes (Nat.lt_of_not_le hra) (Nat.lt_of_not_le hpa)

theorem execFinpcm : Lands b execFinpcm :=
  onChannel fun _ hi => read fun _ => bind (each _ fun c _ => copyBlock c) fun _ => finalize hi

/-! ### Control flow -/

/-- MOFF is a byte, so the return stack lies in Channel RAM whatever it holds (41_commands.md R144). -/
theorem execCall (a : Word) : Lands b (execCall a) :=
  onChannel fun i hi => bind next16 fun _ => bind (setCh hi (by decide)) fun _ =>
    write (fun s hs => hs.setRam16 (by have := (s.ch i Fld.moff).isLt; unfold State.stackAt recBase; omega) _) fun _ =>
    jumpAdvance a

theorem execRet : Lands b execRet :=
  onChannel fun _ hi => write (fun _ hs => hs.setCur _) fun _ => bind (setCh hi (by decide)) fun _ => advance

theorem execJp (a : Word) : Lands b (execJp a) := onChannel fun _ _ => bind next16 fun _ => jumpAdvance a

/-- The counter index is a byte, so the counter lies in Channel RAM (41_commands.md R148). -/
theorem execLoop (k n : Byte) (a : Word) : Lands b (execLoop k n a) :=
  onChannel fun _ hi => bind next8 fun _ => bind next8 fun _ => read fun _ =>
    write (fun _ hs => hs.setRam8 (by have := k.isLt; unfold loopCounter recBase Fld.loopcnt; omega) _) fun _ => ite
      (fun _ => write (fun _ hs => hs.setCur _) fun _ => advance)
      (fun _ => bind next16 fun _ => jumpAdvance a)

/-! ### Writes of FM registers -/

theorem fmStream (i fuel : Nat) (p : Word) : Safe b (fmStream i fuel p) := by
  induction fuel generalizing p with
  | zero => exact pure _
  | succ fuel ih =>
    exact bind (rom8 p) fun _ => ite (fun _ => pure _) fun _ =>
      bind (rom8 _) fun _ => write (fun _ hs => hs.gfmWrite _ _ _) fun _ => ih _

theorem fmStreamLap (i : Nat) (p : Word) : Safe b (fmStreamLap i p) :=
  bind (fmStream i _ p) fun
    | none => advance
    | some _ => upd fun _ hs => hs.setChannels _

theorem execFmblk (blk : Byte) : Lands b (execFmblk blk) :=
  onChannel fun i hi => bind next8 fun _ => bind (setCh hi (by decide)) fun _ => read fun p => fmStreamLap i p

theorem pan (i : Nat) (bits : Byte) : Safe b (pan i bits) := upd fun _ hs => hs.gfmWrite _ _ _

theorem execPanr : Lands b execPanr := onChannel fun _ _ => bind (pan _ _) fun _ => advance

theorem execPanl : Lands b execPanl := onChannel fun _ _ => bind (pan _ _) fun _ => advance

theorem execPanc : Lands b execPanc := onChannel fun _ _ => bind (pan _ _) fun _ => advance

/-! ### Notes -/

theorem noteByte (n : BitVec 7) (hi : i < 30) : Safe b (noteByte i n) := by
  refine ite (fun _ => upd fun s hs => ?_) fun _ => read fun _ => ite (fun _ => pure _) fun _ =>
    read fun a => bind (rom8 a) fun _ => setCh hi (by decide)
  split
  · exact hs.setCh hi (by decide) _
  · exact hs

end Safe

theorem Running.endSection (hs : Running b s) (hi : i < 30) (m : Word) : Running b (s.endSection i m) :=
  ((hs.setCh16 hi (by decide) _).setCh16 hi (by decide) _).setCh16 hi (by decide) _

namespace Safe

theorem endMarker (d1 d2 : Byte) (hi : i < 30) : Safe b (endMarker i d1 d2) :=
  bind next8 fun _ => read fun _ => ite
    (fun _ => bind next8 fun _ => write (fun _ hs => (hs.setCh hi (by decide) _).setCh hi (by decide) _) fun _ =>
      upd fun _ hs => hs.endSection hi _)
    (fun _ => read fun _ => ite
      (fun _ => bind (setCh hi (by decide)) fun _ => upd fun _ hs => hs.endSection hi _)
      (fun _ => upd fun _ hs => hs.endSection hi _))

theorem execNote (n : BitVec 7) (d1 d2 : Byte) : Lands b (execNote n d1 d2) :=
  onChannel fun _ hi => bind (noteByte n hi) fun _ => bind (endMarker d1 d2 hi) fun _ =>
    upd fun _ hs => hs.setChannels _

/-! ### PCM channels and undefined codes -/

theorem scanList (i : Nat) (p : DrumTest) (l : List Slot) : Safe b (scanList i p l) := by
  induction l with
  | nil => exact pure _
  | cons sl rest ih =>
    exact bind (onlyIf (checkSlot sl)) fun _ => read fun _ => ite (fun _ => pure _) fun _ => ih

theorem drumScan (i : Nat) : Safe b (drumScan i) :=
  read fun _ => bind (scanList i _ _) fun
    | some _ => pure _
    | none => bind (scanList i _ _) fun
      | some _ => pure _
      | none => bind (scanList i _ _) fun
        | some _ => pure _
        | none => pure _

theorem stdPick (i : Nat) : Safe b (stdPick i) :=
  read fun _ => read fun _ => write (fun _ hs => hs.flipStdTog _) fun _ => pure _

end Safe

theorem Running.pcmSend (hs : Running b s) (i : Nat) {sl : Slot} (h : sl.toNat ≤ 15) :
    Running b (s.pcmSend i sl) := by
  unfold State.pcmSend
  iterate 3 refine Running.setBack ?_ h (by decide) _
  iterate 6 refine Running.setFront ?_ h (by decide) _
  exact hs

theorem Running.loadPerc (hs : Running b s) (hi : i < 30) (e : PercEntry) : Running b (s.loadPerc i e) := by
  unfold State.loadPerc
  iterate 5 refine Running.setCh ?_ hi (by decide) _
  exact hs

namespace Safe

theorem pcmAssign (i : Nat) : Safe b (pcmAssign i) := by
  have hsend (sl : Slot) : Safe b (do Machine.checkSlot sl; Machine.upd fun s => s.pcmSend i sl) :=
    checked fun hsl => upd fun _ hs => hs.pcmSend i hsl
  exact read fun _ => ite (fun _ => bind (drumScan i) hsend) fun _ => bind (stdPick i) hsend

theorem execSample (k : BitVec 6) : Lands b (execSample k) :=
  onChannel fun i hi => read fun _ =>
    bind (rom8 _) fun _ => bind (setCh hi (by decide)) fun _ =>
    bind (rom8 _) fun _ => bind (setCh hi (by decide)) fun _ =>
    bind (rom8 _) fun _ => bind (setCh hi (by decide)) fun _ =>
    bind (rom8 _) fun _ => bind (setCh hi (by decide)) fun _ =>
    bind (pcmAssign i) fun _ => advance

theorem execPerc (k : BitVec 4) : Lands b (execPerc k) :=
  onChannel fun i hi => write (fun _ hs => hs.loadPerc hi _) fun _ => bind (pcmAssign i) fun _ => advance

theorem execPcmIndexFault (x : Byte) : Lands b (execPcmIndexFault x) := onChannel fun _ _ => raise _ _

theorem execUndef (code : BitVec 6) : Lands b (execUndef code) :=
  onChannel fun _ _ _ hs => hs.toInv.raiseFault _ _

/-- Every instruction keeps the invariant. -/
theorem exec (x : Instr) : Lands b (exec x) := by
  cases x with
  | note n d1 d2 => exact execNote n d1 d2
  | vol l r => exact execVol l r
  | finfm => exact execFinfm
  | modsel sel => exact execModsel sel
  | call a => exact execCall a
  | ret => exact execRet
  | jp a => exact execJp a
  | transp v => exact execTransp v
  | loop k n a => exact execLoop k n a
  | fmblk blk => exact execFmblk blk
  | pitch p => exact execPitch p
  | litend => exact execLitend
  | hiend => exact execHiend
  | panr => exact execPanr
  | panl => exact execPanl
  | panc => exact execPanc
  | finpcm => exact execFinpcm
  | perc k => exact execPerc k
  | sample k => exact execSample k
  | pcmIndexFault x => exact execPcmIndexFault x
  | undef code => exact execUndef code

/-- A fetch in the Process Section raises ROM_RANGE or runs the instruction. -/
theorem sectionStep : Lands b (State.sectionStep Machine.exec) := by
  intro s t hs hx
  unfold State.sectionStep at hx
  split at hx
  · split at hx
    · exact exec _ s t hs hx
    · cases hx
      exact hs.toInv.raiseFault _ _
  · cases hx

end Safe

/-! ### The refresh of a channel -/

theorem Running.modByte (hs : Running b s) (hi : i < 30) (v : Byte) : Running b (s.modByte i v) := by
  unfold State.modByte
  split
  · exact hs.setCh hi (by decide) _
  · split
    · exact hs.setCh hi (by decide) _
    · exact hs.setCh hi (by decide) _

theorem Running.keyWrites (hs : Running b s) (i : Nat) : Running b (s.keyWrites i) := by
  unfold State.keyWrites
  split
  · exact hs.gfmWrite _ _ _
  · exact ((hs.gfmWrite _ _ _).gfmWrite _ _ _).gfmWrite _ _ _

namespace Safe

theorem modStep (hi : i < 30) : Safe b (modStep i) :=
  bind (setCh hi (by decide)) fun _ => read fun a => bind (rom8 a) fun _ => ite
    (fun _ => raise _ _) fun _ => upd fun _ hs => hs.modByte hi _

theorem fmRefresh (hi : i < 30) : Safe b (fmRefresh i) :=
  read fun _ => bind (onlyIf (modStep hi)) fun _ => upd fun _ hs => hs.keyWrites i

theorem refreshStep (hi : i < 30) : Safe b (refreshStep i) :=
  read fun _ => ite (fun _ => endChannelStep) fun _ => bind (fmRefresh hi) fun _ => endChannelStep

theorem channelStart (hi : i < 30) : Safe b (channelStart i) :=
  read fun _ => ite
    (fun _ => write (fun _ hs => hs.setCh16 hi (by decide) _) fun _ => read fun _ => ite
      (fun _ => write (fun _ hs => hs.setCur _) fun _ => upd fun _ hs => hs.setChannels _)
      (fun _ => upd fun _ hs => hs.setChannels _))
    (fun _ => endChannelStep)

theorem streamStep (p : Word) (i : Nat) : Safe b (streamStep p i) :=
  write (fun _ hs => hs.setChannels _) fun _ => fmStreamLap i p

/-! ### The engine pass -/

theorem engMute (n : EngCh) : Safe b (engMute n) :=
  write (fun _ hs => hs.setEngFlag n _ _) fun _ => bind (setEng n (by decide)) fun _ => read silence

theorem putStart (sl : Slot) (start : Word) : Safe b (putStart sl start) :=
  bind (putFront sl (by decide)) fun _ => bind (putFront sl (by decide)) fun _ =>
    bind (putBack sl (by decide)) fun _ => putBack sl (by decide)

theorem putVolumes (sl : Slot) (l r : Byte) : Safe b (putVolumes sl l r) :=
  bind (putFront sl (by decide)) fun _ => putFront sl (by decide)

theorem revStart (n : EngCh) (sl : Slot) : Safe b (revStart n sl) :=
  read fun _ => bind (putStart sl _) fun _ => read fun _ => bind (putFront sl (by decide)) fun _ =>
    read fun _ => bind (putFront sl (by decide)) fun _ => bind (putBack sl (by decide)) fun _ =>
    upd fun _ hs => hs.setEngFlag n _ _

theorem engRev (n : EngCh) (v : Byte) : Safe b (engRev n v) := by
  refine read fun sl => read fun _ => bind (onlyIf (revStart n sl)) fun _ => read fun pan => ?_
  have hend : Safe b (do
      Machine.upd (·.setEngFlag n EFlags.mute false)
      Machine.upd (·.setEngFlag n EFlags.addrset false)
      Machine.upd (·.setEng n EFld.active 1)) :=
    write (fun _ hs => hs.setEngFlag n _ _) fun _ => write (fun _ hs => hs.setEngFlag n _ _) fun _ =>
      setEng n (by decide)
  cases pan with
  | left => exact bind (putVolumes sl _ _) fun _ => hend
  | right => exact bind (putVolumes sl _ _) fun _ => hend
  | both => exact bind (putVolumes sl _ _) fun _ => hend

end Safe

/-- The three bytes of a ring slot lie in Channel RAM (10_state.md R36). -/
theorem Running.ringPush (hs : Running b s) (n : EngCh) (p : BitVec 9) (v : Byte) : Running b (s.ringPush n p v) := by
  have hring : s.ringAt n + 2 < 0x800 := by
    have hn : n.num ≤ 6 := by cases n <;> decide
    have hpos := (s.eng n EFld.ringPos &&& 7).isLt
    unfold State.ringAt ringBase
    omega
  exact hs.setRam8 (by omega) _ |>.setRam8 (by omega) _ |>.setRam8 hring _ |>.setEng n (by decide) _

theorem Running.compareRevs (hs : Running b s) (n : EngCh) (p : BitVec 9) : Running b (s.compareRevs n p) := by
  unfold State.compareRevs
  refine Running.setEng (Running.setEng ?_ n (by decide) _) n (by decide) _
  split
  · exact hs.setEngFlag n _ _
  · exact (hs.setEngFlag n _ _).setEngFlag n _ _

namespace Safe

theorem ringStep (n : EngCh) (p : BitVec 9) (v : Byte) : Safe b (ringStep n p v) :=
  read fun _ => write (fun _ hs => hs.ringPush n p v) fun _ => pure _

theorem engSetAddr (n : EngCh) (start : Word) (endHi : Byte) : Safe b (engSetAddr n start endHi) :=
  read fun sl => read fun _ => bind
    (onlyIf (bind (putStart sl start) fun _ => bind (putFront sl (by decide)) fun _ => read fun _ =>
      bind (putBack sl (by decide)) fun _ => write (fun _ hs => hs.setEngFlag n _ _) fun _ =>
      upd fun _ hs => hs.setEngFlag n _ _))
    fun _ => write (fun _ hs => hs.setEngFlag n _ _) fun _ => setEng n (by decide)

theorem engEntry (a : Word) : Safe b (engEntry a) :=
  bind (rom8 _) fun _ => bind (rom8 _) fun _ => bind (rom8 _) fun _ => pure _

theorem engVolume (n : EngCh) (v : Byte) : Safe b (engVolume n v) :=
  bind (setEng n (by decide)) fun _ => read fun sl => ite
    (fun _ => putVolumes sl _ _) fun _ => putVolumes sl _ _

theorem engFerrari (n : EngCh) (p : BitVec 9) (v : Byte) : Safe b (engFerrari n p v) :=
  read fun _ => ite (fun _ => raise _ _) fun _ => bind (engEntry _) fun (_, _) =>
    bind (engSetAddr n _ _) fun _ => bind (engVolume n _) fun _ => bind (rom8 _) fun _ => putFront _ (by decide)

theorem engTable (n : EngCh) (p : BitVec 9) (v : Byte) : Safe b (engTable n p v) :=
  read fun _ => ite (fun _ => raise _ _) fun _ => bind (engEntry _) fun (_, _) =>
    bind (engSetAddr n _ _) fun _ => bind (rom8 _) fun _ => bind (engVolume n _) fun _ =>
    bind (rom8 _) fun _ => putFront _ (by decide)

theorem engVoice (n : EngCh) (p : BitVec 9) (v : Byte) : Safe b (engVoice n p v) :=
  bind (setEng n (by decide)) fun _ => bind (setEng n (by decide)) fun _ => ite
    (fun _ => engMute n)
    (fun _ => write (fun _ hs => hs.compareRevs n p) fun _ => read fun _ => ite
      (fun _ => engFerrari n p v) fun _ => engTable n p v)

theorem engNormal (n : EngCh) (p : BitVec 9) (v : Byte) : Safe b (engNormal n p v) :=
  ite (fun _ => bind (ringStep n p v) fun (p', v') => engVoice n p' v') fun _ => engVoice n p v

theorem engineChannel (n : EngCh) : Safe b (engineChannel n) :=
  write (fun _ hs => hs.setEngCh _) fun _ => read fun _ => read fun _ => ite
    (fun _ => engMute n)
    (fun _ => read fun _ => ite (fun _ => engRev n _) fun _ => engNormal n _ _)

end Safe

/-! ### The traffic pass -/

theorem Running.zeroTrf (hs : Running b s) (c : TrfCh) : Running b (s.zeroTrf c) :=
  List.foldlRecOn (List.range 8) _ hs fun _ hu _ hk => hu.setTrf c (List.mem_range.mp hk) 0

theorem Running.reduceTrf (hs : Running b s) (c : TrfCh) : Running b (s.reduceTrf c) :=
  ((hs.setTrf c (by decide) _).setTrf c (by decide) _).setTrf c (by decide) _

theorem Running.startReduce (hs : Running b s) (c : TrfCh) : Running b (s.startReduce c) := by
  unfold State.startReduce
  split
  · exact hs.setTrfFlag c _ _
  · exact hs

theorem Running.noteIndices (hs : Running b s) (c : TrfCh) (vidx pidx : Byte) :
    Running b (s.noteIndices c vidx pidx) :=
  (((hs.setTrfFlag c _ _).setTrfFlag c _ _).setTrf c (by decide) _).setTrf c (by decide) _

namespace Safe

theorem trafficDisable (c : TrfCh) : Safe b (trafficDisable c) :=
  write (fun _ hs => hs.zeroTrf c) fun _ => read fun sl => bind
    (each _ fun _ hk => bind (putFront sl (List.mem_range.mp hk)) fun _ => putBack sl (List.mem_range.mp hk))
    fun _ => putBack sl (by decide)

theorem trafficSend (c : TrfCh) (sl : Slot) : Safe b (trafficSend c sl) :=
  read fun _ => bind (putFront sl (by decide)) fun _ => read fun _ => bind (putFront sl (by decide)) fun _ =>
    read fun _ => putFront sl (by decide)

theorem trafficCompute (c : TrfCh) (vidx pidx : Byte) : Safe b (trafficCompute c vidx pidx) :=
  read fun _ => bind (rom8 _) fun _ => ite (fun _ => trafficDisable c) fun _ =>
    bind (setTrf c (by decide)) fun _ =>
    bind (rom8 _) fun _ => bind (setTrf c (by decide)) fun _ =>
    bind (rom8 _) fun _ => bind (setTrf c (by decide)) fun _ =>
    bind (rom8 _) fun _ => bind (setTrf c (by decide)) fun _ =>
    read fun sl => bind (putStart sl _) fun _ => bind (putFront sl (by decide)) fun _ =>
    read fun _ => bind (onlyIf (putBack sl (by decide))) fun _ =>
    write (fun _ hs => hs.setTrfFlag c _ _) fun _ => trafficSend c sl

theorem trafficReduce (c : TrfCh) : Safe b (trafficReduce c) :=
  write (fun _ hs => hs.reduceTrf c) fun _ => read fun _ => ite
    (fun _ => trafficDisable c) fun _ => read fun sl => trafficSend c sl

theorem trafficFollow (c : TrfCh) (x : Byte) : Safe b (trafficFollow c x) :=
  ite (fun _ => trafficDisable c) fun _ => write (fun _ hs => hs.noteIndices c _ _) fun _ =>
    read fun _ => ite (fun _ => pure _) fun _ => trafficCompute c _ _

theorem trafficChannel (c : TrfCh) : Safe b (trafficChannel c) :=
  write (fun _ hs => hs.setEngCh _) fun _ => write (fun _ hs => hs.startReduce c) fun _ =>
    read fun _ => ite (fun _ => trafficReduce c) fun _ => read fun x => trafficFollow c x

end Safe

/-! ### Command intake -/

theorem Running.zeroRecord (hs : Running b s) (hi : i < 30) : Running b (s.zeroRecord i) :=
  List.foldlRecOn (List.range 32) _ hs fun _ hu _ hk => hu.setCh hi (List.mem_range.mp hk) 0

namespace Safe

theorem initRecord (cmd : Byte) (a : Word) (hi : i < 30) : Safe b (initRecord cmd (recBase i) a) := by
  refine bind (each _ fun j hj => bind (rom8 _) fun _ => setCh hi ?_) fun _ =>
    bind (setCh hi (by decide)) fun _ => each _ fun j hj => upd fun _ hs => hs.setRam8 ?_ _
  · exact Nat.lt_trans (List.mem_range.mp hj) (by decide)
  · have := List.mem_range.mp hj
    unfold recBase
    omega

/-- The count is checked before a record is written, so each record is one of the 30 (40_sequencer.md R114). -/
theorem initSound (cmd : Byte) (src : Word) (first : Byte) : Safe b (initSound cmd src first) :=
  bind (rom8 src) fun n => ite (fun _ => raise _ _) fun hn => each _ fun k hk => bind (rom16 _) fun a =>
    have hk : k < n.toNat := List.mem_range.mp hk
    initRecord cmd a (by omega)

theorem stopChannels (chans : List (Fin 30)) (slots : List Slot) : Safe b (stopChannels chans slots) :=
  bind (each _ fun j _ => upd fun _ hs => hs.zeroRecord j.isLt) fun _ => each _ fun sl _ => silence sl

theorem commandIntake : Safe b commandIntake := by
  refine read fun c => ite (fun _ => pure _) fun _ => write (fun _ hs => hs.setMboxAck _) fun _ =>
    write (fun _ hs => hs.setCmdPrev _) fun _ => ite (fun _ => raise _ _) fun _ => read fun act => ?_
  cases act with
  | init src first => exact initSound c src first
  | stop chans slots => exact stopChannels chans slots
  | ignore => exact pure _
  | undefined => exact raise _ _

/-! ### From one micro-step to the next -/

theorem cmdStep : Safe b cmdStep :=
  bind commandIntake fun _ => write (fun _ hs => hs.setChan (by decide)) fun _ => upd fun _ hs => hs.setChannels _

end Safe

/-- After record 29 the engine pass follows exactly when TOG is 1 (40_sequencer.md R110, R138). -/
theorem Running.setAfterChannels (hs : Running b s) : Running b (s.setFsm s.afterChannels) := by
  unfold State.afterChannels
  rw [hs.tog]
  cases b
  · exact hs.setFsm (by decide) (by rintro (h | h) <;> cases h)
  · exact hs.setFsm (by simp) fun _ => rfl

end Sys2Proof.Machine
end

section
/-!
Every step keeps the machine's invariant: between transactions by the acts of the other agents, and in one by its
micro-steps. Only the end of a channel's step needs more than `Safe`: the record it moves on to is the one after CHAN.
-/

namespace Sys2Proof.Machine

variable {b : Bool} {s t : State}

namespace Safe

/-- The pass moves on only from a record below 29, so CHAN names a record again (40_sequencer.md R116). -/
theorem channelDone : Lands b (Machine.onChannel channelDone) := by
  intro s t hs hx
  obtain ⟨hchan, rfl⟩ := onChannel_next hx
  have hprev : Running b (s.setChanPrev s.chan) := hs.setChanPrev hchan
  unfold Machine.channelDone
  rw [bind_upd]
  split
  next => exact hprev.setAfterChannels.toInv
  next h29 =>
    have hnext : (s.chan + 1).toNat < 30 := by
      rw [BitVec.toNat_add, show (1 : Byte).toNat = 1 from rfl]
      omega
    exact ((hprev.setChan hnext).setChannels .start).toInv

/-- The engine and traffic passes go on to each other and to IDLE with TOG = 1 (40_sequencer.md R138, R139). -/
theorem engineStep (n : EngCh) : Safe true (engineStep n) :=
  bind (engineChannel n) fun _ => upd fun _ hs => hs.setFsm (by cases n <;> decide) fun _ => rfl

theorem trafficStep (c : TrfCh) : Safe true (trafficStep c) :=
  bind (trafficChannel c) fun _ => upd fun _ hs => hs.setFsm (by cases c <;> decide) fun _ => rfl

end Safe

/-- In a pass that TOG gates, TOG is 1. -/
theorem Running.gatedOn (hs : Running b s) (hg : s.stateReg = .ENGINE ∨ s.stateReg = .TRAFFIC) : Running true s :=
  { hs with tog := hs.gated hg }

/-- A micro-step of a transaction. -/
theorem Running.step (hs : Running b s) (hi : s.fsm ≠ .idle) (hx : step s = .next t) : Inv t := by
  unfold Machine.step at hx
  split at hx
  next h => exact absurd h hi
  next => cases hx; exact Safe.cmdStep.inv_after hs
  next => exact Safe.onChannel (fun _ => Safe.channelStart) s t hs hx
  next => exact Safe.sectionStep s t hs hx
  next p _ => exact Safe.onChannel (fun i _ => Safe.streamStep p i) s t hs hx
  next => exact Safe.onChannel (fun _ => Safe.refreshStep) s t hs hx
  next => exact Safe.channelDone s t hs hx
  next n h => cases hx; exact (Safe.engineStep n).inv_after (hs.gatedOn (.inl (by rw [State.stateReg, h])))
  next c h => cases hx; exact (Safe.trafficStep c).inv_after (hs.gatedOn (.inr (by rw [State.stateReg, h])))
  next h => exact absurd h hs.awake

/-- Settles O32: in IDLE and FAULT by the acts of the other agents, else by the micro-steps of the transaction. -/
theorem stepKeepsInv : Obligations.StepKeepsInv := by
  intro s t h hx
  by_cases hb : s.fsm = .idle ∨ s.fsm = .fault
  · rw [step_betweenTicks hb] at hx
    cases hx
    exact h.betweenTicks
  · obtain ⟨hi, hf⟩ := not_or.mp hb
    exact (h.running hf).step hi hx

end Sys2Proof.Machine
end

section
/-!
The acts of the PCM chip, the host and the FM chip between transactions (10_state.md R33, 20_memory.md R72 to R76): a
step in IDLE or FAULT takes the next act, and an act that writes a byte writes that byte only.
-/

namespace Sys2Proof.Machine

variable {s : State} {e : Event} {rest : List Event}

/-- Between transactions the next act is taken off the list and applied. -/
theorem step_event (hb : s.fsm = .idle ∨ s.fsm = .fault) (he : s.events = e :: rest) :
    step s = .next ({ s with events := rest }.applyEvent e) := by
  rw [step_betweenTicks hb, State.betweenTicks, he]

theorem ramKept_setRam8 (a : Nat) (v : Byte) : RamKept s (s.setRam8 a v) [a] := fun x hx => by
  rw [ram8_setRam8, if_neg (List.ne_of_not_mem_cons hx)]

theorem pcmKept_setPcm8 (a : Nat) (v : Byte) : PcmKept s (s.setPcm8 a v) [a] := fun x hx => by
  rw [pcm8_setPcm8, if_neg (List.ne_of_not_mem_cons hx)]

theorem ram8_setRam8_self (a : Nat) (v : Byte) : (s.setRam8 a v).ram8 a = v := by rw [ram8_setRam8, if_pos rfl]

theorem pcm8_setPcm8_self (a : Nat) (v : Byte) : (s.setPcm8 a v).pcm8 a = v := by rw [pcm8_setPcm8, if_pos rfl]

/-! ### The three write-backs, by the address of their byte (10_state.md R30, R33) -/

theorem back_chipSlot (sl : BitVec 4) (off : Nat) : back (sl.setWidth 8) off = 0x80 + 8 * sl.toNat + off := by
  rw [back, BitVec.toNat_setWidth_of_le (by decide)]

theorem chipWrite_loopLo (sl : BitVec 4) (v : Byte) :
    s.chipWrite sl (.loopLo v) = s.setPcm8 (0x80 + 8 * sl.toNat + 4) v := by
  rw [← back_chipSlot]
  rfl

theorem chipWrite_loopHi (sl : BitVec 4) (v : Byte) :
    s.chipWrite sl (.loopHi v) = s.setPcm8 (0x80 + 8 * sl.toNat + 5) v := by
  rw [← back_chipSlot]
  rfl

theorem chipWrite_inactive (sl : BitVec 4) (x : Bool) :
    s.chipWrite sl (.inactive x) =
      s.setPcm8 (0x80 + 8 * sl.toNat + 6) (setBit (s.pcm8 (0x80 + 8 * sl.toNat + 6)) 0 x) := by
  rw [← back_chipSlot]
  rfl

/-- Bit 0 written, the other seven stay. -/
theorem setBit_zero (v : Byte) (x : Bool) : bit (setBit v 0 x) 0 = x ∧ setBit v 0 x &&& 0xFE = v &&& 0xFE := by
  revert v x
  decide

/-- Settles O39: the next act is taken, and each act writes its own input or its own byte. -/
theorem agentActsChangeOnlyTheirOwn : Obligations.AgentActsChangeOnlyTheirOwn := by
  intro s e rest hb he
  rw [step_event hb he]
  refine ⟨?chip, ?_, ?_, ?_, ?_, ?_, ?hostRam, ?hostPcm, ?_⟩
  case chip =>
    rintro sl w rfl base
    cases w with
    | loopLo v =>
      refine ⟨_, congrArg _ (chipWrite_loopLo sl v), rfl, pcmKept_setPcm8 _ _, ?_, nofun, nofun⟩
      rintro _ ⟨⟩
      exact pcm8_setPcm8_self _ _
    | loopHi v =>
      refine ⟨_, congrArg _ (chipWrite_loopHi sl v), rfl, pcmKept_setPcm8 _ _, nofun, ?_, nofun⟩
      rintro _ ⟨⟩
      exact pcm8_setPcm8_self _ _
    | inactive x =>
      refine ⟨_, congrArg _ (chipWrite_inactive sl x), rfl, pcmKept_setPcm8 _ _, nofun, nofun, ?_⟩
      rintro _ ⟨⟩
      rw [pcm8_setPcm8_self]
      exact setBit_zero _ x
  case hostRam =>
    rintro a v rfl
    exact ⟨_, rfl, rfl, ram8_setRam8_self _ _, ramKept_setRam8 _ _⟩
  case hostPcm =>
    rintro a v rfl
    exact ⟨_, rfl, rfl, pcm8_setPcm8_self _ _, pcmKept_setPcm8 _ _⟩
  all_goals
    rintro _ rfl
    rfl

end Sys2Proof.Machine
end

section
/-!
ROM reads and FM port writes (20_memory.md R61, R62, R72): a word read is the two byte reads in order, so each of its
bytes raises ROM_RANGE on its own; a write attempt takes one answer, given or free, and that answer alone decides it.
-/

namespace Sys2Proof.Machine

variable {s : State} {a : Word}

/-! ### The word at an address in ROM, by the order of its bytes, and the fault of each byte -/

theorem rom16_littleEndian (h0 : a.toNat < s.cfg.romSize) (h1 : (a + 1).toNat < s.cfg.romSize)
    (ho : s.cfg.romOrder = .le) : rom16 a s = .ok (word (s.romAt (a + 1)) (s.romAt a)) s := by
  rw [rom16_ok h0 h1, ho]

theorem rom16_bigEndian (h0 : a.toNat < s.cfg.romSize) (h1 : (a + 1).toNat < s.cfg.romSize)
    (ho : s.cfg.romOrder = .be) : rom16 a s = .ok (word (s.romAt a) (s.romAt (a + 1))) s := by
  rw [rom16_ok h0 h1, ho]

theorem rom16_firstByteFault (h0 : ¬ a.toNat < s.cfg.romSize) :
    rom16 a s = .error () (s.raiseFault .romRange a) := bind_of_error (rom8_fault h0) _

theorem rom16_secondByteFault (h0 : a.toNat < s.cfg.romSize) (h1 : ¬ (a + 1).toNat < s.cfg.romSize) :
    rom16 a s = .error () (s.raiseFault .romRange (a + 1)) :=
  (bind_rom8_ok h0 _).trans (bind_of_error (rom8_fault h1) _)

/-- The fault of a read outside ROM has code 0x05 (60_exceptions.md R251) and writes nothing but the fault. -/
theorem faulted_romRange (a : Word) : Faulted s (s.raiseFault .romRange a) 0x05 a := rfl

/-- Settles O6: the byte read in and outside ROM, and the word read by which of its two bytes lie in ROM. -/
theorem romReadsAreChecked : Obligations.RomReadsAreChecked := by
  intro s a
  refine ⟨rom8_ok, fun h => ?byteOut, rom16_littleEndian, rom16_bigEndian, fun h0 => ?firstOut, fun h0 h1 => ?secondOut⟩
  case byteOut => exact ⟨_, rom8_fault h, faulted_romRange a⟩
  case firstOut => exact ⟨_, rom16_firstByteFault h0, faulted_romRange a⟩
  case secondOut => exact ⟨_, rom16_secondByteFault h0 h1, faulted_romRange (a + 1)⟩

/-! ### The answer a status read takes (log 6) -/

variable {st : Byte} {l : List Byte}

/-- A given answer is the first of the list, and the read takes it off. -/
theorem fmAnswer_given (h : s.fmIn = st :: l) : s.fmAnswer = st := by rw [State.fmAnswer, h]

theorem fmDrawn_given (h : s.fmIn = st :: l) : s.fmDrawn = { s with fmIn := l } := by rw [State.fmDrawn, h]

/-- With none given the answer is the next free value, and the read counts it. -/
theorem fmAnswer_free (h : s.fmIn = []) : s.fmAnswer = Config.fmStatus s.fmDraws := by rw [State.fmAnswer, h]

theorem fmDrawn_free (h : s.fmIn = []) : s.fmDrawn = { s with fmDraws := s.fmDraws + 1 } := by rw [State.fmDrawn, h]

/-- Settles O7: the busy and the ready chip, and the two sources of its answer. -/
theorem fmPortWrite : Obligations.FmPortWrite := by
  intro s reg val
  refine ⟨fun hbusy => ?busy, fun hready => ?ready, fun st l h => ?given, fun h => ?free⟩
  case busy => exact fmWrite_busy hbusy reg val
  case ready => exact fmIssued_fmWrite hready reg val
  case given => exact ⟨fmAnswer_given h, fmDrawn_given h⟩
  case free => exact ⟨fmAnswer_free h, fmDrawn_free h⟩

end Sys2Proof.Machine
end

section
/-!
The encoding (30_encoding.md R85 to R99). One relation ties an instruction to the opcode byte and the four bytes after
it, and the decoder answers exactly the instruction that stands in it. The byte ranges of R85 and R89 are stated once
as equations of the decoder.
-/

namespace Sys2Proof

/-! ### The bytes of an address operand (R91, 20_memory.md R62) -/

theorem loByte_word (hi lo : Byte) : loByte (word hi lo) = lo := by
  apply BitVec.eq_of_getLsbD_eq
  intro k hk
  simp only [loByte, word, BitVec.getLsbD_setWidth, BitVec.getLsbD_or, BitVec.getLsbD_shiftLeft]
  simp [hk, Nat.lt_trans hk]

theorem hiByte_word (hi lo : Byte) : hiByte (word hi lo) = hi := by
  apply BitVec.eq_of_getLsbD_eq
  intro k hk
  simp only [hiByte, word, BitVec.getLsbD_setWidth, BitVec.getLsbD_ushiftRight, BitVec.getLsbD_or,
    BitVec.getLsbD_shiftLeft]
  simp [hk, show 8 + k < 16 by omega, show k < 16 by omega]

@[simp] theorem disassemble_assemble (o : WordOrder) (b1 b2 : Byte) : disassemble o (assemble o b1 b2) = [b1, b2] := by
  cases o <;> simp [assemble, disassemble, loByte_word, hiByte_word]

/-- The two bytes an address operand is read from are the two it is written as. -/
theorem assemble_of_disassemble {o : WordOrder} {a : Word} {b1 b2 : Byte} (h : disassemble o a = [b1, b2]) :
    assemble o b1 b2 = a := by
  cases o
  all_goals
    obtain ⟨rfl, rfl⟩ : _ ∧ _ := by simpa only [disassemble, List.cons.injEq, and_true] using h
    exact Machine.word_hi_lo a

/-! ### Opcode bytes of the four ranges (R85, R86, R89) -/

/-- The byte 0x80 + `code` of a command code (R86). -/
def commandByte (code : BitVec 6) : Byte := 0x80 ||| code.setWidth 8

theorem toNat_commandByte (code : BitVec 6) : (commandByte code).toNat = 0x80 + code.toNat := by
  revert code
  decide

/-- A byte of the command range is the byte of the code in its low six bits, and the code is not 0x3F. -/
theorem commandByte_setWidth {b : Byte} (h0 : 0x80 ≤ b.toNat) (h1 : b.toNat < 0xBF) :
    commandByte (b.setWidth 6) = b ∧ (b.setWidth 6 : BitVec 6) ≠ 0x3F := by
  revert b
  decide

theorem setWidth_commandByte (code : BitVec 6) : (commandByte code).setWidth 6 = code := by
  revert code
  decide

theorem toNat_noteOpcode (n : BitVec 7) : (n.setWidth 8 : Byte).toNat = n.toNat :=
  BitVec.toNat_setWidth_of_le (by decide)

theorem toNat_percOpcode (k : BitVec 4) : (0xC0 + k.setWidth 8 : Byte).toNat = 0xC0 + k.toNat := by bv_omega

theorem toNat_sampleOpcode {k : BitVec 6} (hk : k.toNat ≤ 47) :
    (0xD0 + k.setWidth 8 : Byte).toNat = 0xD0 + k.toNat := by bv_omega

/-- The note index of a note byte (R85). -/
theorem toNat_noteIndex {b : Byte} (h : b.toNat < 0x80) : (b.setWidth 7 : BitVec 7).toNat = b.toNat := by bv_omega

theorem toNat_percIndex {b : Byte} (h0 : 0xC0 ≤ b.toNat) (h1 : b.toNat ≤ 0xCE) :
    ((b - 0xC0).setWidth 4 : BitVec 4).toNat = b.toNat - 0xC0 := by bv_omega

theorem toNat_sampleIndex {b : Byte} (h : 0xD0 ≤ b.toNat) :
    ((b - 0xD0).setWidth 6 : BitVec 6).toNat = b.toNat - 0xD0 := by bv_omega

/-- The reserved codes are the codes without a handler but 0x3F (R88). -/
theorem reservedCode_iff {code : BitVec 6} : reservedCode code = true ↔ code ∉ definedCodes ∧ code ≠ 0x3F := by
  simp [reservedCode]

/-! ### The decoder on each range of the opcode byte (R85, R87 to R89) -/

section Window

variable {c : DecodeCtx} {b b1 b2 b3 b4 : Byte}

theorem decodeWindow_note (h : b.toNat < 0x80) :
    decodeWindow c b b1 b2 b3 b4 = .note (b.setWidth 7) b1 (if c.wide then b2 else 0) := by
  rw [decodeWindow, if_neg (by omega), if_neg (by omega)]

theorem decodeWindow_command (h0 : 0x80 ≤ b.toNat) (h1 : b.toNat < 0xBF) :
    decodeWindow c b b1 b2 b3 b4 = decodeCommand c (b.setWidth 6) b1 b2 b3 b4 := by
  rw [decodeWindow, if_neg (by omega), if_pos h0]

theorem decodeWindow_perc (h0 : 0xC0 ≤ b.toNat) (h1 : b.toNat ≤ 0xCE) :
    decodeWindow c b b1 b2 b3 b4 = .perc ((b - 0xC0).setWidth 4) := by
  rw [decodeWindow, if_pos (by omega), if_neg (by omega), if_pos ⟨h0, h1⟩]

theorem decodeWindow_sample (h : 0xD0 ≤ b.toNat) :
    decodeWindow c b b1 b2 b3 b4 = .sample ((b - 0xD0).setWidth 6) := by
  rw [decodeWindow, if_pos (by omega), if_pos h]

theorem decodeWindow_pcmIndexFault (h : b = 0xBF ∨ b = 0xCF) :
    decodeWindow c b b1 b2 b3 b4 = .pcmIndexFault b := by
  rcases h with rfl | rfl <;> rfl

/-- A code without a handler decodes to the undefined command of that code (R88). -/
theorem decodeCommand_undef {code : BitVec 6} (h : code ∉ definedCodes) :
    decodeCommand c code b1 b2 b3 b4 = .undef code := by
  simp only [definedCodes, List.mem_cons, List.not_mem_nil, or_false, not_or] at h
  simp only [decodeCommand, h, if_false]

theorem decodeWindow_undef (h0 : 0x80 ≤ b.toNat) (h1 : b.toNat < 0xBF) (h : (b.setWidth 6 : BitVec 6) ∉ definedCodes) :
    decodeWindow c b b1 b2 b3 b4 = .undef (b.setWidth 6) := by
  rw [decodeWindow_command h0 h1, decodeCommand_undef h]

/-- Every byte is in one of the ranges of R85. -/
theorem opcodeByte_ranges (b : Byte) :
    b.toNat < 0x80 ∨ (0x80 ≤ b.toNat ∧ b.toNat < 0xBF) ∨ (b = 0xBF ∨ b = 0xCF) ∨ (0xC0 ≤ b.toNat ∧ b.toNat ≤ 0xCE) ∨
      0xD0 ≤ b.toNat := by bv_omega

end Window

/-! ### The opcode byte decides -/

/-- Settles O3: the equations of the decoder on the ranges, and its value at each command byte with a handler. -/
theorem opcodeByteDecides : Obligations.OpcodeByteDecides := by
  intro c b b1 b2 b3 b4
  refine ⟨fun h => ?note, ?vol, ?_, ?_, ?_, ?_, ?_, ?_, ?_, ?_, ?_, ?_, ?_, ?_, ?call, ?jp, ?loop,
    decodeWindow_undef, fun h0 h1 => ?perc, fun h => ?sample, decodeWindow_pcmIndexFault⟩
  case note => exact ⟨_, _, _, decodeWindow_note h, toNat_noteIndex h, rfl, fun hw => if_pos hw⟩
  case vol =>
    rintro rfl
    exact ⟨_, rfl, fun hp => if_pos hp⟩
  case call | jp | loop =>
    rintro ho rfl
    obtain ⟨_, _, _⟩ := c
    cases ho
    rfl
  case perc => exact ⟨_, decodeWindow_perc h0 h1, toNat_percIndex h0 h1⟩
  case sample => exact ⟨_, decodeWindow_sample h, toNat_sampleIndex h⟩
  all_goals
    rintro rfl
    rfl

/-! ### The instruction that stands in five bytes (R86, R90, R99) -/

/-- `i` stands in the opcode byte `b` and the four bytes after it: it is well-formed, `b` is its opcode byte, and its
operand bytes are the first of the four. -/
structure StandsIn (c : DecodeCtx) (i : Instr) (b b1 b2 b3 b4 : Byte) : Prop where
  wellFormed : i.wellFormed c = true
  opcode : i.opcode = b
  operands : i.operands c = [b1, b2, b3, b4].take (i.operandBytes c)

theorem operandBytes_le (c : DecodeCtx) (i : Instr) : i.operandBytes c ≤ 4 := by
  cases i with
  | note | vol =>
    rw [Instr.operandBytes]
    split <;> decide
  | _ => simp only [Instr.operandBytes, Nat.reduceLeDiff, Nat.zero_le, Nat.le_refl]

section StandsIn

variable {c : DecodeCtx} {i : Instr} {b b1 b2 b3 b4 : Byte}

theorem standsIn_note (n : BitVec 7) :
    StandsIn c (.note n b1 (if c.wide then b2 else 0)) (n.setWidth 8) b1 b2 b3 b4 := by
  obtain ⟨_, wide, _⟩ := c
  cases wide <;> exact ⟨rfl, rfl, rfl⟩

theorem standsIn_vol : StandsIn c (.vol b1 (if c.pcm then b2 else 0)) 0x82 b1 b2 b3 b4 := by
  obtain ⟨pcm, _, _⟩ := c
  cases pcm <;> exact ⟨rfl, rfl, rfl⟩

/-- The command a code decodes to stands in the byte of that code. -/
theorem standsIn_decodeCommand {code : BitVec 6} (h : code ≠ 0x3F) :
    StandsIn c (decodeCommand c code b1 b2 b3 b4) (commandByte code) b1 b2 b3 b4 := by
  by_cases hcode : code ∈ definedCodes
  case neg =>
    rw [decodeCommand_undef hcode]
    exact ⟨reservedCode_iff.2 ⟨hcode, h⟩, rfl, rfl⟩
  case pos =>
    simp only [definedCodes, List.mem_cons, List.not_mem_nil, or_false] at hcode
    rcases hcode with rfl | rfl | rfl | rfl | rfl | rfl | rfl | rfl | rfl | rfl | rfl | rfl | rfl | rfl | rfl | rfl
    case inl => exact standsIn_vol
    all_goals exact ⟨rfl, rfl, by simp [decodeCommand, Instr.operands, Instr.operandBytes]⟩

/-- What the decoder reads stands in the bytes it was read from. -/
theorem standsIn_decodeWindow : StandsIn c (decodeWindow c b b1 b2 b3 b4) b b1 b2 b3 b4 := by
  rcases opcodeByte_ranges b with hnote | ⟨h0, h1⟩ | hfault | ⟨h0, h1⟩ | hsample
  · have hb : (b.setWidth 7 : BitVec 7).setWidth 8 = b :=
      BitVec.eq_of_toNat_eq ((toNat_noteOpcode _).trans (toNat_noteIndex hnote))
    rw [decodeWindow_note hnote]
    simpa only [hb] using standsIn_note (b.setWidth 7)
  · obtain ⟨hb, hcode⟩ := commandByte_setWidth h0 h1
    rw [decodeWindow_command h0 h1]
    simpa only [hb] using standsIn_decodeCommand hcode
  · rw [decodeWindow_pcmIndexFault hfault]
    exact ⟨by rcases hfault with rfl | rfl <;> rfl, rfl, rfl⟩
  · have hk := toNat_percIndex h0 h1
    rw [decodeWindow_perc h0 h1]
    refine ⟨decide_eq_true (by omega), BitVec.eq_of_toNat_eq ?_, rfl⟩
    rw [Instr.opcode, toNat_percOpcode, hk]
    omega
  · have hk := toNat_sampleIndex hsample
    have hle : ((b - 0xD0).setWidth 6 : BitVec 6).toNat ≤ 47 := by omega
    rw [decodeWindow_sample hsample]
    refine ⟨decide_eq_true hle, BitVec.eq_of_toNat_eq ?_, rfl⟩
    rw [Instr.opcode, toNat_sampleOpcode hle, hk]
    omega

/-- The decoder reads the instruction that stands in the bytes. -/
theorem decodeWindow_of_standsIn (h : StandsIn c i b b1 b2 b3 b4) : decodeWindow c b b1 b2 b3 b4 = i := by
  obtain ⟨hwf, rfl, hops⟩ := h
  cases i with dsimp only [Instr.opcode]
  | note n d1 d2 =>
    have hb := toNat_noteOpcode n
    have hlt : (n.setWidth 8 : Byte).toNat < 0x80 := by omega
    have hn : (n.setWidth 8 : Byte).setWidth 7 = n := BitVec.eq_of_toNat_eq ((toNat_noteIndex hlt).trans hb)
    refine (decodeWindow_note hlt).trans ?_
    rw [hn]
    cases hw : c.wide with
    | false => simp_all [Instr.wellFormed, Instr.operands, Instr.operandBytes]
    | true => simp_all [Instr.operands, Instr.operandBytes]
  | vol l r =>
    change Instr.vol b1 (if c.pcm then b2 else 0) = _
    cases hp : c.pcm with
    | false => simp_all [Instr.wellFormed, Instr.operands, Instr.operandBytes]
    | true => simp_all [Instr.operands, Instr.operandBytes]
  | call a => exact congrArg Instr.call (assemble_of_disassemble hops)
  | jp a => exact congrArg Instr.jp (assemble_of_disassemble hops)
  | loop k n a =>
    simp only [Instr.operands, Instr.operandBytes, List.cons_append, List.nil_append, List.take_succ_cons,
      List.take_zero, List.cons.injEq] at hops
    obtain ⟨rfl, rfl, ha⟩ := hops
    exact congrArg (Instr.loop k n) (assemble_of_disassemble ha)
  | modsel | transp | fmblk | pitch =>
    obtain ⟨rfl, _⟩ := List.cons.inj hops
    rfl
  | perc k =>
    have hk : k.toNat ≤ 14 := of_decide_eq_true hwf
    have hb := toNat_percOpcode k
    have h0 : 0xC0 ≤ (0xC0 + k.setWidth 8 : Byte).toNat := by omega
    have h1 : (0xC0 + k.setWidth 8 : Byte).toNat ≤ 0xCE := by omega
    refine (decodeWindow_perc h0 h1).trans (congrArg _ (BitVec.eq_of_toNat_eq ?_))
    rw [toNat_percIndex h0 h1]
    omega
  | sample k =>
    have hb := toNat_sampleOpcode (of_decide_eq_true hwf : k.toNat ≤ 47)
    have h0 : 0xD0 ≤ (0xD0 + k.setWidth 8 : Byte).toNat := by omega
    refine (decodeWindow_sample h0).trans (congrArg _ (BitVec.eq_of_toNat_eq ?_))
    rw [toNat_sampleIndex h0]
    omega
  | pcmIndexFault v => exact decodeWindow_pcmIndexFault (by simpa [Instr.wellFormed] using hwf)
  | undef code =>
    obtain ⟨hcode, hlast⟩ := reservedCode_iff.1 hwf
    have hb := toNat_commandByte code
    have hlt : code.toNat ≠ 0x3F := fun h => hlast (BitVec.eq_of_toNat_eq h)
    change decodeWindow c (commandByte code) _ _ _ _ = _
    rw [decodeWindow_command (by omega) (by omega), setWidth_commandByte, decodeCommand_undef hcode]
  | _ => rfl

end StandsIn

/-! ### Decoding a byte string (R90, R99) -/

/-- Each instruction has as many operand bytes as its form says (R90). -/
theorem operands_length (c : DecodeCtx) (i : Instr) : (i.operands c).length = i.operandBytes c := by
  have hstatement : Laws.Length.Statement i := by
    cases i with
    | note n d1 d2 => exact Laws.Length.note n d1 d2
    | vol l r => exact Laws.Length.vol l r
    | call a => exact Laws.Length.call a
    | jp a => exact Laws.Length.jp a
    | loop k n a => exact Laws.Length.loop k n a
    | _ => exact fun _ => ⟨_, rfl, rfl⟩
  obtain ⟨_, henc, hlen⟩ := hstatement c
  cases henc
  exact hlen

/-- The first bytes of the four the decoder looks at are the first bytes of the string. -/
theorem take_window {l : List Byte} {n : Nat} (h4 : n ≤ 4) (hl : n ≤ l.length) :
    [l.getD 0 0, l.getD 1 0, l.getD 2 0, l.getD 3 0].take n = l.take n := by
  apply List.ext_getElem
  · simp [h4, hl]
  · intro k hk _
    rw [List.length_take] at hk
    have hk4 : k < 4 := by omega
    have hkl : k < l.length := by omega
    interval_cases k <;> simp [hkl]

variable {c : DecodeCtx} {i : Instr} {b : Byte} {l bytes rest : List Byte}

theorem decode_cons_ok_iff :
    decode c (b :: l) = .ok (i, rest) ↔
      decodeWindow c b (l.getD 0 0) (l.getD 1 0) (l.getD 2 0) (l.getD 3 0) = i ∧ i.operandBytes c ≤ l.length ∧
        l.drop (i.operandBytes c) = rest := by
  rw [decode]
  split
  case isTrue h =>
    refine ⟨nofun, ?_⟩
    rintro ⟨rfl, hle, _⟩
    exact absurd h (not_lt.2 hle)
  case isFalse h =>
    constructor
    · rintro ⟨⟩
      exact ⟨rfl, not_lt.1 h, rfl⟩
    · rintro ⟨rfl, _, rfl⟩
      rfl

/-- A byte string decodes to exactly the well-formed instruction whose bytes it begins with. -/
theorem decode_ok_iff : decode c bytes = .ok (i, rest) ↔ i.wellFormed c = true ∧ encode c i ++ rest = bytes := by
  constructor
  · intro h
    cases bytes with
    | nil => nomatch h
    | cons b l =>
      obtain ⟨hi, hle, rfl⟩ := decode_cons_ok_iff.1 h
      obtain ⟨hwf, hop, hops⟩ := hi ▸ standsIn_decodeWindow
      rw [take_window (operandBytes_le c i) hle] at hops
      exact ⟨hwf, by rw [encode, hop, hops, List.cons_append, List.take_append_drop]⟩
  · rintro ⟨hwf, rfl⟩
    have hlen := operands_length c i
    have hle : i.operandBytes c ≤ (i.operands c ++ rest).length := by simp [hlen]
    have hops := take_window (operandBytes_le c i) hle
    rw [List.take_left' hlen] at hops
    exact decode_cons_ok_iff.2 ⟨decodeWindow_of_standsIn ⟨hwf, rfl, hops.symm⟩, hle, List.drop_left' hlen⟩

/-- Settles O1: the decoder answers the well-formed instruction the string begins with. -/
theorem decodeOfEncode : Obligations.DecodeOfEncode := fun _ _ _ hwf => decode_ok_iff.2 ⟨hwf, rfl⟩

/-- Settles O2: the decoder answers only that instruction. -/
theorem encodeOfDecode : Obligations.EncodeOfDecode := fun _ _ _ _ h => decode_ok_iff.1 h

/-! ### Words of the opcode table -/

/-- A table word whose bytes begin with the bytes of a well-formed instruction decodes to it. -/
theorem decodeTableWord_of_encode {nbits w : Nat} (hwf : i.wellFormed resetCtx = true)
    (hb : encode resetCtx i ++ rest = tableBytes nbits w) : decodeTableWord nbits w = some i := by
  rw [decodeTableWord, decode_ok_iff.2 ⟨hwf, hb⟩]

/-- Settles O4: each word is the bytes of its instruction and zeros after them. -/
theorem tableWordsDecode : Obligations.TableWordsDecode := by
  refine ⟨?_, ?_, ?_, ?_, ?_, ?_, ?_, ?_, ?_, ?_⟩
  all_goals exact decodeTableWord_of_encode rfl rfl

end Sys2Proof
end

section
/-!
Whole steps of the machine (40_sequencer.md R110, R120, 60_exceptions.md R250, R252): where each answers a next state,
the tick pulse, the fetch in a Process Section, and runs of several steps.
-/

namespace Sys2Proof.Machine

variable {s t : State} {rest : List Event}

/-! ### Every step answers -/

/-- Every instruction answers a next state on a channel that CHAN names: a fault of the block is one too. -/
theorem exec_answers (i : Instr) (h : s.chan.toNat < 30) : ∃ t, exec i s = .next t := by
  cases i <;> exact ⟨_, if_pos h⟩

theorem sectionStep_answers (h : s.chan.toNat < 30) : ∃ t, s.sectionStep exec = .next t := by
  rw [State.sectionStep, if_pos h]
  split
  · exact exec_answers _ h
  · exact ⟨_, rfl⟩

/-- Settles O33: only a micro-step of a channel can stop the model, and CHAN names a record. -/
theorem stepAlwaysAnswers : Obligations.StepAlwaysAnswers := by
  intro s h
  unfold step
  split
  next => exact ⟨_, rfl⟩
  next => exact ⟨_, rfl⟩
  next => exact ⟨_, onChannel_ok _ h.chan⟩
  next => exact sectionStep_answers h.chan
  next => exact ⟨_, onChannel_ok _ h.chan⟩
  next => exact ⟨_, onChannel_ok _ h.chan⟩
  next => exact ⟨_, onChannel_ok _ h.chan⟩
  next => exact ⟨_, rfl⟩
  next => exact ⟨_, rfl⟩
  next => exact ⟨_, rfl⟩

/-! ### The fetch in a Process Section -/

theorem step_fetch (hf : s.fsm = .channels .fetch) : step s = s.sectionStep exec := by
  unfold step
  rw [hf]

theorem sectionStep_inRom (hc : s.chan.toNat < 30) (hr : s.cur.toNat < s.cfg.romSize) :
    s.sectionStep exec = exec s.instrAt s := by rw [State.sectionStep, if_pos hc, if_pos hr]

theorem sectionStep_outOfRom (hc : s.chan.toNat < 30) (hr : ¬ s.cur.toNat < s.cfg.romSize) :
    s.sectionStep exec = .next (s.raiseFault .romRange s.cur) := by rw [State.sectionStep, if_pos hc, if_neg hr]

/-- What the five bytes at CUR decode to is the instruction at CUR. -/
theorem instrAt_of_decode {i : Instr} {l : List Byte} (h : decode s.decodeCtx s.window = .ok (i, l)) : s.instrAt = i :=
  (decode_cons_ok_iff.1 h).1

/-- Settles O5: by what the fetch does in and outside ROM, and what decoding a byte string answers. -/
theorem stepRunsDecodedInstruction : Obligations.StepRunsDecodedInstruction := by
  intro s i l hf hc
  rw [step_fetch hf]
  refine ⟨fun hr hd => ⟨?_, decode_ok_iff.1 hd⟩, fun hr => ⟨_, sectionStep_outOfRom hc hr, faulted_romRange s.cur⟩⟩
  rw [sectionStep_inRom hc hr, instrAt_of_decode hd]

/-! ### The tick pulse -/

theorem tickPulse_idle (h : s.fsm = .idle) :
    s.tickPulse = ((s.setTog (!s.tog)).setMboxAck false).setFsm .cmd := by rw [State.tickPulse, h]

theorem tickPulse_fault (h : s.fsm = .fault) : s.tickPulse = s := by rw [State.tickPulse, h]

/-- A tick pulse in IDLE begins a transaction (R111, R138). -/
theorem step_tick_idle (hf : s.fsm = .idle) (he : s.events = .tick :: rest) :
    step s = .next { s with fsm := .cmd, tog := !s.tog, events := rest, mboxAck := false } := by
  rw [step_event (.inl hf) he]
  exact congrArg Host.Outcome.next (tickPulse_idle (s := { s with events := rest }) hf)

theorem step_tick_fault (hf : s.fsm = .fault) (he : s.events = .tick :: rest) :
    step s = .next { s with events := rest } := by
  rw [step_event (.inr hf) he]
  exact congrArg Host.Outcome.next (tickPulse_fault (s := { s with events := rest }) hf)

theorem step_waits (hf : s.fsm = .idle ∨ s.fsm = .fault) (he : s.events = []) : step s = .next s := by
  rw [step_betweenTicks hf, State.betweenTicks, he]

/-- Settles O37: the pulse by the FSM state, and waiting. -/
theorem tickPulse : Obligations.TickPulse := by
  intro s rest
  exact ⟨fun hf he => ⟨_, step_tick_idle hf he, rfl⟩, step_tick_fault, fun hf he => step_waits (.inl hf) he⟩

/-! ### Runs of several steps -/

theorem run_succ (M : Host.Core) (n : Nat) {s t : M.State} (h : M.step s = .next t) : M.run (n + 1) s = M.run n t := by
  rw [Host.Core.run, h]

/-- Two runs of a machine, one after the other. -/
theorem run_add (M : Host.Core) {m n : Nat} {s t : M.State} (hm : M.run m s = .next t) :
    M.run (m + n) s = M.run n t := by
  induction m generalizing s with
  | zero =>
    cases hm
    rw [Nat.zero_add]
  | succ m ih =>
    rw [Host.Core.run] at hm
    split at hm
    next hs => rw [Nat.add_right_comm, run_succ M _ hs, ih hm]
    next => cases hm
    next => cases hm

theorem steps_succ (n : Nat) (h : step s = .next t) : steps (n + 1) s = steps n t := run_succ Sys2Proof.core n h

theorem steps_add {m : Nat} (n : Nat) (h : steps m s = .next t) : steps (m + n) s = steps n t :=
  run_add Sys2Proof.core h

theorem steps_one (h : step s = .next t) : steps 1 s = .next t := steps_succ 0 h

/-! ### A fault is absorbing -/

/-- `t` stands in FAULT with the fault register and the registers of `s`, and no reset is pending (60_exceptions.md
R250, R252). -/
structure StaysFaulted (s t : State) : Prop where
  fsm : t.fsm = .fault
  events : noReset t.events = true
  fcode : t.fcode = s.fcode
  finfo : t.finfo = s.finfo
  cur : t.cur = s.cur
  chan : t.chan = s.chan
  chanPrev : t.chanPrev = s.chanPrev
  cmdPrev : t.cmdPrev = s.cmdPrev
  engCh : t.engCh = s.engCh
  tog : t.tog = s.tog
  stdTog : t.stdTog = s.stdTog
  fmShadow : t.fmShadow = s.fmShadow
  fmOut : t.fmOut = s.fmOut

theorem StaysFaulted.applyEvent {e : Event} (h : StaysFaulted s t) (he : e ≠ .reset) :
    StaysFaulted s (t.applyEvent e) := by
  cases e with
  | reset => exact absurd rfl he
  | tick =>
    rw [State.applyEvent, tickPulse_fault h.fsm]
    exact h
  | chip sl w => cases w <;> exact { h with }
  | mbox | telem | engTel | rev | tpass | hostRam | hostPcm | fmAnswers => exact { h with }

/-- A step in FAULT answers, and takes at most one act other than a reset. -/
theorem StaysFaulted.step (h : StaysFaulted s t) : ∃ u, step t = .next u ∧ StaysFaulted s u := by
  cases he : t.events with
  | nil => exact ⟨t, step_waits (.inr h.fsm) he, h⟩
  | cons e rest =>
    have hreset := h.events
    rw [he, noReset, List.all_cons, Bool.and_eq_true, bne_iff_ne] at hreset
    obtain ⟨hne, hrest⟩ := hreset
    have hu : StaysFaulted s { t with events := rest } := { h with events := hrest }
    exact ⟨_, step_event (.inr h.fsm) he, hu.applyEvent hne⟩

theorem StaysFaulted.steps (h : StaysFaulted s t) (n : Nat) : ∃ u, steps n t = .next u ∧ StaysFaulted s u := by
  induction n generalizing t with
  | zero => exact ⟨t, rfl, h⟩
  | succ n ih =>
    obtain ⟨u, hu, hs⟩ := h.step
    rw [steps_succ n hu]
    exact ih hs

/-- Settles O36: FAULT with the registers as they are is kept by every step. -/
theorem faultIsAbsorbing : Obligations.FaultIsAbsorbing := by
  intro n s hf he
  have h : StaysFaulted s s := ⟨hf, he, rfl, rfl, rfl, rfl, rfl, rfl, rfl, rfl, rfl, rfl, rfl⟩
  obtain ⟨t, ht, h⟩ := h.steps n
  exact ⟨t, ht, h.fsm, h.fcode, h.finfo, h.cur, h.chan, h.chanPrev, h.cmdPrev, h.engCh, h.tog, h.stdTog, h.fmShadow,
    h.fmOut⟩

end Sys2Proof.Machine
end

section
/-!
Command intake (40_sequencer.md R112 to R115): each class of the mailbox byte, `init_sound` record by record, and the
stop command by its records and its slots.
-/

namespace Sys2Proof.Machine

variable {s t : State}

/-! ### The step in CMD -/

theorem step_cmd_ok (hf : s.fsm = .cmd) (h : commandIntake s = .ok () t) :
    step s = .next ((t.setChan 0).setFsm (.channels .start)) := by
  simp only [step, hf, cmdStep, bind_of_ok h, bind_upd, upd_run, after_ok]

theorem step_cmd_error (hf : s.fsm = .cmd) (h : commandIntake s = .error () t) : step s = .next t := by
  simp only [step, hf, cmdStep, bind_of_error h, after_error]

/-- The command in the mailbox is acknowledged and recorded (R112). -/
def State.consumed (s : State) : State := (s.setMboxAck true).setCmdPrev s.mbox

/-- What a command byte with this action does once it is consumed (R112). -/
def runAction (c : Byte) : CmdAction → Exec Unit
  | .init src first => initSound c src first
  | .stop chans slots => stopChannels chans slots
  | .ignore => pure ()
  | .undefined => raise .undefCmd (zext16 c)

theorem commandIntake_empty (h : s.mbox = 0) : commandIntake s = .ok () s := by simp [commandIntake, h]

theorem commandIntake_reserved (h0 : s.mbox ≠ 0) (h : s.mbox.toNat < 0x80) :
    commandIntake s = .error () (s.consumed.raiseFault .reservedCmd (zext16 s.mbox)) := by
  simp only [commandIntake, bind_look, if_neg h0, bind_upd, if_pos h, raise_run, State.consumed]

theorem commandIntake_action (h : 0x80 ≤ s.mbox.toNat) :
    commandIntake s = runAction s.mbox (s.cfg.action s.mbox) s.consumed := by
  have h0 : s.mbox ≠ 0 := fun hz => by simp [hz] at h
  simp only [commandIntake, bind_look, if_neg h0, bind_upd, if_neg (not_lt.2 h)]
  cases ha : s.cfg.action s.mbox <;> simp only [State.setCmdPrev_cfg, State.setMboxAck_cfg, ha] <;> rfl

/-! ### Computations over the numbers below a bound -/

/-- Steps `f 0 … f (n - 1)`, each from the state `g k` to the next. -/
theorem each_range_ok {f : Nat → Exec Unit} {g : Nat → State} {n : Nat}
    (h : ∀ k, k < n → f k (g k) = .ok () (g (k + 1))) :
    each (List.range n) f (g 0) = .ok () (g n) := by
  induction n with
  | zero => rfl
  | succ n ih =>
    rw [List.range_succ, each_append_run, bind_of_ok (ih fun k hk => h k (Nat.lt_succ_of_lt hk)), each_cons_run,
      bind_of_ok (h n (Nat.lt_succ_self n)), each_nil_run]

/-- Such steps up to the first one that raises a fault. -/
theorem each_range_error {f : Nat → Exec Unit} {g : Nat → State} {k n : Nat} (hk : k < n)
    (h : ∀ i, i < k → f i (g i) = .ok () (g (i + 1))) (hf : f k (g k) = .error () t) :
    each (List.range n) f (g 0) = .error () t := by
  obtain ⟨d, rfl⟩ := Nat.exists_eq_add_of_lt hk
  rw [Nat.add_assoc, List.range_add, each_append_run, bind_of_ok (each_range_ok h), List.range_succ_eq_map,
    List.map_cons, each_cons_run, Nat.add_zero, bind_of_error hf]

/-! ### States that differ in Channel RAM only -/

/-- `t` differs from `s` at most in Channel RAM. -/
def OnlyRam (s t : State) : Prop := t = { s with ram := t.ram }

namespace OnlyRam

theorem refl (s : State) : OnlyRam s s := rfl

theorem trans {u : State} (hst : OnlyRam s t) (htu : OnlyRam t u) : OnlyRam s u := by
  rw [OnlyRam] at *
  conv => lhs; rw [htu, hst]

variable (h : OnlyRam s t)
include h

theorem setRam8 (a : Nat) (v : Byte) : OnlyRam s (t.setRam8 a v) := h.trans rfl

theorem cfg : t.cfg = s.cfg := by rw [h]

theorem romAt (x : Word) : t.romAt x = s.romAt x := by
  rw [h]
  rfl

theorem inRom (l : List Word) : t.inRom l = s.inRom l := by
  rw [h]
  rfl

theorem firstOut (l : List Word) : t.firstOut l = s.firstOut l := by
  rw [h]
  rfl

theorem instrument (src : Word) (k : Nat) : t.instrument src k = s.instrument src k := by
  rw [h]
  rfl

end OnlyRam

/-! ### One record of `init_sound` (R114) -/

/-- The first `n` bytes of the instrument block at `a` written from address `r` on. -/
def State.blockCopied (s : State) (r : Nat) (a : Word) (n : Nat) : State :=
  (List.range n).foldl (fun u j => u.setRam8 (r + j) (s.romAt (a + BitVec.ofNat 16 j))) s

theorem blockCopied_onlyRam (r : Nat) (a : Word) (n : Nat) : OnlyRam s (s.blockCopied r a n) :=
  fill_only n r fun j => s.romAt (a + BitVec.ofNat 16 j)

theorem ram8_blockCopied (r : Nat) (a : Word) (n x : Nat) :
    (s.blockCopied r a n).ram8 x = if r ≤ x ∧ x < r + n then s.romAt (a + BitVec.ofNat 16 (x - r)) else s.ram8 x :=
  ram8_fill n r (fun j => s.romAt (a + BitVec.ofNat 16 j)) x

/-- One byte of the block: in ROM it is copied. -/
theorem copyBlockByte_ok {r n : Nat} {a : Word} (h : s.inRom [a + BitVec.ofNat 16 n] = true) :
    (rom8 (a + BitVec.ofNat 16 n) >>= fun v => upd (·.setRam8 (r + n) v)) (s.blockCopied r a n) =
      .ok () (s.blockCopied r a (n + 1)) := by
  have hn : (a + BitVec.ofNat 16 n).toNat < (s.blockCopied r a n).cfg.romSize := by
    rw [← (blockCopied_onlyRam r a n).inRom] at h
    simpa [inRom_cons] using h
  rw [bind_rom8_ok hn, upd_run, (blockCopied_onlyRam r a n).romAt]
  simp [State.blockCopied, List.range_succ]

/-- Outside ROM it raises ROM_RANGE. -/
theorem copyBlockByte_error {r n : Nat} {a : Word} (h : s.inRom [a + BitVec.ofNat 16 n] = false) :
    (rom8 (a + BitVec.ofNat 16 n) >>= fun v => upd (·.setRam8 (r + n) v)) (s.blockCopied r a n) =
      .error () ((s.blockCopied r a n).raiseFault .romRange (a + BitVec.ofNat 16 n)) := by
  rw [← (blockCopied_onlyRam r a n).inRom] at h
  exact bind_of_error (rom8_fault (by simpa [inRom_cons] using h)) _

/-- A record as `init_sound` leaves it: its block, the command index, zeros. -/
def State.recordFilled (s : State) (cmd : Byte) (r : Nat) (a : Word) : State :=
  (List.range 17).foldl (fun u j => u.setRam8 (r + 0x0F + j) 0) ((s.blockCopied r a 14).setRam8 (r + 0x0E) cmd)

theorem recordFilled_onlyRam (cmd : Byte) (r : Nat) (a : Word) : OnlyRam s (s.recordFilled cmd r a) := by
  unfold State.recordFilled
  exact ((blockCopied_onlyRam r a 14).setRam8 _ _).trans (fill_only 17 (r + 0x0F) fun _ => 0)

theorem ram8_recordFilled (cmd : Byte) (r : Nat) (a : Word) (x : Nat) :
    (s.recordFilled cmd r a).ram8 x =
      if x < r ∨ r + 32 ≤ x then s.ram8 x
      else if x < r + 14 then s.romAt (a + BitVec.ofNat 16 (x - r))
      else if x = r + 0x0E then cmd else 0 := by
  rw [State.recordFilled, ram8_fill 17 (r + 0x0F) fun _ => 0, ram8_setRam8, ram8_blockCopied]
  by_cases hout : x < r ∨ r + 32 ≤ x
  · rw [if_neg (by omega), if_neg (by omega), if_neg (by omega), if_pos hout]
  · rw [if_neg hout]
    by_cases hblock : x < r + 14
    · rw [if_neg (by omega), if_neg (by omega), if_pos (by omega), if_pos hblock]
    · rw [if_neg hblock]
      by_cases hcmd : x = r + 0x0E
      · rw [if_neg (by omega), if_pos hcmd, if_pos hcmd]
      · rw [if_pos (by omega), if_neg hcmd]

theorem initRecord_ok {cmd : Byte} {r : Nat} {a : Word}
    (h : s.inRom ((List.range 14).map fun j => a + BitVec.ofNat 16 j) = true) :
    initRecord cmd r a s = .ok () (s.recordFilled cmd r a) := by
  have hin : ∀ k, k < 14 → s.inRom [a + BitVec.ofNat 16 k] = true := by
    simpa [State.inRom] using h
  refine (bind_of_ok (each_range_ok (g := s.blockCopied r a) fun k hk => copyBlockByte_ok (hin k hk)) _).trans ?_
  rw [bind_upd, each_upd]
  rfl

/-- A block byte outside ROM stops the record with the bytes before it written. -/
theorem initRecord_error {cmd : Byte} {r j : Nat} {a : Word} (hj : j < 14)
    (h : ∀ i, i < j → s.inRom [a + BitVec.ofNat 16 i] = true) (hout : s.inRom [a + BitVec.ofNat 16 j] = false) :
    initRecord cmd r a s = .error () ((s.blockCopied r a j).raiseFault .romRange (a + BitVec.ofNat 16 j)) :=
  bind_of_error (each_range_error (g := s.blockCopied r a) hj (fun i hi => copyBlockByte_ok (h i hi))
    (copyBlockByte_error hout)) _

/-! ### The records of `init_sound` one after another (R114) -/

/-- The address of the word that points to the block of the `k`-th record. -/
def pointerAt (src : Word) (k : Nat) : Word := src + 1 + 2 * BitVec.ofNat 16 k

/-- The first `k` records filled. -/
def State.recordsFilled (s : State) (cmd : Byte) (src : Word) (first : Nat) : Nat → State
  | 0 => s
  | k + 1 => (s.recordsFilled cmd src first k).recordFilled cmd (recBase (first + k)) (s.instrument src k)

section Records

variable {cmd : Byte} {src : Word} {first : Nat}

theorem recordsFilled_onlyRam (k : Nat) : OnlyRam s (s.recordsFilled cmd src first k) := by
  induction k with
  | zero => exact .refl s
  | succ k ih => exact ih.trans (recordFilled_onlyRam _ _ _)

theorem ram8_recordsFilled_outside {k x : Nat}
    (h : ∀ i, i < k → x < recBase (first + i) ∨ recBase (first + i) + 32 ≤ x) :
    (s.recordsFilled cmd src first k).ram8 x = s.ram8 x := by
  induction k with
  | zero => rfl
  | succ k ih =>
    rw [State.recordsFilled, ram8_recordFilled, if_pos (h k (Nat.lt_succ_self k)),
      ih fun i hi => h i (Nat.lt_succ_of_lt hi)]

/-- In `t` the `k`-th record holds its instrument block, the command index and zeros. -/
def InstrumentFilled (s t : State) (cmd : Byte) (src : Word) (first k : Nat) : Prop :=
  (∀ j, j < 14 → t.ram8 (recBase (first + k) + j) = s.romAt (s.instrument src k + BitVec.ofNat 16 j)) ∧
  t.ram8 (recBase (first + k) + 0x0E) = cmd ∧ ∀ j, j < 17 → t.ram8 (recBase (first + k) + 0x0F + j) = 0

/-- Writes outside a filled record leave it filled. -/
theorem InstrumentFilled.mono {u : State} {k : Nat} (h : InstrumentFilled s t cmd src first k)
    (hu : ∀ x, recBase (first + k) ≤ x → x < recBase (first + k) + 32 → u.ram8 x = t.ram8 x) :
    InstrumentFilled s u cmd src first k := by
  obtain ⟨hblock, hcmd, hzero⟩ := h
  refine ⟨fun j hj => ?_, ?_, fun j hj => ?_⟩
  · rw [hu _ (by omega) (by omega), hblock j hj]
  · rw [hu _ (by omega) (by omega), hcmd]
  · rw [hu _ (by omega) (by omega), hzero j hj]

theorem instrumentFilled_last (k : Nat) :
    InstrumentFilled s (s.recordsFilled cmd src first (k + 1)) cmd src first k := by
  refine ⟨fun j hj => ?_, ?_, fun j hj => ?_⟩
  all_goals rw [State.recordsFilled, ram8_recordFilled, if_neg (by omega)]
  · rw [if_pos (by omega), (recordsFilled_onlyRam k).romAt, Nat.add_sub_cancel_left]
  · rw [if_neg (by omega), if_pos rfl]
  · rw [if_neg (by omega), if_neg (by omega)]

theorem instrumentFilled {i k : Nat} (h : i < k) :
    InstrumentFilled s (s.recordsFilled cmd src first k) cmd src first i := by
  induction k with
  | zero => cases h
  | succ k ih =>
    rcases Nat.lt_succ_iff_lt_or_eq.mp h with hlt | rfl
    · refine (ih hlt).mono fun x hlo hhi => ?_
      rw [State.recordsFilled, ram8_recordFilled, if_pos]
      unfold recBase at *
      omega
    · exact instrumentFilled_last i

/-! ### The reads of `init_sound` and their faults (20_memory.md R61, R62) -/

/-- `ROM16` with both bytes in ROM answers the word at the address. -/
theorem rom16_inRom {a : Word} (h : s.inRom [a, a + 1] = true) : rom16 a s = .ok (s.romWord a) s := by
  simp only [inRom_cons, inRom_nil, Bool.and_true, Bool.and_eq_true, decide_eq_true_eq] at h
  obtain ⟨h0, h1⟩ := h
  exact rom16_ok h0 h1

/-- With a byte outside ROM it raises ROM_RANGE at the first such byte. -/
theorem rom16_firstOut {a x : Word} (h : s.firstOut [a, a + 1] = some x) :
    rom16 a s = .error () (s.raiseFault .romRange x) := by
  simp only [firstOut_cons, firstOut_nil] at h
  split at h
  next h0 =>
    split at h
    next => cases h
    next h1 =>
      cases h
      exact rom16_secondByteFault h0 h1
  next h0 =>
    cases h
    exact rom16_firstByteFault h0

/-- What `init_sound` does for its `k`-th record. -/
def initStep (cmd : Byte) (src : Word) (first k : Nat) : Exec Unit :=
  rom16 (pointerAt src k) >>= initRecord cmd (recBase (first + k))

theorem initStep_ok {k : Nat} (h : s.instrumentInRom src k = true) :
    initStep cmd src first k (s.recordsFilled cmd src first k) = .ok () (s.recordsFilled cmd src first (k + 1)) := by
  have hu := recordsFilled_onlyRam (s := s) (cmd := cmd) (src := src) (first := first) k
  obtain ⟨hp, hb⟩ := Bool.and_eq_true_iff.mp h
  rw [← hu.inRom] at hp hb
  rw [← hu.instrument] at hb
  rw [State.recordsFilled, ← hu.instrument]
  exact (bind_of_ok (rom16_inRom hp) _).trans (initRecord_ok hb)

theorem initStep_addressFault {k : Nat} {x : Word} (h : s.firstOut [pointerAt src k, pointerAt src k + 1] = some x) :
    initStep cmd src first k (s.recordsFilled cmd src first k) =
      .error () ((s.recordsFilled cmd src first k).raiseFault .romRange x) := by
  rw [← (recordsFilled_onlyRam (cmd := cmd) (first := first) k).firstOut] at h
  exact bind_of_error (rom16_firstOut h) _

theorem initStep_blockFault {k j : Nat} (hp : s.inRom [pointerAt src k, pointerAt src k + 1] = true) (hj : j < 14)
    (hin : ∀ i, i < j → s.inRom [s.instrument src k + BitVec.ofNat 16 i] = true)
    (hout : s.inRom [s.instrument src k + BitVec.ofNat 16 j] = false) :
    initStep cmd src first k (s.recordsFilled cmd src first k) =
      .error () (((s.recordsFilled cmd src first k).blockCopied (recBase (first + k)) (s.instrument src k) j).raiseFault
        .romRange (s.instrument src k + BitVec.ofNat 16 j)) := by
  have hu := recordsFilled_onlyRam (s := s) (cmd := cmd) (src := src) (first := first) k
  rw [← hu.inRom] at hp hout
  rw [initStep, bind_of_ok (rom16_inRom hp)]
  show initRecord cmd _ ((s.recordsFilled cmd src first k).instrument src k) _ = _
  rw [hu.instrument]
  exact initRecord_error hj (fun i hi => by rw [hu.inRom, hin i hi]) hout

/-! ### `init_sound` (R114) -/

variable {start : Byte}

theorem initSound_countFault (h : s.inRom [src] = false) :
    initSound cmd src start s = .error () (s.raiseFault .romRange src) :=
  bind_of_error (rom8_fault (by simpa [inRom_cons] using h)) _

/-- With its count in ROM, a record past 29 is refused, and else the records are done one after another. -/
theorem initSound_counted (h : s.inRom [src] = true) :
    initSound cmd src start s =
      if 30 < start.toNat + (s.romAt src).toNat then .error () (s.raiseFault .chanCount (zext16 (s.romAt src)))
      else each (List.range (s.romAt src).toNat) (initStep cmd src start.toNat) s := by
  rw [initSound, bind_rom8_ok (by simpa [inRom_cons] using h)]
  split <;> rfl

theorem initSound_tooMany (h : s.inRom [src] = true) (hn : 30 < start.toNat + (s.romAt src).toNat) :
    initSound cmd src start s = .error () (s.raiseFault .chanCount (zext16 (s.romAt src))) := by
  rw [initSound_counted h, if_pos hn]

theorem initSound_ok (h : s.inRom [src] = true) (hn : start.toNat + (s.romAt src).toNat ≤ 30)
    (hin : ∀ k, k < (s.romAt src).toNat → s.instrumentInRom src k = true) :
    initSound cmd src start s = .ok () (s.recordsFilled cmd src start.toNat (s.romAt src).toNat) := by
  rw [initSound_counted h, if_neg (not_lt.2 hn)]
  exact each_range_ok (g := s.recordsFilled cmd src start.toNat) fun k hk => initStep_ok (hin k hk)

/-- A fault in record `k` ends `init_sound` with the records before it filled. -/
theorem initSound_stops {k : Nat} (h : s.inRom [src] = true) (hn : start.toNat + (s.romAt src).toNat ≤ 30)
    (hk : k < (s.romAt src).toNat) (hin : ∀ i, i < k → s.instrumentInRom src i = true)
    (hf : initStep cmd src start.toNat k (s.recordsFilled cmd src start.toNat k) = .error () t) :
    initSound cmd src start s = .error () t := by
  rw [initSound_counted h, if_neg (not_lt.2 hn)]
  exact each_range_error (g := s.recordsFilled cmd src start.toNat) hk (fun i hi => initStep_ok (hin i hi)) hf

/-- What a fault with `j` bytes of the block of record `k` copied has written. -/
theorem recordStopped (k j : Nat) (x : Word) :
    let r := fun k => recBase (first + k)
    let t := ((s.recordsFilled cmd src first k).blockCopied (r k) (s.instrument src k) j).raiseFault .romRange x
    t = { s with ram := t.ram, fcode := 0x05, finfo := x, fsm := .fault } ∧
    (∀ i, i < k → InstrumentFilled s t cmd src first i) ∧
    (∀ i, i < j → t.ram8 (r k + i) = s.romAt (s.instrument src k + BitVec.ofNat 16 i)) ∧
    ∀ a, (∀ i, i < k → a < r i ∨ r i + 32 ≤ a) → (a < r k ∨ r k + j ≤ a) → t.ram8 a = s.ram8 a := by
  intro r t
  have hbase := recordsFilled_onlyRam (s := s) (cmd := cmd) (src := src) (first := first) k
  have hu := hbase.trans (blockCopied_onlyRam (r k) (s.instrument src k) j)
  have hram := ram8_blockCopied (s := s.recordsFilled cmd src first k) (r k) (s.instrument src k) j
  refine ⟨?frame, fun i hi => ?filled, fun i hi => ?copied, fun a hrecords hblock => ?kept⟩
  case frame => exact congrArg (State.raiseFault · .romRange x) hu
  case filled =>
    refine (instrumentFilled hi).mono fun a hlo hhi => (hram a).trans (if_neg ?_)
    dsimp only [r, recBase] at *
    omega
  case copied =>
    refine (hram _).trans ?_
    rw [if_pos (by omega), hbase.romAt, Nat.add_sub_cancel_left]
  case kept =>
    refine (hram a).trans ?_
    rw [if_neg (by omega), ram8_recordsFilled_outside hrecords]

end Records

/-- Settles O41: the count, then record after record, each fault at the first byte outside ROM. -/
theorem initSoundFillsRecords : Obligations.InitSoundFillsRecords := by
  intro s src first hf hc ha n u r p b filled stopped
  have hrun : commandIntake s = initSound s.mbox src first s.consumed := by
    rw [commandIntake_action hc, ha]
    rfl
  refine ⟨fun h => ?countOut, fun h hn => ?tooMany, fun h hn hin => ?filledAll, fun k h hn hk hin =>
    ⟨fun x hx => ?address, fun j hp hj hbefore hout => ?block⟩⟩
  case countOut => exact ⟨_, step_cmd_error hf (hrun.trans (initSound_countFault h)), rfl⟩
  case tooMany => exact ⟨_, step_cmd_error hf (hrun.trans (initSound_tooMany h hn)), rfl⟩
  case filledAll =>
    refine ⟨_, step_cmd_ok hf (hrun.trans (initSound_ok h hn hin)), ?_, fun k hk => instrumentFilled hk,
      fun a houtside => ram8_recordsFilled_outside houtside⟩
    exact congrArg (fun v : State => (v.setChan 0).setFsm (.channels .start)) (recordsFilled_onlyRam n)
  case address =>
    exact ⟨_, step_cmd_error hf (hrun.trans (initSound_stops h hn hk hin (initStep_addressFault hx))),
      recordStopped k 0 x⟩
  case block =>
    exact ⟨_, step_cmd_error hf (hrun.trans (initSound_stops h hn hk hin (initStep_blockFault hp hj hbefore hout))),
      recordStopped k j _⟩

/-! ### The stop command (R115) -/

/-- The records of a stop command zeroed. -/
def State.recordsZeroed (s : State) (chans : List (Fin 30)) : State := chans.foldl (fun u j => u.zeroRecord j.val) s

theorem recordsZeroed_cons (j : Fin 30) (chans : List (Fin 30)) :
    s.recordsZeroed (j :: chans) = (s.zeroRecord j.val).recordsZeroed chans := by
  simp only [State.recordsZeroed, List.foldl_cons]

/-- The addresses of a run of bytes. -/
theorem mem_run {r n a : Nat} : a ∈ (List.range n).map (r + ·) ↔ r ≤ a ∧ a < r + n := by
  simp only [List.mem_map, List.mem_range]
  constructor
  · rintro ⟨k, hk, rfl⟩
    omega
  · rintro ⟨hlo, hhi⟩
    exact ⟨a - r, by omega, by omega⟩

theorem mem_recordAddrs {i a : Nat} : a ∈ recordAddrs i ↔ recBase i ≤ a ∧ a < recBase i + 32 := mem_run

theorem recordsZeroed_onlyRam (chans : List (Fin 30)) : OnlyRam s (s.recordsZeroed chans) := by
  induction chans generalizing s with
  | nil => exact .refl s
  | cons j chans ih =>
    rw [recordsZeroed_cons]
    exact OnlyRam.trans (zeroRecord_only j.val) ih

theorem ram8_recordsZeroed (chans : List (Fin 30)) (a : Nat) :
    (s.recordsZeroed chans).ram8 a = if a ∈ chans.flatMap fun j => recordAddrs j.val then 0 else s.ram8 a := by
  induction chans generalizing s with
  | nil => rfl
  | cons j chans ih =>
    rw [recordsZeroed_cons, ih, ram8_zeroRecord]
    by_cases hj : a ∈ recordAddrs j.val <;> simp [← mem_recordAddrs, hj]

/-- The inactive bit set in each slot of a list. -/
def State.slotsSilenced (s : State) (l : List Slot) : State :=
  l.foldl (fun u sl => u.setPcm8 (back sl 6) (u.pcm8 (back sl 6) ||| 0x01)) s

theorem slotsSilenced_cons (sl : Slot) (l : List Slot) :
    s.slotsSilenced (sl :: l) = (s.setPcm8 (back sl 6) (s.pcm8 (back sl 6) ||| 0x01)).slotsSilenced l := rfl

theorem each_silence_ok {l : List Slot} (h : ∀ sl ∈ l, sl.toNat ≤ 15) :
    each l silence s = .ok () (s.slotsSilenced l) := by
  induction l generalizing s with
  | nil => rfl
  | cons sl l ih =>
    rw [List.forall_mem_cons] at h
    obtain ⟨hsl, hl⟩ := h
    rw [each_cons_run, bind_of_ok (silence_ok hsl), ih hl, slotsSilenced_cons]

/-- The first slot above 15 raises PARAM, with the slots before it silenced. -/
theorem each_silence_fault {pre post : List Slot} {sl : Slot} (h : ∀ x ∈ pre, x.toNat ≤ 15) (hsl : 15 < sl.toNat) :
    each (pre ++ sl :: post) silence s = .error () ((s.slotsSilenced pre).raiseFault .param (zext16 sl)) := by
  rw [each_append_run, bind_of_ok (each_silence_ok h), each_cons_run, bind_of_error (silence_fault (not_le.2 hsl))]

theorem slotsSilenced_only (l : List Slot) : s.slotsSilenced l = { s with pcm := (s.slotsSilenced l).pcm } := by
  induction l generalizing s with
  | nil => rfl
  | cons sl l ih =>
    rw [slotsSilenced_cons]
    exact ih

/-- Setting the bit once or several times is the same. -/
theorem pcm8_slotsSilenced (l : List Slot) (a : Nat) :
    (s.slotsSilenced l).pcm8 a = if a ∈ l.map (back · 6) then s.pcm8 a ||| 0x01 else s.pcm8 a := by
  induction l generalizing s with
  | nil => rfl
  | cons sl l ih =>
    rw [slotsSilenced_cons, ih, pcm8_setPcm8]
    by_cases hsl : a = back sl 6
    · subst hsl
      simp [BitVec.or_assoc]
    · simp [hsl]

/-- A stop command has zeroed its records when it comes to its slots. -/
theorem stopChannels_run (chans : List (Fin 30)) (slots : List Slot) :
    stopChannels chans slots s = each slots silence (s.recordsZeroed chans) :=
  bind_of_ok (each_upd chans fun j u => u.zeroRecord j.val) _

/-- What a stop command leaves with the slots of `l` silenced: its records are zero, those slots are inactive, and
nothing else has changed. -/
theorem stopped_spec (chans : List (Fin 30)) (l : List Slot) :
    let t := (s.recordsZeroed chans).slotsSilenced l
    t = { s with ram := t.ram, pcm := t.pcm } ∧ (∀ j ∈ chans, ∀ b, b < 32 → t.ram8 (recBase j.val + b) = 0) ∧
      RamKept s t (chans.flatMap fun j => recordAddrs j.val) ∧
      (∀ sl ∈ l, t.pcm8 (back sl 6) = s.pcm8 (back sl 6) ||| 0x01) ∧ PcmKept s t (l.map fun sl => back sl 6) := by
  have hzero := ram8_recordsZeroed (s := s) chans
  have hsilent := pcm8_slotsSilenced (s := s.recordsZeroed chans) l
  obtain ⟨p, hp⟩ : ∃ p, (s.recordsZeroed chans).slotsSilenced l = { s.recordsZeroed chans with pcm := p } :=
    ⟨_, slotsSilenced_only l⟩
  obtain ⟨m, hm⟩ : ∃ m, s.recordsZeroed chans = { s with ram := m } := ⟨_, recordsZeroed_onlyRam chans⟩
  rw [hp, hm] at hsilent
  rw [hm] at hzero
  rw [hp, hm]
  refine ⟨rfl, fun j hj b hb => ?_, fun a ha => ?_, fun sl hsl => ?_, fun a ha => ?_⟩
  · exact (hzero _).trans (if_pos (List.mem_flatMap.2 ⟨j, hj, mem_recordAddrs.2 (by omega)⟩))
  · exact (hzero a).trans (if_neg ha)
  · exact (hsilent _).trans (if_pos (List.mem_map_of_mem hsl))
  · exact (hsilent a).trans (if_neg ha)

theorem action_stopCheers (c : Config) : c.action c.cmdStopCheers = .stop [14, 15] [c.cheerSlot1, c.cheerSlot2] :=
  if_pos rfl

/-- Settles O42: the records first, then the slots up to the first above 15. -/
theorem stopCommandSilences : Obligations.StopCommandSilences := by
  intro s chans slots hf hc u silenced
  have hrun (ha : s.cfg.action s.mbox = .stop chans slots) :
      commandIntake s = each slots silence (s.consumed.recordsZeroed chans) := by
    rw [commandIntake_action hc, ha]
    exact stopChannels_run chans slots
  refine ⟨fun h => ?cheers, fun ha hs => ?stops, fun pre sl post ha hslots hpre hsl => ?slotFault⟩
  case cheers => rw [h, action_stopCheers]
  case stops =>
    obtain ⟨honly, hsilenced⟩ := stopped_spec (s := s.consumed) chans slots
    exact ⟨_, step_cmd_ok hf ((hrun ha).trans (each_silence_ok hs)),
      congrArg (fun v : State => (v.setChan 0).setFsm (.channels .start)) honly, hsilenced⟩
  case slotFault =>
    obtain ⟨honly, hsilenced⟩ := stopped_spec (s := s.consumed) chans pre
    subst hslots
    exact ⟨_, step_cmd_error hf ((hrun ha).trans (each_silence_fault hpre hsl)),
      congrArg (State.raiseFault · .param (zext16 sl)) honly, hsilenced⟩

end Sys2Proof.Machine

namespace Sys2Proof

open Machine

/-- Settles O40: the four classes of the mailbox byte. -/
theorem commandIntake : Obligations.CommandIntake := by
  intro s hf u
  refine ⟨fun h => ?empty, fun h0 h => ?reserved, fun h ha => ?ignored, fun h ha => ?undefined⟩
  case empty => exact step_cmd_ok hf (commandIntake_empty h)
  case reserved => exact ⟨_, step_cmd_error hf (commandIntake_reserved h0 h), rfl⟩
  case ignored => exact step_cmd_ok hf (by rw [commandIntake_action h, ha]; rfl)
  case undefined => exact ⟨_, step_cmd_error hf (by rw [commandIntake_action h, ha]; rfl), rfl⟩

end Sys2Proof
end

section
/-!
The channel step outside the Process Section (40_sequencer.md R116 to R119, R130 to R137): the counter, the refresh with
its modulation step, write suppression, and the order of the channel pass.
-/

namespace Sys2Proof.Machine

variable {s t u : State} {i : Nat}

/-! ### Write suppression (R136) -/

theorem suppressed_iff (i : Nat) :
    s.suppressed i = true ↔
      (bit (s.ch i Fld.route) 7 = true ∨
        ∃ j, j < 30 ∧ j ≠ i ∧ bit (s.ch j Fld.flags) 7 = true ∧ bit (s.ch j Fld.flags) 2 = true ∧
          s.cfg.corrOf j = some i) := by
  simp only [State.suppressed, Bool.or_eq_true, List.any_eq_true, List.mem_range, Bool.and_eq_true, bne_iff_ne,
    beq_iff_eq]
  refine or_congr_right (exists_congr fun j => and_congr_right fun _ => ?_)
  constructor
  · rintro ⟨⟨⟨hne, hcorr⟩, henabled⟩, hmute⟩
    exact ⟨hne, henabled, hmute, hcorr⟩
  · rintro ⟨hne, henabled, hmute, hcorr⟩
    exact ⟨⟨⟨hne, hcorr⟩, henabled⟩, hmute⟩

/-- Settles O8: the two conditions of suppression, and the guard. -/
theorem guardedWrites : Obligations.GuardedWrites := fun _ i reg val =>
  ⟨suppressed_iff i, fun h => gfmWrite_suppressed h reg val, fun h => gfmWrite_heard h reg val⟩

/-- Suppression depends on ROUTE and FLAGS only (R25, R26): a write of other fields of a record leaves it. -/
theorem suppressed_of_ramKept {fields : List Nat} (hr : RamKept s t (fields.map (recBase i + ·)))
    (hf : ∀ f ∈ fields, 2 ≤ f ∧ f < 32) (hc : t.cfg = s.cfg) (k : Nat) : t.suppressed k = s.suppressed k := by
  have hch (j f : Nat) (h : f < 2) : t.ch j f = s.ch j f := by
    refine hr _ fun hmem => ?_
    obtain ⟨g, hg, he⟩ := List.mem_map.mp hmem
    obtain ⟨hlo, hhi⟩ := hf g hg
    simp only [recBase] at he
    omega
  simp only [State.suppressed, State.enabled, State.muteCorr, hc, hch _ Fld.route (by decide),
    hch _ Fld.flags (by decide)]

/-! ### The counter and the start of a section (R117 to R119) -/

theorem step_start (hf : s.fsm = .channels .start) (hc : s.chan.toNat < 30) :
    step s = .next (after (channelStart s.me s)) := by
  simp only [step, hf, onChannel_ok channelStart hc]

/-- A disabled record is passed over. -/
theorem channelStart_disabled (h : s.enabled i = false) : channelStart i s = .ok () (s.setFsm (.channels .done)) := by
  simp only [channelStart, bind_look, h, Bool.false_eq_true, if_false, endChannelStep, upd_run]

/-- The record with its counter moved on. -/
def State.counted (s : State) (i : Nat) : State := s.setCh16 i Fld.seqpos (s.ch16 i Fld.seqpos + 1)

theorem counted_seqpos (i : Nat) : (s.counted i).ch16 i Fld.seqpos = s.ch16 i Fld.seqpos + 1 := ram16_setRam16 _ _

theorem counted_ramKept (i : Nat) :
    RamKept s (s.counted i) [recBase i + Fld.seqpos, recBase i + Fld.seqpos + 1] := by
  intro a ha
  simp only [List.mem_cons, List.not_mem_nil, or_false, not_or] at ha
  rw [State.counted, ram8_setCh16, if_neg ha.2, if_neg ha.1]

/-- The fields after the counter stay. -/
theorem counted_ch16 (i : Nat) {f : Nat} (h : Fld.seqpos + 1 < f) : (s.counted i).ch16 i f = s.ch16 i f := by
  have hb (a : Nat) (ha : recBase i + Fld.seqpos + 1 < a) : (s.counted i).ram8 a = s.ram8 a :=
    counted_ramKept i a (by simp; omega)
  rw [State.ch16, State.ram16, hb _ (by omega), hb _ (by omega)]
  rfl

/-- The section begins at CMDPTR when the new count meets SEQEND; else the refresh follows. -/
theorem channelStart_enabled (h : s.enabled i = true) :
    channelStart i s = .ok () (if s.ch16 i Fld.seqpos + 1 = s.ch16 i Fld.seqend then
      ((s.counted i).setCur (s.ch16 i Fld.cmdptr)).setFsm (.channels .fetch)
      else (s.counted i).setFsm (.channels .refresh)) := by
  have hpos := counted_seqpos (s := s) i
  have hend := counted_ch16 (s := s) i (f := Fld.seqend) (by decide)
  have hptr := counted_ch16 (s := s) i (f := Fld.cmdptr) (by decide)
  rw [State.counted] at hpos hend hptr ⊢
  simp only [channelStart, bind_look, h, if_true, bind_upd, hpos, hend, beq_iff_eq]
  split <;> simp only [bind_upd, upd_run, hptr]

/-- Settles O43: a disabled record, and an enabled one by its new count. -/
theorem channelStepCounts : Obligations.ChannelStepCounts := by
  intro s hc hf pos
  rw [step_start hf hc]
  refine ⟨fun h => ?disabled, fun h => ?enabled⟩
  case disabled =>
    rw [channelStart_disabled h]
    rfl
  case enabled =>
    rw [channelStart_enabled h, after_ok]
    by_cases he : pos = s.ch16 s.me Fld.seqend
    · rw [if_pos he]
      exact ⟨_, rfl, counted_seqpos s.me, counted_ramKept s.me, fun _ => rfl, fun hne => absurd he hne⟩
    · rw [if_neg he]
      exact ⟨_, rfl, counted_seqpos s.me, counted_ramKept s.me, fun heq => absurd heq he, fun _ => rfl⟩

/-! ### The order of the channel pass (R116) -/

/-- The end of a channel step: after record 29 what follows the pass, else the next record. -/
theorem step_done (hf : s.fsm = .channels .done) (hc : s.chan.toNat < 30) :
    step s = .next (if s.chan = 29 then { s with chanPrev := s.chan, fsm := s.afterChannels }
      else { s with chanPrev := s.chan, chan := s.chan + 1, fsm := .channels .start }) := by
  have h29 : s.chan.toNat = 29 ↔ s.chan = 29 := by
    rw [← BitVec.toNat_inj]
    rfl
  simp only [step, hf, onChannel_ok channelDone hc, channelDone, bind_upd, h29]
  split <;> rfl

/-- Settles O44: the last record by TOG, and any other. -/
theorem channelPassOrder : Obligations.ChannelPassOrder := by
  intro s hc hf
  rw [step_done hf hc]
  refine ⟨fun h => ?_, fun h ht => ?_, fun h ht => ?_⟩
  · rw [if_neg h]
  · rw [if_pos h, State.afterChannels, if_pos ht]
  · rw [if_pos h, State.afterChannels, ht]
    rfl

/-! ### The modulation step (R132, R133) -/

/-- The address of the modulation byte, PHOFF having advanced. -/
def State.modAddr (s : State) (i : Nat) : Word :=
  s.cfg.modTab.get (s.ch i Fld.modsel) + zext16 (s.ch i Fld.phoff + 1)

/-- The record with PHOFF advanced. -/
def State.phaseAdvanced (s : State) (i : Nat) : State := s.setCh i Fld.phoff (s.ch i Fld.phoff + 1)

theorem ch_setCh (i f g : Nat) (v : Byte) : (s.setCh i f v).ch i g = if g = f then v else s.ch i g := by
  simp [State.ch]

/-- The byte read outside ROM faults, the byte 0xFC faults, and any other acts on PHOFF and PHAMP. -/
theorem modStep_run (i : Nat) :
    modStep i s =
      if (s.modAddr i).toNat < s.cfg.romSize then
        if s.romAt (s.modAddr i) = 0xFC then .error () ((s.phaseAdvanced i).raiseFault .modtabFc (s.modAddr i))
        else .ok () ((s.phaseAdvanced i).modByte i (s.romAt (s.modAddr i)))
      else .error () ((s.phaseAdvanced i).raiseFault .romRange (s.modAddr i)) := by
  have ha : (s.phaseAdvanced i).cfg.modTab.get ((s.phaseAdvanced i).ch i Fld.modsel) +
      zext16 ((s.phaseAdvanced i).ch i Fld.phoff) = s.modAddr i := by
    simp [State.phaseAdvanced, State.modAddr, ch_setCh]
  rw [State.phaseAdvanced] at ha
  simp only [modStep, bind_upd, bind_look, ha]
  split
  next h =>
    rw [bind_rom8_ok (by exact h), State.romAt_setCh]
    split <;> rfl
  next h => exact bind_of_error (rom8_fault (s := s.phaseAdvanced i) h) _

theorem phaseAdvanced_ch (i f : Nat) :
    (s.phaseAdvanced i).ch i f = if f = Fld.phoff then s.ch i Fld.phoff + 1 else s.ch i f := ch_setCh _ _ _ _

/-- A modulation byte writes PHOFF or PHAMP only. -/
theorem phaseAdvanced_modByte_kept (i : Nat) (v : Byte) :
    OnlyRam s ((s.phaseAdvanced i).modByte i v) ∧
      RamKept s ((s.phaseAdvanced i).modByte i v) ([Fld.phoff, Fld.phamp].map (recBase i + ·)) := by
  unfold State.modByte
  have hkept (f : Nat) (w : Byte) (hf : f = Fld.phoff ∨ f = Fld.phamp) :
      RamKept s ((s.phaseAdvanced i).setCh i f w) ([Fld.phoff, Fld.phamp].map (recBase i + ·)) := by
    intro a ha
    simp only [List.map_cons, List.map_nil, List.mem_cons, List.not_mem_nil, or_false, not_or] at ha
    obtain ⟨hoff, hamp⟩ := ha
    rw [ram8_setCh, State.phaseAdvanced, ram8_setCh, if_neg hoff]
    rcases hf with rfl | rfl
    · exact if_neg hoff
    · exact if_neg hamp
  split
  · exact ⟨rfl, hkept _ _ (.inl rfl)⟩
  · split
    · exact ⟨rfl, hkept _ _ (.inl rfl)⟩
    · exact ⟨rfl, hkept _ _ (.inr rfl)⟩

theorem ror2_eq_rotateRight (v : Byte) : ror2 v = v.rotateRight 2 := rfl

/-- The byte by its three cases: it resets PHOFF, holds it, or sets PHAMP. -/
theorem phaseAdvanced_modByte_cases (i : Nat) (v : Byte) :
    let t := (s.phaseAdvanced i).modByte i v
    (v = 0xFD → t.ch i Fld.phoff = 0 ∧ t.ch i Fld.phamp = s.ch i Fld.phamp) ∧
    (v = 0xFE → t.ch i Fld.phoff = s.ch i Fld.phoff ∧ t.ch i Fld.phamp = s.ch i Fld.phamp) ∧
    (v ≠ 0xFD → v ≠ 0xFE → t.ch i Fld.phoff = s.ch i Fld.phoff + 1 ∧ t.ch i Fld.phamp = v.rotateRight 2) := by
  unfold State.modByte
  refine ⟨fun h => ?reset, fun h => ?hold, fun hreset hhold => ?set⟩
  case reset => simp [h, ch_setCh, phaseAdvanced_ch]
  case hold => simp [h, ch_setCh, phaseAdvanced_ch]
  case set =>
    rw [if_neg hreset, if_neg hhold]
    simp [ch_setCh, phaseAdvanced_ch, ror2_eq_rotateRight]

theorem inRom_modAddr : s.inRom [s.modAddr i] = true ↔ (s.modAddr i).toNat < s.cfg.romSize := by simp [inRom_cons]

theorem modStep_ok (h : s.inRom [s.modAddr i] = true) (hv : s.romAt (s.modAddr i) ≠ 0xFC) :
    modStep i s = .ok () ((s.phaseAdvanced i).modByte i (s.romAt (s.modAddr i))) := by
  rw [modStep_run, if_pos (inRom_modAddr.1 h), if_neg hv]

theorem modStep_forbidden (h : s.inRom [s.modAddr i] = true) (hv : s.romAt (s.modAddr i) = 0xFC) :
    modStep i s = .error () ((s.phaseAdvanced i).raiseFault .modtabFc (s.modAddr i)) := by
  rw [modStep_run, if_pos (inRom_modAddr.1 h), if_pos hv]

theorem modStep_outOfRom (h : s.inRom [s.modAddr i] = false) :
    modStep i s = .error () ((s.phaseAdvanced i).raiseFault .romRange (s.modAddr i)) := by
  rw [modStep_run, if_neg fun hc => by simp [inRom_modAddr.2 hc] at h]

/-- A modulation step that ends without a fault writes Channel RAM only, and there PHOFF and PHAMP only. -/
theorem modStep_kept (h : modStep i s = .ok () u) :
    OnlyRam s u ∧ RamKept s u ([Fld.phoff, Fld.phamp].map (recBase i + ·)) := by
  rw [modStep_run] at h
  split at h
  next =>
    split at h
    next => cases h
    next =>
      cases h
      exact phaseAdvanced_modByte_kept i _
  next => cases h

/-- Settles O46: the byte in ROM, by what it asks for. -/
theorem modulationStep : Obligations.ModulationStep := by
  intro s i o a v
  refine ⟨fun h hv => ?byte, fun h hv => ⟨_, modStep_forbidden h hv, rfl⟩⟩
  obtain ⟨honly, hkept⟩ := phaseAdvanced_modByte_kept (s := s) i v
  exact ⟨_, modStep_ok h hv, honly, hkept, phaseAdvanced_modByte_cases i v⟩

/-! ### The refresh (R130, R131, R136) -/

theorem step_refresh (hf : s.fsm = .channels .refresh) (hc : s.chan.toNat < 30) :
    step s = .next (after (refreshStep s.me s)) := by
  simp only [step, hf, onChannel_ok refreshStep hc]

/-- A PCM channel has no refresh. -/
theorem refreshStep_pcm (h : s.isPcm i = true) : refreshStep i s = .ok () (s.setFsm (.channels .done)) := by
  simp only [refreshStep, bind_look, h, if_true, endChannelStep, upd_run]

theorem refreshStep_fm (h : s.isPcm i = false) :
    refreshStep i s = (onlyIf (s.ch i Fld.modsel != 0) (modStep i) >>= fun _ => do
      upd (·.keyWrites i)
      endChannelStep) s := by
  simp only [refreshStep, bind_look, h, Bool.false_eq_true, if_false, fmRefresh, bind_assoc_run]

/-- An FM channel comes to its writes in the state its modulation leaves. -/
theorem refreshStep_modulated (h : s.isPcm i = false) (hm : Modulated s u i) :
    refreshStep i s = .ok () ((u.keyWrites i).setFsm (.channels .done)) := by
  have hrun : onlyIf (s.ch i Fld.modsel != 0) (modStep i) s = .ok () u := by
    unfold Modulated at hm
    rw [onlyIf_run]
    split at hm
    next h0 => rw [if_neg (by simp [h0]), hm]
    next h0 => rw [if_pos (by simpa using h0), hm]
  rw [refreshStep_fm h, bind_of_ok hrun]
  rfl

/-- A fault of the modulation step ends the channel step. -/
theorem refreshStep_fault (h : s.isPcm i = false) (h0 : s.ch i Fld.modsel ≠ 0) (hm : modStep i s = .error () u) :
    refreshStep i s = .error () u := by
  rw [refreshStep_fm h]
  refine bind_of_error ?_ _
  rw [onlyIf_run, if_pos (by simpa using h0), hm]

/-- The modulation of a refresh writes Channel RAM only, and nothing that decides whether a record is suppressed. -/
theorem Modulated.kept (h : Modulated s u i) : OnlyRam s u ∧ u.suppressed i = s.suppressed i := by
  unfold Modulated at h
  split at h
  next =>
    subst h
    exact ⟨.refl u, rfl⟩
  next =>
    obtain ⟨honly, hram⟩ := modStep_kept h
    exact ⟨honly, suppressed_of_ramKept hram (by decide) honly.cfg i⟩

/-- The guarded writes of a suppressed record do nothing. -/
theorem keyWrites_suppressed (h : s.suppressed i = true) : s.keyWrites i = s := by
  simp only [State.keyWrites, gfmWrite_suppressed h, ite_self]

/-- Settles O45: a PCM channel, an FM channel that is heard, and the two ends by a fault. -/
theorem refreshWritesKeys : Obligations.RefreshWritesKeys := by
  intro s hc hf o a
  rw [step_refresh hf hc]
  refine ⟨fun h => ?pcm, fun u h hm hs => ?heard, fun u h h0 hm => ?fault, fun h h0 hout => ?outOfRom⟩
  case pcm =>
    rw [refreshStep_pcm h]
    rfl
  case heard =>
    obtain ⟨honly, hsup⟩ := hm.kept
    rw [refreshStep_modulated h hm, keyWrites_heard (hsup.trans hs)]
    refine ⟨rfl, fun answers rest hin hlen => ?_⟩
    obtain ⟨m, rfl⟩ : ∃ m, u = { s with ram := m } := ⟨_, honly⟩
    exact fmWrites_answered hin hlen
  case fault =>
    rw [refreshStep_fault h h0 hm]
    rfl
  case outOfRom =>
    rw [refreshStep_fault h h0 (modStep_outOfRom hout)]
    exact ⟨_, rfl, rfl⟩

/-- Settles O47: no write of a suppressed record reaches the port, and the modulation before them is made. -/
theorem suppressedRefreshIsSilent : Obligations.SuppressedRefreshIsSilent := by
  intro s hc hf h hs
  rw [step_refresh hf hc]
  refine ⟨fun h0 => ?plain, fun u h0 hm => ?modulated⟩
  case plain =>
    rw [refreshStep_modulated h (u := s) (by rw [Modulated, if_pos h0]), keyWrites_suppressed hs]
    rfl
  case modulated =>
    have hmod : Modulated s u s.me := by rwa [Modulated, if_neg h0]
    obtain ⟨honly, hsup⟩ := hmod.kept
    rw [refreshStep_modulated h hmod, keyWrites_suppressed (hsup.trans hs)]
    exact congrArg (fun v : State => Host.Outcome.next (v.setFsm (.channels .done))) honly

end Sys2Proof.Machine
end

section
/-!
The note instruction (40_sequencer.md R123 to R129): the note byte by the class of the channel, then the end marker, in
ROM and not.
-/

namespace Sys2Proof.Machine

variable {s t u : State} {i : Nat} {n : BitVec 7} {d1 d2 : Byte}

/-! ### The end marker outside ROM (R128, 20_memory.md R61) -/

theorem durationBytes_pos (i : Nat) : 0 < s.durationBytes i := by
  unfold State.durationBytes
  split <;> decide

/-- A duration byte outside ROM: the first one, or the second one of a note that has two. -/
theorem endMarker_fault (d1 d2 : Byte) (h : s.romHas (s.durationBytes i) = false) :
    ∃ u, endMarker i d1 d2 s = .error () u ∧ FetchFaults s u (s.durationBytes i) := by
  by_cases h0 : (s.cur + 1).toNat < s.cfg.romSize
  · have hwide : (s.emFlag i EmFlags.lit && s.emFlag i EmFlags.hi) = true := by
      by_contra hn
      rw [State.durationBytes, if_neg hn, romHas_one, decide_eq_true h0] at h
      cases h
    rw [State.durationBytes, if_pos hwide] at h ⊢
    rw [romHas_next, decide_eq_true h0, Bool.true_and, romHas_one, decide_eq_false_iff_not] at h
    refine ⟨_, ?_, fetchFaults_next h0 (fetchFaults_first Nat.one_pos h)⟩
    have hwide' : ((s.setCur (s.cur + 1)).emFlag i EmFlags.lit && (s.setCur (s.cur + 1)).emFlag i EmFlags.hi) = true :=
      hwide
    rw [endMarker, bind_next8_ok h0, bind_look, hwide']
    exact bind_next8_fault h _
  · exact ⟨_, bind_next8_fault h0 _, fetchFaults_first (durationBytes_pos i) h0⟩

/-! ### The note byte (R123, R124, R126, R127) -/

/-- On a PCM channel it writes nothing. -/
theorem noteByte_pcm (h : s.isPcm i = true) : noteByte i n s = .ok () s := by
  rw [noteByte]
  split
  · simp [h]
  · simp [h]

/-- The address of the table byte of a note (R126). -/
def State.noteAddr (s : State) (i : Nat) (n : BitVec 7) : Word :=
  s.cfg.noteTable + zext16 (n.setWidth 8 + s.ch i Fld.noteoff)

theorem noteByte_table (hn : n ≠ 0) (h : s.isPcm i = false) :
    noteByte i n s = (rom8 (s.noteAddr i n) >>= fun v => upd (·.setCh i Fld.note v)) s := by
  rw [noteByte, if_neg hn]
  simp only [bind_look, h, Bool.false_eq_true, if_false, State.noteAddr]

theorem noteByte_inRom (hn : n ≠ 0) (h : s.isPcm i = false) (ha : s.inRom [s.noteAddr i n] = true) :
    noteByte i n s = .ok () (s.setCh i Fld.note (s.romAt (s.noteAddr i n))) := by
  rw [noteByte_table hn h, bind_rom8_ok (by simpa [inRom_cons] using ha), upd_run]

theorem noteByte_outOfRom (hn : n ≠ 0) (h : s.isPcm i = false) (ha : s.inRom [s.noteAddr i n] = false) :
    noteByte i n s = .error () (s.raiseFault .romRange (s.noteAddr i n)) := by
  rw [noteByte_table hn h]
  exact bind_of_error (rom8_fault (by simpa [inRom_cons] using ha)) _

/-- Note 0 writes the mute sentinel unless the corresponding music channel is active. -/
theorem noteByte_zero (h : s.isPcm i = false) :
    noteByte i 0 s = .ok () (if s.musicActive i then s else s.setCh i Fld.note 0xFF) := by
  cases hm : s.musicActive i <;> simp [noteByte, h, hm]

theorem musicActive_iff :
    s.musicActive i = true ↔ ∃ j, s.cfg.corrOf i = some j ∧ bit (s.ch j Fld.flags) 7 = true := by
  unfold State.musicActive
  cases s.cfg.corrOf i <;> simp [State.enabled]

/-! ### The end marker after the note byte -/

/-- From `s` to `u` at most the note field of record `i` was written. -/
structure NoteWritten (s u : State) (i : Nat) : Prop where
  only : OnlyRam s u
  ram : RamKept s u [recBase i + Fld.note]

theorem NoteWritten.refl (s : State) (i : Nat) : NoteWritten s s i := ⟨.refl s, fun _ _ => rfl⟩

theorem noteWritten_setCh (i : Nat) (v : Byte) : NoteWritten s (s.setCh i Fld.note v) i := ⟨rfl, ramKept_setRam8 _ _⟩

namespace NoteWritten

variable (h : NoteWritten s u i)
include h

theorem ch {f : Nat} (hf : f ≠ Fld.note) : u.ch i f = s.ch i f := h.ram _ (by simpa using hf)

theorem cur : u.cur = s.cur := by rw [h.only]

theorem romHas (k : Nat) : u.romHas k = s.romHas k := by
  rw [h.only]
  rfl

theorem emFlag (k : Nat) : u.emFlag i k = s.emFlag i k := congrArg (bit · k) (h.ch (f := Fld.emflags) (by decide))

theorem durationBytes : u.durationBytes i = s.durationBytes i := by simp only [State.durationBytes, h.emFlag]

theorem duration : u.duration i d1 d2 = s.duration i d1 d2 := by
  simp only [State.duration, h.emFlag, h.ch (f := Fld.emscale) (by decide)]

/-- The end of a section does not depend on the note field. -/
theorem endsSection (he : EndsSection u t i d1 d2) : EndsSection s t i d1 d2 := by
  rw [EndsSection, h.duration, h.durationBytes, h.cur, h.ch (f := Fld.emflags) (by decide)] at he
  exact he

theorem onlyRamCurFsm (he : OnlyRamCurFsm u t) : OnlyRamCurFsm s t := by
  obtain ⟨m, rfl⟩ : ∃ m, u = { s with ram := m } := ⟨_, h.only⟩
  exact he

theorem ramKept {l : List Nat} (hr : RamKept u t l) : RamKept s t ((recBase i + Fld.note) :: l) := by
  intro a ha
  obtain ⟨hnote, hl⟩ := not_or.mp (mt List.mem_cons.mpr ha)
  rw [hr a hl, h.ram a (by simpa using hnote)]

end NoteWritten

/-- An end marker leaves the note field. -/
theorem note_of_endAddrs (hr : RamKept u t (endAddrs i)) : t.ch i Fld.note = u.ch i Fld.note :=
  hr _ (by simp [endAddrs, Fld.note, Fld.seqpos, Fld.seqend, Fld.cmdptr])

/-- A note is its note byte, its end marker and the end of the section (R123). -/
theorem exec_note (hc : s.chan.toNat < 30) :
    exec (.note n d1 d2) s = .next (after ((noteByte s.me n >>= fun _ => do
      endMarker s.me d1 d2
      upd (·.setFsm (.channels .refresh))) s)) := if_pos hc

/-- A note whose duration bytes lie in ROM ends the section in the state its note byte leaves. -/
theorem exec_note_ok (hc : s.chan.toNat < 30) (hn : noteByte s.me n s = .ok () u) (hu : NoteWritten s u s.me)
    (h : s.romHas (s.durationBytes s.me) = true) (d1 d2 : Byte) :
    ∃ t, exec (.note n d1 d2) s = .next t ∧ EndsSection s t s.me d1 d2 ∧ RamKept u t (endAddrs s.me) ∧
      OnlyRamCurFsm s t := by
  obtain ⟨hends, hkept, honly⟩ := endMarked_spec (s := u) s.me d1 d2
  rw [← hu.durationBytes, ← hu.romHas] at h
  have hrun : exec (.note n d1 d2) s = .next ((endMarked u s.me d1 d2).setFsm (.channels .refresh)) := by
    rw [exec_note hc, bind_of_ok hn, bind_of_ok (endMarker_ok s.me d1 d2 h)]
    rfl
  exact ⟨_, hrun, hu.endsSection hends, hkept, hu.onlyRamCurFsm (congrArg (State.setFsm · (.channels .refresh)) honly)⟩

/-- A duration byte outside ROM faults with what the note byte wrote. -/
theorem exec_note_fault (hc : s.chan.toNat < 30) (hn : noteByte s.me n s = .ok () u) (hu : NoteWritten s u s.me)
    (h : s.romHas (s.durationBytes s.me) = false) (d1 d2 : Byte) :
    ∃ t, exec (.note n d1 d2) s = .next t ∧ FetchFaults u t (s.durationBytes s.me) := by
  rw [← hu.durationBytes, ← hu.romHas] at h
  obtain ⟨t, ht, hf⟩ := endMarker_fault d1 d2 h
  rw [hu.durationBytes] at hf
  refine ⟨t, ?_, hf⟩
  rw [exec_note hc, bind_of_ok hn, bind_of_error ht, after_error]

/-! ### The three kinds of note -/

/-- Settles O27: a table byte in ROM and the duration bytes in and outside ROM, and a table byte outside ROM. -/
theorem noteOnFmChannel : Obligations.NoteOnFmChannel := by
  intro s n d1 d2 hc hn hp a
  have hu := noteWritten_setCh (s := s) s.me (s.romAt a)
  refine ⟨fun ha h => ?ends, fun ha h => ?durationOut, fun ha => ?tableOut⟩
  case ends =>
    obtain ⟨t, ht, hends, hkept, honly⟩ := exec_note_ok hc (noteByte_inRom hn hp ha) hu h d1 d2
    refine ⟨t, ht, ?_, hends, hu.ramKept hkept, honly⟩
    rw [note_of_endAddrs hkept, ch_setCh, if_pos rfl]
    rfl
  case durationOut => exact exec_note_fault hc (noteByte_inRom hn hp ha) hu h d1 d2
  case tableOut =>
    refine ⟨_, ?_, faulted_romRange a⟩
    rw [exec_note hc, bind_of_error (noteByte_outOfRom hn hp ha)]
    rfl

/-- Settles O28: the note byte writes nothing, so the end marker is all. -/
theorem noteOnPcmChannel : Obligations.NoteOnPcmChannel := by
  intro s n d1 d2 hc hp
  have hu := NoteWritten.refl s s.me
  exact ⟨fun h => exec_note_ok hc (noteByte_pcm hp) hu h d1 d2,
    fun h => exec_note_fault hc (noteByte_pcm hp) hu h d1 d2⟩

/-- Settles O29: with the music channel active the note byte writes nothing, else the sentinel. -/
theorem noteZeroMutes : Obligations.NoteZeroMutes := by
  intro s d1 d2 hc hp music
  by_cases hm : s.musicActive s.me = true
  · have hmusic : music := musicActive_iff.1 hm
    have hu := NoteWritten.refl s s.me
    have hn : noteByte s.me 0 s = .ok () s := by rw [noteByte_zero hp, if_pos hm]
    refine ⟨fun h => ?_, fun h => ?_⟩
    · obtain ⟨t, ht, hends, hkept, honly⟩ := exec_note_ok hc hn hu h d1 d2
      exact ⟨t, ht, hends, honly, hu.ramKept hkept, fun _ => note_of_endAddrs hkept, fun hno => absurd hmusic hno⟩
    · obtain ⟨t, ht, hf⟩ := exec_note_fault hc hn hu h d1 d2
      exact ⟨t, ht, fun _ => hf, fun hno => absurd hmusic hno⟩
  · have hmute : ¬ music := fun h => hm (musicActive_iff.2 h)
    have hu := noteWritten_setCh (s := s) s.me 0xFF
    have hn : noteByte s.me 0 s = .ok () (s.setCh s.me Fld.note 0xFF) := by rw [noteByte_zero hp, if_neg hm]
    refine ⟨fun h => ?_, fun h => ?_⟩
    · obtain ⟨t, ht, hends, hkept, honly⟩ := exec_note_ok hc hn hu h d1 d2
      refine ⟨t, ht, hends, honly, hu.ramKept hkept, fun hyes => absurd hyes hmute, fun _ => ?_⟩
      rw [note_of_endAddrs hkept, ch_setCh, if_pos rfl]
    · obtain ⟨t, ht, hf⟩ := exec_note_fault hc hn hu h d1 d2
      exact ⟨t, ht, fun hyes => absurd hyes hmute, fun _ => hf⟩

end Sys2Proof.Machine
end

section
/-!
A quiet tick (40_sequencer.md R110, R111, R138, R139): the channel pass over disabled records, the engine pass with
volume 0 (43_engine_tone.md R204, R211), the traffic pass with a volume index of 0 (44_traffic_fx.md R232, R238), and
the whole tick step by step.
-/

namespace Sys2Proof.Machine

variable {s t u : State}

/-! ### The channel pass over disabled records (R116, R117) -/

theorem step_start_disabled (hf : s.fsm = .channels .start) (hc : s.chan.toNat < 30) (hd : s.enabled s.me = false) :
    step s = .next { s with fsm := .channels .done } := by
  rw [step_start hf hc, channelStart_disabled hd]
  rfl

/-- Two steps for each record from CHAN to 29, and what follows the pass. -/
theorem steps_channelPass {m : Nat} (hf : s.fsm = .channels .start) (hm : s.chan.toNat + m = 29)
    (hd : ∀ i, i < 30 → s.enabled i = false) :
    steps (2 * m + 2) s = .next { s with chan := 29, chanPrev := 29, fsm := s.afterChannels } := by
  have hc : s.chan.toNat < 30 := by omega
  have hstart := step_start_disabled hf hc (hd _ hc)
  have hdone := step_done (s := { s with fsm := .channels .done }) rfl hc
  induction m generalizing s with
  | zero =>
    have h29 : s.chan = 29 := BitVec.eq_of_toNat_eq hm
    rw [if_pos h29] at hdone
    rw [steps_succ _ hstart, steps_one hdone, h29]
    rfl
  | succ m ih =>
    have h29 : s.chan ≠ 29 := fun h => by
      rw [h] at hm
      simp at hm
    have hnext : (s.chan + 1).toNat = s.chan.toNat + 1 := by
      rw [BitVec.toNat_add]
      simp
      omega
    rw [if_neg h29] at hdone
    rw [show 2 * (m + 1) + 2 = 2 * m + 2 + 1 + 1 by omega, steps_succ _ hstart, steps_succ _ hdone]
    have hlt : (s.chan + 1).toNat < 30 := by omega
    exact ih (s := { s with chanPrev := s.chan, chan := s.chan + 1, fsm := .channels .start }) rfl (by
      show (s.chan + 1).toNat + m = 29
      omega) hd hlt (step_start_disabled rfl hlt (hd _ hlt)) (step_done rfl hlt)

/-- The state a tick pulse in IDLE leaves (R111, R138). -/
def State.tickBegun (s : State) (rest : List Event) : State :=
  { s with fsm := .cmd, tog := !s.tog, events := rest, mboxAck := false }

/-- A tick of which the command intake and the channel pass are quiet (R111, R112). -/
theorem steps_quietChannels {rest : List Event} (hf : s.fsm = .idle) (he : s.events = .tick :: rest)
    (hm : s.mbox = 0) (hd : ∀ i, i < 30 → s.enabled i = false) :
    steps 62 s = .next { s with
      tog := !s.tog, chan := 29, chanPrev := 29, events := rest, mboxAck := false,
      fsm := if s.tog then .idle else .engine .e1 } := by
  have htick : step s = .next (s.tickBegun rest) := step_tick_idle hf he
  have hcmd := step_cmd_ok (s := s.tickBegun rest) rfl (commandIntake_empty hm)
  rw [steps_succ _ htick, steps_succ _ hcmd]
  have hpass := steps_channelPass (s := ((s.tickBegun rest).setChan 0).setFsm (.channels .start)) (m := 29) rfl rfl hd
  refine hpass.trans ?_
  unfold State.afterChannels State.tickBegun
  cases s.tog <;> rfl

/-! ### The records of the engine and traffic passes (10_state.md R34, R36, R37) -/

theorem engCh_num_bounds (n : EngCh) : 1 ≤ n.num ∧ n.num ≤ 6 := by cases n <;> decide

theorem engCh_num_injective {m n : EngCh} (h : m.num = n.num) : m = n := by
  revert h
  cases m <;> cases n <;> decide

theorem engCh_odd_iff (n : EngCh) : n.odd = true ↔ n.num % 2 = 1 := beq_iff_eq

theorem trfCh_num_bounds (c : TrfCh) : 1 ≤ c.num ∧ c.num ≤ 4 := by cases c <;> decide

theorem trfCh_num_injective {c d : TrfCh} (h : c.num = d.num) : c = d := by
  revert h
  cases c <;> cases d <;> decide

theorem mem_engAddrs {n : EngCh} {a : Nat} :
    a ∈ engAddrs n ↔ (engRec n ≤ a ∧ a < engRec n + 9) ∨ (n.odd = true ∧ ringBase n ≤ a ∧ a < ringBase n + 24) := by
  rw [engAddrs, List.mem_append, mem_run]
  refine or_congr_right ?_
  split
  next h => simp [mem_run, h]
  next h => simp [h]

theorem mem_trfAddrs {c : TrfCh} {a : Nat} : a ∈ trfAddrs c ↔ trfRec c ≤ a ∧ a < trfRec c + 8 := mem_run

theorem engAddrs_disjoint {m n : EngCh} {a : Nat} (hne : m ≠ n) (ha : a ∈ engAddrs m) : a ∉ engAddrs n := by
  have hnum : m.num ≠ n.num := fun h => hne (engCh_num_injective h)
  have hm := engCh_num_bounds m
  have hn := engCh_num_bounds n
  rw [mem_engAddrs, engCh_odd_iff] at *
  unfold engRec ringBase at *
  omega

theorem trfAddrs_disjoint {c d : TrfCh} {a : Nat} (hne : c ≠ d) (ha : a ∈ trfAddrs c) : a ∉ trfAddrs d := by
  have hnum : c.num ≠ d.num := fun h => hne (trfCh_num_injective h)
  have hc := trfCh_num_bounds c
  have hd := trfCh_num_bounds d
  rw [mem_trfAddrs] at *
  unfold trfRec at *
  omega

/-- The engine records and rings lie below the traffic records. -/
theorem engAddrs_trfAddrs {n : EngCh} {c : TrfCh} {a : Nat} (ha : a ∈ engAddrs n) : a ∉ trfAddrs c := by
  have hn := engCh_num_bounds n
  have hc := trfCh_num_bounds c
  rw [mem_engAddrs] at ha
  rw [mem_trfAddrs]
  unfold engRec ringBase trfRec at *
  omega

theorem eng_mem (n : EngCh) {f : Nat} (hf : f < 9) : engRec n + f ∈ engAddrs n := mem_engAddrs.2 (.inl (by omega))

theorem ringAt_mem {n : EngCh} (ho : n.odd = true) {k : Nat} (hk : k < 3) : s.ringAt n + k ∈ engAddrs n := by
  have hpos : (s.eng n EFld.ringPos &&& 7).toNat ≤ 7 := by
    rw [BitVec.toNat_and]
    exact Nat.and_le_right
  refine mem_engAddrs.2 (.inr ⟨ho, ?_⟩)
  unfold State.ringAt
  omega

/-- One more byte written inside the list. -/
theorem RamKept.setRam8 {l : List Nat} {a : Nat} (h : RamKept s t l) (ha : a ∈ l) (v : Byte) :
    RamKept s (t.setRam8 a v) l := by
  intro b hb
  rw [ram8_setRam8, if_neg fun (hab : b = a) => hb (hab ▸ ha), h b hb]

theorem RamKept.setEng {n : EngCh} {f : Nat} (h : RamKept s t (engAddrs n)) (hf : f < 9) (v : Byte) :
    RamKept s (t.setEng n f v) (engAddrs n) := h.setRam8 (eng_mem n hf) v

/-! ### An engine channel that works with volume 0 (R204, R206, R211) -/

/-- The state after step 3: the sample is in the ring of an odd channel. -/
def State.ringed (s : State) (n : EngCh) : State := if n.odd then s.ringPush n (s.engP n) (s.engV n) else s

/-- The state after the mute of a volume of 0, E_VOLPREV and E_VOL being stored (R211). -/
def State.voiceMuted (s : State) (n : EngCh) : State :=
  let u := (s.setEng n EFld.volprev (s.eng n EFld.vol)).setEng n EFld.vol 0
  let w := (u.setEngFlag n EFlags.mute true).setEng n EFld.active 0
  w.setPcm8 (back (w.engSlot n) 6) (w.pcm8 (back (w.engSlot n) 6) ||| 0x01)

variable {n : EngCh}

theorem ringed_only (n : EngCh) : OnlyRam s (s.ringed n) := by
  unfold State.ringed
  split
  · rfl
  · rfl

theorem engVoice_silent (p : BitVec 9) (h : (s.engSlot n).toNat ≤ 15) : engVoice n p 0 s = .ok () (s.voiceMuted n) := by
  simp only [engVoice, bind_upd, if_true]
  exact engMute_ok h

theorem ringStep_ok (p : BitVec 9) (v : Byte) : ringStep n p v s = .ok (s.ringOldest n) (s.ringPush n p v) := rfl

theorem engNormal_silent (hv : (s.engVoiced n).2 = 0) (h : (s.engSlot n).toNat ≤ 15) :
    Machine.engNormal n (s.engP n) (s.engV n) s = .ok () ((s.ringed n).voiceMuted n) := by
  have hslot : ((s.ringed n).engSlot n).toNat ≤ 15 := by
    rw [State.engSlot, (ringed_only n).cfg]
    exact h
  unfold Machine.engNormal State.engVoiced State.ringed at *
  cases ho : n.odd with
  | true =>
    simp only [ho, if_true] at hv hslot ⊢
    rw [bind_of_ok (ringStep_ok _ _)]
    show engVoice n (s.ringOldest n).1 (s.ringOldest n).2 _ = _
    rw [hv]
    exact engVoice_silent _ hslot
  | false =>
    simp only [ho, Bool.false_eq_true, if_false] at hv hslot ⊢
    rw [hv]
    exact engVoice_silent _ hslot

theorem engineChannel_silent (hr : s.rev = false) (hv : (s.engVoiced n).2 = 0) (h : (s.engSlot n).toNat ≤ 15) :
    engineChannel n s = .ok () (((s.setEngCh (BitVec.ofNat 8 n.num)).ringed n).voiceMuted n) := by
  simp only [engineChannel, bind_upd, bind_look, State.setEngCh_rev, hr, Bool.false_and, Bool.false_eq_true, if_false]
  exact engNormal_silent hv h

/-- Channel `n` is muted, with volume 0 stored (R211). -/
structure EngineMuted (t : State) (n : EngCh) : Prop where
  mute : t.engFlag n EFlags.mute = true
  active : t.eng n EFld.active = 0
  vol : t.eng n EFld.vol = 0
  slot : bit (t.pcm8 (back (t.engSlot n) 6)) 0 = true

theorem bit_zero_or_one (v : Byte) : bit (v ||| 0x01) 0 = true := by simp [bit]

theorem voiceMuted_muted (n : EngCh) : EngineMuted (s.voiceMuted n) n where
  mute := by simp [State.voiceMuted, State.engFlag, eng_setEng, eng_setEngFlag, bit_setBit]
  active := by simp [State.voiceMuted, eng_setEng]
  vol := by simp [State.voiceMuted, eng_setEng, eng_setEngFlag]
  slot := (congrArg (bit · 0) (pcm8_setPcm8_self _ _)).trans (bit_zero_or_one _)

theorem voiceMuted_ramKept (n : EngCh) : RamKept s (s.voiceMuted n) (engAddrs n) := by
  have h : RamKept s s (engAddrs n) := fun _ _ => rfl
  exact h.setEng (f := EFld.volprev) (by decide) _ |>.setEng (f := EFld.vol) (by decide) _
    |>.setEng (f := EFld.flags) (by decide) _ |>.setEng (f := EFld.active) (by decide) _

theorem ringed_ramKept (n : EngCh) : RamKept s (s.ringed n) (engAddrs n) := by
  have h : RamKept s s (engAddrs n) := fun _ _ => rfl
  unfold State.ringed
  split
  next ho =>
    exact h.setRam8 (ringAt_mem ho (k := 0) (by decide)) _ |>.setRam8 (ringAt_mem ho (k := 1) (by decide)) _
      |>.setRam8 (ringAt_mem ho (k := 2) (by decide)) _ |>.setEng (f := EFld.ringPos) (by decide) _
  next => exact h

theorem voiceMuted_pcm8 (n : EngCh) (a : Nat) :
    (s.voiceMuted n).pcm8 a = if a = back (s.engSlot n) 6 then s.pcm8 a ||| 0x01 else s.pcm8 a := by
  have hset : (s.voiceMuted n).pcm8 a =
      if a = back (s.engSlot n) 6 then s.pcm8 (back (s.engSlot n) 6) ||| 0x01 else s.pcm8 a := pcm8_setPcm8 _ _ _
  rw [hset]
  split
  next h => rw [h]
  next => rfl

/-- The state after a whole channel with volume 0 (R204). -/
def State.engSilenced (s : State) (n : EngCh) : State := ((s.setEngCh (BitVec.ofNat 8 n.num)).ringed n).voiceMuted n

theorem engSilenced_only (n : EngCh) :
    ∃ r p, s.engSilenced n = { s with ram := r, pcm := p, engCh := BitVec.ofNat 8 n.num } := by
  obtain ⟨r, hr⟩ : ∃ r, (s.setEngCh (BitVec.ofNat 8 n.num)).ringed n =
      { s with ram := r, engCh := BitVec.ofNat 8 n.num } := ⟨_, ringed_only n⟩
  rw [State.engSilenced, hr]
  exact ⟨_, _, rfl⟩

theorem engSilenced_ramKept (n : EngCh) : RamKept s (s.engSilenced n) (engAddrs n) := fun a ha =>
  (voiceMuted_ramKept n a ha).trans (ringed_ramKept n a ha)

theorem engSilenced_pcm8 (n : EngCh) (a : Nat) :
    (s.engSilenced n).pcm8 a = if a = back (s.engSlot n) 6 then s.pcm8 a ||| 0x01 else s.pcm8 a := by
  rw [State.engSilenced, voiceMuted_pcm8, ringed_only n]
  rfl

theorem engSilenced_muted (n : EngCh) : EngineMuted (s.engSilenced n) n := voiceMuted_muted n

/-- The step of an engine channel that works with volume 0. -/
theorem step_engine_silent (hf : s.fsm = .engine n) (hr : s.rev = false) (hv : (s.engVoiced n).2 = 0)
    (h : (s.engSlot n).toNat ≤ 15) : step s = .next ((s.engSilenced n).setFsm (afterEngine n)) := by
  simp only [step, hf, engineStep, bind_of_ok (engineChannel_silent hr hv h), upd_run, after_ok]
  cases n <;> rfl

/-! ### The quiet engine pass (R111, R204) -/

/-- Every engine channel works with volume 0 and has a slot 0..15. -/
structure EngineQuiet (s : State) : Prop where
  rev : s.rev = false
  voiced : ∀ n, (s.engVoiced n).2 = 0
  slot : ∀ n, (s.engSlot n).toNat ≤ 15

/-- From `s` to `t` the channels of `l` are muted, and nothing outside their records, rings and slots has changed but
ENGCH and the FSM state. -/
structure EnginePassed (s t : State) (l : List EngCh) : Prop where
  frame : ∃ r p e f, t = { s with ram := r, pcm := p, engCh := e, fsm := f }
  ram : ∀ a, (∀ n ∈ l, a ∉ engAddrs n) → t.ram8 a = s.ram8 a
  pcm : ∀ a, (∀ n ∈ l, a ∉ slotAddrs (s.engSlot n)) → t.pcm8 a = s.pcm8 a
  muted : ∀ n ∈ l, EngineMuted t n

/-- What an engine channel works with depends on its own record and ring, beside the inputs. -/
theorem engVoiced_congr (hf : ∃ r p e f, t = { s with ram := r, pcm := p, engCh := e, fsm := f })
    (hr : ∀ a ∈ engAddrs n, t.ram8 a = s.ram8 a) : t.engVoiced n = s.engVoiced n := by
  unfold State.engVoiced
  split
  next ho =>
    have hat : t.ringAt n = s.ringAt n := by
      simp only [State.ringAt, State.eng, hr _ (eng_mem n (f := EFld.ringPos) (by decide))]
    have hslot (k : Nat) (hk : k < 3) : t.ram8 (s.ringAt n + k) = s.ram8 (s.ringAt n + k) := hr _ (ringAt_mem ho hk)
    have hfirst : t.ram8 (s.ringAt n) = s.ram8 (s.ringAt n) := hslot 0 (by decide)
    simp only [State.ringOldest, hat, hfirst, hslot 1 (by decide), hslot 2 (by decide)]
  next =>
    obtain ⟨r, p, e, f, rfl⟩ := hf
    rfl

/-- A muted channel stays muted where its record stays and its inactive bit is not cleared. -/
theorem EngineMuted.of_kept (h : EngineMuted s n) (hr : ∀ a ∈ engAddrs n, t.ram8 a = s.ram8 a)
    (hs : t.engSlot n = s.engSlot n)
    (hp : bit (s.pcm8 (back (s.engSlot n) 6)) 0 = true → bit (t.pcm8 (back (s.engSlot n) 6)) 0 = true) :
    EngineMuted t n where
  mute := by
    rw [State.engFlag, State.eng, hr _ (eng_mem n (f := EFld.flags) (by decide))]
    exact h.mute
  active := (hr _ (eng_mem n (f := EFld.active) (by decide))).trans h.active
  vol := (hr _ (eng_mem n (f := EFld.vol) (by decide))).trans h.vol
  slot := by
    rw [hs]
    exact hp h.slot

theorem back_mem_slotAddrs (sl : Slot) {k : Nat} (hk : k < 8) : back sl k ∈ slotAddrs sl :=
  List.mem_append_right _ (List.mem_map_of_mem (List.mem_range.2 hk))

theorem front_mem_slotAddrs (sl : Slot) {k : Nat} (hk : k < 8) : front sl k ∈ slotAddrs sl :=
  List.mem_append_left _ (List.mem_map_of_mem (List.mem_range.2 hk))

/-- One more channel of a quiet engine pass. -/
theorem EnginePassed.step {l : List EngCh} (h : EnginePassed s t l) (hq : EngineQuiet s) (hf : t.fsm = .engine n)
    (hn : n ∉ l) : ∃ u, step t = .next u ∧ EnginePassed s u (n :: l) ∧ u.fsm = afterEngine n := by
  obtain ⟨hframe, hram, hpcm, hmuted⟩ := h
  have hvoiced : (t.engVoiced n).2 = 0 := by
    rw [engVoiced_congr hframe fun a ha => hram a fun m hm => engAddrs_disjoint (by rintro rfl; exact hn hm) ha]
    exact hq.voiced n
  have hrev : t.rev = false := by
    obtain ⟨r, p, e, f, rfl⟩ := hframe
    exact hq.rev
  have hslot (m : EngCh) : t.engSlot m = s.engSlot m := by
    obtain ⟨r, p, e, f, rfl⟩ := hframe
    rfl
  refine ⟨_, step_engine_silent hf hrev hvoiced (by rw [hslot]; exact hq.slot n),
    ⟨?frame, fun a ha => ?ram, fun a ha => ?pcm, ?muted⟩, rfl⟩
  case frame =>
    obtain ⟨r, p, hu⟩ := engSilenced_only (s := t) n
    obtain ⟨_, _, _, _, rfl⟩ := hframe
    rw [hu]
    exact ⟨_, _, _, _, rfl⟩
  case ram =>
    obtain ⟨hn', hl⟩ := List.forall_mem_cons.mp ha
    exact (engSilenced_ramKept n a hn').trans (hram a hl)
  case pcm =>
    obtain ⟨hn', hl⟩ := List.forall_mem_cons.mp ha
    refine (engSilenced_pcm8 n a).trans ?_
    rw [hslot, if_neg, hpcm a hl]
    rintro rfl
    exact hn' (back_mem_slotAddrs _ (by decide))
  case muted =>
    refine List.forall_mem_cons.mpr ⟨(engSilenced_muted n).of_kept (fun _ _ => rfl) rfl id, fun m hm => ?_⟩
    refine (hmuted m hm).of_kept (fun a ha => engSilenced_ramKept n a (engAddrs_disjoint ?_ ha)) ?_ fun hb => ?_
    · rintro rfl
      exact hn hm
    · obtain ⟨r, p, hu⟩ := engSilenced_only (s := t) n
      rw [hu]
      rfl
    · refine (congrArg (bit · 0) (engSilenced_pcm8 n _)).trans ?_
      split
      next => exact bit_zero_or_one _
      next => exact hb

/-- The six engine channels one after another. -/
theorem steps_quietEngines (hq : EngineQuiet s) (hf : s.fsm = .engine .e1) :
    ∃ t, steps 6 s = .next t ∧ EnginePassed s t [.e6, .e5, .e4, .e3, .e2, .e1] ∧ t.fsm = .traffic .t1 := by
  have h0 : EnginePassed s s [] := ⟨⟨_, _, _, _, rfl⟩, fun _ _ => rfl, fun _ _ => rfl, nofun⟩
  obtain ⟨t1, s1, h1, f1⟩ := h0.step hq hf (by decide)
  obtain ⟨t2, s2, h2, f2⟩ := h1.step hq f1 (by decide)
  obtain ⟨t3, s3, h3, f3⟩ := h2.step hq f2 (by decide)
  obtain ⟨t4, s4, h4, f4⟩ := h3.step hq f3 (by decide)
  obtain ⟨t5, s5, h5, f5⟩ := h4.step hq f4 (by decide)
  obtain ⟨t6, s6, h6, f6⟩ := h5.step hq f5 (by decide)
  refine ⟨t6, ?_, h6, f6⟩
  rw [steps_succ 5 s1, steps_succ 4 s2, steps_succ 3 s3, steps_succ 2 s4, steps_succ 1 s5, steps_one s6]

/-! ### A traffic channel that follows a volume index of 0 (44_traffic_fx.md R232, R238) -/

variable {c : TrfCh}

theorem startReduce_of_follows (h : s.trfFollows c = true) : s.startReduce c = s := by
  simp only [State.trfFollows, Bool.and_eq_true, Bool.not_eq_true'] at h
  obtain ⟨hreduce, hstart⟩ := h
  rw [State.startReduce, if_neg]
  simp [hreduce, hstart]

theorem trafficChannel_silent (hf : s.trfFollows c = true) (hv : s.trfVidx c = 0) (h : (s.trfSlot c).toNat ≤ 15) :
    trafficChannel c s = .ok () (((s.setEngCh (BitVec.ofNat 8 c.num)).zeroTrf c).clearSlot (s.trfSlot c)) := by
  have hstart : (s.setEngCh (BitVec.ofNat 8 c.num)).startReduce c = s.setEngCh (BitVec.ofNat 8 c.num) :=
    startReduce_of_follows hf
  have hreduce : (s.setEngCh (BitVec.ofNat 8 c.num)).trfFlag c TFlags.reduce = false := by
    simp only [State.trfFollows, Bool.and_eq_true, Bool.not_eq_true'] at hf
    exact hf.1
  simp only [trafficChannel, bind_upd, bind_look, hstart, hreduce, Bool.false_eq_true, if_false]
  refine Eq.trans ?_ (trafficDisable_ok (s := s.setEngCh (BitVec.ofNat 8 c.num)) h)
  exact congrFun (if_pos hv) _

/-- The state after a whole channel with volume index 0 (R232). -/
def State.trfSilenced (s : State) (c : TrfCh) : State :=
  ((s.setEngCh (BitVec.ofNat 8 c.num)).zeroTrf c).clearSlot (s.trfSlot c)

theorem step_traffic_silent (hs : s.fsm = .traffic c) (hf : s.trfFollows c = true) (hv : s.trfVidx c = 0)
    (h : (s.trfSlot c).toNat ≤ 15) : step s = .next ((s.trfSilenced c).setFsm (afterTraffic c)) := by
  simp only [step, hs, trafficStep, bind_of_ok (trafficChannel_silent hf hv h), upd_run, after_ok]
  cases c <;> rfl

theorem clearSlot_only (sl : Slot) : ∃ p, s.clearSlot sl = { s with pcm := p } := by
  unfold State.clearSlot
  generalize List.range 8 = l
  induction l generalizing s with
  | nil => exact ⟨_, rfl⟩
  | cons k l ih => exact ih

theorem mem_slotAddrs {sl : Slot} {a : Nat} : a ∈ slotAddrs sl ↔ ∃ k, k < 8 ∧ (a = front sl k ∨ a = back sl k) := by
  simp only [slotAddrs, List.mem_append, List.mem_map, List.mem_range]
  constructor
  · rintro (⟨k, hk, rfl⟩ | ⟨k, hk, rfl⟩)
    · exact ⟨k, hk, .inl rfl⟩
    · exact ⟨k, hk, .inr rfl⟩
  · rintro ⟨k, hk, rfl | rfl⟩
    · exact .inl ⟨k, hk, rfl⟩
    · exact .inr ⟨k, hk, rfl⟩

/-- The two halves of a slot zeroed up to byte `m`. -/
theorem pcm8_zeroHalves (sl : Slot) (m a : Nat) :
    ((List.range m).foldl (fun s k => (s.setPcm8 (front sl k) 0).setPcm8 (back sl k) 0) s).pcm8 a =
      if ∃ k, k < m ∧ (a = front sl k ∨ a = back sl k) then 0 else s.pcm8 a := by
  induction m with
  | zero => simp
  | succ m ih =>
    rw [List.range_succ, List.foldl_append, List.foldl_cons, List.foldl_nil, pcm8_setPcm8, pcm8_setPcm8, ih]
    simp only [Nat.lt_succ_iff_lt_or_eq, or_and_right, exists_or, exists_eq_left]
    by_cases hb : a = back sl m
    · simp [hb]
    · by_cases hf : a = front sl m <;> simp [hb, hf]

theorem blank_front {sl : Slot} {k : Nat} (h : sl.toNat ≤ 15) (hk : k < 8) : Space.pcm.blank (front sl k) = 0 :=
  if_neg (by unfold front; omega)

theorem blank_back (sl : Slot) {k : Nat} (hk : k < 8) : Space.pcm.blank (back sl k) = if k = 6 then 1 else 0 := by
  have hiff : (0x80 ≤ back sl k ∧ back sl k % 8 = 6) ↔ k = 6 := by
    unfold back
    omega
  simp only [Space.blank, hiff]

/-- A cleared slot reads as it does after reset: zeros, and the inactive bit (R238, 70_reset_and_hazards.md R281). -/
theorem pcm8_clearSlot {sl : Slot} (h : sl.toNat ≤ 15) (a : Nat) :
    (s.clearSlot sl).pcm8 a = if a ∈ slotAddrs sl then Space.pcm.blank a else s.pcm8 a := by
  rw [State.clearSlot, pcm8_setPcm8, pcm8_zeroHalves]
  simp only [← mem_slotAddrs]
  by_cases hm : a ∈ slotAddrs sl
  · rw [if_pos hm, if_pos hm]
    obtain ⟨k, hk, hak⟩ := mem_slotAddrs.mp hm
    rcases hak with rfl | rfl
    · rw [blank_front h hk, if_neg (by unfold front back; omega)]
    · have hiff : back sl k = back sl 6 ↔ k = 6 := by
        unfold back
        omega
      simp only [blank_back sl hk, hiff]
  · rw [if_neg hm, if_neg hm, if_neg]
    rintro rfl
    exact hm (back_mem_slotAddrs sl (by decide))

/-- A silenced channel writes Channel RAM, the PCM file and ENGCH only. -/
theorem trfSilenced_only (c : TrfCh) :
    ∃ r p, s.trfSilenced c = { s with ram := r, pcm := p, engCh := BitVec.ofNat 8 c.num } := by
  obtain ⟨r, hr⟩ : ∃ r, (s.setEngCh (BitVec.ofNat 8 c.num)).zeroTrf c =
      { s with ram := r, engCh := BitVec.ofNat 8 c.num } := ⟨_, zeroTrf_only c⟩
  obtain ⟨p, hp⟩ := clearSlot_only (s := (s.setEngCh (BitVec.ofNat 8 c.num)).zeroTrf c) (s.trfSlot c)
  rw [State.trfSilenced, hp, hr]
  exact ⟨_, _, rfl⟩

theorem trfSilenced_engCh (c : TrfCh) : (s.trfSilenced c).engCh = BitVec.ofNat 8 c.num := by
  obtain ⟨r, p, h⟩ := trfSilenced_only (s := s) c
  rw [h]

theorem trfSilenced_ram8 (c : TrfCh) (a : Nat) :
    (s.trfSilenced c).ram8 a = if a ∈ trfAddrs c then 0 else s.ram8 a := by
  obtain ⟨p, hp⟩ := clearSlot_only (s := (s.setEngCh (BitVec.ofNat 8 c.num)).zeroTrf c) (s.trfSlot c)
  rw [State.trfSilenced, hp]
  refine (ram8_zeroTrf c a).trans ?_
  simp only [mem_trfAddrs]
  rfl

theorem trfSilenced_pcm8 (h : (s.trfSlot c).toNat ≤ 15) (a : Nat) :
    (s.trfSilenced c).pcm8 a = if a ∈ slotAddrs (s.trfSlot c) then Space.pcm.blank a else s.pcm8 a := by
  rw [State.trfSilenced, pcm8_clearSlot h, zeroTrf_only c]
  rfl

/-- Every traffic channel follows a volume index of 0 and has a slot 0..15. -/
structure TrafficQuiet (s : State) : Prop where
  follows : ∀ c, s.trfFollows c = true
  vidx : ∀ c, s.trfVidx c = 0
  slot : ∀ c, (s.trfSlot c).toNat ≤ 15

/-- From `s` to `t` the channels of `l` are cleared, and nothing else has changed but ENGCH and the FSM state. -/
structure TrafficPassed (s t : State) (l : List TrfCh) : Prop where
  frame : ∃ r p e f, t = { s with ram := r, pcm := p, engCh := e, fsm := f }
  ram : ∀ a, t.ram8 a = if ∃ c ∈ l, a ∈ trfAddrs c then 0 else s.ram8 a
  pcm : ∀ a, t.pcm8 a = if ∃ c ∈ l, a ∈ slotAddrs (s.trfSlot c) then Space.pcm.blank a else s.pcm8 a

theorem trfFollows_congr (hf : ∃ r p e f, t = { s with ram := r, pcm := p, engCh := e, fsm := f })
    (hr : ∀ a ∈ trfAddrs c, t.ram8 a = s.ram8 a) : t.trfFollows c = s.trfFollows c := by
  have hflag (k : Nat) : t.trfFlag c k = s.trfFlag c k :=
    congrArg (bit · k) (hr _ (mem_trfAddrs.2 (by simp [TFld.flags])))
  have htpass : t.tpass = s.tpass := by
    obtain ⟨r, p, e, f, rfl⟩ := hf
    rfl
  simp only [State.trfFollows, hflag, htpass]

/-- One more channel of a quiet traffic pass. -/
theorem TrafficPassed.step {l : List TrfCh} (h : TrafficPassed s t l) (hq : TrafficQuiet s) (hf : t.fsm = .traffic c)
    (hc : c ∉ l) :
    ∃ u, step t = .next u ∧ TrafficPassed s u (c :: l) ∧ u.fsm = afterTraffic c ∧ u.engCh = BitVec.ofNat 8 c.num := by
  obtain ⟨hframe, hram, hpcm⟩ := h
  have hfollows : t.trfFollows c = true := by
    rw [trfFollows_congr hframe fun a ha => ?_]
    · exact hq.follows c
    · rw [hram, if_neg]
      rintro ⟨d, hd, had⟩
      exact trfAddrs_disjoint (by rintro rfl; exact hc hd) ha had
  have hvidx : t.trfVidx c = 0 := by
    obtain ⟨r, p, e, f, rfl⟩ := hframe
    exact hq.vidx c
  have hslot : t.trfSlot c = s.trfSlot c := by
    obtain ⟨r, p, e, f, rfl⟩ := hframe
    rfl
  have hle : (t.trfSlot c).toNat ≤ 15 := by
    rw [hslot]
    exact hq.slot c
  refine ⟨_, step_traffic_silent hf hfollows hvidx hle, ⟨?frame, fun a => ?ram, fun a => ?pcm⟩, State.setFsm_fsm _ _,
    (State.setFsm_engCh _ _).trans (trfSilenced_engCh c)⟩
  case frame =>
    obtain ⟨r, p, hu⟩ := trfSilenced_only (s := t) c
    obtain ⟨_, _, _, _, rfl⟩ := hframe
    rw [hu]
    exact ⟨_, _, _, _, rfl⟩
  case ram =>
    simp only [State.ram8_setFsm, trfSilenced_ram8, hram, List.exists_mem_cons_iff]
    by_cases ha : a ∈ trfAddrs c <;> simp [ha]
  case pcm =>
    simp only [State.pcm8_setFsm, trfSilenced_pcm8 hle, hpcm, hslot, List.exists_mem_cons_iff]
    by_cases ha : a ∈ slotAddrs (s.trfSlot c) <;> simp [ha]

/-- The four traffic channels one after another. -/
theorem steps_quietTraffic (hq : TrafficQuiet s) (hf : s.fsm = .traffic .t1) :
    ∃ t, steps 4 s = .next t ∧ TrafficPassed s t [.t4, .t3, .t2, .t1] ∧ t.fsm = .idle ∧ t.engCh = 4 := by
  have h0 : TrafficPassed s s [] := ⟨⟨_, _, _, _, rfl⟩, fun _ => by simp, fun _ => by simp⟩
  obtain ⟨t1, s1, h1, f1, -⟩ := h0.step hq hf (by decide)
  obtain ⟨t2, s2, h2, f2, -⟩ := h1.step hq f1 (by decide)
  obtain ⟨t3, s3, h3, f3, -⟩ := h2.step hq f2 (by decide)
  obtain ⟨t4, s4, h4, f4, e4⟩ := h3.step hq f3 (by decide)
  refine ⟨t4, ?_, h4, f4, e4⟩
  rw [steps_succ 3 s1, steps_succ 2 s2, steps_succ 1 s3, steps_one s4]

/-! ### The whole tick -/

theorem mem_allTrf (c : TrfCh) : c ∈ [TrfCh.t4, .t3, .t2, .t1] := by cases c <;> decide

theorem mem_allEng (n : EngCh) : n ∈ [EngCh.e6, .e5, .e4, .e3, .e2, .e1] := by cases n <;> decide

/-- After the traffic pass every channel is cleared (R238). -/
theorem TrafficPassed.cleared (h : TrafficPassed s t [.t4, .t3, .t2, .t1]) (hq : TrafficQuiet s) (c : TrfCh) :
    TrafficCleared t c (s.trfSlot c) := by
  refine ⟨fun k hk => ?_, fun k hk => ?_, fun k hk => ?_⟩
  · exact (h.ram _).trans (if_pos ⟨c, mem_allTrf c, mem_trfAddrs.2 (by omega)⟩)
  · rw [h.pcm, if_pos ⟨c, mem_allTrf c, front_mem_slotAddrs _ hk⟩, blank_front (hq.slot c) hk]
  · rw [h.pcm, if_pos ⟨c, mem_allTrf c, back_mem_slotAddrs _ hk⟩, blank_back _ hk]

/-- The traffic pass leaves the engine channels muted, also where it clears their slots. -/
theorem TrafficPassed.muted {l : List TrfCh} (h : TrafficPassed s t l) (hm : EngineMuted s n) : EngineMuted t n := by
  refine hm.of_kept (fun a ha => ?_) ?_ fun hb => ?_
  · rw [h.ram, if_neg]
    rintro ⟨c, -, hc⟩
    exact engAddrs_trfAddrs ha hc
  · obtain ⟨r, p, e, f, rfl⟩ := h.frame
    rfl
  · rw [h.pcm]
    split
    · rw [blank_back _ (by decide)]
      rfl
    · exact hb

/-- The engine pass leaves the traffic channels as they were. -/
theorem EnginePassed.trafficQuiet {l : List EngCh} (h : EnginePassed s t l) (hq : TrafficQuiet s) : TrafficQuiet t where
  follows c := by
    rw [trfFollows_congr h.frame fun a ha => h.ram a fun n _ hn => engAddrs_trfAddrs hn ha]
    exact hq.follows c
  vidx c := by
    obtain ⟨r, p, e, f, rfl⟩ := h.frame
    exact hq.vidx c
  slot c := by
    obtain ⟨r, p, e, f, rfl⟩ := h.frame
    exact hq.slot c

/-- The engine pass and the traffic pass one after the other. -/
theorem steps_quietPasses (he : EngineQuiet s) (ht : TrafficQuiet s) (hf : s.fsm = .engine .e1) :
    ∃ t, steps 10 s = .next t ∧ t = { s with ram := t.ram, pcm := t.pcm, engCh := 4, fsm := .idle } ∧
      (∀ n, EngineMuted t n) ∧ (∀ c, TrafficCleared t c (s.trfSlot c)) ∧
      (∀ a, (∀ n, a ∉ engAddrs n) → (∀ c, a ∉ trfAddrs c) → t.ram8 a = s.ram8 a) ∧
      ∀ a, (∀ n, a ∉ slotAddrs (s.engSlot n)) → (∀ c, a ∉ slotAddrs (s.trfSlot c)) → t.pcm8 a = s.pcm8 a := by
  obtain ⟨u, hu, hpassed, hfu⟩ := steps_quietEngines he hf
  have hq := hpassed.trafficQuiet ht
  obtain ⟨t, hrun, hcleared, hft, het⟩ := steps_quietTraffic hq hfu
  have hslot (c : TrfCh) : u.trfSlot c = s.trfSlot c := by
    obtain ⟨r, p, e, f, rfl⟩ := hpassed.frame
    rfl
  refine ⟨t, (steps_add 4 hu).trans hrun, ?frame, fun n => hcleared.muted (hpassed.muted n (mem_allEng n)),
    fun c => ?cleared, fun a hn hc => ?ram, fun a hn hc => ?pcm⟩
  case frame =>
    obtain ⟨r, p, e, f, rfl⟩ := hpassed.frame
    obtain ⟨r', p', e', f', rfl⟩ := hcleared.frame
    cases hft
    cases het
    rfl
  case cleared =>
    rw [← hslot]
    exact hcleared.cleared hq c
  case ram =>
    rw [hcleared.ram, if_neg (by rintro ⟨c, -, h⟩; exact hc c h), hpassed.ram a fun n _ => hn n]
  case pcm =>
    rw [hcleared.pcm, if_neg (by rintro ⟨c, -, h⟩; exact hc c (hslot c ▸ h)), hpassed.pcm a fun n _ => hn n]

/-- With TOG = 1 before it the tick is over after the channel pass (R138). -/
theorem steps_quietTick_channelsOnly {rest : List Event} (hf : s.fsm = .idle) (he : s.events = .tick :: rest)
    (hm : s.mbox = 0) (hd : ∀ i, i < 30 → s.enabled i = false) (htog : s.tog = true) :
    steps 62 s = .next { s with tog := false, chan := 29, chanPrev := 29, events := rest, mboxAck := false } := by
  rw [steps_quietChannels hf he hm hd, htog, hf]
  rfl

/-- With TOG = 0 before it the engine pass comes next. -/
theorem steps_quietTick_toEngine {rest : List Event} (hf : s.fsm = .idle) (he : s.events = .tick :: rest)
    (hm : s.mbox = 0) (hd : ∀ i, i < 30 → s.enabled i = false) (htog : s.tog = false) :
    steps 62 s = .next { s with
      tog := true, chan := 29, chanPrev := 29, events := rest, mboxAck := false, fsm := .engine .e1 } := by
  rw [steps_quietChannels hf he hm hd, htog]
  rfl

/-- Settles O60: the channel pass ends the tick, or the engine and traffic passes follow it. -/
theorem quietTickCompletes : Obligations.QuietTickCompletes := by
  intro s rest hf hev hm hd
  refine ⟨fun htog => ⟨_, steps_quietTick_channelsOnly hf hev hm hd htog, rfl⟩, fun htog hrev heng htrf => ?_⟩
  have hpass := steps_quietTick_toEngine hf hev hm hd htog
  obtain ⟨hvoiced, hengSlot⟩ := forall_and.mp heng
  obtain ⟨hfollows, hrest⟩ := forall_and.mp htrf
  obtain ⟨hvidx, htrfSlot⟩ := forall_and.mp hrest
  obtain ⟨t, hrun, hframe, hmuted, hcleared, hram, hpcm⟩ := steps_quietPasses
    (s := { s with tog := true, chan := 29, chanPrev := 29, events := rest, mboxAck := false, fsm := .engine .e1 })
    ⟨hrev, hvoiced, hengSlot⟩ ⟨hfollows, hvidx, htrfSlot⟩ rfl
  have hslot (n : EngCh) : t.engSlot n = s.engSlot n := by
    rw [hframe]
    rfl
  refine ⟨t, (steps_add 10 hpass).trans hrun, ?frame, fun n => ?muted, hcleared, hram, hpcm⟩
  case frame =>
    have hack : t.mboxAck = false := by rw [hframe]
    rw [hack, hf]
    exact hframe
  case muted =>
    obtain ⟨hmute, hactive, hvol, hbit⟩ := hmuted n
    exact ⟨hmute, hactive, hvol, hslot n ▸ hbit⟩

end Sys2Proof.Machine
end

section
/-!
Operand fetches, and the instructions that set fields of the current record (41_commands.md R141, R143, R147, R151 to
R153): each stores at the fields its rule names, and an operand byte outside ROM stops it before any store.
-/

namespace Sys2Proof.Machine

variable {s : State}

/-! ### Operand fetches (00_scope.md R14) -/

theorem cur_add_add (c : Word) (m n : Nat) :
    c + BitVec.ofNat 16 m + BitVec.ofNat 16 n = c + BitVec.ofNat 16 (m + n) := by
  rw [BitVec.add_assoc, BitVec.ofNat_add]

/-- Two operand fetches in a row are one of an address operand. -/
theorem bind_next8_next8 {β : Type} (g : Unit → Exec β) : (next8 >>= fun _ => next8 >>= g) s = (next16 >>= g) s :=
  (bind_assoc_run _ _ _).symm

theorem next8_inRom (h : s.romHas 1 = true) : next8 s = .ok () (s.setCur (s.cur + 1)) :=
  next8_ok (by simpa [romHas_one] using h)

theorem next8_outOfRom (h : s.romHas 1 = false) : ∃ u, next8 s = .error () u ∧ FetchFaults s u 1 := by
  rw [romHas_one, decide_eq_false_iff_not] at h
  exact ⟨_, next8_fault h, fetchFaults_first Nat.one_pos h⟩

/-- A channel micro-step that begins with operand fetches stops where they fault. -/
theorem onChannel_fetchFault {m : Exec Unit} {g : Nat → Exec Unit} {n : Nat} (hc : s.chan.toNat < 30)
    (hm : ∃ u, m s = .error () u ∧ FetchFaults s u n) :
    ∃ t, onChannel (fun i => m >>= fun _ => g i) s = .next t ∧ FetchFaults s t n := by
  obtain ⟨u, hu, hf⟩ := hm
  exact ⟨u, by rw [onChannel_ok _ hc, bind_of_error hu, after_error], hf⟩

/-! ### One field stored -/

theorem ch_setCh_self (i f : Nat) (v : Byte) : (s.setCh i f v).ch i f = v := ram8_setRam8_self _ _

theorem storesOnly_setCh (i f : Nat) (v : Byte) (c : Word) :
    StoresOnly s ((s.setCh i f v).setCur c) [recBase i + f] c := ⟨rfl, ramKept_setRam8 _ _, rfl⟩

/-- The meaning shared by the instructions that fetch one operand and store one field: the value `v` is formed with CUR
at the operand. -/
theorem onChannel_storesField {f : Nat} {v : Nat → State → Byte} (hc : s.chan.toNat < 30) (hr : s.romHas 1 = true) :
    onChannel (fun i => do
      next8
      upd fun s => s.setCh i f (v i s)
      advance) s = .next ((s.setCh s.me f (v s.me (s.setCur (s.cur + 1)))).setCur (s.cur + 2)) := by
  rw [onChannel_ok _ hc, bind_of_ok (next8_inRom hr), bind_upd]
  exact congrArg (fun c => Host.Outcome.next (State.setCur _ c)) (cur_add_add s.cur 1 1)

/-! ### MODSEL and TRANSP (R143, R147) -/

theorem exec_modsel (hc : s.chan.toNat < 30) (hr : s.romHas 1 = true) (v : Byte) :
    exec (.modsel v) s = .next ((s.setCh s.me Fld.modsel v).setCur (s.cur + 2)) :=
  onChannel_storesField (v := fun _ _ => v) hc hr

theorem exec_transp (hc : s.chan.toNat < 30) (hr : s.romHas 1 = true) (v : Byte) :
    exec (.transp v) s = .next ((s.setCh s.me Fld.noteoff (s.ch s.me Fld.noteoff + v)).setCur (s.cur + 2)) :=
  onChannel_storesField (v := fun i s => s.ch i Fld.noteoff + v) hc hr

/-- Settles O10: one operand fetched and one field stored by each. -/
theorem modselAndTranspSetFields : Obligations.ModselAndTranspSetFields := by
  intro s v hc
  refine ⟨fun hr => ?modsel, fun hr => ?transp, fun hr => ?fault⟩
  case modsel => exact ⟨_, exec_modsel hc hr v, storesOnly_setCh _ _ _ _, ch_setCh_self _ _ _⟩
  case transp =>
    refine ⟨_, exec_transp hc hr v, storesOnly_setCh _ _ _ _, ?_⟩
    exact (congrArg BitVec.toNat (ch_setCh_self _ _ _)).trans (BitVec.toNat_add _ _)
  case fault =>
    rw [exec, execModsel, exec, execTransp]
    exact ⟨onChannel_fetchFault hc (next8_outOfRom hr), onChannel_fetchFault hc (next8_outOfRom hr)⟩

/-! ### VOL (R141) -/

theorem exec_vol_pcm (hc : s.chan.toNat < 30) (hp : s.isPcm s.me = true) (l r : Byte) :
    exec (.vol l r) s = onChannel (fun i => do
      next16
      upd (·.setCh i Fld.voll (clampVolume l))
      upd (·.setCh i Fld.volr (clampVolume r))
      advance) s := by
  rw [exec, execVol, onChannel_ok _ hc, onChannel_ok _ hc, bind_look, if_pos hp, bind_next8_next8]

theorem exec_vol_fm (hc : s.chan.toNat < 30) (hp : s.isPcm s.me = false) (l r : Byte) :
    exec (.vol l r) s = onChannel (fun i => do
      next8
      upd (·.setCh i Fld.voll l)
      advance) s := by
  rw [exec, execVol, onChannel_ok _ hc, onChannel_ok _ hc, bind_look, if_neg (by simp [hp])]

theorem exec_vol_pcm_ok (hc : s.chan.toNat < 30) (hp : s.isPcm s.me = true) (hr : s.romHas 2 = true) (l r : Byte) :
    exec (.vol l r) s = .next (((s.setCh s.me Fld.voll (clampVolume l)).setCh s.me Fld.volr (clampVolume r)).setCur
      (s.cur + 3)) := by
  rw [exec_vol_pcm hc hp, onChannel_ok _ hc, bind_next16_ok hr, bind_upd, bind_upd]
  exact congrArg (fun c => Host.Outcome.next (State.setCur _ c)) (cur_add_add s.cur 2 1)

theorem storesOnly_setCh_setCh (i f g : Nat) (v w : Byte) (c : Word) :
    StoresOnly s (((s.setCh i f v).setCh i g w).setCur c) [recBase i + f, recBase i + g] c := by
  refine ⟨rfl, fun a ha => ?_, rfl⟩
  obtain ⟨hf, hg⟩ : a ≠ recBase i + f ∧ a ≠ recBase i + g := by simpa using ha
  show ((s.setCh i f v).setCh i g w).ram8 a = s.ram8 a
  rw [ram8_setCh, if_neg hg, ram8_setCh, if_neg hf]

/-- Settles O9: two operands clamped and stored on a PCM channel, one stored as it is on an FM channel. -/
theorem volSetsVolumes : Obligations.VolSetsVolumes := by
  intro s l r hc
  refine ⟨fun hp hr => ?pcm, fun hp hr => ?fm, fun hr => ?fault⟩
  case pcm =>
    refine ⟨_, exec_vol_pcm_ok hc hp hr l r, storesOnly_setCh_setCh _ _ _ _ _ _, ?_, ch_setCh_self _ _ _⟩
    show ((s.setCh s.me Fld.voll _).setCh s.me Fld.volr _).ch s.me Fld.voll = clampVolume l
    rw [ch_setCh, if_neg (by decide), ch_setCh_self]
  case fm =>
    refine ⟨_, ?_, storesOnly_setCh _ _ _ _, ch_setCh_self _ _ _⟩
    rw [exec_vol_fm hc hp]
    exact onChannel_storesField (v := fun _ _ => l) hc hr
  case fault =>
    cases hp : s.isPcm s.me <;> rw [hp] at hr
    · rw [exec_vol_fm hc hp]
      exact onChannel_fetchFault hc (next8_outOfRom hr)
    · rw [exec_vol_pcm hc hp]
      exact onChannel_fetchFault hc (next16_fault hr)

/-! ### PITCH (R151) -/

/-- The operand in ROM is consumed on both classes. -/
theorem exec_pitch (hc : s.chan.toNat < 30) (hr : s.romHas 1 = true) (p : Byte) :
    exec (.pitch p) s =
      .next ((if s.isPcm s.me then s.setCh s.me Fld.ppitch p else s).setCur (s.cur + 2)) := by
  have hcur := cur_add_add s.cur 1 1
  have hclass : (s.setCur (s.cur + 1)).isPcm s.me = s.isPcm s.me := rfl
  rw [exec, execPitch, onChannel_ok _ hc, bind_of_ok (next8_inRom hr), bind_look, hclass]
  cases s.isPcm s.me <;> exact congrArg (fun c => Host.Outcome.next (State.setCur _ c)) hcur

/-- Settles O11: the field is stored on a PCM channel only. -/
theorem pitchSetsPcmPitch : Obligations.PitchSetsPcmPitch := by
  intro s p hc
  refine ⟨fun hp hr => ?pcm, fun hp hr => ?fm, fun hr => ?fault⟩
  case pcm =>
    refine ⟨_, ?_, storesOnly_setCh _ _ _ _, ch_setCh_self _ _ _⟩
    rw [exec_pitch hc hr, hp, if_pos rfl]
  case fm =>
    rw [exec_pitch hc hr, hp]
    rfl
  case fault =>
    rw [exec, execPitch]
    exact onChannel_fetchFault hc (next8_outOfRom hr)

/-! ### LITEND and HIEND (R152, R153) -/

theorem setEmFlag_advance (i k : Nat) :
    (setEmFlag i k >>= fun _ => advance) s =
      .ok () ((s.setCh i Fld.emflags (setBit (s.ch i Fld.emflags) k true)).setCur (s.cur + 1)) := by
  simp only [setEmFlag, bind_assoc_run, bind_upd]
  exact congrArg (fun c => EStateM.Result.ok () (State.setCur _ (c + 1))) (BitVec.add_sub_cancel s.cur 1)

/-- Settles O12: the flag is the only byte stored, and the cursor's step back meets the generic advance. -/
theorem endMarkerFlagsAreSet : Obligations.EndMarkerFlagsAreSet := by
  intro s hc
  have hset (k : Nat) : onChannel (fun i => setEmFlag i k >>= fun _ => advance) s =
      .next ((s.setCh s.me Fld.emflags (setBit (s.ch s.me Fld.emflags) k true)).setCur (s.cur + 1)) := by
    rw [onChannel_ok _ hc, setEmFlag_advance, after_ok]
  exact ⟨⟨_, hset EmFlags.lit, storesOnly_setCh _ _ _ _, ch_setCh_self _ _ _⟩,
    ⟨_, hset EmFlags.hi, storesOnly_setCh _ _ _ _, ch_setCh_self _ _ _⟩⟩

end Sys2Proof.Machine
end

section
/-!
Control flow (41_commands.md R144 to R146, R148), and the two loops a single instruction makes: a JP to itself
(60_exceptions.md R256) and a LOOP on itself.
-/

namespace Sys2Proof.Machine

variable {s : State} {k n : Byte}

/-! ### JP (R146) -/

theorem exec_jp (hc : s.chan.toNat < 30) (hr : s.romHas 2 = true) (a : Word) : exec (.jp a) s = .next (s.setCur a) := by
  rw [exec, execJp, onChannel_ok _ hc, bind_next16_ok hr, jump_advance]
  rfl

/-- Settles O15: the target is fetched and CUR goes there. -/
theorem jpJumps : Obligations.JpJumps := by
  intro s a hc
  refine ⟨fun hr => exec_jp hc hr a, fun hr => ?_⟩
  rw [exec, execJp]
  exact onChannel_fetchFault hc (next16_fault hr)

/-- A JP to its own address leaves the state as it was. -/
theorem step_jpSelf (hf : s.fsm = .channels .fetch) (hc : s.chan.toNat < 30) (hm : s.cur.toNat < s.cfg.romSize)
    (hr : s.romHas 2 = true) (hi : s.instrAt = .jp s.cur) : step s = .next s := by
  rw [step_fetch hf, sectionStep_inRom hc hm, hi, exec_jp hc hr]
  rfl

/-- Settles O58, by induction on the number of steps. -/
theorem jpToItselfHangs : Obligations.JpToItselfHangs := by
  intro n s hf hc hm hr hi
  induction n with
  | zero => rfl
  | succ n ih => rw [steps_succ n (step_jpSelf hf hc hm hr hi), ih]

/-! ### The return stack: CALL and RET (R144, R145) -/

/-- The stack of a record lies in Channel RAM, whatever MOFF holds. -/
theorem stack_lt (h : s.me < 30) (m : Byte) : recBase s.me + m.toNat + 1 < 0x800 := by
  unfold recBase
  omega

theorem exec_call (hc : s.chan.toNat < 30) (hr : s.romHas 2 = true) (a : Word) :
    exec (.call a) s = .next (((s.setCh s.me Fld.moff (s.ch s.me Fld.moff - 2)).setRam16
      (recBase s.me + (s.ch s.me Fld.moff - 2).toNat) (s.cur + 2)).setCur a) := by
  have hstack : ((s.setCur (s.cur + 2)).setCh s.me Fld.moff (s.ch s.me Fld.moff - 2)).stackAt s.me =
      recBase s.me + (s.ch s.me Fld.moff - 2).toNat := by rw [State.stackAt, ch_setCh_self]
  rw [exec, execCall, onChannel_ok _ hc, bind_next16_ok hr, bind_upd, bind_upd, jump_advance]
  exact congrArg (fun p => Host.Outcome.next ((State.setRam16 _ p _).setCur a)) hstack

/-- Settles O13: MOFF stored, then the word pushed over it or beside it. -/
theorem callPushesAndJumps : Obligations.CallPushesAndJumps := by
  intro s a hc
  refine ⟨fun hr => ?pushed, fun hr => ?fault⟩
  case pushed =>
    intro m p
    refine ⟨_, exec_call hc hr a, ⟨rfl, fun x hx => ?kept, rfl⟩, ram16_setRam16 _ _, stack_lt hc m, fun h9 hA => ?moff⟩
    case kept =>
      obtain ⟨hmoff, hlo, hhi⟩ : x ≠ s.myAddr Fld.moff ∧ x ≠ p ∧ x ≠ p + 1 := by simpa using hx
      show ((s.setCh s.me Fld.moff m).setRam16 p (s.cur + 2)).ram8 x = s.ram8 x
      rw [ram8_setRam16, if_neg hhi, if_neg hlo, ram8_setCh]
      exact if_neg hmoff
    case moff =>
      have hlo : m.toNat ≠ 0x09 := fun h => h9 (BitVec.eq_of_toNat_eq h)
      have hhi : m.toNat ≠ 0x0A := fun h => hA (BitVec.eq_of_toNat_eq h)
      show ((s.setCh s.me Fld.moff m).setRam16 (recBase s.me + m.toNat) (s.cur + 2)).ram8 (recBase s.me + 0x0A) = m
      rw [ram8_setRam16, if_neg (by omega), if_neg (by omega)]
      exact ch_setCh_self _ _ _
  case fault =>
    rw [exec, execCall]
    exact onChannel_fetchFault hc (next16_fault hr)

theorem exec_ret (hc : s.chan.toNat < 30) :
    exec .ret s = .next ((s.setCh s.me Fld.moff (s.ch s.me Fld.moff + 2)).setCur
      (s.ram16 (recBase s.me + (s.ch s.me Fld.moff).toNat) + 1)) := by
  rw [exec, execRet, onChannel_ok _ hc, bind_upd, bind_upd]
  rfl

/-- Settles O14: CUR taken from the stack, and MOFF moved back. -/
theorem retPops : Obligations.RetPops := fun _ hc =>
  ⟨_, exec_ret hc, storesOnly_setCh _ _ _ _, ch_setCh_self _ _ _, stack_lt hc _⟩

/-! ### LOOP (R148) -/

theorem onChannel_next8_next8 (g : Nat → Exec Unit) :
    onChannel (fun i => next8 >>= fun _ => next8 >>= fun _ => g i) s =
      onChannel (fun i => next16 >>= fun _ => g i) s := by
  simp only [onChannel, bind_next8_next8]

/-- The counter of a LOOP lies in Channel RAM, whatever its number. -/
theorem loopCounter_lt (h : s.me < 30) (k : Byte) : loopCounter s.me k < 0x800 := by
  simp only [loopCounter, recBase, Fld.loopcnt]
  omega

/-- Operand bytes in ROM, the first `m` and the `n` after them. -/
theorem romHas_add (m n : Nat) :
    s.romHas (m + n) = (s.romHas m && (s.setCur (s.cur + BitVec.ofNat 16 m)).romHas n) := by
  induction n with
  | zero => rw [romHas_zero, Bool.and_true, Nat.add_zero]
  | succ n ih =>
    rw [← Nat.add_assoc, romHas_succ, ih, romHas_succ, Bool.and_assoc, Nat.add_assoc, ← cur_add_add]
    rfl

/-- The state in which LOOP has fetched its counter number and its count, and written the counter. -/
def State.counterStored (s : State) (k n : Byte) : State :=
  (s.setRam8 (loopCounter s.me k) (loopNext (s.ram8 (loopCounter s.me k)) n)).setCur (s.cur + 2)

/-- With the counter written, LOOP falls through or fetches its target. -/
theorem exec_loop (hc : s.chan.toNat < 30) (hr : s.romHas 2 = true) (a : Word) :
    exec (.loop k n a) s = .next (after ((if loopNext (s.ram8 (loopCounter s.me k)) n = 0 then
        upd (fun s => s.setCur (s.cur + 2)) >>= fun _ => advance
      else next16 >>= fun _ => jump a >>= fun _ => advance) (s.counterStored k n))) := by
  rw [exec, execLoop, onChannel_next8_next8, onChannel_ok _ hc, bind_next16_ok hr, bind_look, bind_upd]
  rfl

theorem exec_loop_exit (hc : s.chan.toNat < 30) (hr : s.romHas 2 = true)
    (h0 : loopNext (s.ram8 (loopCounter s.me k)) n = 0) (a : Word) :
    exec (.loop k n a) s = .next ((s.setRam8 (loopCounter s.me k) 0).setCur (s.cur + 5)) := by
  have hcur : s.cur + 2 + 2 + 1 = s.cur + 5 := (cur_add_add (s.cur + 2) 2 1).trans (cur_add_add s.cur 2 3)
  rw [exec_loop hc hr, if_pos h0, State.counterStored, h0, bind_upd]
  exact congrArg (fun c => Host.Outcome.next (State.setCur _ c)) hcur

theorem exec_loop_jump (hc : s.chan.toNat < 30) (hr : s.romHas 4 = true)
    (h0 : loopNext (s.ram8 (loopCounter s.me k)) n ≠ 0) (a : Word) :
    exec (.loop k n a) s = .next ((s.setRam8 (loopCounter s.me k)
      (loopNext (s.ram8 (loopCounter s.me k)) n)).setCur a) := by
  obtain ⟨h2, h4⟩ := Bool.and_eq_true_iff.mp ((romHas_add 2 2).symm.trans hr)
  rw [exec_loop hc h2, if_neg h0, bind_next16_ok (s := s.counterStored k n) h4, jump_advance]
  rfl

theorem exec_loop_targetOut (hc : s.chan.toNat < 30) (h2 : s.romHas 2 = true) (h4 : s.romHas 4 = false)
    (h0 : loopNext (s.ram8 (loopCounter s.me k)) n ≠ 0) (a : Word) :
    ∃ t, exec (.loop k n a) s = .next t ∧ FetchFaults (s.counterStored k n) t 2 := by
  have hout : (s.counterStored k n).romHas 2 = false := by
    have h := romHas_add (s := s) 2 2
    rw [h2, Bool.true_and] at h
    exact h.symm.trans h4
  obtain ⟨t, ht, hf⟩ := next16_fault hout
  exact ⟨t, by rw [exec_loop hc h2, if_neg h0, bind_of_error ht, after_error], hf⟩

/-- Settles O16: the counter written, and then the three ways to go on; no write where the first two operands are not in
ROM. -/
theorem loopCountsAndJumps : Obligations.LoopCountsAndJumps := by
  intro s k n a hc p c
  refine ⟨loopCounter_lt hc k, fun hr h0 => ?exit, fun hr h0 => ?jump, fun h2 h4 h0 => ?targetOut, fun hr => ?fault⟩
  case exit =>
    exact ⟨_, exec_loop_exit hc hr h0 a, ⟨rfl, ramKept_setRam8 _ _, rfl⟩, ram8_setRam8_self _ _⟩
  case jump =>
    exact ⟨_, exec_loop_jump hc hr h0 a, ⟨rfl, ramKept_setRam8 _ _, rfl⟩, ram8_setRam8_self _ _⟩
  case targetOut =>
    obtain ⟨t, ht, j, hj, hin, hout, he⟩ := exec_loop_targetOut hc h2 h4 h0 a
    have hram (x : Nat) : t.ram8 x = (s.counterStored k n).ram8 x := by
      rw [he]
      rfl
    have hthird : s.romHas 3 = (s.counterStored k n).romHas 1 := by rw [romHas_add 2 1, h2, Bool.true_and]; rfl
    have hinfo : (s.counterStored k n).cur + BitVec.ofNat 16 (j + 1) = s.cur + (if s.romHas 3 then 4 else 3) := by
      rw [hthird]
      obtain rfl | rfl : j = 0 ∨ j = 1 := by omega
      · rw [hout]
        exact cur_add_add s.cur 2 1
      · rw [hin]
        exact cur_add_add s.cur 2 2
    refine ⟨t, ht, fun x hx => (hram x).trans (ramKept_setRam8 _ _ x hx), (hram p).trans (ram8_setRam8_self _ _), ?_⟩
    rw [← hinfo, he]
    rfl
  case fault =>
    rw [exec, execLoop, onChannel_next8_next8]
    exact onChannel_fetchFault hc (next16_fault hr)

/-! ### A LOOP on itself (R148) -/

/-- In canonical form the last of two stores of a byte is what counts. -/
theorem setRam8_setRam8 (hm : s.memWf = true) {p : Nat} (hp : p < 0x800) (x y : Byte) :
    (s.setRam8 p x).setRam8 p y = s.setRam8 p y := by
  have hwf := Memory.wf_write (v := y) (memWf_ram (memWf_setRam8 hm hp x)) hp
  have hwf' := Memory.wf_write (v := y) (memWf_ram hm) hp
  have hram : ((s.setRam8 p x).setRam8 p y).ram = (s.setRam8 p y).ram := by
    refine Memory.ext_of_read hwf hwf' fun b _ => ?_
    show ((s.setRam8 p x).setRam8 p y).ram8 b = (s.setRam8 p y).ram8 b
    simp only [ram8_setRam8]
    split <;> rfl
  exact congrArg (fun m => { s with ram := m }) hram

/-- In canonical form storing what a byte holds changes nothing. -/
theorem setRam8_ram8 (hm : s.memWf = true) {p : Nat} (hp : p < 0x800) : s.setRam8 p (s.ram8 p) = s := by
  have hram : (s.setRam8 p (s.ram8 p)).ram = s.ram := by
    refine Memory.ext_of_read (Memory.wf_write (memWf_ram hm) hp) (memWf_ram hm) fun b _ => ?_
    show (s.setRam8 p (s.ram8 p)).ram8 b = s.ram8 b
    rw [ram8_setRam8]
    split
    next h => rw [h]
    next => rfl
  exact congrArg (fun m => { s with ram := m }) hram

/-- A loop counter holds no field that decoding depends on (30_encoding.md R93). -/
theorem instrAt_setCounter (k x : Byte) : (s.setRam8 (loopCounter s.me k) x).instrAt = s.instrAt := by
  have hch {f : Nat} (hf : f < Fld.loopcnt) : (s.setRam8 (loopCounter s.me k) x).ch s.me f = s.ch s.me f := by
    rw [State.ch, ram8_setRam8, if_neg (by rw [loopCounter]; omega)]
    rfl
  have hctx : (s.setRam8 (loopCounter s.me k) x).decodeCtx = s.decodeCtx := by
    simp only [State.decodeCtx, State.isPcm, State.setRam8_chan, State.setRam8_cfg,
      hch (f := Fld.flags) (by decide), hch (f := Fld.emflags) (by decide)]
  rw [State.instrAt, hctx]
  rfl

/-- A Process Section stands at a LOOP on itself, whose bytes lie in ROM. -/
structure LoopsOnItself (s : State) (k n : Byte) : Prop where
  mem : s.memWf = true
  chan : s.chan.toNat < 30
  fetch : s.fsm = .channels .fetch
  opcode : s.cur.toNat < s.cfg.romSize
  operands : s.romHas 4 = true
  instr : s.instrAt = .loop k n s.cur

namespace LoopsOnItself

variable (h : LoopsOnItself s k n)
include h

theorem setCounter (x : Byte) : LoopsOnItself (s.setRam8 (loopCounter s.me k) x) k n where
  mem := memWf_setRam8 h.mem (loopCounter_lt h.chan k) x
  chan := h.chan
  fetch := h.fetch
  opcode := h.opcode
  operands := h.operands
  instr := (instrAt_setCounter k x).trans h.instr

theorem step : step s = exec (.loop k n s.cur) s := by
  rw [step_fetch h.fetch, sectionStep_inRom h.chan h.opcode, h.instr]

/-- An arrival that does not exhaust the counter writes it and comes back. -/
theorem step_again (h0 : loopNext (s.ram8 (loopCounter s.me k)) n ≠ 0) :
    Machine.step s = .next (s.setRam8 (loopCounter s.me k) (loopNext (s.ram8 (loopCounter s.me k)) n)) := by
  rw [h.step, exec_loop_jump h.chan h.operands h0]
  rfl

/-- The arrival that exhausts the counter leaves the loop. -/
theorem step_exit (h0 : loopNext (s.ram8 (loopCounter s.me k)) n = 0) :
    Machine.step s = .next ((s.setRam8 (loopCounter s.me k) 0).setCur (s.cur + 5)) := by
  rw [h.step, exec_loop_exit h.chan (romHas_mono h.operands (by decide)) h0]

/-- With `m` arrivals to come after the next one, the loop ends with its counter at 0. -/
theorem steps (m : Nat) (hm : (loopNext (s.ram8 (loopCounter s.me k)) n).toNat = m) :
    Machine.steps (m + 1) s = .next ((s.setRam8 (loopCounter s.me k) 0).setCur (s.cur + 5)) := by
  induction m generalizing s with
  | zero => exact steps_one (h.step_exit (BitVec.eq_of_toNat_eq hm))
  | succ m ih =>
    have h0 : loopNext (s.ram8 (loopCounter s.me k)) n ≠ 0 := fun h0 => by simp [h0] at hm
    rw [steps_succ _ (h.step_again h0)]
    generalize loopNext (s.ram8 (loopCounter s.me k)) n = y at hm h0
    have hy : (loopNext ((s.setRam8 (loopCounter s.me k) y).ram8 (loopCounter s.me k)) n).toNat = m := by
      rw [ram8_setRam8_self, loopNext, if_neg h0]
      bv_omega
    refine (ih (h.setCounter y) hy).trans ?_
    exact congrArg (fun u => Host.Outcome.next (State.setCur u (s.cur + 5)))
      (setRam8_setRam8 h.mem (loopCounter_lt h.chan k) y 0)

end LoopsOnItself

/-- The arrivals at a LOOP with a zero counter, after the first one. -/
theorem loopNext_zero_toNat (n : Byte) : (loopNext 0 n).toNat + 1 = if n = 0 then 256 else n.toNat := by
  rw [loopNext, if_pos rfl]
  split
  next h => rw [h]; rfl
  next h => bv_omega

/-- Settles O59: the run of a LOOP on itself from a zero counter, which is the counter it ends with. -/
theorem loopRunsItsCount : Obligations.LoopRunsItsCount := by
  intro s k n hinv hf hm hr hi h0
  have h : LoopsOnItself s k n := ⟨hinv.mem, hinv.chan, hf, hm, hr, hi⟩
  have hzero : s.ram8 (loopCounter s.me k) = 0 := h0
  have hsame : s.setRam8 (loopCounter s.me k) 0 = s := by
    rw [← hzero]
    exact setRam8_ram8 hinv.mem (loopCounter_lt hinv.chan k)
  have hrun := h.steps _ rfl
  rw [hsame, hzero, loopNext_zero_toNat] at hrun
  exact hrun

end Sys2Proof.Machine
end

section
/-!
The instructions that write FM registers through the guarded port (41_commands.md R149, R150, R154 to R156): the block
stream of FMBLK and what its writes come to, and the routing register of PANR, PANL and PANC.
-/

namespace Sys2Proof.Machine

variable {s t : State} {p : Word} {l : List (Byte × Byte)}

/-! ### Guarded writes and the rest of the state -/

/-- `t` differs from `s` at most in the FM port: its shadow, its record and its answers (20_memory.md R72). -/
def OnlyFm (s t : State) : Prop :=
  t = { s with fmShadow := t.fmShadow, fmOut := t.fmOut, fmIn := t.fmIn, fmDraws := t.fmDraws }

theorem OnlyFm.refl (s : State) : OnlyFm s s := rfl

theorem OnlyFm.trans {u : State} (hst : OnlyFm s t) (htu : OnlyFm t u) : OnlyFm s u := by
  rw [OnlyFm] at *
  conv => lhs; rw [htu, hst]

theorem fmWrite_onlyFm (r v : Byte) : OnlyFm s (s.fmWrite r v) := by
  unfold OnlyFm State.fmWrite State.fmDrawn
  cases s.fmIn <;> rfl

theorem gfmWrite_onlyFm (i : Nat) (r v : Byte) : OnlyFm s (s.gfmWrite i r v) := by
  unfold State.gfmWrite
  split
  · exact .refl s
  · exact fmWrite_onlyFm r v

theorem writeBlock_onlyFm (i : Nat) (l : List (Byte × Byte)) : OnlyFm s (s.writeBlock i l) := by
  induction l generalizing s with
  | nil => exact .refl s
  | cons rv l ih => exact (gfmWrite_onlyFm i _ _).trans ih

theorem fmDrawn_curFsm (c : Word) (f : Fsm) :
    { s with cur := c, fsm := f }.fmDrawn = { s.fmDrawn with cur := c, fsm := f } := by
  unfold State.fmDrawn
  cases s.fmIn <;> rfl

/-- CUR and STATE have no part in a guarded write. -/
theorem gfmWrite_curFsm (i : Nat) (r v : Byte) (c : Word) (f : Fsm) :
    { s with cur := c, fsm := f }.gfmWrite i r v = { s.gfmWrite i r v with cur := c, fsm := f } := by
  have hsup : { s with cur := c, fsm := f }.suppressed i = s.suppressed i := rfl
  unfold State.gfmWrite
  rw [hsup]
  split
  · rfl
  · rw [State.fmWrite, fmDrawn_curFsm]
    rfl

theorem writeBlock_curFsm (i : Nat) (l : List (Byte × Byte)) (c : Word) (f : Fsm) :
    { s with cur := c, fsm := f }.writeBlock i l = { s.writeBlock i l with cur := c, fsm := f } := by
  induction l generalizing s with
  | nil => rfl
  | cons rv l ih =>
    show ({ s with cur := c, fsm := f }.gfmWrite i _ _).writeBlock i l = _
    rw [gfmWrite_curFsm, ih]
    rfl

/-! ### The writes of a block (R150, 40_sequencer.md R136) -/

theorem writeBlock_suppressed {i : Nat} (h : s.suppressed i = true) (l : List (Byte × Byte)) :
    s.writeBlock i l = s := by
  induction l with
  | nil => rfl
  | cons rv l ih =>
    show (s.gfmWrite i _ _).writeBlock i l = s
    rw [gfmWrite_suppressed h, ih]

/-- Settles O18: no write on a suppressed record; on any other the list of FM writes, under the answers given. -/
theorem fmBlockWrites : Obligations.FmBlockWrites := by
  intro s l
  refine ⟨fun h => writeBlock_suppressed h l, fun answers rest h hin hlen => ?_⟩
  rw [writeBlock_heard h]
  exact fmWrites_answered hin (hlen.trans (List.length_map _).symm)

/-! ### The stream of a block -/

/-- Two states of one ROM and one configuration hold the same pairs. -/
theorem pairsAt_congr (hr : t.rom = s.rom) (hc : t.cfg = s.cfg) : t.pairsAt p l = s.pairsAt p l := by
  induction l generalizing p with
  | nil => rfl
  | cons rv l ih => simp only [State.pairsAt, State.inRom, State.romAt, hr, hc, ih]

theorem blockAt_congr (hr : t.rom = s.rom) (hc : t.cfg = s.cfg) : t.blockAt p l = s.blockAt p l := by
  induction l generalizing p with
  | nil => simp only [State.blockAt, State.romAt, hr, hc]
  | cons rv l ih => simp only [State.blockAt, State.inRom, State.romAt, hr, hc, ih]

theorem pairOut_congr (hr : t.rom = s.rom) (hc : t.cfg = s.cfg) : t.pairOut p = s.pairOut p := by
  unfold State.pairOut State.firstOut State.inRom State.romAt
  rw [hr, hc]

/-- A lap that comes to a byte outside ROM has written the pairs before it: there are fewer of them than a lap holds. -/
theorem fmStreamLap_out (i : Nat) {x : Word} (h : s.pairsAt p l = true)
    (hx : s.pairOut (p + 2 * BitVec.ofNat 16 l.length) = some x) :
    fmStreamLap i p s = .error () ((s.writeBlock i l).raiseFault .romRange x) := by
  have hlen : l.length < fmLap := by
    by_contra hl
    rw [pairOut_of_lap h (Nat.le_of_not_lt hl)] at hx
    cases hx
  obtain ⟨d, hd⟩ := Nat.exists_eq_add_of_lt hlen
  have hu : (s.writeBlock i l).pairOut (p + 2 * BitVec.ofNat 16 l.length) = some x := by
    have honly := writeBlock_onlyFm (s := s) i l
    rw [← hx]
    exact pairOut_congr (by rw [honly]) (by rw [honly])
  refine bind_of_error ?_ _
  rw [show fmLap = d + 1 + l.length by omega, fmStream_pairs i (d + 1) h, fmStream_out i d hu]

/-- A whole lap of pairs comes back to the pair it began with. -/
theorem fmStreamLap_endless (i : Nat) (h : s.pairsAt p l = true) (hl : l.length = fmLap) :
    fmStreamLap i p s = .ok () ((s.writeBlock i l).setFsm (.channels (.stream p))) := by
  have hp : p + 2 * BitVec.ofNat 16 l.length = p := by
    rw [hl]
    exact BitVec.add_zero p
  have hs : fmStream i fmLap p s = .ok (some p) (s.writeBlock i l) := by
    have hrun := fmStream_pairs i 0 h
    rw [hp, Nat.zero_add, hl] at hrun
    exact hrun
  exact bind_of_ok hs _

/-! ### FMBLK (R149, R150) -/

/-- The state in which FMBLK has fetched and stored its operand. -/
def State.fmblkStored (s : State) (blk : Byte) : State := (s.setCh s.me Fld.fmblk blk).setCur (s.cur + 1)

theorem exec_fmblk (hc : s.chan.toNat < 30) (hr : s.romHas 1 = true) (blk : Byte) :
    exec (.fmblk blk) s = .next (after (fmStreamLap s.me (s.blockOf s.me blk) (s.fmblkStored blk))) := by
  have hidx : (s.fmblkStored blk).ch s.me Fld.cmdidx = s.ch s.me Fld.cmdidx :=
    (ch_setCh _ _ _ _).trans (if_neg (by decide))
  rw [State.fmblkStored] at hidx
  rw [exec, execFmblk, onChannel_ok _ hc, bind_of_ok (next8_inRom hr), bind_upd, bind_look]
  exact congrArg (fun x => Host.Outcome.next (after (fmStreamLap s.me (s.cfg.fmBlock.get (x, 3, blk)) _))) hidx

/-- The writes of a block with the operand stored and CUR where the stream leaves it. -/
theorem writeBlock_fmblkStored (blk : Byte) (l : List (Byte × Byte)) :
    (s.fmblkStored blk).writeBlock s.me l =
      { (s.setCh s.me Fld.fmblk blk).writeBlock s.me l with cur := s.cur + 1 } := by
  have honly := writeBlock_onlyFm (s := s.setCh s.me Fld.fmblk blk) s.me l
  have hfsm : ((s.setCh s.me Fld.fmblk blk).writeBlock s.me l).fsm = s.fsm := by
    rw [honly]
    rfl
  refine (writeBlock_curFsm (s := s.setCh s.me Fld.fmblk blk) s.me l (s.cur + 1) s.fsm).trans ?_
  rw [← hfsm]

/-- The block written leaves the operand in its field, and besides it only CUR and the FM port changed. -/
theorem fmblk_frame (blk : Byte) (l : List (Byte × Byte)) (c : Word) :
    let t := { (s.setCh s.me Fld.fmblk blk).writeBlock s.me l with cur := c }
    t.ch s.me Fld.fmblk = blk ∧ OnlyRamCurFm s t ∧ t.fsm = s.fsm ∧ RamKept s t [s.myAddr Fld.fmblk] := by
  obtain ⟨sh, out, inp, d, hw⟩ : ∃ sh out inp d, (s.setCh s.me Fld.fmblk blk).writeBlock s.me l =
      { s.setCh s.me Fld.fmblk blk with fmShadow := sh, fmOut := out, fmIn := inp, fmDraws := d } :=
    ⟨_, _, _, _, writeBlock_onlyFm _ _⟩
  rw [hw]
  exact ⟨ch_setCh_self _ _ _, rfl, rfl, ramKept_setRam8 _ _⟩

theorem step_stream {q : Word} (hf : s.fsm = .channels (.stream q)) (hc : s.chan.toNat < 30) :
    step s = .next (after (fmStreamLap s.me q (s.setFsm (.channels .fetch)))) := by
  simp only [step, hf, onChannel_ok _ hc, streamStep, bind_upd]

/-- Settles O17: the lap of the stream by what stands in ROM after its pairs, and the operand fetch before it. -/
theorem fmblkStreamsBlock : Obligations.FmblkStreamsBlock := by
  intro s blk l hc u p
  refine ⟨fun hr hb => ?ends, fun hr => ?operandOut, fun x hr hl hx => ?blockOut, fun hr hl hlen => ?endless,
    fun q hf hl hlen => ?again⟩
  case ends =>
    have hcur : s.cur + 1 + 1 = s.cur + 2 := cur_add_add s.cur 1 1
    have hu : (s.fmblkStored blk).blockAt p l = true :=
      (blockAt_congr (s := s) (t := s.fmblkStored blk) rfl rfl).trans hb
    refine ⟨_, ?_, rfl, fmblk_frame blk l (s.cur + 2)⟩
    rw [exec_fmblk hc hr, fmStreamLap_block s.me hu, writeBlock_fmblkStored, ← hcur]
    rfl
  case operandOut =>
    rw [exec, execFmblk]
    exact onChannel_fetchFault hc (next8_outOfRom hr)
  case blockOut =>
    have hu : (s.fmblkStored blk).pairsAt p l = true :=
      (pairsAt_congr (s := s) (t := s.fmblkStored blk) rfl rfl).trans hl
    refine ⟨_, ?_, faulted_romRange x⟩
    have hxu : (s.fmblkStored blk).pairOut (p + 2 * BitVec.ofNat 16 l.length) = some x :=
      (pairOut_congr (s := s) (t := s.fmblkStored blk) rfl rfl).trans hx
    rw [exec_fmblk hc hr, fmStreamLap_out s.me hu hxu, writeBlock_fmblkStored, after_error]
  case endless =>
    have hu : (s.fmblkStored blk).pairsAt p l = true :=
      (pairsAt_congr (s := s) (t := s.fmblkStored blk) rfl rfl).trans hl
    rw [exec_fmblk hc hr, fmStreamLap_endless s.me hu hlen, writeBlock_fmblkStored]
    rfl
  case again =>
    have hu : (s.setFsm (.channels .fetch)).pairsAt q l = true :=
      (pairsAt_congr (s := s) (t := s.setFsm (.channels .fetch)) rfl rfl).trans hl
    have hback : ((s.setFsm (.channels .fetch)).writeBlock s.me l).setFsm (.channels (.stream q)) =
        s.writeBlock s.me l := by
      have honly := writeBlock_onlyFm (s := s) s.me l
      rw [← hf]
      refine (congrArg (State.setFsm · s.fsm) (writeBlock_curFsm s.me l s.cur (.channels .fetch))).trans ?_
      rw [honly]
      rfl
    rw [step_stream hf hc, fmStreamLap_endless s.me hu hlen, after_ok, hback]

/-! ### PANR, PANL and PANC (R154 to R156) -/

/-- The routing register of record `i` (R154). -/
def State.routing (s : State) (i : Nat) : Byte := 0x20 + (s.ch i Fld.route &&& 7)

/-- Each of the three is one guarded write of the routing register, with its own pan bits. -/
theorem exec_pan (hc : s.chan.toNat < 30) :
    ∀ ib ∈ [(Instr.panr, (0x80 : Byte)), (Instr.panl, 0x40), (Instr.panc, 0xC0)],
      exec ib.1 s = .next { s.gfmWrite s.me (s.routing s.me) ((s.shadow (s.routing s.me) &&& 0x3F) ||| ib.2) with
        cur := s.cur + 1 } := by
  have hpan (bits : Byte) : onChannel (fun i => pan i bits >>= fun _ => advance) s =
      .next { s.gfmWrite s.me (s.routing s.me) ((s.shadow (s.routing s.me) &&& 0x3F) ||| bits) with
        cur := s.cur + 1 } := by
    rw [onChannel_ok _ hc, pan, bind_upd, advance, upd_run, after_ok, State.gfmWrite_cur]
    rfl
  simp only [List.forall_mem_cons]
  exact ⟨hpan 0x80, hpan 0x40, hpan 0xC0, nofun⟩

/-- Settles O19: the guarded write suppressed, lost to a busy chip, or issued. -/
theorem panWritesRouting : Obligations.PanWritesRouting := by
  intro s hc ib hib r v
  have hrun : exec ib.1 s = .next { s.gfmWrite s.me r v with cur := s.cur + 1 } := exec_pan hc ib hib
  refine ⟨fun hsup => ?suppressed, fun hsup hb => ?busy, fun hsup hb => ⟨s.fmWrite r v, fmIssued_fmWrite hb r v, ?_⟩⟩
  case suppressed => rw [hrun, gfmWrite_suppressed hsup]
  case busy => rw [hrun, gfmWrite_heard hsup, fmWrite_busy hb]
  rw [hrun, gfmWrite_heard hsup]

end Sys2Proof.Machine
end

section
/-!
The finalize instructions (41_commands.md R142, R158): the key off that frees a channel, and the block copies of FINPCM
before it.
-/

namespace Sys2Proof.Machine

variable {s : State} {c : FinalCopy} {l : List FinalCopy}

/-! ### FINFM (R142) -/

/-- The channel freed: key off, FLAGS zeroed, its step over (R142). -/
def State.finalized (s : State) (i : Nat) : State :=
  ((s.fmWrite 0x08 (s.ym i)).setCh i Fld.flags 0).setFsm (.channels .done)

theorem finalize_run (i : Nat) : finalize i s = .ok () (s.finalized i) := rfl

theorem exec_finfm (hc : s.chan.toNat < 30) : exec .finfm s = .next (s.finalized s.me) := by
  rw [exec, execFinfm, onChannel_ok _ hc, finalize_run, after_ok]

theorem finalized_flags (i : Nat) : (s.finalized i).ch i Fld.flags = 0 := ch_setCh_self _ _ _

/-- Settles O20: the key off is an FM write that is not guarded, so it is lost to a busy chip or issued. -/
theorem finfmFreesChannel : Obligations.FinfmFreesChannel := by
  intro s hc c
  refine ⟨_, s.fmWrite 0x08 c, exec_finfm hc, rfl, finalized_flags _, fun a ha => ?kept, fun hb => fmWrite_busy hb _ _,
    fun hb => fmIssued_fmWrite hb _ _⟩
  exact (ramKept_setRam8 _ _ a ha).trans (State.ram8_fmWrite _ _ _ _)

/-! ### One finalize copy (R158) -/

/-- The first `n` bytes of a copy to the PCM file: Channel RAM is only read, so each byte is what it was at first. -/
theorem copyBytes_toPcm (hd : c.dir = .ramToPcm) (n : Nat) :
    let t := (List.range n).foldl (fun u j => u.copyByte c j) s
    t = { s with pcm := t.pcm } ∧
      ∀ a, t.pcm8 a =
        if c.pa.toNat ≤ a ∧ a < c.pa.toNat + n then s.ram8 (c.ra.toNat + (a - c.pa.toNat)) else s.pcm8 a := by
  induction n with
  | zero => exact ⟨rfl, fun a => (if_neg (by omega)).symm⟩
  | succ n ih =>
    obtain ⟨honly, hread⟩ := ih
    simp only [List.range_succ, List.foldl_append, List.foldl_cons, List.foldl_nil]
    generalize (List.range n).foldl (fun u j => u.copyByte c j) s = u at *
    have hbyte : u.copyByte c n = u.setPcm8 (c.pa.toNat + n) (s.ram8 (c.ra.toNat + n)) := by
      rw [State.copyByte, hd, honly]
      rfl
    rw [hbyte]
    refine ⟨?_, fun a => ?_⟩
    · rw [honly]
      rfl
    · rw [pcm8_setPcm8, hread]
      by_cases ha : a = c.pa.toNat + n
      · rw [if_pos ha, if_pos (by omega), ha, Nat.add_sub_cancel_left]
      · rw [if_neg ha]
        exact if_congr (by omega) rfl rfl

/-- The first `n` bytes of a copy to Channel RAM: the PCM file is only read. -/
theorem copyBytes_toRam (hd : c.dir = .pcmToRam) (n : Nat) :
    (List.range n).foldl (fun u j => u.copyByte c j) s =
      (List.range n).foldl (fun u j => u.setRam8 (c.ra.toNat + j) (s.pcm8 (c.pa.toNat + j))) s := by
  induction n with
  | zero => rfl
  | succ n ih =>
    have honly := fill_only (s := s) n c.ra.toNat fun j => s.pcm8 (c.pa.toNat + j)
    simp only [List.range_succ, List.foldl_append, List.foldl_cons, List.foldl_nil, ih]
    rw [State.copyByte, hd, honly]
    rfl

theorem copyFits_iff : copyFits c = true ↔ c.ra.toNat + 7 < 0x800 ∧ c.pa.toNat + 7 < 0x100 := by simp [copyFits]

theorem copyBlock_ok (h : copyFits c = true) : copyBlock c s = .ok () (s.copyBytes c) := by
  obtain ⟨hra, hpa⟩ := copyFits_iff.1 h
  rw [copyBlock, if_neg (by omega), if_neg (by omega), upd_run]

/-- The first of the two range checks that fails decides the fault. -/
theorem copyBlock_fault (h : copyFits c = false) :
    copyBlock c s = .error () (if 0x800 ≤ c.ra.toNat + 7 then s.raiseFault .ramRange (c.ra + 7)
      else s.raiseFault .param (c.pa + 7)) := by
  have hout : ¬ (c.ra.toNat + 7 < 0x800 ∧ c.pa.toNat + 7 < 0x100) := by simp [← copyFits_iff, h]
  rw [copyBlock]
  split
  · rfl
  · rw [if_pos (by omega), raise_run]

/-- Settles O21: each byte of the block as it was before the copy, and no other byte. -/
theorem copyMovesEightBytes : Obligations.CopyMovesEightBytes := by
  intro s c hfits
  refine ⟨copyBlock_ok hfits, fun hd => ?toPcm, fun hd => ?toRam⟩
  case toPcm =>
    obtain ⟨honly, hread⟩ := copyBytes_toPcm (s := s) hd 8
    refine ⟨honly, fun j hj => ?_, fun a ha => (hread a).trans (if_neg (mt mem_run.2 ha))⟩
    exact (hread _).trans (by rw [if_pos (by omega), Nat.add_sub_cancel_left])
  case toRam =>
    have hfill : s.copyBytes c = _ := copyBytes_toRam hd 8
    have hread := ram8_fill (s := s) 8 c.ra.toNat fun j => s.pcm8 (c.pa.toNat + j)
    rw [hfill]
    refine ⟨fill_only _ _ _, fun j hj => ?_, fun a ha => (hread a).trans (if_neg (mt mem_run.2 ha))⟩
    exact (hread _).trans (by rw [if_pos (by omega), Nat.add_sub_cancel_left])

/-! ### FINPCM (R158) -/

theorem copyByte_chan (c : FinalCopy) (j : Nat) : (s.copyByte c j).chan = s.chan := by
  unfold State.copyByte
  split <;> rfl

/-- The copies do not move CHAN. -/
theorem copyAll_chan (l : List FinalCopy) : (s.copyAll l).chan = s.chan :=
  List.foldlRecOn (motive := fun u : State => u.chan = s.chan) l _ rfl fun _ hu c _ =>
    List.foldlRecOn (motive := fun u : State => u.chan = s.chan) (List.range 8) _ hu fun _ hv j _ =>
      (copyByte_chan c j).trans hv

theorem each_copyBlock_ok (h : ∀ c ∈ l, copyFits c = true) : each l copyBlock s = .ok () (s.copyAll l) := by
  induction l generalizing s with
  | nil => rfl
  | cons c l ih =>
    obtain ⟨hc, hl⟩ := List.forall_mem_cons.1 h
    rw [each_cons_run, bind_of_ok (copyBlock_ok hc), ih hl]
    rfl

/-- The copies before the first one that does not fit are done when it faults. -/
theorem each_copyBlock_fault {pre post : List FinalCopy} (h : ∀ d ∈ pre, copyFits d = true) (hc : copyFits c = false) :
    each (pre ++ c :: post) copyBlock s = .error () (
      if 0x800 ≤ c.ra.toNat + 7 then (s.copyAll pre).raiseFault .ramRange (c.ra + 7)
      else (s.copyAll pre).raiseFault .param (c.pa + 7)) := by
  rw [each_append_run, bind_of_ok (each_copyBlock_ok h), each_cons_run, bind_of_error (copyBlock_fault hc)]

theorem exec_finpcm (hc : s.chan.toNat < 30) :
    exec .finpcm s =
      .next (after ((each (s.cfg.finalCopies.get s.chan) copyBlock >>= fun _ => finalize s.me) s)) := by
  rw [exec, execFinpcm, onChannel_ok _ hc, bind_look]

/-- Settles O22: the list of copies runs to its end and FINFM's sequence follows, or it stops at the first that does not
fit. -/
theorem finpcmCopiesThenFrees : Obligations.FinpcmCopiesThenFrees := by
  intro s hc l
  refine ⟨fun hfits => ?copied, fun pre c post hl hpre hout => ?stopped⟩
  case copied =>
    have hchan := copyAll_chan (s := s) l
    have hfinfm : exec .finfm (s.copyAll l) = .next ((s.copyAll l).finalized s.me) := by
      rw [exec_finfm (hchan ▸ hc), State.me, hchan]
    refine ⟨_, ?_, hfinfm, rfl, finalized_flags _⟩
    rw [exec_finpcm hc, bind_of_ok (each_copyBlock_ok hfits), finalize_run, after_ok]
  case stopped =>
    have hlist : s.cfg.finalCopies.get s.chan = pre ++ c :: post := hl
    have hrun : exec .finpcm s = .next (if 0x800 ≤ c.ra.toNat + 7 then
        (s.copyAll pre).raiseFault .ramRange (c.ra + 7) else (s.copyAll pre).raiseFault .param (c.pa + 7)) := by
      rw [exec_finpcm hc, hlist, bind_of_error (each_copyBlock_fault hpre hout), after_error]
    exact ⟨_, hrun, by split <;> rfl⟩

end Sys2Proof.Machine
end

section
/-!
The PCM instructions (42_pcm.md): channel assignment and its slot check, the entries PERC and SAMPLE load before it, and
the bytes that only raise a fault.
-/

namespace Sys2Proof.Machine

variable {s t u : State} {i : Nat} {l : List (Nat × Byte)}

/-! ### Channel assignment (R184 to R187) -/

/-- The record sent to the slot channel assignment picks for it (R184). -/
def State.assigned (s : State) (i : Nat) : State := (s.afterPick i).pcmSend i (s.pickedSlot i)

/-- A standard pick answers the slot the category's counter selects and rotates the counter (R186). -/
theorem stdPick_run (h : bit (s.ch i Fld.ctrl) ctrlDrum = false) :
    stdPick i s = .ok (s.pickedSlot i) (s.afterPick i) := by
  rw [State.pickedSlot, State.afterPick, h]
  rfl

/-- The slot number decides: one up to 15 is sent to, any other raises PARAM, in a drum scan or after the pick. -/
theorem pcmAssign_run (i : Nat) :
    pcmAssign i s = if (s.pickedSlot i).toNat ≤ 15 then .ok () (s.assigned i)
      else .error () ((s.afterPick i).raiseFault .param (zext16 (s.pickedSlot i))) := by
  have hsend (sl : Slot) (u : State) : (checkSlot sl >>= fun _ => upd fun v => v.pcmSend i sl) u =
      if sl.toNat ≤ 15 then .ok () (u.pcmSend i sl) else .error () (u.raiseFault .param (zext16 sl)) := by
    by_cases h : sl.toNat ≤ 15
    · rw [bind_checkSlot_ok h, upd_run, if_pos h]
    · rw [if_neg h]
      exact bind_of_error (by rw [checkSlot_run, if_neg h]) _
  rw [pcmAssign, bind_look, State.assigned]
  cases hdrum : bit (s.ch i Fld.ctrl) ctrlDrum with
  | false =>
    rw [if_neg (by decide), bind_of_ok (stdPick_run hdrum)]
    exact hsend _ _
  | true =>
    have hslot : s.pickedSlot i = s.drumSlot i := if_pos hdrum
    have hafter : s.afterPick i = s := if_pos hdrum
    rw [if_pos rfl, hslot, hafter]
    obtain hscan | ⟨hbig, hscan⟩ := drumScan_run (s := s) i
    · rw [bind_of_ok hscan]
      exact hsend _ _
    · rw [bind_of_error hscan, if_neg (by omega)]

theorem pcmAssign_sends (h : (s.pickedSlot i).toNat ≤ 15) : pcmAssign i s = .ok () (s.assigned i) := by
  rw [pcmAssign_run, if_pos h]

theorem pcmAssign_faults (h : 15 < (s.pickedSlot i).toNat) :
    pcmAssign i s = .error () ((s.afterPick i).raiseFault .param (zext16 (s.pickedSlot i))) := by
  rw [pcmAssign_run, if_neg (by omega)]

/-- Picking a slot writes STDTOG at most (R186). -/
theorem afterPick_only (i : Nat) : ∃ x, s.afterPick i = { s with stdTog := x } := by
  unfold State.afterPick
  split <;> exact ⟨_, rfl⟩

theorem afterPick_pcm8 (i a : Nat) : (s.afterPick i).pcm8 a = s.pcm8 a := by
  obtain ⟨x, hx⟩ := afterPick_only (s := s) i
  rw [hx]
  rfl

theorem assigned_spec (h : (s.pickedSlot i).toNat ≤ 15) : Assigned s (s.assigned i) i := by
  have hread := afterPick_pcm8 (s := s) i
  rw [Assigned, State.assigned]
  obtain ⟨hsent, hkept, honly⟩ := pcmSend_spec (s := s.afterPick i) i (s.pickedSlot i) h
  generalize s.afterPick i = v, (s.afterPick i).pcmSend i (s.pickedSlot i) = t at *
  obtain ⟨p, rfl⟩ : ∃ p, t = { v with pcm := p } := ⟨_, honly⟩
  exact ⟨hsent, fun a ha => (hkept a ha).trans (hread a), rfl⟩

theorem assigned_cur (i : Nat) : (s.assigned i).cur = s.cur := by
  obtain ⟨x, hx⟩ := afterPick_only (s := s) i
  rw [State.assigned, hx]
  rfl

/-- Settles O25: the pick, then the check of its slot number. -/
theorem assignmentChecksSlot : Obligations.AssignmentChecksSlot := fun _ i =>
  ⟨fun h => ⟨_, pcmAssign_sends h, assigned_spec h, assigned_cur i⟩, fun h => ⟨_, pcmAssign_faults h, rfl⟩⟩

/-- An assignment does not depend on where CUR stands after it. -/
theorem Assigned.setCur (h : Assigned u t i) (c : Word) : Assigned u (t.setCur c) i := by
  obtain ⟨hsent, hkept, honly⟩ := h
  exact ⟨hsent, hkept, congrArg (State.setCur · c) honly⟩

/-- Assignment keeps Channel RAM. -/
theorem Assigned.ram8 (h : Assigned u t i) (a : Nat) : t.ram8 a = u.ram8 a := by
  obtain ⟨_, _, honly⟩ := h
  obtain ⟨x, hx⟩ := afterPick_only (s := u) i
  rw [honly, hx]
  rfl

/-- Stores to Channel RAM before an assignment add nothing to what it may write but those stores. -/
theorem Assigned.onlyRamPcmTogCur (h : Assigned u t i) (hu : OnlyRam s u) : OnlyRamPcmTogCur s t := by
  obtain ⟨_, _, honly⟩ := h
  obtain ⟨x, hx⟩ := afterPick_only (s := u) i
  obtain ⟨m, rfl⟩ : ∃ m, u = { s with ram := m } := ⟨_, hu⟩
  rw [OnlyRamPcmTogCur, honly, hx]

/-! ### The fields of an entry -/

/-- The listed fields of record `i` stored in order. -/
def State.setFields (s : State) (i : Nat) (l : List (Nat × Byte)) : State := l.foldl (fun u fv => u.setCh i fv.1 fv.2) s

theorem setFields_onlyRam (l : List (Nat × Byte)) : OnlyRam s (s.setFields i l) :=
  List.foldlRecOn (motive := OnlyRam s) l _ (.refl s) fun _ hu _ _ => hu.setRam8 _ _

theorem setFields_ramKept (l : List (Nat × Byte)) : RamKept s (s.setFields i l) (l.map fun fv => recBase i + fv.1) := by
  induction l generalizing s with
  | nil => exact fun _ _ => rfl
  | cons fv l ih =>
    intro a ha
    obtain ⟨hfv, hl⟩ := not_or.mp (mt List.mem_cons.mpr ha)
    exact (ih a hl).trans ((ram8_setCh ..).trans (if_neg hfv))

/-- Each of the fields holds its byte when no field is listed twice. -/
theorem ch_setFields (hl : (l.map Prod.fst).Nodup) {f : Nat} {v : Byte} (h : (f, v) ∈ l) :
    (s.setFields i l).ch i f = v := by
  induction l generalizing s with
  | nil => cases h
  | cons fv l ih =>
    obtain ⟨hfv, hl⟩ := List.nodup_cons.1 hl
    obtain rfl | h := List.mem_cons.1 h
    · have hkept : (State.setFields (s.setCh i f v) i l).ch i f = (s.setCh i f v).ch i f :=
        setFields_ramKept l _ (by simpa using hfv)
      exact hkept.trans (ch_setCh_self i f v)
    · exact ih hl h

/-- From `s` to `t` the listed fields of record `i` were loaded, the record with them was assigned a slot and sent, and
CUR moved to the next byte. -/
structure LoadedAndAssigned (s t : State) (i : Nat) (l : List (Nat × Byte)) : Prop where
  assigned : Assigned (s.setFields i l) t i
  cur : t.cur = s.cur + 1
  ch : ∀ fv ∈ l, t.ch i fv.1 = fv.2
  ram : RamKept s t (l.map fun fv => recBase i + fv.1)
  only : OnlyRamPcmTogCur s t

/-- The end of PERC and of SAMPLE with a slot number up to 15: assignment, then the generic advance of CUR. -/
theorem assign_advance_sends (hu : u = s.setFields i l) (hl : (l.map Prod.fst).Nodup)
    (h : (u.pickedSlot i).toNat ≤ 15) :
    LoadedAndAssigned s (after ((pcmAssign i >>= fun _ => advance) u)) i l := by
  subst hu
  have hram := setFields_onlyRam (s := s) (i := i) l
  have hcur : ((s.setFields i l).assigned i).cur = s.cur := by rw [assigned_cur, hram]
  have ht := (assigned_spec h).setCur (s.cur + 1)
  rw [bind_of_ok (pcmAssign_sends h), advance, upd_run, after_ok, hcur]
  exact {
    assigned := ht
    cur := rfl
    ch := fun fv hfv => (ht.ram8 _).trans (ch_setFields hl hfv)
    ram := fun a ha => (ht.ram8 a).trans (setFields_ramKept l a ha)
    only := ht.onlyRamPcmTogCur hram }

/-- The same with a slot number above 15. -/
theorem assign_advance_faults (h : 15 < (u.pickedSlot i).toNat) :
    Faulted (u.afterPick i) (after ((pcmAssign i >>= fun _ => advance) u)) 0x06 (zext16 (u.pickedSlot i)) := by
  rw [bind_of_error (pcmAssign_faults h), after_error]
  rfl

/-! ### PERC (R182) -/

/-- The fields of a percussion entry. -/
def percFields (e : PercEntry) : List (Nat × Byte) :=
  [(Fld.pstartLo, loByte e.start), (Fld.pstartHi, hiByte e.start), (Fld.pendHi, e.endHi), (Fld.ppitch, e.pitch),
    (Fld.ctrl, e.flags)]

theorem loadPerc_eq (i : Nat) (e : PercEntry) : s.loadPerc i e = s.setFields i (percFields e) := rfl

theorem exec_perc (hc : s.chan.toNat < 30) (k : BitVec 4) :
    exec (.perc k) s =
      .next (after ((pcmAssign s.me >>= fun _ => advance) (s.loadPerc s.me (s.cfg.percOf k)))) := by
  rw [exec, execPerc, onChannel_ok _ hc, bind_upd]

/-- Settles O23: the five fields stored, then the assignment of the record they make. -/
theorem percLoadsAndAssigns : Obligations.PercLoadsAndAssigns := by
  intro s k hc e u
  refine ⟨fun h => ?sent, fun h => ⟨_, exec_perc hc k, assign_advance_faults h⟩⟩
  case sent =>
    have hnodup : ((percFields e).map Prod.fst).Nodup := by simp [percFields]
    obtain ⟨hassigned, hcur, hch, hram, honly⟩ := assign_advance_sends (loadPerc_eq _ _) hnodup h
    simp only [percFields, List.forall_mem_cons] at hch
    obtain ⟨hlo, hhi, hend, hpitch, hctrl, _⟩ := hch
    exact ⟨_, exec_perc hc k, hassigned, hcur, hlo, hhi, hend, hpitch, hctrl, hram, honly, fun hk => if_pos hk⟩

/-! ### SAMPLE (R181) -/

/-- A computation after the listed fields of record `i` are loaded, each from its ROM address in order. -/
def loadFields (i : Nat) : List (Nat × Word) → Exec Unit → Exec Unit
  | [], m => m
  | (f, a) :: l, m => do
    let b ← rom8 a
    upd (·.setCh i f b)
    loadFields i l m

/-- The fields a list of loads stores. -/
def State.romFields (s : State) (l : List (Nat × Word)) : List (Nat × Byte) := l.map fun fa => (fa.1, s.romAt fa.2)

/-- Loads from ROM are done one after another; they do not change the ROM the later ones read. -/
theorem loadFields_append {pre : List (Nat × Word)} (post : List (Nat × Word)) (m : Exec Unit)
    (h : s.inRom (pre.map Prod.snd) = true) :
    loadFields i (pre ++ post) m s = loadFields i post m (s.setFields i (s.romFields pre)) := by
  induction pre generalizing s with
  | nil => rfl
  | cons fa pre ih =>
    obtain ⟨hfa, hpre⟩ := Bool.and_eq_true_iff.1 h
    rw [List.cons_append, loadFields, bind_rom8_ok (of_decide_eq_true hfa), bind_upd]
    exact ih hpre

theorem loadFields_fault {pre post : List (Nat × Word)} {f : Nat} {a : Word} (m : Exec Unit)
    (h : s.inRom (pre.map Prod.snd) = true) (ha : s.inRom [a] = false) :
    loadFields i (pre ++ (f, a) :: post) m s =
      .error () ((s.setFields i (s.romFields pre)).raiseFault .romRange a) := by
  rw [loadFields_append _ m h]
  rw [← (setFields_onlyRam (s.romFields pre)).inRom] at ha
  exact bind_of_error (rom8_fault (by simpa [inRom_cons] using ha)) _

/-- The loads of the sample entry at `e`. -/
def sampleLoads (e : Word) : List (Nat × Word) :=
  [(Fld.pstartLo, e), (Fld.pstartHi, e + 1), (Fld.pendHi, e + 2), (Fld.ctrl, e + 3)]

theorem loadSample_eq (i : Nat) (e : Word) : s.loadSample i e = s.setFields i (s.romFields (sampleLoads e)) := rfl

/-- The address of entry `k` of the sample table (R181). -/
def State.sampleAddr (s : State) (k : BitVec 6) : Word := s.cfg.pcmTable + 4 * k.setWidth 16

theorem exec_sample (hc : s.chan.toNat < 30) (k : BitVec 6) :
    exec (.sample k) s =
      .next (after (loadFields s.me (sampleLoads (s.sampleAddr k)) (pcmAssign s.me >>= fun _ => advance) s)) := by
  rw [exec, execSample, onChannel_ok _ hc, bind_look]
  rfl

theorem exec_sample_inRom (hc : s.chan.toNat < 30) (k : BitVec 6)
    (h : s.inRom ((sampleLoads (s.sampleAddr k)).map Prod.snd) = true) :
    exec (.sample k) s =
      .next (after ((pcmAssign s.me >>= fun _ => advance) (s.loadSample s.me (s.sampleAddr k)))) := by
  rw [exec_sample hc, ← List.append_nil (sampleLoads _), loadFields_append _ _ h, loadFields, loadSample_eq]

/-- The first byte of the entry that lies outside ROM stops it, with the fields before it loaded. -/
theorem exec_sample_fault (hc : s.chan.toNat < 30) {k : BitVec 6} {pre post : List (Nat × Word)} {f : Nat} {a : Word}
    (hl : sampleLoads (s.sampleAddr k) = pre ++ (f, a) :: post) (h : s.inRom (pre.map Prod.snd) = true)
    (ha : s.inRom [a] = false) :
    ∃ t, exec (.sample k) s = .next t ∧ Faulted (s.setFields s.me (s.romFields pre)) t 0x05 a := by
  refine ⟨_, ?_, faulted_romRange a⟩
  rw [exec_sample hc, hl, loadFields_fault _ h ha, after_error]

/-- Settles O24: the four fields stored and the assignment of the record they make, or the first byte outside ROM. -/
theorem sampleLoadsAndAssigns : Obligations.SampleLoadsAndAssigns := by
  intro s k hc e u
  refine ⟨fun hin h => ?sent, fun hin h => ⟨_, exec_sample_inRom hc k hin, assign_advance_faults h⟩, fun ha => ?out0,
    fun hin ha => ?out1, fun hin ha => ?out2, fun hin ha => ?out3⟩
  case sent =>
    have hnodup : ((s.romFields (sampleLoads e)).map Prod.fst).Nodup := by simp [State.romFields, sampleLoads]
    obtain ⟨hassigned, hcur, hch, hram, honly⟩ := assign_advance_sends (loadSample_eq _ _) hnodup h
    simp only [State.romFields, sampleLoads, List.map_cons, List.forall_mem_cons] at hch
    obtain ⟨hlo, hhi, hend, hctrl, _⟩ := hch
    exact ⟨_, exec_sample_inRom hc k hin, hassigned, hcur, hlo, hhi, hend, hctrl, hram, honly⟩
  case out0 => exact exec_sample_fault hc (pre := []) rfl rfl ha
  case out1 => exact exec_sample_fault hc (pre := [(Fld.pstartLo, e)]) rfl hin ha
  case out2 => exact exec_sample_fault hc (pre := [(Fld.pstartLo, e), (Fld.pstartHi, e + 1)]) rfl hin ha
  case out3 =>
    exact exec_sample_fault hc (pre := [(Fld.pstartLo, e), (Fld.pstartHi, e + 1), (Fld.pendHi, e + 2)]) rfl hin ha

/-! ### PCM_INDEX_FAULT and UNDEF (R183, 41_commands.md R159) -/

theorem exec_pcmIndexFault (hc : s.chan.toNat < 30) (b : Byte) :
    exec (.pcmIndexFault b) s = .next (s.raiseFault .pcmIndex (zext16 b)) := if_pos hc

theorem exec_undef (hc : s.chan.toNat < 30) (code : BitVec 6) :
    exec (.undef code) s = .next (s.raiseFault .undefOpcode s.cur) := if_pos hc

/-- Settles O26: each meaning is its fault and nothing before it. -/
theorem indexAndCodeFaults : Obligations.IndexAndCodeFaults := fun _ hc =>
  ⟨fun b _ => ⟨_, exec_pcmIndexFault hc b, rfl⟩, fun code _ => ⟨_, exec_undef hc code, rfl⟩⟩

end Sys2Proof.Machine
end

section
/-!
The ring of an odd engine channel (43_engine_tone.md R206, 10_state.md R36): its eight entries, what a push writes, and
the delay of eight passes that follows.
-/

namespace Sys2Proof.Machine

variable {s : State} {n : EngCh}

/-- The number of the ring entry E_RING stands at. -/
def State.ringIndex (s : State) (n : EngCh) : Nat := (s.eng n EFld.ringPos &&& 7).toNat

/-- Entry `j` of the ring. -/
def State.ringEntry (s : State) (n : EngCh) (j : Nat) : BitVec 9 × Byte :=
  (pitch9 (s.ram8 (ringBase n + 3 * j + 1) &&& 1) (s.ram8 (ringBase n + 3 * j)), s.ram8 (ringBase n + 3 * j + 2))

theorem ringOldest_eq_ringEntry : s.ringOldest n = s.ringEntry n (s.ringIndex n) := rfl

theorem ringAt_eq_ringIndex : s.ringAt n = ringBase n + 3 * s.ringIndex n := rfl

/-- The low three bits of a byte are its residue modulo 8. -/
theorem toNat_and_seven (v : Byte) : (v &&& 7).toNat = v.toNat % 8 := by
  rw [BitVec.toNat_and]
  exact Nat.and_two_pow_sub_one_eq_mod v.toNat 3

/-- The rings lie above the engine records. -/
theorem engRec_lt_ringBase (n : EngCh) {f : Nat} (hf : f < 9) : engRec n + f < ringBase n := by
  have hn := engCh_num_bounds n
  unfold engRec ringBase
  omega

theorem pitch9_hi_lo (p : BitVec 9) : pitch9 (pitchHi p &&& 1) (pitchLo p) = p := by
  revert p
  decide

/-- A push writes E_RING and the three bytes of the entry E_RING stands at. -/
theorem ram8_ringPush (p : BitVec 9) (v : Byte) (a : Nat) :
    (s.ringPush n p v).ram8 a =
      if a = engRec n + EFld.ringPos then ((s.eng n EFld.ringPos &&& 7) + 1) &&& 7
      else if a = s.ringAt n + 2 then v
      else if a = s.ringAt n + 1 then pitchHi p
      else if a = s.ringAt n then pitchLo p
      else s.ram8 a := by
  simp only [State.ringPush, State.setEng, ram8_setRam8]

/-- The three bytes of the entry a push has written. -/
theorem ram8_ringPush_entry (p : BitVec 9) (v : Byte) :
    (s.ringPush n p v).ram8 (s.ringAt n) = pitchLo p ∧ (s.ringPush n p v).ram8 (s.ringAt n + 1) = pitchHi p ∧
    (s.ringPush n p v).ram8 (s.ringAt n + 2) = v := by
  have hpos := engRec_lt_ringBase n (f := EFld.ringPos) (by decide)
  have hne (k : Nat) : s.ringAt n + k ≠ engRec n + EFld.ringPos := by
    unfold State.ringAt
    omega
  have hne0 : s.ringAt n ≠ engRec n + EFld.ringPos := hne 0
  simp [ram8_ringPush, hne, hne0]

/-- A push overwrites the entry E_RING stands at, and no other one. -/
theorem ringEntry_ringPush (p : BitVec 9) (v : Byte) (j : Nat) :
    (s.ringPush n p v).ringEntry n j = if j = s.ringIndex n then (p, v) else s.ringEntry n j := by
  split
  next h =>
    obtain ⟨hlo, hhi, hvol⟩ := ram8_ringPush_entry (s := s) (n := n) p v
    rw [ringAt_eq_ringIndex, ← h] at hlo hhi hvol
    simp only [State.ringEntry, hlo, hhi, hvol, pitch9_hi_lo]
  next h =>
    have hpos := engRec_lt_ringBase n (f := EFld.ringPos) (by decide)
    have hkept (k : Nat) (hk : k < 3) :
        (s.ringPush n p v).ram8 (ringBase n + 3 * j + k) = s.ram8 (ringBase n + 3 * j + k) := by
      rw [ram8_ringPush, ringAt_eq_ringIndex, if_neg (by omega), if_neg (by omega), if_neg (by omega),
        if_neg (by omega)]
    have hfirst := hkept 0 (by decide)
    rw [Nat.add_zero] at hfirst
    simp only [State.ringEntry, hfirst, hkept 1 (by decide), hkept 2 (by decide)]

/-- A push moves E_RING on by one entry, around the ring. -/
theorem ringIndex_ringPush (p : BitVec 9) (v : Byte) : (s.ringPush n p v).ringIndex n = (s.ringIndex n + 1) % 8 := by
  have hread : (s.ringPush n p v).eng n EFld.ringPos = ((s.eng n EFld.ringPos &&& 7) + 1) &&& 7 := by
    rw [State.eng, ram8_ringPush, if_pos rfl]
  unfold State.ringIndex
  rw [hread, toNat_and_seven, toNat_and_seven, BitVec.toNat_add, toNat_and_seven]
  simp

theorem ringIndex_lt (s : State) (n : EngCh) : s.ringIndex n < 8 := by
  rw [State.ringIndex, toNat_and_seven]
  exact Nat.mod_lt _ (by decide)

/-- Pushes move E_RING on by their number. -/
theorem ringIndex_ringPushes (l : List (BitVec 9 × Byte)) :
    (s.ringPushes n l).ringIndex n = (s.ringIndex n + l.length) % 8 := by
  induction l generalizing s with
  | nil => exact (Nat.mod_eq_of_lt (ringIndex_lt s n)).symm
  | cons e l ih =>
    rw [State.ringPushes, List.foldl_cons, ← State.ringPushes, ih, ringIndex_ringPush, List.length_cons]
    omega

/-- An entry that E_RING does not come to in a number of pushes is kept by them. -/
theorem ringEntry_ringPushes {j : Nat} (l : List (BitVec 9 × Byte))
    (h : ∀ d, d < l.length → j ≠ (s.ringIndex n + d) % 8) :
    (s.ringPushes n l).ringEntry n j = s.ringEntry n j := by
  induction l generalizing s with
  | nil => rfl
  | cons e l ih =>
    have hfirst : j ≠ s.ringIndex n := by
      rw [← Nat.mod_eq_of_lt (ringIndex_lt s n)]
      exact h 0 (Nat.succ_pos _)
    rw [State.ringPushes, List.foldl_cons, ← State.ringPushes, ih, ringEntry_ringPush, if_neg hfirst]
    intro d hd
    rw [ringIndex_ringPush, Nat.mod_add_mod, Nat.add_assoc, Nat.add_comm 1 d]
    exact h (d + 1) (Nat.succ_lt_succ hd)

/-- Settles O50: eight pushes bring E_RING back to where it stood, and the last seven do not come to that entry. -/
theorem ringDelaysByEight : Obligations.RingDelaysByEight := by
  intro s n p v l _
  refine ⟨ringStep_ok p v, fun hl => ?_⟩
  have hlt := ringIndex_lt s n
  have hback : ((s.ringPush n p v).ringPushes n l).ringIndex n = s.ringIndex n := by
    rw [ringIndex_ringPushes, ringIndex_ringPush, hl]
    omega
  rw [ringOldest_eq_ringEntry, hback, ringEntry_ringPushes, ringEntry_ringPush, if_pos rfl]
  intro d hd
  rw [ringIndex_ringPush]
  omega

end Sys2Proof.Machine
end

section
/-!
One engine channel of the engine pass (43_engine_tone.md R204): the step it is, which of its three paths it takes, and
the mute (R205, R211) and the rev effect (R205) up to their end or to the fault of a slot above 15 (R213).
-/

namespace Sys2Proof.Machine

variable {s t u : State} {n : EngCh}

/-! ### States that differ in Channel RAM and the PCM file only -/

/-- `t` differs from `s` at most in Channel RAM and the PCM file. -/
def OnlyRamPcm (s t : State) : Prop := t = { s with ram := t.ram, pcm := t.pcm }

theorem OnlyRam.onlyRamPcm (h : OnlyRam s t) : OnlyRamPcm s t := by
  rw [OnlyRam] at h
  rw [OnlyRamPcm, h]

namespace OnlyRamPcm

variable (h : OnlyRamPcm s t)
include h

theorem setRam8 (a : Nat) (v : Byte) : OnlyRamPcm s (t.setRam8 a v) := by
  rw [OnlyRamPcm] at h
  rw [OnlyRamPcm, h]
  rfl

theorem setPcm8 (a : Nat) (v : Byte) : OnlyRamPcm s (t.setPcm8 a v) := by
  rw [OnlyRamPcm] at h
  rw [OnlyRamPcm, h]
  rfl

theorem cfg : t.cfg = s.cfg := by rw [h]

theorem engSlot (m : EngCh) : t.engSlot m = s.engSlot m := by
  rw [State.engSlot, h.cfg]
  rfl

end OnlyRamPcm

/-- Nothing written outside a list is nothing written outside a longer one. -/
theorem RamKept.mono {l l' : List Nat} (h : RamKept s t l) (hl : l ⊆ l') : RamKept s t l' := fun a ha =>
  h a fun hm => ha (hl hm)

theorem RamKept.trans {l : List Nat} (h : RamKept s t l) (h' : RamKept t u l) : RamKept s u l := fun a ha =>
  (h' a ha).trans (h a ha)

theorem PcmKept.mono {l l' : List Nat} (h : PcmKept s t l) (hl : l ⊆ l') : PcmKept s t l' := fun a ha =>
  h a fun hm => ha (hl hm)

/-- One more byte written inside the list. -/
theorem PcmKept.setPcm8 {l : List Nat} {a : Nat} (h : PcmKept s t l) (ha : a ∈ l) (v : Byte) :
    PcmKept s (t.setPcm8 a v) l := by
  intro b hb
  rw [pcm8_setPcm8, if_neg fun (hab : b = a) => hb (hab ▸ ha), h b hb]

/-! ### The step and its paths (R204) -/

/-- The pass of channel `n` has begun: ENGCH names it. -/
def State.engBegun (s : State) (n : EngCh) : State := s.setEngCh (BitVec.ofNat 8 n.num)

theorem step_engine_ok (hf : s.fsm = .engine n) (h : engineChannel n s = .ok () t) :
    step s = .next (t.setFsm (afterEngine n)) := by
  simp only [step, hf, engineStep, bind_of_ok h, upd_run, after_ok]
  cases n <;> rfl

theorem step_engine_error (hf : s.fsm = .engine n) (h : engineChannel n s = .error () t) : step s = .next t := by
  simp only [step, hf, engineStep, bind_of_error h, after_error]

theorem engineDone_setFsm (h : OnlyRamPcm (s.engBegun n) t) : EngineDone s (t.setFsm (afterEngine n)) n :=
  congrArg (State.setFsm · (afterEngine n)) h

theorem engineFaulted_raiseFault (h : OnlyRamPcm (s.engBegun n) t) (c : FaultCode) (info : Word) :
    EngineFaulted s (t.raiseFault c info) n c.code info := congrArg (State.raiseFault · c info) h

/-- With REV set, pitch 0 mutes (R205). -/
theorem engineChannel_still (hr : s.rev = true) (hp : s.engP n = 0) :
    engineChannel n s = engMute n (s.engBegun n) := by
  unfold engineChannel
  rw [bind_upd, bind_look, bind_look, if_pos]
  · rfl
  · exact Bool.and_eq_true_iff.mpr ⟨hr, beq_iff_eq.mpr hp⟩

/-- With REV set, a pitch from 0xFA on is the rev effect (R205). -/
theorem engineChannel_revving (hr : s.rev = true) (hp : 0xFA ≤ (s.engP n).toNat) :
    engineChannel n s = engRev n (s.engV n) (s.engBegun n) := by
  have hp0 : s.engP n ≠ 0 := fun h => by simp [h] at hp
  unfold engineChannel
  rw [bind_upd, bind_look, bind_look, if_neg, bind_look, if_pos]
  · rfl
  · exact Bool.and_eq_true_iff.mpr ⟨hr, decide_eq_true hp⟩
  · intro h
    obtain ⟨-, hz⟩ := Bool.and_eq_true_iff.mp h
    exact hp0 (beq_iff_eq.mp hz)

/-- Steps 3 to 7 follow where step 2 does not end the channel (R204). -/
theorem engineChannel_normal (h : s.engNormal n = true) :
    engineChannel n s = engNormal n (s.engP n) (s.engV n) (s.engBegun n) := by
  have hno : s.rev = true → s.engP n ≠ 0 ∧ (s.engP n).toNat < 0xFA := by
    intro hr
    simpa [State.engNormal, hr] using h
  unfold engineChannel
  rw [bind_upd, bind_look, bind_look, if_neg, bind_look, if_neg]
  · rfl
  · intro h
    obtain ⟨hr, hp⟩ := Bool.and_eq_true_iff.mp h
    exact absurd (of_decide_eq_true hp) (Nat.not_le.mpr (hno hr).2)
  · intro h
    obtain ⟨hr, hp⟩ := Bool.and_eq_true_iff.mp h
    exact (hno hr).1 (beq_iff_eq.mp hp)

/-- Step 3 gives steps 4 to 7 what the channel works with (R204, R206). -/
theorem engNormal_run :
    engNormal n (s.engP n) (s.engV n) s = engVoice n (s.engVoiced n).1 (s.engVoiced n).2 (s.ringed n) := by
  unfold Machine.engNormal State.engVoiced State.ringed
  cases n.odd <;> rfl

/-! ### Steps 3 and 4: the ring and the volumes (R204, R206) -/

/-- The bytes of Channel RAM that step 3 writes: E_RING and its entry on odd channels (R206). -/
def State.ringAddrs (s : State) (n : EngCh) : List Nat :=
  if n.odd then [engRec n + EFld.ringPos, s.ringAt n, s.ringAt n + 1, s.ringAt n + 2] else []

/-- The bytes of the record that steps 4 to 7 write. -/
def voiceAddrs (n : EngCh) : List Nat := [0, 1, 2, 4, 5, 6, 7].map (engRec n + ·)

theorem engWritten_eq : s.engWritten n = voiceAddrs n ++ s.ringAddrs n := rfl

theorem ringPos_not_mem_voiceAddrs : engRec n + EFld.ringPos ∉ voiceAddrs n := by simp [voiceAddrs]

/-- The ring is not part of the record. -/
theorem ringAt_not_mem_voiceAddrs (k : Nat) : s.ringAt n + k ∉ voiceAddrs n := by
  have hlt := engRec_lt_ringBase n (f := 8) (by decide)
  simp only [voiceAddrs, List.map_cons, List.map_nil, List.mem_cons, List.not_mem_nil, or_false, State.ringAt]
  omega

theorem ringed_ringAddrs (n : EngCh) : RamKept s (s.ringed n) (s.ringAddrs n) := by
  unfold State.ringed State.ringAddrs
  split
  next =>
    intro a ha
    simp only [List.mem_cons, List.not_mem_nil, or_false, not_or] at ha
    obtain ⟨hpos, hlo, hhi, hvol⟩ := ha
    rw [ram8_ringPush, if_neg hpos, if_neg hvol, if_neg hhi, if_neg hlo]
  next => exact fun _ _ => rfl

theorem ringed_stored (ho : n.odd = true) : RingStored s (s.ringed n) n := by
  rw [State.ringed, if_pos ho]
  refine ⟨?_, ram8_ringPush_entry _ _⟩
  rw [State.eng, ram8_ringPush, if_pos rfl]

/-- A stored sample stays where only the record is written. -/
theorem RingStored.of_kept (h : RingStored s t n) (hk : RamKept t u (voiceAddrs n)) : RingStored s u n := by
  obtain ⟨hpos, hlo, hhi, hvol⟩ := h
  exact ⟨(hk _ ringPos_not_mem_voiceAddrs).trans hpos, (hk _ (ringAt_not_mem_voiceAddrs 0)).trans hlo,
    (hk _ (ringAt_not_mem_voiceAddrs 1)).trans hhi, (hk _ (ringAt_not_mem_voiceAddrs 2)).trans hvol⟩

/-- Step 3 leaves the record but for E_RING. -/
theorem eng_ringed {f : Nat} (hf : f < 9) (hr : f ≠ EFld.ringPos) : (s.ringed n).eng n f = s.eng n f := by
  refine ringed_ringAddrs n _ ?_
  have hlt := engRec_lt_ringBase n hf
  unfold State.ringAddrs State.ringAt
  split
  · simp only [List.mem_cons, List.not_mem_nil, or_false]
    omega
  · exact List.not_mem_nil

/-- E_VOL moved to E_VOLPREV and written (R204 step 4). -/
def State.volStored (s : State) (n : EngCh) (v : Byte) : State :=
  (s.setEng n EFld.volprev (s.eng n EFld.vol)).setEng n EFld.vol v

/-- The state after step 4 with volume `v`. -/
def State.engStored (s : State) (n : EngCh) (v : Byte) : State := ((s.engBegun n).ringed n).volStored n v

theorem engStored_only (v : Byte) : OnlyRam (s.engBegun n) (s.engStored n v) :=
  (ringed_only n).setRam8 _ _ |>.setRam8 _ _

/-- Step 4 leaves the record but for E_VOL and E_VOLPREV, and step 3 but for E_RING. -/
theorem eng_engStored (v : Byte) {f : Nat} (hf : f < 9) (hr : f ≠ EFld.ringPos) :
    (s.engStored n v).eng n f =
      if f = EFld.vol then v else if f = EFld.volprev then s.eng n EFld.vol else s.eng n f := by
  have hring {x : Nat} (hx : x < 9) (hr : x ≠ EFld.ringPos) : ((s.engBegun n).ringed n).eng n x = s.eng n x :=
    eng_ringed hx hr
  rw [State.engStored, State.volStored, eng_setEng, eng_setEng, hring hf hr, hring (by decide) (by decide)]

/-- Step 4 writes E_VOL and E_VOLPREV after the ring. -/
theorem engStored_ramKept (v : Byte) :
    RamKept ((s.engBegun n).ringed n) (s.engStored n v) [engRec n + EFld.vol, engRec n + EFld.volprev] := by
  have h : RamKept ((s.engBegun n).ringed n) ((s.engBegun n).ringed n)
    [engRec n + EFld.vol, engRec n + EFld.volprev] := fun _ _ => rfl
  exact h.setRam8 (a := engRec n + EFld.volprev) (by simp) _ |>.setRam8 (a := engRec n + EFld.vol) (by simp) _

theorem engStored_kept (v : Byte) :
    RamKept s (s.engStored n v) ([engRec n + EFld.vol, engRec n + EFld.volprev] ++ s.ringAddrs n) :=
  have hring : RamKept s ((s.engBegun n).ringed n) (s.ringAddrs n) := ringed_ringAddrs (s := s.engBegun n) n
  (hring.mono (List.subset_append_right _ _)).trans ((engStored_ramKept v).mono (List.subset_append_left _ _))

theorem engStored_ring (v : Byte) (ho : n.odd = true) : RingStored s (s.engStored n v) n :=
  (ringed_stored (s := s.engBegun n) ho).of_kept ((engStored_ramKept v).mono (by simp [voiceAddrs]))

/-! ### Mute (R211) -/

/-- The record of a muted channel (R211). -/
def State.muteMarked (s : State) (n : EngCh) : State := (s.setEngFlag n EFlags.mute true).setEng n EFld.active 0

theorem muteMarked_kept : RamKept s (s.muteMarked n) [engRec n + EFld.flags, engRec n + EFld.active] := by
  have h : RamKept s s [engRec n + EFld.flags, engRec n + EFld.active] := fun _ _ => rfl
  exact h.setRam8 (a := engRec n + EFld.flags) (by simp) _ |>.setRam8 (a := engRec n + EFld.active) (by simp) _

theorem muteMarked_flags : (s.muteMarked n).eng n EFld.flags = s.eng n EFld.flags ||| 0x01 := by
  simp [State.muteMarked, eng_setEng, eng_setEngFlag, setBit]

theorem muteMarked_active : (s.muteMarked n).eng n EFld.active = 0 := by simp [State.muteMarked, eng_setEng]

/-- How a mute ends: with the inactive bit of the slot set, or with the fault of a slot above 15 (R211, R213). -/
def MuteEnds (s t : State) (n : EngCh) : Prop :=
  if (s.engSlot n).toNat ≤ 15 then
    EngineDone s t n ∧ t.pcm8 (back (s.engSlot n) 6) = s.pcm8 (back (s.engSlot n) 6) ||| 0x01 ∧
      PcmKept s t [back (s.engSlot n) 6]
  else EngineFaulted s t n 0x06 (zext16 (s.engSlot n)) ∧ t.pcm = s.pcm

/-- From `s` to `t` channel `n` was muted, `written` being written of Channel RAM beside. -/
def Muted (s t : State) (n : EngCh) (written : List Nat) : Prop :=
  t.ram8 (engRec n + EFld.flags) = s.ram8 (engRec n + EFld.flags) ||| 0x01 ∧ t.eng n EFld.active = 0 ∧
    RamKept s t ([engRec n + EFld.flags, engRec n + EFld.active] ++ written) ∧ MuteEnds s t n

/-- A channel that comes to its mute in the state `u` ends with the record of `u` muted. -/
theorem step_engine_mutes (hf : s.fsm = .engine n) (hu : OnlyRam (s.engBegun n) u)
    (hrun : engineChannel n s = engMute n u) :
    ∃ t, step s = .next t ∧ t.ram = (u.muteMarked n).ram ∧ MuteEnds s t n := by
  have hslot : u.engSlot n = s.engSlot n := hu.onlyRamPcm.engSlot n
  have hmarked : OnlyRam (s.engBegun n) (u.muteMarked n) := hu.setRam8 _ _ |>.setRam8 _ _
  have hpcm : (u.muteMarked n).pcm = s.pcm := by
    rw [hmarked]
    rfl
  unfold MuteEnds
  split
  next h =>
    rw [← hslot] at h
    rw [engMute_ok h, hslot] at hrun
    have hwritten : PcmKept s ((u.muteMarked n).setPcm8 (back (s.engSlot n) 6)
        ((u.muteMarked n).pcm8 (back (s.engSlot n) 6) ||| 0x01)) [back (s.engSlot n) 6] := fun a ha => by
      rw [pcmKept_setPcm8 _ _ a ha, State.pcm8, hpcm, State.pcm8]
    refine ⟨_, step_engine_ok hf hrun, rfl, engineDone_setFsm (hmarked.onlyRamPcm.setPcm8 _ _), ?_, hwritten⟩
    refine (pcm8_setPcm8_self _ _).trans ?_
    change (u.muteMarked n).pcm8 _ ||| _ = _
    rw [State.pcm8, hpcm, State.pcm8]
  next h =>
    rw [← hslot] at h
    rw [engMute_fault h, hslot] at hrun
    exact ⟨_, step_engine_error hf hrun, rfl, engineFaulted_raiseFault hmarked.onlyRamPcm _ _, hpcm⟩

/-- What a channel that comes to its mute in the state `u` keeps of the record of `u`. -/
theorem RamKept.of_marked (hr : t.ram = (u.muteMarked n).ram) :
    RamKept u t [engRec n + EFld.flags, engRec n + EFld.active] := fun a ha =>
  (congrArg (Memory.read .ram · a) hr).trans (muteMarked_kept a ha)

/-- A channel that comes to its mute in the state `u`, which has the flags of `s`, is muted. -/
theorem muted_of_marked {written : List Nat} (hr : t.ram = (u.muteMarked n).ram) (hm : MuteEnds s t n)
    (hflags : u.eng n EFld.flags = s.eng n EFld.flags) (hk : RamKept s u written) : Muted s t n written := by
  have hread (a : Nat) : t.ram8 a = (u.muteMarked n).ram8 a := congrArg (Memory.read .ram · a) hr
  have hmark : t.eng n EFld.flags = s.eng n EFld.flags ||| 0x01 := by
    rw [← hflags, ← muteMarked_flags, State.eng, hread]
    rfl
  exact ⟨hmark, (hread _).trans muteMarked_active,
    (hk.mono (List.subset_append_right _ _)).trans ((RamKept.of_marked hr).mono (List.subset_append_left _ _)), hm⟩

/-- Volume 0 mutes at step 4 (R204). -/
theorem engineChannel_silenced (h : s.engNormal n = true) (hv : (s.engVoiced n).2 = 0) :
    engineChannel n s = engMute n (s.engStored n 0) := by
  rw [engineChannel_normal h]
  refine (engNormal_run (s := s.engBegun n)).trans ?_
  rw [show ((s.engBegun n).engVoiced n).2 = 0 from hv]
  rfl

theorem step_engine_silenced (hf : s.fsm = .engine n) (h : s.engNormal n = true) (hv : (s.engVoiced n).2 = 0) :
    ∃ t, step s = .next t ∧ Muted s t n ([engRec n + EFld.vol, engRec n + EFld.volprev] ++ s.ringAddrs n) ∧
      t.eng n EFld.volprev = s.eng n EFld.vol ∧ t.eng n EFld.vol = 0 ∧ (n.odd = true → RingStored s t n) := by
  obtain ⟨t, hstep, hram, hends⟩ := step_engine_mutes hf (engStored_only 0) (engineChannel_silenced h hv)
  have hkept := RamKept.of_marked hram
  have hstored (f : Nat) (hlt : f < 9) (hr : f ≠ EFld.ringPos) := eng_engStored (s := s) (n := n) 0 hlt hr
  have hflags := hstored EFld.flags (by decide) (by decide)
  refine ⟨t, hstep, muted_of_marked hram hends hflags (engStored_kept 0), ?_, ?_,
    fun ho => (engStored_ring 0 ho).of_kept (hkept.mono (by simp [voiceAddrs]))⟩
  · exact (hkept _ (by simp)).trans (hstored EFld.volprev (by decide) (by decide))
  · exact (hkept _ (by simp)).trans (hstored EFld.vol (by decide) (by decide))

/-- Settles O48: each way to the mute leaves the flags of the record as they were, and the mute writes them. -/
theorem engineMutes : Obligations.EngineMutes := by
  intro s n hf sl b e muted
  refine ⟨fun hr hp => ?still, fun h ho hv => ?even, fun h ho hv => ?odd⟩
  case still =>
    obtain ⟨t, hstep, hram, hends⟩ :=
      step_engine_mutes (u := s.engBegun n) hf (.refl _) (engineChannel_still hr hp)
    exact ⟨t, hstep, muted_of_marked (written := []) hram hends rfl fun _ _ => rfl⟩
  case even =>
    obtain ⟨t, hstep, hmuted, hprev, hvol, -⟩ :=
      step_engine_silenced hf h (by rw [State.engVoiced, ho]; exact hv)
    rw [State.ringAddrs, ho] at hmuted
    exact ⟨t, hstep, hmuted, hprev, hvol⟩
  case odd =>
    obtain ⟨t, hstep, hmuted, hprev, hvol, hring⟩ :=
      step_engine_silenced hf h (by rw [State.engVoiced, ho]; exact hv)
    rw [State.ringAddrs, ho] at hmuted
    exact ⟨t, hstep, hmuted, hprev, hvol, hring ho⟩

/-! ### The rev effect (R205) -/

/-- The one-shot sample started where the latch is open, which it closes (R205). -/
def State.revOpened (s : State) (n : EngCh) : State :=
  if s.engFlag n EFlags.loopdis then s
  else
    let sl := s.engSlot n
    ((((s.withStart sl s.cfg.revStart).setPcm8 (front sl 6) s.cfg.revEndHi).setPcm8 (front sl 7)
      s.cfg.revPitch).setPcm8 (back sl 6) 0x02).setEngFlag n EFlags.loopdis true

/-- The volumes sent out (R205). -/
def State.revPanned (s : State) (n : EngCh) (v : Byte) : State :=
  (s.setPcm8 (front (s.engSlot n) 2) (if s.cfg.revPan.atEng n = .right then 0 else v)).setPcm8
    (front (s.engSlot n) 3) (if s.cfg.revPan.atEng n = .left then 0 else v)

/-- The record of a channel with the rev effect (R205). -/
def State.revMarked (s : State) (n : EngCh) : State :=
  ((s.setEngFlag n EFlags.mute false).setEngFlag n EFlags.addrset false).setEng n EFld.active 1

theorem revStart_ok (h : (s.engSlot n).toNat ≤ 15) (hd : s.engFlag n EFlags.loopdis = false) :
    revStart n (s.engSlot n) s = .ok () (s.revOpened n) := by
  unfold revStart
  rw [bind_look, bind_of_ok (putStart_ok h), bind_look, bind_putFront_ok h, bind_look, bind_putFront_ok h,
    bind_putBack_ok h, upd_run, State.revOpened, hd]
  rfl

theorem revOpened_closed (hd : s.engFlag n EFlags.loopdis = true) : s.revOpened n = s := if_pos hd

theorem revOpened_cfg : (s.revOpened n).cfg = s.cfg := by
  unfold State.revOpened
  split <;> rfl

theorem engRev_ok {v : Byte} (h : (s.engSlot n).toNat ≤ 15) :
    engRev n v s = .ok () (((s.revOpened n).revPanned n v).revMarked n) := by
  have hlatch : onlyIf (!s.engFlag n EFlags.loopdis) (revStart n (s.engSlot n)) s = .ok () (s.revOpened n) := by
    cases hd : s.engFlag n EFlags.loopdis with
    | true =>
      rw [State.revOpened, hd]
      rfl
    | false => exact revStart_ok h hd
  have hslot : (s.revOpened n).engSlot n = s.engSlot n := by rw [State.engSlot, revOpened_cfg, State.engSlot]
  unfold engRev
  rw [bind_look, bind_look, bind_of_ok hlatch, bind_look, State.revPanned, hslot]
  cases (s.revOpened n).cfg.revPan.atEng n <;> exact bind_of_ok (putVolumes_ok h) _

theorem engRev_fault {v : Byte} (h : ¬ (s.engSlot n).toNat ≤ 15) :
    engRev n v s = .error () (s.raiseFault .param (zext16 (s.engSlot n))) := by
  unfold engRev
  rw [bind_look, bind_look]
  cases s.engFlag n EFlags.loopdis with
  | true =>
    rw [Bool.not_true, bind_onlyIf_false, bind_look]
    cases s.cfg.revPan.atEng n <;> exact bind_of_error (putVolumes_fault h) _
  | false =>
    refine bind_of_error ?_ _
    rw [Bool.not_false, onlyIf_true, revStart, bind_look]
    exact bind_of_error (putStart_fault h) _

theorem revOpened_only (h : OnlyRamPcm s t) (n : EngCh) : OnlyRamPcm s (t.revOpened n) := by
  unfold State.revOpened
  split
  next => exact h
  next =>
    exact h.setPcm8 _ _ |>.setPcm8 _ _ |>.setPcm8 _ _ |>.setPcm8 _ _ |>.setPcm8 _ _ |>.setPcm8 _ _ |>.setPcm8 _ _
      |>.setRam8 _ _

theorem revMarked_only (h : OnlyRamPcm s t) (n : EngCh) : OnlyRamPcm s (t.revMarked n) :=
  h.setRam8 _ _ |>.setRam8 _ _ |>.setRam8 _ _

/-- The flags with the latch closed, and MUTE and ADDRSET cleared. -/
theorem revFlags (f : Byte) :
    setBit (setBit (if bit f EFlags.loopdis then f else setBit f EFlags.loopdis true) EFlags.mute false) EFlags.addrset
      false = (f ||| 0x04) &&& 0xF6 := by
  revert f
  decide

theorem eng_revOpened_flags : (s.revOpened n).eng n EFld.flags =
    if s.engFlag n EFlags.loopdis then s.eng n EFld.flags
    else setBit (s.eng n EFld.flags) EFlags.loopdis true := by
  unfold State.revOpened
  split
  next => rfl
  next => exact (eng_setEngFlag _ _ _ _).trans (if_pos rfl)

theorem revMarked_flags (v : Byte) :
    (((s.revOpened n).revPanned n v).revMarked n).eng n EFld.flags = (s.eng n EFld.flags ||| 0x04) &&& 0xF6 := by
  have hpanned : ((s.revOpened n).revPanned n v).eng n EFld.flags = (s.revOpened n).eng n EFld.flags := rfl
  simp only [State.revMarked, eng_setEng, eng_setEngFlag, if_true, hpanned, eng_revOpened_flags]
  exact revFlags _

theorem revMarked_active : (s.revMarked n).eng n EFld.active = 1 := by simp [State.revMarked, eng_setEng]

theorem revMarked_kept (v : Byte) :
    RamKept s (((s.revOpened n).revPanned n v).revMarked n) [engRec n + EFld.flags, engRec n + EFld.active] := by
  have h : RamKept s (s.revOpened n) [engRec n + EFld.flags, engRec n + EFld.active] := by
    unfold State.revOpened
    split
    next => exact fun _ _ => rfl
    next => exact RamKept.setRam8 (t := s) (fun _ _ => rfl) (by simp) _
  exact h.setRam8 (a := engRec n + EFld.flags) (by simp) _ |>.setRam8 (a := engRec n + EFld.flags) (by simp) _
    |>.setRam8 (a := engRec n + EFld.active) (by simp) _

theorem front_inj {sl : Slot} {i j : Nat} : front sl i = front sl j ↔ i = j := Nat.add_right_inj

theorem back_inj {sl : Slot} {i j : Nat} : back sl i = back sl j ↔ i = j := Nat.add_right_inj

/-- The two halves of a slot do not meet. -/
theorem front_ne_back {sl : Slot} {i : Nat} (hi : i < 8) (j : Nat) : front sl i ≠ back sl j := by
  unfold front back
  omega

theorem back_ne_front {sl : Slot} {i : Nat} (hi : i < 8) (j : Nat) : back sl j ≠ front sl i :=
  (front_ne_back hi j).symm

theorem revPanned_kept (v : Byte) :
    PcmKept s (s.revPanned n v) [front (s.engSlot n) 2, front (s.engSlot n) 3] := by
  have h : PcmKept s s [front (s.engSlot n) 2, front (s.engSlot n) 3] := fun _ _ => rfl
  exact h.setPcm8 (by simp) _ |>.setPcm8 (by simp) _

theorem revPanned_left (v : Byte) :
    (s.revPanned n v).pcm8 (front (s.engSlot n) 2) = if s.cfg.revPan.atEng n = .right then 0 else v := by
  simp [State.revPanned, front_inj]

theorem revPanned_right (v : Byte) :
    (s.revPanned n v).pcm8 (front (s.engSlot n) 3) = if s.cfg.revPan.atEng n = .left then 0 else v := by
  simp [State.revPanned]

theorem revOpened_kept : PcmKept s (s.revOpened n) (sendAddrs (s.engSlot n)) := by
  have h : PcmKept s s (sendAddrs (s.engSlot n)) := fun _ _ => rfl
  unfold State.revOpened
  split
  next => exact h
  next =>
    exact h.setPcm8 (a := front _ 4) (by simp [sendAddrs]) _ |>.setPcm8 (a := front _ 5) (by simp [sendAddrs]) _
      |>.setPcm8 (a := back _ 4) (by simp [sendAddrs]) _ |>.setPcm8 (a := back _ 5) (by simp [sendAddrs]) _
      |>.setPcm8 (a := front _ 6) (by simp [sendAddrs]) _ |>.setPcm8 (a := front _ 7) (by simp [sendAddrs]) _
      |>.setPcm8 (a := back _ 6) (by simp [sendAddrs]) _

theorem revOpened_starts (hd : s.engFlag n EFlags.loopdis = false) :
    SlotPlays (s.revOpened n) (s.engSlot n) s.cfg.revStart s.cfg.revEndHi ∧
    (s.revOpened n).pcm8 (front (s.engSlot n) 7) = s.cfg.revPitch ∧
    (s.revOpened n).pcm8 (back (s.engSlot n) 6) = 0x02 := by
  rw [State.revOpened, hd]
  simp [SlotPlays, State.setEngFlag, State.setEng, State.withStart, front_inj, back_inj, front_ne_back, back_ne_front]

/-- A slot whose volumes and pitch alone are written keeps the rest of its bytes. -/
theorem PcmKept.slotByte {sl : Slot} (h : PcmKept s t [front sl 2, front sl 3, front sl 7]) {i : Nat} (hi : i < 7)
    (hl : i ≠ 2) (hr : i ≠ 3) : t.pcm8 (front sl i) = s.pcm8 (front sl i) :=
  h _ (by simp [front_inj, hl, hr, Nat.ne_of_lt hi])

theorem PcmKept.backByte {sl : Slot} (h : PcmKept s t [front sl 2, front sl 3, front sl 7]) (j : Nat) :
    t.pcm8 (back sl j) = s.pcm8 (back sl j) := h _ (by simp [back_ne_front])

theorem SlotPlays.of_kept {sl : Slot} {a : Word} {e : Byte} (hp : SlotPlays s sl a e)
    (h : PcmKept s t [front sl 2, front sl 3, front sl 7]) : SlotPlays t sl a e := by
  obtain ⟨hlo, hhi, hloop, hloopHi, hend⟩ := hp
  exact ⟨(h.slotByte (by decide) (by decide) (by decide)).trans hlo,
    (h.slotByte (by decide) (by decide) (by decide)).trans hhi, (h.backByte 4).trans hloop,
    (h.backByte 5).trans hloopHi, (h.slotByte (by decide) (by decide) (by decide)).trans hend⟩

/-- Settles O49: a slot 0..15 gets the effect, any other faults before a write. -/
theorem engineRevEffect : Obligations.EngineRevEffect := by
  intro s n hf hr hp sl f
  have hrun := engineChannel_revving hr hp
  refine ⟨fun h => ?plays, fun h => ?faults⟩
  case faults =>
    rw [engRev_fault (s := s.engBegun n) (Nat.not_le.mpr h)] at hrun
    exact ⟨_, step_engine_error hf hrun, engineFaulted_raiseFault (OnlyRam.refl _).onlyRamPcm .param _, rfl, rfl⟩
  case plays =>
    rw [engRev_ok (s := s.engBegun n) h] at hrun
    have hframe : OnlyRamPcm (s.engBegun n) ((((s.engBegun n).revOpened n).revPanned n (s.engV n)).revMarked n) :=
      revMarked_only ((revOpened_only (OnlyRam.refl _).onlyRamPcm n).setPcm8 _ _ |>.setPcm8 _ _) n
    have hslot : ((s.engBegun n).revOpened n).engSlot n = sl := (revOpened_only (OnlyRam.refl _).onlyRamPcm n).engSlot n
    have hcfg : ((s.engBegun n).revOpened n).cfg = s.cfg := revOpened_cfg
    have hpanned := revPanned_kept (s := (s.engBegun n).revOpened n) (n := n) (s.engV n)
    rw [hslot] at hpanned
    refine ⟨_, step_engine_ok hf hrun, engineDone_setFsm hframe, revMarked_kept (s := s.engBegun n) _,
      revMarked_flags (s := s.engBegun n) _, revMarked_active, ?left, ?right, fun hd => ?closed, fun hd => ?opened⟩
    case left =>
      rw [← hslot, ← hcfg]
      exact revPanned_left _
    case right =>
      rw [← hslot, ← hcfg]
      exact revPanned_right _
    case closed =>
      have hsame (a : Nat) : ((s.engBegun n).revOpened n).pcm8 a = s.pcm8 a := by
        rw [revOpened_closed (s := s.engBegun n) hd]
        rfl
      exact fun a ha => (hpanned a ha).trans (hsame a)
    case opened =>
      obtain ⟨hplays, hpitch, hcontrol⟩ := revOpened_starts (s := s.engBegun n) hd
      have hvolumes := hpanned.mono (l' := [front sl 2, front sl 3, front sl 7]) (by simp)
      refine ⟨hplays.of_kept hvolumes, ?_, (hvolumes.backByte 6).trans hcontrol, ?_⟩
      · exact (hpanned _ (by simp [front_inj])).trans hpitch
      · exact fun a ha => (hpanned.mono (by simp [sendAddrs]) a ha).trans (revOpened_kept (s := s.engBegun n) a ha)

end Sys2Proof.Machine
end

section
/-!
Steps 3 to 5 of an engine channel that sounds (43_engine_tone.md R204, R206, R207): the volumes and pitches as numbers,
the revs comparison, and the state after it.
-/

namespace Sys2Proof.Machine

variable {s t u : State} {n : EngCh}

/-! ### Volumes and pitches as numbers (R209, R210, 41_commands.md R160) -/

/-- A product of two bytes fits 16 bits. -/
theorem mulBytes_toNat (a b : Byte) : (mulBytes a b).toNat = a.toNat * b.toNat := by
  have hlt : a.toNat * b.toNat < 2 ^ 16 :=
    Nat.mul_lt_mul'' (c := 2 ^ 8) (d := 2 ^ 8) a.isLt b.isLt
  rw [mulBytes, BitVec.toNat_mul, zext16, zext16, BitVec.toNat_setWidth_of_le (by decide),
    BitVec.toNat_setWidth_of_le (by decide), Nat.mod_eq_of_lt hlt]

theorem mulShift_eq_ofNat (a b : Byte) (k : Nat) : mulShift a b k = BitVec.ofNat 8 (a.toNat * b.toNat / 2 ^ k) := by
  apply BitVec.eq_of_toNat_eq
  rw [mulShift, BitVec.toNat_setWidth, BitVec.toNat_ushiftRight, mulBytes_toNat, Nat.shiftRight_eq_div_pow,
    BitVec.toNat_ofNat]

theorem ferrariVolume_eq_ofNat (v : Byte) : ferrariVolume v = BitVec.ofNat 8 (min 0x3F (v.toNat * 0x18 / 64)) := by
  have hcurve : (mulBytes v 0x18 >>> 6).toNat = v.toNat * 0x18 / 64 := by
    rw [BitVec.toNat_ushiftRight, mulBytes_toNat, Nat.shiftRight_eq_div_pow]
    rfl
  rw [ferrariVolume, hcurve]
  split
  next h =>
    rw [Nat.min_eq_left (Nat.le_of_lt h)]
    rfl
  next h =>
    rw [Nat.min_eq_right (Nat.not_lt.mp h), mulShift_eq_ofNat]
    rfl

theorem clampPitch_eq_ofNat (p : BitVec 9) (c : Byte) : clampPitch p c = BitVec.ofNat 8 (min p.toNat c.toNat) := by
  apply BitVec.eq_of_toNat_eq
  unfold clampPitch
  split
  next h => rw [Nat.min_eq_left h, pitchLo, BitVec.toNat_setWidth, BitVec.toNat_ofNat]
  next h => rw [Nat.min_eq_right (Nat.le_of_not_le h), BitVec.toNat_ofNat, Nat.mod_eq_of_lt c.isLt]

theorem nudge_eq_ofNat (n : EngCh) : n.nudge = BitVec.ofNat 8 (if n.odd then 0xFE else 3) := by cases n <;> rfl

theorem tablePitch_eq_ofNat (base c : Byte) (p : BitVec 9) (n : EngCh) :
    base + clampPitch p c + n.nudge =
      BitVec.ofNat 8 (base.toNat + min p.toNat c.toNat + (if n.odd then 0xFE else 3)) := by
  rw [BitVec.ofNat_add, BitVec.ofNat_add, BitVec.ofNat_toNat, BitVec.setWidth_eq, ← clampPitch_eq_ofNat,
    ← nudge_eq_ofNat]

theorem ferrariPitch_eq_ofNat (base : Byte) (n : EngCh) :
    base + n.nudge = BitVec.ofNat 8 (base.toNat + (if n.odd then 0xFE else 3)) := by
  rw [BitVec.ofNat_add, BitVec.ofNat_toNat, BitVec.setWidth_eq, ← nudge_eq_ofNat]

/-! ### The revs comparison (R207) -/

/-- The four flags lie in the low half of E_FLAGS (10_state.md R35). -/
theorem setBit_highHalf (v : Byte) {k : Nat} (hk : k < 4) (b : Bool) : setBit v k b &&& 0xF0 = v &&& 0xF0 := by
  apply BitVec.eq_of_getLsbD_eq
  intro i hi
  have hlow : k < 4 → (0xF0 : Byte).getLsbD k = false := by
    revert k
    decide
  have hbit := bit_setBit v k i b (by omega)
  unfold bit at hbit
  rw [BitVec.getLsbD_and, BitVec.getLsbD_and, hbit]
  split
  next h => rw [h, hlow hk, Bool.and_false, Bool.and_false]
  next => rfl

theorem engFlag_setEngFlag {j : Nat} (hj : j < 8) (b : Bool) (k : Nat) :
    (s.setEngFlag n j b).engFlag n k = if k = j then b else s.engFlag n k := by
  rw [State.engFlag, eng_setEngFlag, if_pos rfl, bit_setBit _ _ _ _ hj]
  rfl

theorem engFlag_setEng {f : Nat} (hf : f ≠ EFld.flags) (v : Byte) (k : Nat) :
    (s.setEng n f v).engFlag n k = s.engFlag n k := by
  rw [State.engFlag, eng_setEng, if_neg (Ne.symm hf)]
  rfl

theorem compareRevs_only (p : BitVec 9) (h : OnlyRam s t) : OnlyRam s (t.compareRevs n p) := by
  unfold State.compareRevs
  refine OnlyRam.setRam8 (OnlyRam.setRam8 ?_ _ _) _ _
  split
  next => exact h.setRam8 _ _
  next => exact h.setRam8 _ _ |>.setRam8 _ _

theorem compareRevs_kept (p : BitVec 9) :
    RamKept s (s.compareRevs n p) [engRec n + EFld.flags, engRec n + EFld.pitchLo, engRec n + EFld.pitchHi] := by
  have h : RamKept s s [engRec n + EFld.flags, engRec n + EFld.pitchLo, engRec n + EFld.pitchHi] := fun _ _ => rfl
  have hf := List.mem_cons_self (a := engRec n + EFld.flags) (l := [engRec n + EFld.pitchLo, engRec n + EFld.pitchHi])
  unfold State.compareRevs
  refine RamKept.setRam8 (a := engRec n + EFld.pitchHi)
    (RamKept.setRam8 (a := engRec n + EFld.pitchLo) ?_ (by simp) _) (by simp) _
  split
  next => exact h.setRam8 hf _
  next => exact h.setRam8 hf _ |>.setRam8 hf _

theorem compareRevs_pitchLo (p : BitVec 9) : (s.compareRevs n p).eng n EFld.pitchLo = pitchLo p := by
  simp [State.compareRevs, eng_setEng]

theorem compareRevs_pitchHi (p : BitVec 9) : (s.compareRevs n p).eng n EFld.pitchHi = pitchHi p := by
  simp [State.compareRevs, eng_setEng]

/-- ADDRSET tells an unchanged pitch, and LOOPSET a rising one (R207). -/
theorem engFlag_compareRevs (p : BitVec 9) (k : Nat) :
    (s.compareRevs n p).engFlag n k =
      if k = EFlags.addrset then decide (p = s.prevPitch n)
      else if k = EFlags.loopset ∧ p ≠ s.prevPitch n then decide ((s.prevPitch n).toNat < p.toNat)
      else s.engFlag n k := by
  unfold State.compareRevs
  rw [engFlag_setEng (by decide), engFlag_setEng (by decide)]
  by_cases hp : p = s.prevPitch n
  · simp only [hp, if_true, engFlag_setEngFlag (show EFlags.addrset < 8 by decide), decide_true, ne_eq,
      not_true_eq_false, and_false, if_false]
  · simp only [hp, if_false, engFlag_setEngFlag (show EFlags.addrset < 8 by decide),
      engFlag_setEngFlag (show EFlags.loopset < 8 by decide), decide_false, ne_eq, not_false_eq_true, and_true]

theorem compareRevs_highHalf (p : BitVec 9) :
    (s.compareRevs n p).eng n EFld.flags &&& 0xF0 = s.eng n EFld.flags &&& 0xF0 := by
  unfold State.compareRevs
  rw [eng_setEng, if_neg (by decide), eng_setEng, if_neg (by decide)]
  split
  next => rw [eng_setEngFlag, if_pos rfl, setBit_highHalf _ (by decide)]
  next =>
    rw [eng_setEngFlag, if_pos rfl, setBit_highHalf _ (by decide), eng_setEngFlag, if_pos rfl,
      setBit_highHalf _ (by decide)]

/-! ### The state after step 5 (R204) -/

/-- The state after step 5. -/
def State.compared (s : State) (n : EngCh) : State := (s.engStored n (s.engVoiced n).2).compareRevs n (s.engVoiced n).1

theorem compared_only (n : EngCh) : OnlyRam (s.engBegun n) (s.compared n) := compareRevs_only _ (engStored_only _)

theorem compared_pcm : (s.compared n).pcm = s.pcm := by
  rw [compared_only n]
  rfl

theorem compared_pcm8 (a : Nat) : (s.compared n).pcm8 a = s.pcm8 a := by rw [State.pcm8, compared_pcm, State.pcm8]

theorem compared_cfg : (s.compared n).cfg = s.cfg := (compared_only n).cfg

theorem compared_engSlot : (s.compared n).engSlot n = s.engSlot n := (compared_only n).onlyRamPcm.engSlot n

theorem compared_romAt (x : Word) : (s.compared n).romAt x = s.romAt x := (compared_only n).romAt x

theorem compared_inRom (l : List Word) : (s.compared n).inRom l = s.inRom l := (compared_only n).inRom l

theorem compared_firstOut (l : List Word) : (s.compared n).firstOut l = s.firstOut l := (compared_only n).firstOut l

/-- The revs comparison is with the pitch the record held at the start of the pass. -/
theorem prevPitch_engStored (v : Byte) : (s.engStored n v).prevPitch n = s.prevPitch n := by
  rw [State.prevPitch, eng_engStored v (by decide) (by decide), eng_engStored v (by decide) (by decide)]
  rfl

theorem engFlag_engStored (v : Byte) (k : Nat) : (s.engStored n v).engFlag n k = s.engFlag n k := by
  rw [State.engFlag, eng_engStored v (by decide) (by decide)]
  rfl

theorem engFlag_compared (k : Nat) :
    (s.compared n).engFlag n k =
      if k = EFlags.addrset then decide ((s.engVoiced n).1 = s.prevPitch n)
      else if k = EFlags.loopset ∧ (s.engVoiced n).1 ≠ s.prevPitch n then
        decide ((s.prevPitch n).toNat < (s.engVoiced n).1.toNat)
      else s.engFlag n k := by
  rw [State.compared, engFlag_compareRevs, prevPitch_engStored, engFlag_engStored]

/-- The addresses are set anew exactly when the pitch changed or the channel was muted (R208). -/
theorem compared_fresh :
    (!(s.compared n).engFlag n EFlags.addrset || (s.compared n).engFlag n EFlags.mute) = s.engFresh n := by
  rw [engFlag_compared, engFlag_compared, if_pos rfl, if_neg (by decide), if_neg (by simp), State.engFresh, bne,
    beq_eq_decide]

theorem compared_spec : EngineCompared s (s.compared n) n where
  ram := by
    rw [engWritten_eq]
    refine RamKept.trans ((engStored_kept _).mono ?_) ((compareRevs_kept _).mono ?_)
    · exact List.append_subset.mpr ⟨List.subset_append_of_subset_left _ (by simp [voiceAddrs]),
        List.subset_append_right _ _⟩
    · exact List.subset_append_of_subset_left _ (by simp [voiceAddrs])
  volprev := by
    refine (compareRevs_kept _ _ (by simp)).trans ?_
    exact eng_engStored _ (by decide) (by decide)
  vol := by
    refine (compareRevs_kept _ _ (by simp)).trans ?_
    exact eng_engStored _ (by decide) (by decide)
  lowPitch := compareRevs_pitchLo _
  highPitch := compareRevs_pitchHi _
  loopset := by
    rw [engFlag_compared, if_neg (by decide)]
    by_cases h : (s.engVoiced n).1 = s.prevPitch n <;> simp [h]
  pending := by
    refine (compareRevs_highHalf _).trans ?_
    rw [eng_engStored _ (by decide) (by decide)]
    rfl
  ring ho := (engStored_ring _ ho).of_kept ((compareRevs_kept _).mono (by simp [voiceAddrs]))

end Sys2Proof.Machine
end

section
/-!
Steps 6 and 7 of an engine channel that sounds (43_engine_tone.md R208 to R210): what they keep of steps 3 to 5, the
faults that can end them (R213), and the state at their end.
-/

namespace Sys2Proof.Machine

variable {s t u : State} {n : EngCh}

/-! ### After step 5 -/

/-- Writes of the flags and of E_ADJVOL and E_ACTIVE that keep LOOPSET and the high half keep what steps 3 to 5 did. -/
theorem EngineCompared.of_kept (h : EngineCompared s t n)
    (hk : RamKept t u [engRec n + EFld.flags, engRec n + EFld.adjvol, engRec n + EFld.active])
    (hl : u.engFlag n EFlags.loopset = t.engFlag n EFlags.loopset)
    (hp : u.eng n EFld.flags &&& 0xF0 = t.eng n EFld.flags &&& 0xF0) : EngineCompared s u n where
  ram := h.ram.trans (hk.mono (List.subset_append_of_subset_left _ (by simp)))
  volprev := (hk _ (by simp)).trans h.volprev
  vol := (hk _ (by simp)).trans h.vol
  lowPitch := (hk _ (by simp)).trans h.lowPitch
  highPitch := (hk _ (by simp)).trans h.highPitch
  loopset := hl.trans h.loopset
  pending := hp.trans h.pending
  ring ho := (h.ring ho).of_kept (hk.mono (by simp [voiceAddrs]))

/-- Engine channel `n` is past step 5: beside steps 3 to 5 it has written its record and its slot at most. -/
structure EngineVoicing (s t : State) (n : EngCh) : Prop extends EngineCompared s t n where
  only : OnlyRamPcm (s.engBegun n) t
  pcm : PcmKept s t (sendAddrs (s.engSlot n))

theorem compared_voicing (s : State) (n : EngCh) : EngineVoicing s (s.compared n) n where
  toEngineCompared := compared_spec
  only := (compared_only n).onlyRamPcm
  pcm a _ := compared_pcm8 a

namespace EngineVoicing

variable (h : EngineVoicing s t n)
include h

theorem setFlag {k : Nat} (hk : k < 4) (hne : k ≠ EFlags.loopset) (b : Bool) :
    EngineVoicing s (t.setEngFlag n k b) n where
  toEngineCompared := by
    refine h.toEngineCompared.of_kept ((ramKept_setRam8 _ _).mono (by simp)) ?_ ?_
    · rw [engFlag_setEngFlag (by omega), if_neg (Ne.symm hne)]
    · rw [eng_setEngFlag, if_pos rfl, setBit_highHalf _ hk]
  only := h.only.setRam8 _ _
  pcm := h.pcm

theorem setField {f : Nat} (hf : f = EFld.adjvol ∨ f = EFld.active) (v : Byte) :
    EngineVoicing s (t.setEng n f v) n where
  toEngineCompared := by
    have hflags : f ≠ EFld.flags := by obtain rfl | rfl := hf <;> decide
    refine h.toEngineCompared.of_kept ((ramKept_setRam8 _ _).mono ?_) (engFlag_setEng hflags _ _) ?_
    · obtain rfl | rfl := hf <;> simp
    · rw [eng_setEng, if_neg hflags.symm]
  only := h.only.setRam8 _ _
  pcm := h.pcm

theorem setPcm8 {a : Nat} (ha : a ∈ sendAddrs (s.engSlot n)) (v : Byte) : EngineVoicing s (t.setPcm8 a v) n where
  toEngineCompared := h.toEngineCompared.of_kept (fun _ _ => rfl) rfl rfl
  only := h.only.setPcm8 _ _
  pcm := h.pcm.setPcm8 ha v

theorem engSlot : t.engSlot n = s.engSlot n := h.only.engSlot n

theorem addrSet (start : Word) (endHi : Byte) : EngineVoicing s (t.addrSet n start endHi) n := by
  unfold State.addrSet
  rw [h.engSlot]
  refine setField (setFlag ?_ (by decide) (by decide) _) (.inr rfl) _
  split
  next =>
    refine setFlag (setFlag ?_ (by decide) (by decide) _) (by decide) (by decide) _
    exact h.setPcm8 (a := front _ 4) (by simp [sendAddrs]) _ |>.setPcm8 (a := front _ 5) (by simp [sendAddrs]) _
      |>.setPcm8 (a := back _ 4) (by simp [sendAddrs]) _ |>.setPcm8 (a := back _ 5) (by simp [sendAddrs]) _
      |>.setPcm8 (a := front _ 6) (by simp [sendAddrs]) _ |>.setPcm8 (a := back _ 6) (by simp [sendAddrs]) _
  next => exact h

theorem volumeSet (v : Byte) : EngineVoicing s (t.volumeSet n v) n := by
  unfold State.volumeSet
  rw [h.engSlot]
  split
  next => exact (h.setField (.inl rfl) v).setPcm8 (by simp [sendAddrs]) _ |>.setPcm8 (by simp [sendAddrs]) _
  next => exact (h.setField (.inl rfl) v).setPcm8 (by simp [sendAddrs]) _ |>.setPcm8 (by simp [sendAddrs]) _

/-- A fault ends the pass with what was written by then (R213, log 23). -/
theorem stops (hf : s.fsm = .engine n) {c : FaultCode} {info : Word}
    (hrun : engineChannel n s = .error () (t.raiseFault c info)) :
    ∃ u, step s = .next u ∧ EngineStops s u n c.code info ∧ u.pcm = t.pcm :=
  ⟨_, step_engine_error hf hrun, {
    toEngineCompared := h.toEngineCompared.of_kept (fun _ _ => rfl) rfl rfl
    fault := engineFaulted_raiseFault h.only c info
    pcm := h.pcm }, rfl⟩

/-- Such a fault with the PCM file untouched. -/
theorem stops_quiet (hf : s.fsm = .engine n) (hp : t.pcm = s.pcm) {c : FaultCode} {info : Word}
    (hrun : engineChannel n s = .error () (t.raiseFault c info)) :
    ∃ u, step s = .next u ∧ EngineStops s u n c.code info ∧ u.pcm = s.pcm := by
  obtain ⟨u, hstep, hstops, hpcm⟩ := h.stops hf hrun
  exact ⟨u, hstep, hstops, hpcm.trans hp⟩

end EngineVoicing

/-! ### EngSetAddr and the volume (R208, R209, R210) -/

/-- EngSetAddr on a channel whose addresses stay touches no slot (R208). -/
theorem engSetAddr_steady {start : Word} {endHi : Byte}
    (h : (!s.engFlag n EFlags.addrset || s.engFlag n EFlags.mute) = false) :
    engSetAddr n start endHi s = .ok () (s.addrSet n start endHi) := by
  unfold engSetAddr State.addrSet
  simp only [bind_look, h, bind_onlyIf_false, bind_upd, upd_run, Bool.false_eq_true, if_false]

theorem addrSet_steady_pcm (start : Word) (endHi : Byte)
    (h : (!s.engFlag n EFlags.addrset || s.engFlag n EFlags.mute) = false) :
    (s.addrSet n start endHi).pcm = s.pcm := by
  unfold State.addrSet
  rw [h]
  rfl

/-- Fresh addresses on a slot above 15 fault before a write (R213). -/
theorem engSetAddr_fault {start : Word} {endHi : Byte} (hs : ¬ (s.engSlot n).toNat ≤ 15)
    (h : (!s.engFlag n EFlags.addrset || s.engFlag n EFlags.mute) = true) :
    engSetAddr n start endHi s = .error () (s.raiseFault .param (zext16 (s.engSlot n))) := by
  unfold engSetAddr
  rw [bind_look, bind_look, h, onlyIf_true]
  exact bind_of_error (bind_of_error (putStart_fault hs) _) _

/-- A volume for a slot above 15 faults after E_ADJVOL is stored (R213). -/
theorem engVolume_fault {v : Byte} (hs : ¬ (s.engSlot n).toNat ≤ 15) :
    engVolume n v s = .error () ((s.setEng n EFld.adjvol v).raiseFault .param (zext16 (s.engSlot n))) := by
  unfold engVolume
  rw [bind_upd, bind_look]
  split <;> exact putVolumes_fault hs

/-- The flags after EngSetAddr (R208). -/
theorem engFlag_addrSet (start : Word) (endHi : Byte) (k : Nat) :
    (s.addrSet n start endHi).engFlag n k =
      if k = EFlags.mute then false
      else if !s.engFlag n EFlags.addrset || s.engFlag n EFlags.mute then
        if k = EFlags.loopdis then false else if k = EFlags.addrset then true else s.engFlag n k
      else s.engFlag n k := by
  unfold State.addrSet
  rw [engFlag_setEng (by decide), engFlag_setEngFlag (by decide)]
  refine if_congr Iff.rfl rfl ?_
  split
  next =>
    rw [engFlag_setEngFlag (by decide), engFlag_setEngFlag (by decide)]
    rfl
  next => rfl

theorem addrSet_active (start : Word) (endHi : Byte) : (s.addrSet n start endHi).eng n EFld.active = 1 := by
  simp [State.addrSet, eng_setEng]

/-- Fresh addresses in a slot (R208). -/
theorem addrSet_plays (start : Word) (endHi : Byte)
    (h : (!s.engFlag n EFlags.addrset || s.engFlag n EFlags.mute) = true) :
    SlotPlays (s.addrSet n start endHi) (s.engSlot n) start endHi := by
  rw [State.addrSet, if_pos h]
  simp [SlotPlays, State.setEngFlag, State.setEng, State.withStart, front_inj, back_inj, front_ne_back, back_ne_front]

/-- The slot starts looped or as a one-shot by LOOPSET (R208). -/
theorem addrSet_control (start : Word) (endHi : Byte)
    (h : (!s.engFlag n EFlags.addrset || s.engFlag n EFlags.mute) = true) :
    (s.addrSet n start endHi).pcm8 (back (s.engSlot n) 6) = if s.engFlag n EFlags.loopset then 0x00 else 0x02 := by
  rw [State.addrSet, if_pos h]
  exact pcm8_setPcm8_self (s := (s.withStart (s.engSlot n) start).setPcm8 (front (s.engSlot n) 6) endHi) _ _

theorem volumeSet_kept (v : Byte) :
    PcmKept s (s.volumeSet n v) [front (s.engSlot n) 2, front (s.engSlot n) 3] := by
  have h : PcmKept s (s.setEng n EFld.adjvol v) [front (s.engSlot n) 2, front (s.engSlot n) 3] := fun _ _ => rfl
  unfold State.volumeSet
  split
  next => exact h.setPcm8 (by simp) _ |>.setPcm8 (by simp) _
  next => exact h.setPcm8 (by simp) _ |>.setPcm8 (by simp) _

theorem volumeSet_left (v : Byte) :
    (s.volumeSet n v).pcm8 (front (s.engSlot n) 2) = if n.odd then v else 0 := by
  unfold State.volumeSet
  cases n.odd <;> simp [front_inj]

theorem volumeSet_right (v : Byte) :
    (s.volumeSet n v).pcm8 (front (s.engSlot n) 3) = if n.odd then 0 else v := by
  unfold State.volumeSet
  cases n.odd <;> simp

theorem eng_volumeSet (v : Byte) (f : Nat) :
    (s.volumeSet n v).eng n f = if f = EFld.adjvol then v else s.eng n f := by
  unfold State.volumeSet
  split <;> exact eng_setEng _ _ _ _

/-! ### The end of step 7 -/

/-- Steps 6 and 7 done: addresses, volume `adj` and pitch byte `pitch` (R208 to R210). -/
def State.sounded (s : State) (n : EngCh) (start : Word) (endHi adj pitch : Byte) : State :=
  ((s.addrSet n start endHi).volumeSet n adj).setPcm8 (front (s.engSlot n) 7) pitch

theorem addrSet_engSlot (start : Word) (endHi : Byte) : (s.addrSet n start endHi).engSlot n = s.engSlot n := by
  rw [State.engSlot, addrSet_cfg, State.engSlot]

/-- After EngSetAddr only the volumes and the pitch of the slot are written (R208 to R210). -/
theorem sounded_kept (start : Word) (endHi adj pitch : Byte) :
    PcmKept (s.addrSet n start endHi) (s.sounded n start endHi adj pitch)
      [front (s.engSlot n) 2, front (s.engSlot n) 3, front (s.engSlot n) 7] := by
  have h := volumeSet_kept (s := s.addrSet n start endHi) (n := n) adj
  rw [addrSet_engSlot] at h
  exact (h.mono (by simp)).setPcm8 (by simp) pitch

theorem sounded_left (start : Word) (endHi adj pitch : Byte) :
    (s.sounded n start endHi adj pitch).pcm8 (front (s.engSlot n) 2) = if n.odd then adj else 0 := by
  have h := volumeSet_left (s := s.addrSet n start endHi) (n := n) adj
  rw [addrSet_engSlot] at h
  rw [State.sounded, pcm8_setPcm8, if_neg (by simp [front_inj]), h]

theorem sounded_right (start : Word) (endHi adj pitch : Byte) :
    (s.sounded n start endHi adj pitch).pcm8 (front (s.engSlot n) 3) = if n.odd then 0 else adj := by
  have h := volumeSet_right (s := s.addrSet n start endHi) (n := n) adj
  rw [addrSet_engSlot] at h
  rw [State.sounded, pcm8_setPcm8, if_neg (by simp [front_inj]), h]

theorem eng_sounded (start : Word) (endHi adj pitch : Byte) (f : Nat) :
    (s.sounded n start endHi adj pitch).eng n f =
      if f = EFld.adjvol then adj else (s.addrSet n start endHi).eng n f := eng_volumeSet _ _

/-- The flags at the end of step 7: the channel sounds, and fresh addresses release the latch (R208). -/
theorem engFlag_sounded (start : Word) (endHi adj pitch : Byte) (k : Nat) :
    ((s.compared n).sounded n start endHi adj pitch).engFlag n k =
      if k = EFlags.mute then false
      else if s.engFresh n then
        if k = EFlags.loopdis then false else if k = EFlags.addrset then true else (s.compared n).engFlag n k
      else (s.compared n).engFlag n k := by
  rw [← compared_fresh, ← engFlag_addrSet start endHi, State.engFlag, eng_sounded, if_neg (by decide),
    State.engFlag]

theorem sounded_voicing (start : Word) (endHi adj pitch : Byte) :
    EngineVoicing s ((s.compared n).sounded n start endHi adj pitch) n := by
  rw [State.sounded, compared_engSlot]
  exact (((compared_voicing s n).addrSet start endHi).volumeSet adj).setPcm8 (by simp [sendAddrs]) pitch

/-- Fresh addresses: the slot starts, and the latch is released (R208). -/
theorem sounded_fresh (start : Word) (endHi adj pitch : Byte) (h : s.engFresh n = true) :
    let t := (s.compared n).sounded n start endHi adj pitch
    SlotPlays t (s.engSlot n) start endHi ∧ t.engFlag n EFlags.loopdis = false ∧
      t.pcm8 (back (s.engSlot n) 6) = if t.engFlag n EFlags.loopset then 0x00 else 0x02 := by
  intro t
  have hkept := sounded_kept (s := s.compared n) (n := n) start endHi adj pitch
  have hplays := addrSet_plays (s := s.compared n) start endHi (compared_fresh.trans h)
  have hcontrol := addrSet_control (s := s.compared n) start endHi (compared_fresh.trans h)
  rw [compared_engSlot] at hkept hplays hcontrol
  have hloopset : t.engFlag n EFlags.loopset = (s.compared n).engFlag n EFlags.loopset := by
    rw [engFlag_sounded, h]
    rfl
  refine ⟨hplays.of_kept hkept, by rw [engFlag_sounded, h]; rfl, ?_⟩
  rw [hloopset]
  exact (hkept.backByte 6).trans hcontrol

/-- Addresses that stay: the latch and the rest of the slot are left alone (R208). -/
theorem sounded_steady (start : Word) (endHi adj pitch : Byte) (h : s.engFresh n = false) :
    let t := (s.compared n).sounded n start endHi adj pitch
    t.engFlag n EFlags.loopdis = s.engFlag n EFlags.loopdis ∧
      PcmKept s t [front (s.engSlot n) 2, front (s.engSlot n) 3, front (s.engSlot n) 7] := by
  intro t
  have hkept := sounded_kept (s := s.compared n) (n := n) start endHi adj pitch
  have hpcm (a : Nat) : ((s.compared n).addrSet n start endHi).pcm8 a = s.pcm8 a := by
    rw [State.pcm8, addrSet_steady_pcm _ _ (compared_fresh.trans h), compared_pcm, State.pcm8]
  rw [compared_engSlot] at hkept
  refine ⟨?_, fun a ha => (hkept a ha).trans (hpcm a)⟩
  rw [engFlag_sounded, h, if_neg (by decide), if_neg (by decide), engFlag_compared]
  rfl

/-- A sounding channel has its addresses set (R208). -/
theorem sounded_addrset (start : Word) (endHi adj pitch : Byte) :
    ((s.compared n).sounded n start endHi adj pitch).engFlag n EFlags.addrset = true := by
  rw [engFlag_sounded, if_neg (by decide)]
  have hfresh := compared_fresh (s := s) (n := n)
  cases h : s.engFresh n with
  | true => rfl
  | false =>
    rw [h, Bool.or_eq_false_iff, Bool.not_eq_false'] at hfresh
    exact hfresh.1

/-- A channel that comes to the end of step 7 sounds. -/
theorem sounded_sounds (start : Word) (endHi adj pitch : Byte) :
    EngineSounds s (((s.compared n).sounded n start endHi adj pitch).setFsm (afterEngine n)) n start endHi adj
      pitch := by
  have hvoicing := sounded_voicing (s := s) (n := n) start endHi adj pitch
  have hslot := compared_engSlot (s := s) (n := n)
  have hleft := sounded_left (s := s.compared n) (n := n) start endHi adj pitch
  have hright := sounded_right (s := s.compared n) (n := n) start endHi adj pitch
  rw [hslot] at hleft hright
  exact {
    toEngineCompared := hvoicing.toEngineCompared.of_kept (fun _ _ => rfl) rfl rfl
    done := engineDone_setFsm hvoicing.only
    adjvol := (eng_sounded _ _ _ pitch _).trans (if_pos rfl)
    active := (eng_sounded _ _ _ pitch _).trans (addrSet_active _ _)
    mute := (engFlag_sounded _ _ _ pitch _).trans (if_pos rfl)
    addrset := sounded_addrset _ _ _ pitch
    left := hleft
    right := hright
    hwPitch := by
      rw [← hslot]
      exact pcm8_setPcm8_self _ _
    fresh := fun h =>
      have ⟨hplays, hlatch, hcontrol⟩ := sounded_fresh start endHi adj pitch h
      ⟨hplays, hlatch, hcontrol, hvoicing.pcm⟩
    steady := sounded_steady start endHi adj pitch }

end Sys2Proof.Machine
end

section
/-!
The table path and the Ferrari path of an engine channel (43_engine_tone.md R204, R209, R210): which of them a channel
takes, and the order of their tests (R213).
-/

namespace Sys2Proof.Machine

variable {s t u : State} {n : EngCh} {p : BitVec 9} {v : Byte} {a x : Word}

/-! ### The table path and the Ferrari path after their entry (R209, R210) -/

/-- The table path after its addresses (R210). -/
def tableTail (c : Config) (n : EngCh) (p : BitVec 9) (v : Byte) (a : Word) : Exec Unit := do
  let mult ← rom8 (a + 3)
  engVolume n (mulShift v mult 8)
  let base ← rom8 (a + 4)
  putFront (c.engSlot.atEng n) 7 (base + clampPitch p c.engPitchClamp + n.nudge)

/-- The Ferrari path after its addresses (R209). -/
def ferrariTail (c : Config) (n : EngCh) (v : Byte) (a : Word) : Exec Unit := do
  engVolume n (ferrariVolume v)
  let base ← rom8 (a + 3)
  putFront (c.engSlot.atEng n) 7 (base + n.nudge)

/-- The addresses of the entry at `a`, and what follows them. -/
def addrThen (s : State) (n : EngCh) (a : Word) (tail : Exec Unit) : Exec Unit :=
  engSetAddr n (word (s.romAt (a + 1)) (s.romAt a)) (s.romAt (a + 2)) >>= fun _ => tail

theorem engTable_entered (hr : (s.cfg.engRowOf p v).toNat ≤ 53)
    (ha : s.cfg.engTable + 5 * s.cfg.engRowOf p v = a) (he : s.inRom [a, a + 1, a + 2] = true) :
    engTable n p v s = addrThen s n a (tableTail s.cfg n p v a) s := by
  unfold engTable
  rw [bind_look, if_neg (Nat.not_lt.mpr hr)]
  simp only [ha]
  rw [bind_of_ok (engEntry_ok he)]
  rfl

theorem engTable_entry_fault (hr : (s.cfg.engRowOf p v).toNat ≤ 53)
    (ha : s.cfg.engTable + 5 * s.cfg.engRowOf p v = a) (he : s.firstOut [a + 1, a, a + 2] = some x) :
    engTable n p v s = .error () (s.raiseFault .romRange x) := by
  unfold engTable
  rw [bind_look, if_neg (Nat.not_lt.mpr hr)]
  simp only [ha]
  exact bind_of_error (engEntry_fault he) _

theorem engFerrari_entered
    (hr : (s.cfg.ferrariRowOf (p - s.cfg.engIdle)).toNat < s.cfg.ferrariRows.toNat)
    (ha : s.cfg.ferrariTable + 4 * s.cfg.ferrariRowOf (p - s.cfg.engIdle) = a)
    (he : s.inRom [a, a + 1, a + 2] = true) :
    engFerrari n p v s = addrThen s n a (ferrariTail s.cfg n v a) s := by
  unfold engFerrari
  rw [bind_look, if_neg (Nat.not_le.mpr hr)]
  simp only [ha]
  rw [bind_of_ok (engEntry_ok he)]
  rfl

theorem engFerrari_entry_fault
    (hr : (s.cfg.ferrariRowOf (p - s.cfg.engIdle)).toNat < s.cfg.ferrariRows.toNat)
    (ha : s.cfg.ferrariTable + 4 * s.cfg.ferrariRowOf (p - s.cfg.engIdle) = a)
    (he : s.firstOut [a + 1, a, a + 2] = some x) :
    engFerrari n p v s = .error () (s.raiseFault .romRange x) := by
  unfold engFerrari
  rw [bind_look, if_neg (Nat.not_le.mpr hr)]
  simp only [ha]
  exact bind_of_error (engEntry_fault he) _

/-! ### Which path a channel takes (R204 step 6) -/

/-- The path of step 6: the player's channels from the idle threshold on take the Ferrari path (R204). -/
def enginePath (c : Config) (n : EngCh) (p : BitVec 9) (v : Byte) : Exec Unit :=
  if n.player && decide (c.engIdle.toNat ≤ p.toNat) then engFerrari n p v else engTable n p v

theorem engineChannel_sounding (h : s.engNormal n = true) (hv : (s.engVoiced n).2 ≠ 0) :
    engineChannel n s = enginePath s.cfg n (s.engVoiced n).1 (s.engVoiced n).2 (s.compared n) := by
  rw [engineChannel_normal h]
  refine (engNormal_run (s := s.engBegun n)).trans ?_
  unfold engVoice
  rw [bind_upd, bind_upd, if_neg (show ((s.engBegun n).engVoiced n).2 ≠ 0 from hv), bind_upd, bind_look]
  show enginePath (s.compared n).cfg n (s.engVoiced n).1 (s.engVoiced n).2 (s.compared n) = _
  rw [compared_cfg]

theorem engineChannel_ferrari (h : s.engNormal n = true) (hv : (s.engVoiced n).2 ≠ 0) (hn : 5 ≤ n.num)
    (hp : s.cfg.engIdle.toNat ≤ (s.engVoiced n).1.toNat) :
    engineChannel n s = engFerrari n (s.engVoiced n).1 (s.engVoiced n).2 (s.compared n) := by
  rw [engineChannel_sounding h hv, enginePath, if_pos]
  rw [EngCh.player, decide_eq_true hn, decide_eq_true hp, Bool.and_self]

theorem engineChannel_table (h : s.engNormal n = true) (hv : (s.engVoiced n).2 ≠ 0)
    (hp : 5 ≤ n.num → (s.engVoiced n).1.toNat < s.cfg.engIdle.toNat) :
    engineChannel n s = engTable n (s.engVoiced n).1 (s.engVoiced n).2 (s.compared n) := by
  rw [engineChannel_sounding h hv, enginePath, if_neg]
  rw [EngCh.player, Bool.and_eq_true, decide_eq_true_iff, decide_eq_true_iff]
  exact fun ⟨hn, hidle⟩ => absurd (hp hn) (Nat.not_lt.mpr hidle)

/-! ### Faults after the entry (R213) -/

theorem inRom_one : s.inRom [a] = true ↔ a.toNat < s.cfg.romSize := by
  rw [inRom_cons, inRom_nil, Bool.and_true, decide_eq_true_iff]

/-- The first of two addresses outside ROM is the first one, or the second one behind a first one in ROM. -/
theorem firstOut_pair {b : Word} (h : s.firstOut [a, b] = some x) :
    (¬ a.toNat < s.cfg.romSize ∧ a = x) ∨ (a.toNat < s.cfg.romSize ∧ ¬ b.toNat < s.cfg.romSize ∧ b = x) := by
  rw [firstOut_cons, firstOut_cons, firstOut_nil] at h
  split at h
  next ha =>
    split at h
    next => cases h
    next hb => exact .inr ⟨ha, hb, Option.some.inj h⟩
  next ha => exact .inl ⟨ha, Option.some.inj h⟩

/-- A slot above 15 and fresh addresses: the fault comes at the addresses (R213). -/
theorem addrThen_fault {r : State} {tail : Exec Unit} (hs : ¬ (s.engSlot n).toNat ≤ 15)
    (h : (!s.engFlag n EFlags.addrset || s.engFlag n EFlags.mute) = true) :
    addrThen r n a tail s = .error () (s.raiseFault .param (zext16 (s.engSlot n))) :=
  bind_of_error (engSetAddr_fault hs h) _

theorem addrThen_ok {r : State} {tail : Exec Unit} (h : (s.engSlot n).toNat ≤ 15 ∨
      (!s.engFlag n EFlags.addrset || s.engFlag n EFlags.mute) = false) :
    addrThen r n a tail s = tail (s.addrSet n (word (r.romAt (a + 1)) (r.romAt a)) (r.romAt (a + 2))) := by
  obtain h | h := h
  · exact bind_of_ok (engSetAddr_ok h) _
  · exact bind_of_ok (engSetAddr_steady h) _

theorem tableTail_mult_fault {c : Config} (h : ¬ (a + 3).toNat < s.cfg.romSize) :
    tableTail c n p v a s = .error () (s.raiseFault .romRange (a + 3)) := bind_of_error (rom8_fault h) _

theorem tableTail_slot_fault {c : Config} (h : (a + 3).toNat < s.cfg.romSize) (hs : ¬ (s.engSlot n).toNat ≤ 15) :
    tableTail c n p v a s = .error () ((s.setEng n EFld.adjvol (mulShift v (s.romAt (a + 3)) 8)).raiseFault .param
      (zext16 (s.engSlot n))) := by
  rw [tableTail, bind_rom8_ok h]
  exact bind_of_error (engVolume_fault hs) _

theorem tableTail_base_fault {c : Config} (h : (a + 3).toNat < s.cfg.romSize) (hs : (s.engSlot n).toNat ≤ 15)
    (h4 : ¬ (a + 4).toNat < s.cfg.romSize) :
    tableTail c n p v a s = .error () ((s.volumeSet n (mulShift v (s.romAt (a + 3)) 8)).raiseFault .romRange
      (a + 4)) := by
  rw [tableTail, bind_rom8_ok h, bind_of_ok (engVolume_ok hs)]
  exact bind_of_error (rom8_fault (by rw [volumeSet_cfg]; exact h4)) _

theorem ferrariTail_slot_fault {c : Config} (hs : ¬ (s.engSlot n).toNat ≤ 15) :
    ferrariTail c n v a s = .error () ((s.setEng n EFld.adjvol (ferrariVolume v)).raiseFault .param
      (zext16 (s.engSlot n))) := bind_of_error (engVolume_fault hs) _

theorem ferrariTail_base_fault {c : Config} (hs : (s.engSlot n).toNat ≤ 15) (h3 : ¬ (a + 3).toNat < s.cfg.romSize) :
    ferrariTail c n v a s = .error () ((s.volumeSet n (ferrariVolume v)).raiseFault .romRange (a + 3)) := by
  rw [ferrariTail, bind_of_ok (engVolume_ok hs)]
  exact bind_of_error (rom8_fault (by rw [volumeSet_cfg]; exact h3)) _

/-! ### From the entry on -/

/-- The state after the addresses of the entry at `a` (R208). -/
def State.addressed (s : State) (n : EngCh) (a : Word) : State :=
  (s.compared n).addrSet n (word ((s.compared n).romAt (a + 1)) ((s.compared n).romAt a))
    ((s.compared n).romAt (a + 2))

theorem addressed_voicing (s : State) (n : EngCh) (a : Word) : EngineVoicing s (s.addressed n a) n :=
  (compared_voicing s n).addrSet _ _

theorem addressed_cfg : (s.addressed n a).cfg = s.cfg := (addrSet_cfg _ _ _).trans compared_cfg

theorem addressed_engSlot : (s.addressed n a).engSlot n = s.engSlot n := (addressed_voicing s n a).engSlot

theorem addressed_pcm (h : s.engFresh n = false) : (s.addressed n a).pcm = s.pcm :=
  (addrSet_steady_pcm _ _ (compared_fresh.trans h)).trans compared_pcm

section

variable {tail : Exec Unit} (hf : s.fsm = .engine n)
  (hrun : engineChannel n s = addrThen (s.compared n) n a tail (s.compared n))
include hrun

theorem engineChannel_addressed (h : (s.engSlot n).toNat ≤ 15 ∨ s.engFresh n = false) :
    engineChannel n s = tail (s.addressed n a) := by
  refine hrun.trans (addrThen_ok ?_)
  rw [compared_engSlot, compared_fresh]
  exact h

include hf

/-- Fresh addresses in a slot above 15 (R213). -/
theorem step_engine_freshFault (hs : 15 < (s.engSlot n).toNat) (h : s.engFresh n = true) :
    ∃ t, step s = .next t ∧ EngineStops s t n 0x06 (zext16 (s.engSlot n)) ∧ t.pcm = s.pcm := by
  refine (compared_voicing s n).stops_quiet hf compared_pcm (c := .param) (hrun.trans ?_)
  rw [← compared_engSlot] at hs ⊢
  exact addrThen_fault (Nat.not_le.mpr hs) (compared_fresh.trans h)

end

/-- Settles O51: the row, the entry, the slot and the last two bytes are tested in this order. -/
theorem engineTablePath : Obligations.EngineTablePath := by
  intro s n hf h sl p v r a hv hp
  have hrun := engineChannel_table h hv hp
  have hrow : (s.compared n).cfg.engRowOf p v = r := congrArg (·.engRowOf p v) compared_cfg
  have haddr : (s.compared n).cfg.engTable + 5 * (s.compared n).cfg.engRowOf p v = a :=
    congrArg (fun c : Config => c.engTable + 5 * c.engRowOf p v) compared_cfg
  have hentered (hr : r.toNat ≤ 53) (he : s.inRom [a, a + 1, a + 2] = true) :=
    hrun.trans (engTable_entered (hrow ▸ hr) haddr ((compared_inRom _).trans he))
  refine ⟨fun hs hr hm => ?sounds, fun hr => ?row, fun hr x hx => ?entry, fun hr he =>
    ⟨fun x hx hs => ?last, fun hs hx => ?slot⟩⟩
  case sounds =>
    rw [engTable_ok (by rw [compared_engSlot]; exact hs) (hrow ▸ hr) haddr ((compared_inRom _).trans hm)] at hrun
    simp only [compared_romAt, compared_cfg, mulShift_eq_ofNat, tablePitch_eq_ofNat] at hrun
    exact ⟨_, step_engine_ok hf hrun, sounded_sounds _ _ _ _⟩
  case row =>
    rw [engTable_row_fault (hrow ▸ hr), hrow] at hrun
    exact (compared_voicing s n).stops_quiet hf compared_pcm hrun
  case entry =>
    rw [engTable_entry_fault (hrow ▸ hr) haddr ((compared_firstOut _).trans hx)] at hrun
    exact (compared_voicing s n).stops_quiet hf compared_pcm hrun
  case last =>
    have hcome := engineChannel_addressed (hentered hr he) (hs.imp_right And.left)
    obtain ⟨h3, rfl⟩ | ⟨h3, h4, rfl⟩ := firstOut_pair hx
    · rw [tableTail_mult_fault (by rw [addressed_cfg]; exact h3)] at hcome
      obtain ⟨t, hstep, hstops, -⟩ := (addressed_voicing s n a).stops hf hcome
      exact ⟨t, hstep, hstops⟩
    · have hle : sl.toNat ≤ 15 :=
        hs.resolve_right fun ⟨_, h34⟩ => absurd ((BitVec.add_right_inj a).mp h34) (by decide)
      rw [tableTail_base_fault (by rw [addressed_cfg]; exact h3) (by rw [addressed_engSlot]; exact hle)
        (by rw [addressed_cfg]; exact h4)] at hcome
      obtain ⟨t, hstep, hstops, -⟩ := ((addressed_voicing s n a).volumeSet _).stops hf hcome
      exact ⟨t, hstep, hstops⟩
  case slot =>
    cases hfresh : s.engFresh n with
    | true => exact step_engine_freshFault hf (hentered hr he) hs hfresh
    | false =>
      have h3 := inRom_one.mp (hx.resolve_left (Bool.not_eq_true _ ▸ hfresh))
      have hcome := engineChannel_addressed (hentered hr he) (.inr hfresh)
      rw [tableTail_slot_fault (by rw [addressed_cfg]; exact h3) (by rw [addressed_engSlot]; exact Nat.not_le.mpr hs),
        addressed_engSlot] at hcome
      exact ((addressed_voicing s n a).setField (.inl rfl) _).stops_quiet hf (addressed_pcm hfresh) hcome

/-- Settles O52: the row, the entry, the slot and the pitch byte are tested in this order. -/
theorem engineFerrariPath : Obligations.EngineFerrariPath := by
  intro s n hf h sl p v r a hv hn hp
  have hrun := engineChannel_ferrari h hv hn hp
  have hrow : (s.compared n).cfg.ferrariRowOf (p - (s.compared n).cfg.engIdle) = r :=
    congrArg (fun c : Config => c.ferrariRowOf (p - c.engIdle)) compared_cfg
  have hrows : (s.compared n).cfg.ferrariRows = s.cfg.ferrariRows := congrArg Config.ferrariRows compared_cfg
  have haddr : (s.compared n).cfg.ferrariTable +
      4 * (s.compared n).cfg.ferrariRowOf (p - (s.compared n).cfg.engIdle) = a :=
    congrArg (fun c : Config => c.ferrariTable + 4 * c.ferrariRowOf (p - c.engIdle)) compared_cfg
  have hrange (hr : r.toNat < s.cfg.ferrariRows.toNat) :
      ((s.compared n).cfg.ferrariRowOf (p - (s.compared n).cfg.engIdle)).toNat <
        (s.compared n).cfg.ferrariRows.toNat := by
    rw [hrow, hrows]
    exact hr
  have hentered (hr : r.toNat < s.cfg.ferrariRows.toNat) (he : s.inRom [a, a + 1, a + 2] = true) :=
    hrun.trans (engFerrari_entered (hrange hr) haddr ((compared_inRom _).trans he))
  refine ⟨fun hs hr hm => ?sounds, fun hr => ?row, fun hr x hx => ?entry, fun hr he =>
    ⟨fun hs => ?slot, fun hs h3 => ?last⟩⟩
  case sounds =>
    rw [engFerrari_ok (by rw [compared_engSlot]; exact hs) (hrange hr) haddr ((compared_inRom _).trans hm)] at hrun
    simp only [compared_romAt, ferrariVolume_eq_ofNat, ferrariPitch_eq_ofNat] at hrun
    exact ⟨_, step_engine_ok hf hrun, sounded_sounds _ _ _ _⟩
  case row =>
    rw [engFerrari_row_fault (by rw [hrow, hrows]; exact hr), hrow] at hrun
    exact (compared_voicing s n).stops_quiet hf compared_pcm hrun
  case entry =>
    rw [engFerrari_entry_fault (hrange hr) haddr ((compared_firstOut _).trans hx)] at hrun
    exact (compared_voicing s n).stops_quiet hf compared_pcm hrun
  case slot =>
    cases hfresh : s.engFresh n with
    | true => exact step_engine_freshFault hf (hentered hr he) hs hfresh
    | false =>
      have hcome := engineChannel_addressed (hentered hr he) (.inr hfresh)
      rw [ferrariTail_slot_fault (by rw [addressed_engSlot]; exact Nat.not_le.mpr hs), addressed_engSlot] at hcome
      exact ((addressed_voicing s n a).setField (.inl rfl) _).stops_quiet hf (addressed_pcm hfresh) hcome
  case last =>
    have hcome := engineChannel_addressed (hentered hr he) (.inl hs)
    have hout : ¬ (a + 3).toNat < s.cfg.romSize := fun hin => by
      rw [inRom_one.mpr hin] at h3
      cases h3
    rw [ferrariTail_base_fault (by rw [addressed_engSlot]; exact hs) (by rw [addressed_cfg]; exact hout)] at hcome
    obtain ⟨t, hstep, hstops, -⟩ := ((addressed_voicing s n a).volumeSet _).stops hf hcome
    exact ⟨t, hstep, hstops⟩

end Sys2Proof.Machine
end

section
/-!
Ownership (43_engine_tone.md R212, 44_traffic_fx.md R239): with the parameters fixed, each operation of a pass writes
the record of its channel and the slot the parameters give it, and no register but ENGCH, STATE and the fault register.
-/

namespace Sys2Proof.Machine

variable {α β : Type} {c : Config} {ram : List Nat} {sl : Slot} {s t u : State}

/-- From `s` to `t` only the listed bytes of Channel RAM and the bytes of slot `sl` changed, and no register but those
of the passes. -/
structure Owned (ram : List Nat) (sl : Slot) (s t : State) : Prop where
  only : OnlyRamPcmEng s t
  ram : RamKept s t ram
  pcm : PcmKept s t (slotAddrs sl)

theorem Owned.refl (s : State) : Owned ram sl s s := ⟨rfl, fun _ _ => rfl, fun _ _ => rfl⟩

theorem OnlyRamPcmEng.trans (hst : OnlyRamPcmEng s t) (htu : OnlyRamPcmEng t u) : OnlyRamPcmEng s u := by
  rw [OnlyRamPcmEng] at *
  conv => lhs; rw [htu, hst]

theorem Owned.trans (hst : Owned ram sl s t) (htu : Owned ram sl t u) : Owned ram sl s u where
  only := hst.only.trans htu.only
  ram := hst.ram.trans htu.ram
  pcm a ha := (htu.pcm a ha).trans (hst.pcm a ha)

theorem Owned.cfg (h : Owned ram sl s t) : t.cfg = s.cfg := by rw [h.only]

/-- What follows a computation starts with the same parameters. -/
theorem Owned.trans_of_cfg (hst : s.cfg = c → Owned ram sl s t) (htu : t.cfg = c → Owned ram sl t u)
    (hs : s.cfg = c) : Owned ram sl s u := (hst hs).trans (htu ((hst hs).cfg.trans hs))

theorem Owned.setRam8 {a : Nat} (h : Owned ram sl s t) (ha : a ∈ ram) (v : Byte) :
    Owned ram sl s (t.setRam8 a v) where
  only := h.only.trans rfl
  ram := h.ram.setRam8 ha v
  pcm := h.pcm

theorem Owned.setPcm8 {a : Nat} (h : Owned ram sl s t) (ha : a ∈ slotAddrs sl) (v : Byte) :
    Owned ram sl s (t.setPcm8 a v) where
  only := h.only.trans rfl
  ram := h.ram
  pcm := h.pcm.setPcm8 ha v

theorem Owned.of_registers (h : OnlyRamPcmEng s t) (hr : t.ram = s.ram) (hp : t.pcm = s.pcm) : Owned ram sl s t where
  only := h
  ram a _ := congrArg (Memory.read .ram · a) hr
  pcm a _ := congrArg (Memory.read .pcm · a) hp

/-- With the parameters `c`, a computation writes only what a pass with these bytes and this slot owns, whether or not
it raises a fault. -/
def Owns (c : Config) (ram : List Nat) (sl : Slot) (m : Exec α) : Prop :=
  Keeps (fun s t => s.cfg = c → Owned ram sl s t) m

namespace Owns

/-! ### Computations -/

theorem owned {m : Exec α} (h : Owns s.cfg ram sl m) : Owned ram sl s (after (m s)) := Keeps.after h s rfl

theorem pure (a : α) : Owns c ram sl (pure a : Exec α) := fun s _ => .refl s

theorem look (f : State → α) : Owns c ram sl (look f) := fun s _ => .refl s

theorem raise (k : FaultCode) (info : Word) : Owns c ram sl (raise k info : Exec α) :=
  fun _ _ => .of_registers rfl rfl rfl

theorem upd {f : State → State} (hf : ∀ s, Owned ram sl s (f s)) : Owns c ram sl (upd f) := fun s _ => hf s

theorem bind {m : Exec α} {g : α → Exec β} (hm : Owns c ram sl m) (hg : ∀ a, Owns c ram sl (g a)) :
    Owns c ram sl (m >>= g) :=
  Leaves.bind (fun _ _ _ => .trans_of_cfg) (fun _ _ _ => .trans_of_cfg) hm hg

/-- What is read of the state decides how the computation goes on. -/
theorem read {f : State → α} {g : α → Exec β} (hg : ∀ a, Owns c ram sl (g a)) :
    Owns c ram sl (Machine.look f >>= g) := bind (look f) hg

/-- What is read of the parameters is known. -/
theorem readCfg {f : State → α} {g : α → Exec β} {x : α} (hf : ∀ s, s.cfg = c → f s = x)
    (hg : Owns c ram sl (g x)) :
    Owns c ram sl (Machine.look f >>= g) := by
  intro s
  rw [bind_look]
  by_cases hc : s.cfg = c
  · rw [hf s hc]
    exact hg s
  · cases g (f s) s <;> exact fun h => absurd h hc

/-- A write of the state and what follows it. -/
theorem write {f : State → State} {g : Unit → Exec β} (hf : ∀ s, Owned ram sl s (f s))
    (hg : ∀ a, Owns c ram sl (g a)) : Owns c ram sl (Machine.upd f >>= g) := bind (upd hf) hg

theorem onlyIf {b : Bool} {m : Exec Unit} (hm : Owns c ram sl m) : Owns c ram sl (onlyIf b m) :=
  Leaves.onlyIf (fun s _ => .refl s) hm

theorem ite {p : Prop} [Decidable p] {m k : Exec α} (hm : Owns c ram sl m) (hk : Owns c ram sl k) :
    Owns c ram sl (if p then m else k) := Leaves.ite (fun _ => hm) fun _ => hk

theorem each (l : List α) {f : α → Exec Unit} (hf : ∀ x, x ∈ l → Owns c ram sl (f x)) :
    Owns c ram sl (each l f) :=
  Leaves.each (fun s _ => .refl s) (fun _ _ _ => .trans_of_cfg) (fun _ _ _ => .trans_of_cfg) l hf

/-! ### ROM and the slot -/

theorem rom8 (a : Word) : Owns c ram sl (rom8 a) :=
  Leaves.rom8 (fun s _ => .refl s) (fun _ _ _ => .of_registers rfl rfl rfl) a

theorem checkSlot (x : Slot) : Owns c ram sl (checkSlot x) :=
  Leaves.checkSlot (fun s _ => .refl s) (fun _ _ _ => .of_registers rfl rfl rfl) x

theorem putFront {off : Nat} {v : Byte} (ho : off < 8) : Owns c ram sl (putFront sl off v) :=
  bind (checkSlot sl) fun _ => upd fun s => (Owned.refl s).setPcm8 (front_mem_slotAddrs sl ho) v

theorem putBack {off : Nat} {v : Byte} (ho : off < 8) : Owns c ram sl (putBack sl off v) :=
  bind (checkSlot sl) fun _ => upd fun s => (Owned.refl s).setPcm8 (back_mem_slotAddrs sl ho) v

theorem silence : Owns c ram sl (silence sl) :=
  bind (checkSlot sl) fun _ => upd fun s => (Owned.refl s).setPcm8 (back_mem_slotAddrs sl (by decide)) _

theorem putStart (start : Word) : Owns c ram sl (putStart sl start) :=
  bind (putFront (by decide)) fun _ => bind (putFront (by decide)) fun _ => bind (putBack (by decide)) fun _ =>
    putBack (by decide)

theorem putVolumes (l r : Byte) : Owns c ram sl (putVolumes sl l r) :=
  bind (putFront (by decide)) fun _ => putFront (by decide)

end Owns

/-! ### The engine pass (43_engine_tone.md R212) -/

/-- What engine channel `n` owns with the parameters `c`. -/
abbrev EngOwns (c : Config) (n : EngCh) (m : Exec α) : Prop := Owns c (engAddrs n) (c.engSlot.atEng n) m

/-- A byte of its record written. -/
theorem owned_setEng (n : EngCh) {f : Nat} (hf : f < 9) (v : Byte) : Owned (engAddrs n) sl s (s.setEng n f v) :=
  (Owned.refl s).setRam8 (eng_mem n hf) v

theorem owned_setEngFlag (n : EngCh) (k : Nat) (b : Bool) : Owned (engAddrs n) sl s (s.setEngFlag n k b) :=
  owned_setEng n (by decide) _

theorem owned_ringPush {n : EngCh} (ho : n.odd = true) (p : BitVec 9) (v : Byte) :
    Owned (engAddrs n) sl s (s.ringPush n p v) :=
  (Owned.refl s).setRam8 (ringAt_mem ho (k := 0) (by decide)) _ |>.setRam8 (ringAt_mem ho (k := 1) (by decide)) _
    |>.setRam8 (ringAt_mem ho (k := 2) (by decide)) _ |>.setRam8 (eng_mem n (f := EFld.ringPos) (by decide)) _

theorem owned_compareRevs (n : EngCh) (p : BitVec 9) : Owned (engAddrs n) sl s (s.compareRevs n p) := by
  unfold State.compareRevs
  refine Owned.trans (Owned.trans ?_ (owned_setEng n (by decide) _)) (owned_setEng n (by decide) _)
  split
  next => exact owned_setEngFlag n _ _
  next => exact (owned_setEngFlag n _ _).trans (owned_setEngFlag n _ _)

namespace EngOwns

variable {n : EngCh}

/-- The slot a channel reads is the one of the parameters. -/
theorem readSlot {g : Slot → Exec β} (hg : EngOwns c n (g (c.engSlot.atEng n))) :
    EngOwns c n (Machine.look (·.engSlot n) >>= g) :=
  Owns.readCfg (fun _ hs => congrArg (fun d : Config => d.engSlot.atEng n) hs) hg

theorem engMute : EngOwns c n (engMute n) :=
  .write (fun _ => owned_setEngFlag n _ _) fun _ => .write (fun _ => owned_setEng n (by decide) _) fun _ =>
    readSlot .silence

theorem revStart : EngOwns c n (revStart n (c.engSlot.atEng n)) :=
  .read fun _ => .bind (.putStart _) fun _ => .read fun _ => .bind (.putFront (by decide)) fun _ =>
    .read fun _ => .bind (.putFront (by decide)) fun _ => .bind (.putBack (by decide)) fun _ =>
    .upd fun _ => owned_setEngFlag n _ _

theorem engRev (v : Byte) : EngOwns c n (engRev n v) := by
  refine readSlot (.read fun _ => .bind (.onlyIf revStart) fun _ => .read fun pan => ?_)
  have hend : EngOwns c n (do
      upd (·.setEngFlag n EFlags.mute false)
      upd (·.setEngFlag n EFlags.addrset false)
      upd (·.setEng n EFld.active 1)) :=
    .write (fun _ => owned_setEngFlag n _ _) fun _ => .write (fun _ => owned_setEngFlag n _ _) fun _ =>
      .upd fun _ => owned_setEng n (by decide) _
  cases pan <;> exact .bind (.putVolumes _ _) fun _ => hend

theorem engSetAddr (start : Word) (endHi : Byte) : EngOwns c n (engSetAddr n start endHi) :=
  readSlot (.read fun _ => .bind
    (.onlyIf (.bind (.putStart start) fun _ => .bind (.putFront (by decide)) fun _ => .read fun _ =>
      .bind (.putBack (by decide)) fun _ => .write (fun _ => owned_setEngFlag n _ _) fun _ =>
      .upd fun _ => owned_setEngFlag n _ _))
    fun _ => .write (fun _ => owned_setEngFlag n _ _) fun _ => .upd fun _ => owned_setEng n (by decide) _)

theorem engEntry (a : Word) : EngOwns c n (engEntry a) :=
  .bind (.rom8 _) fun _ => .bind (.rom8 _) fun _ => .bind (.rom8 _) fun _ => .pure _

theorem engVolume (v : Byte) : EngOwns c n (engVolume n v) :=
  .write (fun _ => owned_setEng n (by decide) _) fun _ => readSlot (.ite (.putVolumes _ _) (.putVolumes _ _))

theorem engFerrari (p : BitVec 9) (v : Byte) : EngOwns c n (engFerrari n p v) :=
  .readCfg (fun _ hs => hs) (.ite (.raise _ _) (.bind (engEntry _) fun (_, _) => .bind (engSetAddr _ _) fun _ =>
    .bind (engVolume _) fun _ => .bind (.rom8 _) fun _ => .putFront (by decide)))

theorem engTable (p : BitVec 9) (v : Byte) : EngOwns c n (engTable n p v) :=
  .readCfg (fun _ hs => hs) (.ite (.raise _ _) (.bind (engEntry _) fun (_, _) => .bind (engSetAddr _ _) fun _ =>
    .bind (.rom8 _) fun _ => .bind (engVolume _) fun _ => .bind (.rom8 _) fun _ => .putFront (by decide)))

theorem engVoice (p : BitVec 9) (v : Byte) : EngOwns c n (engVoice n p v) :=
  .write (fun _ => owned_setEng n (by decide) _) fun _ => .write (fun _ => owned_setEng n (by decide) _) fun _ =>
    .ite engMute (.write (fun _ => owned_compareRevs n p) fun _ => .read fun _ => .ite (engFerrari p v) (engTable p v))

theorem engNormal (p : BitVec 9) (v : Byte) : EngOwns c n (engNormal n p v) :=
  Leaves.ite (fun ho => Owns.bind (.read fun _ => .write (fun _ => owned_ringPush ho p v) fun _ => .pure _)
    fun (p', v') => engVoice p' v') fun _ => engVoice p v

theorem engineStep : EngOwns c n (engineStep n) :=
  .bind (.write (fun _ => .of_registers rfl rfl rfl) fun _ => .read fun _ => .read fun _ => .ite engMute
    (.read fun _ => .ite (engRev _) (engNormal _ _))) fun _ => .upd fun _ => .of_registers rfl rfl rfl

end EngOwns

/-! ### The traffic pass (44_traffic_fx.md R239) -/

/-- What traffic channel `d` owns with the parameters `c`. -/
abbrev TrfOwns (c : Config) (d : TrfCh) (m : Exec α) : Prop := Owns c (trfAddrs d) (c.trfSlot.atTrf d) m

/-- A byte of its record written. -/
theorem Owned.setTrf {d : TrfCh} {f : Nat} (h : Owned (trfAddrs d) sl s t) (hf : f < 8) (v : Byte) :
    Owned (trfAddrs d) sl s (t.setTrf d f v) := h.setRam8 (mem_trfAddrs.2 (by omega)) v

theorem owned_setTrfFlag (d : TrfCh) (k : Nat) (b : Bool) : Owned (trfAddrs d) sl s (s.setTrfFlag d k b) :=
  (Owned.refl s).setTrf (by decide) _

theorem owned_zeroTrf (d : TrfCh) : Owned (trfAddrs d) sl s (s.zeroTrf d) :=
  List.foldlRecOn (List.range 8) _ (.refl s) fun _ hu _ hk => hu.setTrf (List.mem_range.mp hk) 0

theorem owned_reduceTrf (d : TrfCh) : Owned (trfAddrs d) sl s (s.reduceTrf d) :=
  (Owned.refl s).setTrf (f := TFld.pitch) (by decide) _ |>.setTrf (f := TFld.voll) (by decide) _
    |>.setTrf (f := TFld.volr) (by decide) _

theorem owned_startReduce (d : TrfCh) : Owned (trfAddrs d) sl s (s.startReduce d) := by
  unfold State.startReduce
  split
  next => exact owned_setTrfFlag d _ _
  next => exact .refl s

theorem owned_noteIndices (d : TrfCh) (vidx pidx : Byte) : Owned (trfAddrs d) sl s (s.noteIndices d vidx pidx) :=
  (owned_setTrfFlag d _ _).trans (owned_setTrfFlag d _ _) |>.setTrf (f := TFld.pvidx) (by decide) _
    |>.setTrf (f := TFld.ppidx) (by decide) _

namespace TrfOwns

variable {d : TrfCh}

/-- The slot a channel reads is the one of the parameters. -/
theorem readSlot {g : Slot → Exec β} (hg : TrfOwns c d (g (c.trfSlot.atTrf d))) :
    TrfOwns c d (Machine.look (·.trfSlot d) >>= g) :=
  Owns.readCfg (fun _ hs => congrArg (fun e : Config => e.trfSlot.atTrf d) hs) hg

theorem setTrf {f : Nat} {v : State → Byte} (hf : f < 8) : TrfOwns c d (Machine.upd fun s => s.setTrf d f (v s)) :=
  .upd fun s => (Owned.refl s).setTrf hf _

theorem trafficDisable : TrfOwns c d (trafficDisable d) :=
  .write (fun _ => owned_zeroTrf d) fun _ => readSlot (.bind
    (.each _ fun _ hk => .bind (.putFront (List.mem_range.mp hk)) fun _ => .putBack (List.mem_range.mp hk))
    fun _ => .putBack (by decide))

theorem trafficSend : TrfOwns c d (trafficSend d (c.trfSlot.atTrf d)) :=
  .read fun _ => .bind (.putFront (by decide)) fun _ => .read fun _ => .bind (.putFront (by decide)) fun _ =>
    .read fun _ => .putFront (by decide)

theorem trafficCompute (vidx pidx : Byte) : TrfOwns c d (trafficCompute d vidx pidx) :=
  .read fun _ => .bind (.rom8 _) fun _ => .ite trafficDisable (
    .bind (setTrf (by decide)) fun _ =>
    .bind (.rom8 _) fun _ => .bind (setTrf (by decide)) fun _ =>
    .bind (.rom8 _) fun _ => .bind (setTrf (by decide)) fun _ =>
    .bind (.rom8 _) fun _ => .bind (setTrf (by decide)) fun _ =>
    readSlot (.bind (.putStart _) fun _ => .bind (.putFront (by decide)) fun _ =>
    .read fun _ => .bind (.onlyIf (.putBack (by decide))) fun _ =>
    .write (fun _ => owned_setTrfFlag d _ _) fun _ => trafficSend))

theorem trafficReduce : TrfOwns c d (trafficReduce d) :=
  .write (fun _ => owned_reduceTrf d) fun _ => .read fun _ => .ite trafficDisable (readSlot trafficSend)

theorem trafficFollow (b : Byte) : TrfOwns c d (trafficFollow d b) :=
  .ite trafficDisable (.write (fun _ => owned_noteIndices d _ _) fun _ =>
    .read fun _ => .ite (.pure _) (trafficCompute _ _))

theorem trafficStep : TrfOwns c d (trafficStep d) :=
  .bind (.write (fun _ => .of_registers rfl rfl rfl) fun _ => .write (fun _ => owned_startReduce d) fun _ =>
    .read fun _ => .ite trafficReduce (.read fun b => trafficFollow b)) fun _ =>
    .upd fun _ => .of_registers rfl rfl rfl

end TrfOwns

/-- Settles O53: a step in either pass is one computation that owns what it writes. -/
theorem passesWriteOnlyTheirOwn : Obligations.PassesWriteOnlyTheirOwn := by
  intro s t hx
  refine ⟨fun n hf => ?engine, fun d hf => ?traffic⟩
  case engine =>
    obtain rfl : after (engineStep n s) = t := by simpa only [step, hf, Host.Outcome.next.injEq] using hx
    obtain ⟨honly, hram, hpcm⟩ := (EngOwns.engineStep (c := s.cfg) (n := n)).owned
    exact ⟨honly, hram, hpcm⟩
  case traffic =>
    obtain rfl : after (trafficStep d s) = t := by simpa only [step, hf, Host.Outcome.next.injEq] using hx
    obtain ⟨honly, hram, hpcm⟩ := (TrfOwns.trafficStep (c := s.cfg) (d := d)).owned
    exact ⟨honly, hram, hpcm⟩

end Sys2Proof.Machine
end

section
/-!
One traffic channel of the traffic pass (44_traffic_fx.md R232): the bytes of its record, the step it is, the send to
its slot, and the channel that is left alone (R235) or disabled (R238), each up to the fault of a slot above 15
(R240).
-/

namespace Sys2Proof.Machine

variable {s t u : State} {c : TrfCh}

/-! ### States that differ in Channel RAM, or in it and the PCM file -/

theorem OnlyRam.trfSlot (h : OnlyRam s t) (c : TrfCh) : t.trfSlot c = s.trfSlot c :=
  congrArg (·.trfSlot.atTrf c) h.cfg

theorem OnlyRam.pcm8 (h : OnlyRam s t) (a : Nat) : t.pcm8 a = s.pcm8 a := by
  rw [h]
  rfl

theorem OnlyRam.trans_onlyRamPcm (hst : OnlyRam s t) (htu : OnlyRamPcm t u) : OnlyRamPcm s u := by
  rw [OnlyRam] at hst
  rw [OnlyRamPcm] at *
  conv => lhs; rw [htu, hst]

theorem OnlyRamPcm.setPcm (h : OnlyRamPcm s t) (p : List Host.Cell) : OnlyRamPcm s { t with pcm := p } := by
  rw [OnlyRamPcm] at *
  rw [h]

/-! ### The bytes of a traffic record (10_state.md R37, R38) -/

theorem trf_setTrf (c : TrfCh) (f x : Nat) (v : Byte) :
    (s.setTrf c f v).trf c x = if x = f then v else s.trf c x := by simp [State.setTrf, State.trf]

theorem trf_setTrfFlag (c : TrfCh) (k : Nat) (b : Bool) (x : Nat) :
    (s.setTrfFlag c k b).trf c x = if x = TFld.flags then setBit (s.trf c TFld.flags) k b else s.trf c x :=
  trf_setTrf _ _ _ _

theorem trfFlag_setTrfFlag {j : Nat} (hj : j < 8) (k : Nat) (b : Bool) :
    (s.setTrfFlag c j b).trfFlag c k = if k = j then b else s.trfFlag c k := by
  rw [State.trfFlag, trf_setTrfFlag, if_pos rfl, bit_setBit _ _ _ _ hj, State.trfFlag]

/-- A field outside the written ones stays. -/
theorem RamKept.trf {l : List Nat} (h : RamKept s t (l.map (trfRec c + ·))) {f : Nat} (hf : f ∉ l) :
    t.trf c f = s.trf c f := h _ (by simpa using hf)

theorem RamKept.trfFlag {l : List Nat} (h : RamKept s t (l.map (trfRec c + ·))) (hl : TFld.flags ∉ l) (k : Nat) :
    t.trfFlag c k = s.trfFlag c k := congrArg (bit · k) (h.trf hl)

/-- One more field written inside the list. -/
theorem RamKept.setTrf {l : List Nat} (h : RamKept s t (l.map (trfRec c + ·))) {f : Nat} (hf : f ∈ l) (v : Byte) :
    RamKept s (t.setTrf c f v) (l.map (trfRec c + ·)) := h.setRam8 (List.mem_map_of_mem hf) v

theorem noteIndices_only (c : TrfCh) (vidx pidx : Byte) : OnlyRam s (s.noteIndices c vidx pidx) :=
  (OnlyRam.refl s).setRam8 _ _ |>.setRam8 _ _ |>.setRam8 _ _ |>.setRam8 _ _

theorem noteIndices_kept (c : TrfCh) (vidx pidx : Byte) :
    RamKept s (s.noteIndices c vidx pidx) ([TFld.flags, TFld.pvidx, TFld.ppidx].map (trfRec c + ·)) := by
  have h : RamKept s s ([TFld.flags, TFld.pvidx, TFld.ppidx].map (trfRec c + ·)) := fun _ _ => rfl
  exact h.setTrf (f := TFld.flags) (by simp) _ |>.setTrf (f := TFld.flags) (by simp) _
    |>.setTrf (f := TFld.pvidx) (by simp) _ |>.setTrf (f := TFld.ppidx) (by simp) _

/-- The fields after the indices are stored (R235). -/
theorem trf_noteIndices (c : TrfCh) (vidx pidx : Byte) (f : Nat) :
    (s.noteIndices c vidx pidx).trf c f =
      if f = TFld.ppidx then pidx
      else if f = TFld.pvidx then vidx
      else if f = TFld.flags then
        setBit (setBit (s.trf c TFld.flags) TFlags.unchVol (vidx == s.trf c TFld.pvidx)) TFlags.unchPan
          (pidx == s.trf c TFld.ppidx)
      else s.trf c f := by
  simp only [State.noteIndices, trf_setTrf, trf_setTrfFlag, if_true]
  refine if_congr Iff.rfl rfl (if_congr Iff.rfl rfl ?_)
  split <;> rfl

/-- The flags after the indices are stored: the two "unchanged" bits compare them with the stored ones (R235). -/
theorem trfFlag_noteIndices (c : TrfCh) (vidx pidx : Byte) (k : Nat) :
    (s.noteIndices c vidx pidx).trfFlag c k =
      if k = TFlags.unchPan then pidx == s.trf c TFld.ppidx
      else if k = TFlags.unchVol then vidx == s.trf c TFld.pvidx
      else s.trfFlag c k := by
  rw [State.trfFlag, trf_noteIndices, if_neg (by decide), if_neg (by decide), if_pos rfl,
    bit_setBit _ _ _ _ (by decide), bit_setBit _ _ _ _ (by decide), State.trfFlag]

/-! ### The step and its paths (R232) -/

/-- The pass of channel `c` has begun: ENGCH names it. -/
def State.trfBegun (s : State) (c : TrfCh) : State := s.setEngCh (BitVec.ofNat 8 c.num)

theorem step_traffic_ok (hf : s.fsm = .traffic c) (h : trafficChannel c s = .ok () t) :
    step s = .next (t.setFsm (afterTraffic c)) := by
  simp only [step, hf, trafficStep, bind_of_ok h, upd_run, after_ok]
  cases c <;> rfl

theorem step_traffic_error (hf : s.fsm = .traffic c) (h : trafficChannel c s = .error () t) : step s = .next t := by
  simp only [step, hf, trafficStep, bind_of_error h, after_error]

theorem trafficDone_setFsm (h : OnlyRamPcm (s.trfBegun c) t) : TrafficDone s (t.setFsm (afterTraffic c)) c :=
  congrArg (State.setFsm · (afterTraffic c)) h

theorem trafficFaulted_raiseFault (h : OnlyRam (s.trfBegun c) t) (k : FaultCode) (info : Word) :
    TrafficFaulted s (t.raiseFault k info) c k.code info := congrArg (State.raiseFault · k info) h

/-- A channel reduces or follows its telemetry byte, by the flag the start of a reduction leaves (R232, R234). -/
theorem trafficChannel_run {w : State} (hw : (s.trfBegun c).startReduce c = w) :
    trafficChannel c s =
      if w.trfFlag c TFlags.reduce = true then trafficReduce c w
      else trafficFollow c (w.telem.traffic.atTrf c) w := by
  unfold trafficChannel
  rw [bind_upd, bind_upd, bind_look]
  subst hw
  exact ite_apply ..

/-- A channel that is not reducing and does not start to follows its telemetry byte (R232). -/
theorem trafficChannel_follows (h : s.trfFollows c = true) :
    trafficChannel c s = trafficFollow c (s.telem.traffic.atTrf c) (s.trfBegun c) := by
  have hreduce : ¬ (s.trfBegun c).trfFlag c TFlags.reduce = true := by
    simp only [State.trfFollows, Bool.and_eq_true, Bool.not_eq_true'] at h
    obtain ⟨hoff, -⟩ := h
    exact ne_true_of_eq_false hoff
  exact (trafficChannel_run (startReduce_of_follows (s := s.trfBegun c) h)).trans (if_neg hreduce)

/-- The state after the indices of channel `c` are stored (R235). -/
def State.trfNoted (s : State) (c : TrfCh) : State := (s.trfBegun c).noteIndices c (s.trfVidx c) (s.trfPidx c)

theorem trfNoted_only : OnlyRam (s.trfBegun c) (s.trfNoted c) := noteIndices_only _ _ _

/-- Both indices are the stored ones and start/end is set: nothing is to be computed (R235). -/
def State.trfUnchanged (s : State) (c : TrfCh) : Prop :=
  s.trf c TFld.pvidx = s.trfVidx c ∧ s.trf c TFld.ppidx = s.trfPidx c ∧ s.trfFlag c TFlags.seset = true

/-- The test of R235 after the indices are stored. -/
theorem trfNoted_flags :
    ((s.trfNoted c).trfFlag c TFlags.unchVol && (s.trfNoted c).trfFlag c TFlags.unchPan &&
      (s.trfNoted c).trfFlag c TFlags.seset) = true ↔ s.trfUnchanged c := by
  rw [Bool.and_eq_true, Bool.and_eq_true, State.trfNoted, trfFlag_noteIndices, trfFlag_noteIndices,
    trfFlag_noteIndices, if_neg (by decide), if_pos rfl, if_pos rfl, if_neg (by decide), if_neg (by decide), beq_iff_eq,
    beq_iff_eq, and_assoc]
  exact and_congr eq_comm (and_congr eq_comm Iff.rfl)

theorem trafficChannel_silenced (h : s.trfFollows c = true) (hv : s.trfVidx c = 0) :
    trafficChannel c s = trafficDisable c (s.trfBegun c) :=
  (trafficChannel_follows h).trans (congrFun (if_pos hv) _)

theorem trafficChannel_unchanged (h : s.trfFollows c = true) (hv : s.trfVidx c ≠ 0) (hu : s.trfUnchanged c) :
    trafficChannel c s = .ok () (s.trfNoted c) := by
  refine (trafficChannel_follows h).trans ((congrFun (if_neg hv) _).trans ?_)
  rw [bind_upd, bind_look]
  exact congrFun (if_pos (trfNoted_flags.mpr hu)) _

theorem trafficChannel_changed (h : s.trfFollows c = true) (hv : s.trfVidx c ≠ 0) (hu : ¬ s.trfUnchanged c) :
    trafficChannel c s = trafficCompute c (s.trfVidx c) (s.trfPidx c) (s.trfNoted c) := by
  refine (trafficChannel_follows h).trans ((congrFun (if_neg hv) _).trans ?_)
  rw [bind_upd, bind_look]
  exact congrFun (if_neg fun hflags => hu (trfNoted_flags.mp hflags)) _

/-! ### The send to the slot (R236, R237) -/

/-- From `s` to `t` the volumes and the pitch of channel `c` were sent to slot `sl`, and the rest of the PCM file
stayed. -/
def TrafficSent (s t : State) (c : TrfCh) (sl : Slot) : Prop :=
  t.pcm8 (front sl 2) = t.trf c TFld.voll ∧ t.pcm8 (front sl 3) = t.trf c TFld.volr ∧
    t.pcm8 (front sl 7) = t.trf c TFld.pitch ∧ PcmKept s t [front sl 2, front sl 3, front sl 7]

theorem trafficSend_sent {sl : Slot} (h : sl.toNat ≤ 15) :
    ∃ p, trafficSend c sl s = .ok () { s with pcm := p } ∧ TrafficSent s { s with pcm := p } c sl := by
  refine ⟨_, trafficSend_ok h, ?left, ?right, ?pitch, ?kept⟩
  case left =>
    refine (pcm8_setPcm8 _ _ _).trans ((if_neg (by simp [front_inj])).trans ?_)
    exact (pcm8_setPcm8 _ _ _).trans ((if_neg (by simp [front_inj])).trans (pcm8_setPcm8_self _ _))
  case right =>
    exact (pcm8_setPcm8 _ _ _).trans ((if_neg (by simp [front_inj])).trans (pcm8_setPcm8_self _ _))
  case pitch => exact pcm8_setPcm8_self _ _
  case kept =>
    have h : PcmKept s s [front sl 2, front sl 3, front sl 7] := fun _ _ => rfl
    exact h.setPcm8 (a := front sl 2) (by simp) _ |>.setPcm8 (a := front sl 3) (by simp) _
      |>.setPcm8 (a := front sl 7) (by simp) _

theorem trafficSend_fault {sl : Slot} (h : ¬ sl.toNat ≤ 15) :
    trafficSend c sl s = .error () (s.raiseFault .param (zext16 sl)) := by
  unfold trafficSend
  rw [bind_look]
  exact bind_of_error (putFront_fault h) _

/-! ### An unchanged channel (R235) -/

/-- Settles O54: the indices stored are the ones that stood there, so only the two "unchanged" bits can differ. -/
theorem trafficUnchangedIsLeftAlone : Obligations.TrafficUnchangedIsLeftAlone := by
  intro s c hf hfollows hv hvol hpan hset
  have hrun := trafficChannel_unchanged hfollows hv ⟨hvol, hpan, hset⟩
  have hfield (f : Nat) := trf_noteIndices (s := s.trfBegun c) c (s.trfVidx c) (s.trfPidx c) f
  refine ⟨_, step_traffic_ok hf hrun, trafficDone_setFsm trfNoted_only.onlyRamPcm, rfl, fun a ha => ?kept, ?flags⟩
  case kept =>
    show (s.trfNoted c).ram8 a = s.ram8 a
    by_cases hav : a = trfRec c + TFld.pvidx
    · subst hav
      exact (hfield TFld.pvidx).trans hvol.symm
    · by_cases hap : a = trfRec c + TFld.ppidx
      · subst hap
        exact (hfield TFld.ppidx).trans hpan.symm
      · exact noteIndices_kept (s := s.trfBegun c) c _ _ a (by simp_all)
  case flags =>
    have hbits (f : Byte) : setBit (setBit f TFlags.unchVol true) TFlags.unchPan true = f ||| 0x06 := by
      revert f
      decide
    have hstored (f : Nat) : (s.trfBegun c).trf c f = s.trf c f := rfl
    refine (hfield TFld.flags).trans ?_
    rw [if_neg (by decide), if_neg (by decide), if_pos rfl, hstored, hstored, hstored, hvol, hpan, beq_self_eq_true,
      beq_self_eq_true, hbits]

/-! ### A disabled channel (R238) -/

theorem zeroTrf_onlyRam (c : TrfCh) : OnlyRam s (s.zeroTrf c) := zeroTrf_only c

/-- A disable on a slot above 15 has cleared the record before the fault (R240). -/
theorem trafficDisable_fault (h : ¬ (s.trfSlot c).toNat ≤ 15) :
    trafficDisable c s = .error () ((s.zeroTrf c).raiseFault .param (zext16 (s.trfSlot c))) := by
  unfold trafficDisable
  rw [bind_upd, bind_look, (zeroTrf_onlyRam c).trfSlot]
  exact bind_of_error (bind_of_error (bind_of_error (putFront_fault h) _) _) _

theorem trf_zeroTrf {k : Nat} (hk : k < 8) : (s.zeroTrf c).trf c k = 0 :=
  (ram8_zeroTrf c _).trans (if_pos ⟨Nat.le_add_right _ _, Nat.add_lt_add_left hk _⟩)

theorem trf_clearSlot (sl : Slot) (k : Nat) : (s.clearSlot sl).trf c k = s.trf c k := by
  obtain ⟨p, hp⟩ := clearSlot_only (s := s) sl
  rw [hp]
  rfl

theorem zeroTrf_clearSlot_only (sl : Slot) : OnlyRamPcm s ((s.zeroTrf c).clearSlot sl) := by
  obtain ⟨p, hp⟩ := clearSlot_only (s := s.zeroTrf c) sl
  exact (zeroTrf_onlyRam c).trans_onlyRamPcm (by rw [OnlyRamPcm, hp])

/-- The record and the slot after a disable (R238). -/
theorem trafficCleared_clearSlot {sl : Slot} (h : sl.toNat ≤ 15) :
    TrafficCleared ((s.zeroTrf c).clearSlot sl) c sl := by
  refine ⟨fun k hk => (trf_clearSlot sl k).trans (trf_zeroTrf hk), fun k hk => ?_, fun k hk => ?_⟩
  · rw [pcm8_clearSlot h, if_pos (front_mem_slotAddrs sl hk), blank_front h hk]
  · rw [pcm8_clearSlot h, if_pos (back_mem_slotAddrs sl hk), blank_back sl hk]

/-- A disable on a slot 0..15 (R238). -/
theorem trafficDisable_cleared (h : (s.trfSlot c).toNat ≤ 15) :
    ∃ t, trafficDisable c s = .ok () t ∧ OnlyRamPcm s t ∧ TrafficCleared t c (s.trfSlot c) :=
  ⟨_, trafficDisable_ok h, zeroTrf_clearSlot_only _, trafficCleared_clearSlot h⟩

/-- From `s` to `t` channel `c` was disabled, or the fault of a slot above 15 ended its pass with the record cleared
(R238, R240). -/
def TrafficDisabled (s t : State) (c : TrfCh) : Prop :=
  RamKept s t (trfAddrs c) ∧
    ((s.trfSlot c).toNat ≤ 15 →
      TrafficDone s t c ∧ TrafficCleared t c (s.trfSlot c) ∧ PcmKept s t (slotAddrs (s.trfSlot c))) ∧
    (15 < (s.trfSlot c).toNat →
      TrafficFaulted s t c 0x06 (zext16 (s.trfSlot c)) ∧ ∀ k, k < 8 → t.trf c k = 0)

/-- A channel that comes to its disable in a state `u` that differs in Channel RAM ends disabled, whatever its record
held in `u`. -/
theorem step_traffic_disables (hf : s.fsm = .traffic c) (hu : OnlyRam (s.trfBegun c) u)
    (hrun : trafficChannel c s = trafficDisable c u) : ∃ t, step s = .next t ∧ TrafficDisabled s t c := by
  have hslot : u.trfSlot c = s.trfSlot c := hu.trfSlot c
  have hzero : OnlyRam (s.trfBegun c) (u.zeroTrf c) := hu.trans (zeroTrf_onlyRam c)
  have hrecord : ∀ k, k < 8 → (u.zeroTrf c).trf c k = 0 := fun _ => trf_zeroTrf
  have howned {t : State} (hstep : step s = .next t) := (passesWriteOnlyTheirOwn s t hstep).2 c hf
  by_cases h : (s.trfSlot c).toNat ≤ 15
  · obtain ⟨w, hw, honly, hcleared⟩ := trafficDisable_cleared (hslot ▸ h)
    rw [hslot] at hcleared
    have hstep := step_traffic_ok hf (hrun.trans hw)
    obtain ⟨-, hram, hpcm⟩ := howned hstep
    exact ⟨_, hstep, hram, fun _ => ⟨trafficDone_setFsm (hu.trans_onlyRamPcm honly), hcleared, hpcm⟩,
      fun h' => absurd h (Nat.not_le.mpr h')⟩
  · rw [trafficDisable_fault (hslot ▸ h), hslot] at hrun
    generalize u.zeroTrf c = w at hrun hzero hrecord
    have hstep := step_traffic_error hf hrun
    obtain ⟨-, hram, -⟩ := howned hstep
    exact ⟨_, hstep, hram, fun h' => absurd h' h, fun _ => ⟨trafficFaulted_raiseFault hzero _ _, hrecord⟩⟩

/-- The index of the tables as a number (R231, R236). -/
theorem tableIndex_eq_ofNat {v : Byte} (hv : v ≠ 0) : tableIndex v = BitVec.ofNat 16 (v.toNat - 1) := by
  have hpos : v.toNat ≠ 0 := fun h => hv (BitVec.eq_of_toNat_eq h)
  have hlt := v.isLt
  apply BitVec.eq_of_toNat_eq
  rw [tableIndex, zext16, BitVec.toNat_setWidth, BitVec.toNat_sub, BitVec.toNat_ofNat,
    show (1 : Byte).toNat = 1 from rfl]
  omega

/-- A multiplier below 0x10 disables (R236). -/
theorem trafficCompute_soft {vidx pidx : Byte} (hin : (s.cfg.trfVolTab + tableIndex vidx).toNat < s.cfg.romSize)
    (hm : (s.romAt (s.cfg.trfVolTab + tableIndex vidx)).toNat < 0x10) :
    trafficCompute c vidx pidx s = trafficDisable c s := by
  unfold trafficCompute
  rw [bind_look, bind_rom8_ok hin]
  exact congrFun (if_pos hm) _

/-- Settles O56: a volume index of 0 and a soft multiplier lead to the same disable. -/
theorem trafficDisables : Obligations.TrafficDisables := by
  intro s c hf hfollows vidx a sl hsilent
  suffices hrun : ∃ u, OnlyRam (s.trfBegun c) u ∧ trafficChannel c s = trafficDisable c u by
    obtain ⟨u, hu, hrun⟩ := hrun
    exact step_traffic_disables hf hu hrun
  by_cases hv : s.trfVidx c = 0
  · exact ⟨_, .refl _, trafficChannel_silenced hfollows hv⟩
  · obtain ⟨hchanged, hin, hm⟩ := hsilent.resolve_left hv
    have ha : (s.trfNoted c).cfg.trfVolTab + tableIndex (s.trfVidx c) = a := by
      rw [tableIndex_eq_ofNat hv, trfNoted_only.cfg]
      rfl
    refine ⟨_, trfNoted_only, (trafficChannel_changed hfollows hv hchanged).trans (trafficCompute_soft ?_ ?_)⟩
    · rw [ha, trfNoted_only.cfg]
      exact inRom_one.mp hin
    · rw [ha, trfNoted_only.romAt]
      exact hm

end Sys2Proof.Machine
end

section
/-!
A traffic channel computed from the tables (44_traffic_fx.md R235, R236): the indices stored, the record scaled, the
slot started and sent, or the fault that ends the pass on the way (R240).
-/

namespace Sys2Proof.Machine

variable {s t u : State} {c : TrfCh} {vidx pidx endHi l r q m : Byte} {wave pan dist x : Word}

/-! ### The indices stored (R235) -/

/-- From `s` to `t` channel `c` stored its indices and the two "unchanged" bits, and wrote at most the fields `written`
of its record beside. -/
def IndicesNoted (s t : State) (c : TrfCh) (written : List Nat) : Prop :=
  t.trf c TFld.pvidx = s.trfVidx c ∧ t.trf c TFld.ppidx = s.trfPidx c ∧
    t.trfFlag c TFlags.unchVol = (s.trf c TFld.pvidx == s.trfVidx c) ∧
    t.trfFlag c TFlags.unchPan = (s.trf c TFld.ppidx == s.trfPidx c) ∧ t.trfFlag c TFlags.reduce = false ∧
    RamKept s t (([TFld.flags, TFld.pvidx, TFld.ppidx] ++ written).map (trfRec c + ·))

theorem trfFlag_trfNoted (k : Nat) :
    (s.trfNoted c).trfFlag c k =
      if k = TFlags.unchPan then s.trfPidx c == s.trf c TFld.ppidx
      else if k = TFlags.unchVol then s.trfVidx c == s.trf c TFld.pvidx
      else s.trfFlag c k := trfFlag_noteIndices (s := s.trfBegun c) _ _ _ _

theorem trfNoted_noted (h : s.trfFollows c = true) : IndicesNoted s (s.trfNoted c) c [] := by
  simp only [State.trfFollows, Bool.and_eq_true, Bool.not_eq_true'] at h
  obtain ⟨hreduce, -⟩ := h
  refine ⟨trf_noteIndices _ _ _ TFld.pvidx, trf_noteIndices _ _ _ TFld.ppidx, ?vol, ?pan, ?reduce,
    noteIndices_kept (s := s.trfBegun c) c _ _⟩
  case vol => rw [trfFlag_trfNoted, if_neg (by decide), if_pos rfl, Bool.beq_comm]
  case pan => rw [trfFlag_trfNoted, if_pos rfl, Bool.beq_comm]
  case reduce => rw [trfFlag_trfNoted, if_neg (by decide), if_neg (by decide), hreduce]

/-- Start/end is as it was when the indices are stored. -/
theorem trfNoted_seset : (s.trfNoted c).trfFlag c TFlags.seset = s.trfFlag c TFlags.seset := by
  rw [trfFlag_trfNoted, if_neg (by decide), if_neg (by decide)]

/-- Fields behind the indices written. -/
theorem IndicesNoted.of_kept {fields : List Nat} (h : IndicesNoted s t c [])
    (hk : RamKept t u (fields.map (trfRec c + ·))) (hf : ∀ f ∈ fields, TFld.pitch ≤ f) :
    IndicesNoted s u c fields := by
  obtain ⟨hvidx, hpidx, hvol, hpan, hreduce, hkept⟩ := h
  have hout {f : Nat} (hlt : f < TFld.pitch) : f ∉ fields := fun hm => absurd (hf f hm) (Nat.not_le.mpr hlt)
  have hflag := hk.trfFlag (hout (by decide))
  exact ⟨(hk.trf (hout (by decide))).trans hvidx, (hk.trf (hout (by decide))).trans hpidx, (hflag _).trans hvol,
    (hflag _).trans hpan, (hflag _).trans hreduce,
    (hkept.mono (List.map_subset _ (by simp))).trans (hk.mono (List.map_subset _ (List.subset_append_right _ _)))⟩

/-- Start/end written. -/
theorem IndicesNoted.setFlag {fields : List Nat} (h : IndicesNoted s t c fields)
    (hk : RamKept t u ([TFld.flags].map (trfRec c + ·)))
    (hflag : ∀ k, k ≠ TFlags.seset → u.trfFlag c k = t.trfFlag c k) : IndicesNoted s u c fields := by
  obtain ⟨hvidx, hpidx, hvol, hpan, hreduce, hkept⟩ := h
  exact ⟨(hk.trf (by simp)).trans hvidx, (hk.trf (by simp)).trans hpidx, (hflag _ (by decide)).trans hvol,
    (hflag _ (by decide)).trans hpan, (hflag _ (by decide)).trans hreduce,
    hkept.trans (hk.mono (List.map_subset _ (by simp)))⟩

/-! ### TrafficCompute in its parts (R236) -/

/-- The rest of TrafficCompute from the start of the slot on. -/
def trafficPlay (c : TrfCh) (wave : Word) (endHi : Byte) : Exec Unit := do
  let sl ← look (·.trfSlot c)
  putStart sl wave
  putFront sl 6 endHi
  onlyIf (← look fun s => !s.trfFlag c TFlags.seset) (putBack sl 6 0x00)
  upd (·.setTrfFlag c TFlags.seset true)
  trafficSend c sl

/-- The rest of TrafficCompute from the pan entry on, with multiplier `m`. -/
def trafficScale (c : TrfCh) (pan dist : Word) (m : Byte) (play : Exec Unit) : Exec Unit := do
  let l ← rom8 pan
  upd (·.setTrf c TFld.voll (mulShift l m 8))
  let r ← rom8 (pan + 1)
  upd (·.setTrf c TFld.volr (mulShift r m 8))
  let d ← rom8 dist
  upd (·.setTrf c TFld.pitch (d + c.pitchBase))
  play

theorem trafficCompute_volume_fault (h : ¬ (s.cfg.trfVolTab + tableIndex vidx).toNat < s.cfg.romSize) :
    trafficCompute c vidx pidx s = .error () (s.raiseFault .romRange (s.cfg.trfVolTab + tableIndex vidx)) := by
  unfold trafficCompute
  rw [bind_look]
  exact bind_of_error (rom8_fault h) _

/-- A multiplier from 0x10 on goes to the record, and the rest follows (R236). -/
theorem trafficCompute_loud (hin : (s.cfg.trfVolTab + tableIndex vidx).toNat < s.cfg.romSize)
    (hm : 0x10 ≤ (s.romAt (s.cfg.trfVolTab + tableIndex vidx)).toNat) :
    trafficCompute c vidx pidx s =
      trafficScale c (s.cfg.trfPanTab + 2 * zext16 pidx) (s.cfg.trfDistTab + tableIndex vidx)
        (s.romAt (s.cfg.trfVolTab + tableIndex vidx)) (trafficPlay c s.cfg.trfWave s.cfg.trfWaveEndHi)
        (s.setTrf c TFld.mult (s.romAt (s.cfg.trfVolTab + tableIndex vidx))) := by
  unfold trafficCompute
  rw [bind_look, bind_rom8_ok hin]
  exact congrFun (if_neg (Nat.not_lt.mpr hm)) _

/-! ### The record scaled (R236) -/

/-- The record with these volumes and this pitch. -/
def State.trfScaled (s : State) (c : TrfCh) (l r q : Byte) : State :=
  ((s.setTrf c TFld.voll l).setTrf c TFld.volr r).setTrf c TFld.pitch q

theorem trfScaled_only : OnlyRam s (s.trfScaled c l r q) :=
  (OnlyRam.refl s).setRam8 _ _ |>.setRam8 _ _ |>.setRam8 _ _

theorem trfScaled_kept : RamKept s (s.trfScaled c l r q) ([TFld.pitch, TFld.voll, TFld.volr].map (trfRec c + ·)) := by
  have h : RamKept s s ([TFld.pitch, TFld.voll, TFld.volr].map (trfRec c + ·)) := fun _ _ => rfl
  exact h.setTrf (f := TFld.voll) (by simp) _ |>.setTrf (f := TFld.volr) (by simp) _
    |>.setTrf (f := TFld.pitch) (by simp) _

theorem trf_trfScaled :
    (s.trfScaled c l r q).trf c TFld.pitch = q ∧ (s.trfScaled c l r q).trf c TFld.voll = l ∧
      (s.trfScaled c l r q).trf c TFld.volr = r := by
  simp [State.trfScaled, trf_setTrf]

theorem trafficScale_ok {play : Exec Unit} (h : s.inRom [pan, pan + 1, dist] = true) :
    trafficScale c pan dist m play s =
      play (s.trfScaled c (mulShift (s.romAt pan) m 8) (mulShift (s.romAt (pan + 1)) m 8)
        (s.romAt dist + c.pitchBase)) := by
  simp only [inRom_cons, inRom_nil, Bool.and_true, Bool.and_eq_true, decide_eq_true_eq] at h
  obtain ⟨hleft, hright, hdist⟩ := h
  let v := s.setTrf c TFld.voll (mulShift (s.romAt pan) m 8)
  let w := v.setTrf c TFld.volr (mulShift (s.romAt (pan + 1)) m 8)
  exact ((bind_rom8_ok hleft _).trans (bind_rom8_ok (s := v) hright _)).trans (bind_rom8_ok (s := w) hdist _)

/-- The first byte outside ROM stops the reads, with the volumes read before it stored (R240). -/
theorem trafficScale_fault {play : Exec Unit} (h : s.firstOut [pan, pan + 1, dist] = some x) :
    ∃ u, trafficScale c pan dist m play s = .error () (u.raiseFault .romRange x) ∧ OnlyRam s u ∧
      RamKept s u ([TFld.voll, TFld.volr].map (trfRec c + ·)) := by
  let v := s.setTrf c TFld.voll (mulShift (s.romAt pan) m 8)
  let w := v.setTrf c TFld.volr (mulShift (s.romAt (pan + 1)) m 8)
  have hs : RamKept s s ([TFld.voll, TFld.volr].map (trfRec c + ·)) := fun _ _ => rfl
  have hv : RamKept s v ([TFld.voll, TFld.volr].map (trfRec c + ·)) := hs.setTrf (by simp) _
  have hw : RamKept s w ([TFld.voll, TFld.volr].map (trfRec c + ·)) := hv.setTrf (by simp) _
  simp only [firstOut_cons, firstOut_nil] at h
  split at h
  next hleft =>
    split at h
    next hright =>
      split at h
      next => cases h
      next hdist =>
        cases h
        exact ⟨w, ((bind_rom8_ok hleft _).trans (bind_rom8_ok (s := v) hright _)).trans
          (bind_of_error (rom8_fault (s := w) hdist) _), rfl, hw⟩
    next hright =>
      cases h
      exact ⟨v, (bind_rom8_ok hleft _).trans (bind_of_error (rom8_fault (s := v) hright) _), rfl, hv⟩
  next hleft =>
    cases h
    exact ⟨s, bind_of_error (rom8_fault hleft) _, rfl, hs⟩

/-! ### The slot started (R236) -/

/-- The slot with its addresses, started where start/end was unset, which is set then. -/
def State.trfStarted (s : State) (c : TrfCh) (wave : Word) (endHi : Byte) : State :=
  let sl := s.trfSlot c
  let u := (s.withStart sl wave).setPcm8 (front sl 6) endHi
  (if s.trfFlag c TFlags.seset = true then u else u.setPcm8 (back sl 6) 0x00).setTrfFlag c TFlags.seset true

theorem trafficPlay_ok (h : (s.trfSlot c).toNat ≤ 15) :
    trafficPlay c wave endHi s = trafficSend c (s.trfSlot c) (s.trfStarted c wave endHi) := by
  unfold trafficPlay
  rw [bind_look, bind_of_ok (putStart_ok h), bind_putFront_ok h, bind_look, State.trfStarted]
  change (onlyIf (!s.trfFlag c TFlags.seset) _ >>= _) _ = _
  cases s.trfFlag c TFlags.seset with
  | true => rfl
  | false =>
    rw [Bool.not_false, onlyIf_true, bind_putBack_ok h]
    rfl

theorem trafficPlay_fault (h : ¬ (s.trfSlot c).toNat ≤ 15) :
    trafficPlay c wave endHi s = .error () (s.raiseFault .param (zext16 (s.trfSlot c))) := by
  unfold trafficPlay
  rw [bind_look]
  exact bind_of_error (putStart_fault h) _

theorem trfStarted_only : OnlyRamPcm s (s.trfStarted c wave endHi) := by
  unfold State.trfStarted
  split <;> rfl

theorem trfStarted_kept : RamKept s (s.trfStarted c wave endHi) ([TFld.flags].map (trfRec c + ·)) := by
  unfold State.trfStarted
  split <;> exact ramKept_setRam8 (s := s) _ _

theorem trfFlag_trfStarted (k : Nat) :
    (s.trfStarted c wave endHi).trfFlag c k = if k = TFlags.seset then true else s.trfFlag c k := by
  unfold State.trfStarted
  split <;> exact trfFlag_setTrfFlag (s := s) (by decide) _ _

theorem trfStarted_plays : SlotPlays (s.trfStarted c wave endHi) (s.trfSlot c) wave endHi := by
  unfold State.trfStarted
  split <;> simp [SlotPlays, State.setTrfFlag, State.setTrf, State.withStart, front_inj, back_inj, front_ne_back,
    back_ne_front]

/-- The slot is started only where start/end was unset (R236). -/
theorem trfStarted_control :
    (s.trfStarted c wave endHi).pcm8 (back (s.trfSlot c) 6) =
      if s.trfFlag c TFlags.seset = true then s.pcm8 (back (s.trfSlot c) 6) else 0x00 := by
  unfold State.trfStarted
  split <;> simp [State.setTrfFlag, State.setTrf, State.withStart, back_inj, back_ne_front]

theorem trfStarted_pcmKept : PcmKept s (s.trfStarted c wave endHi) (sendAddrs (s.trfSlot c)) := by
  have h : PcmKept s ((s.withStart (s.trfSlot c) wave).setPcm8 (front (s.trfSlot c) 6) endHi)
      (sendAddrs (s.trfSlot c)) :=
    PcmKept.setPcm8 (a := front _ 4) (fun _ _ => rfl) (by simp [sendAddrs]) _
      |>.setPcm8 (a := front _ 5) (by simp [sendAddrs]) _ |>.setPcm8 (a := back _ 4) (by simp [sendAddrs]) _
      |>.setPcm8 (a := back _ 5) (by simp [sendAddrs]) _ |>.setPcm8 (a := front _ 6) (by simp [sendAddrs]) _
  unfold State.trfStarted
  split
  next => exact h
  next => exact h.setPcm8 (by simp [sendAddrs]) _

/-! ### A channel from its telemetry byte to its tables (R230, R231, R236) -/

/-- The entry of the volume table for the volume index of channel `c`. -/
def State.trfVolEntry (s : State) (c : TrfCh) : Word := s.cfg.trfVolTab + BitVec.ofNat 16 ((s.trfVidx c).toNat - 1)

/-- The entry of the pan table for the pan index of channel `c`. -/
def State.trfPanEntry (s : State) (c : TrfCh) : Word := s.cfg.trfPanTab + 2 * zext16 (s.trfPidx c)

/-- The entry of the distance table for the volume index of channel `c`. -/
def State.trfDistEntry (s : State) (c : TrfCh) : Word := s.cfg.trfDistTab + BitVec.ofNat 16 ((s.trfVidx c).toNat - 1)

/-- The multiplier of channel `c`. -/
def State.trfMult (s : State) (c : TrfCh) : Byte := s.romAt (s.trfVolEntry c)

/-- The byte of the pan table at `a`, scaled by the multiplier of channel `c`. -/
def State.trfVolumeAt (s : State) (c : TrfCh) (a : Word) : Byte :=
  BitVec.ofNat 8 ((s.romAt a).toNat * (s.trfMult c).toNat / 256)

/-- The pitch of channel `c`: its distance entry over the base of its parity. -/
def State.trfTablePitch (s : State) (c : TrfCh) : Byte :=
  s.romAt (s.trfDistEntry c) + (if c.num % 2 = 1 then 0x60 else 0x80)

/-- The indices stored and the multiplier with them. -/
def State.trfLoud (s : State) (c : TrfCh) : State := (s.trfNoted c).setTrf c TFld.mult (s.trfMult c)

/-- The whole record computed, the slot not yet touched. -/
def State.trfComputed (s : State) (c : TrfCh) : State :=
  (s.trfLoud c).trfScaled c (s.trfVolumeAt c (s.trfPanEntry c)) (s.trfVolumeAt c (s.trfPanEntry c + 1))
    (s.trfTablePitch c)

theorem trfLoud_only : OnlyRam (s.trfBegun c) (s.trfLoud c) := trfNoted_only.setRam8 _ _

theorem trfLoud_kept : RamKept (s.trfNoted c) (s.trfLoud c) ([TFld.mult].map (trfRec c + ·)) := ramKept_setRam8 _ _

theorem trfLoud_mult : (s.trfLoud c).trf c TFld.mult = s.trfMult c := (trf_setTrf _ _ _ _).trans (if_pos rfl)

theorem trfComputed_only : OnlyRam (s.trfBegun c) (s.trfComputed c) := trfLoud_only.trans trfScaled_only

theorem trfComputed_kept :
    RamKept (s.trfNoted c) (s.trfComputed c) ([TFld.pitch, TFld.voll, TFld.volr, TFld.mult].map (trfRec c + ·)) :=
  (trfLoud_kept.mono (List.map_subset _ (by simp))).trans (trfScaled_kept.mono (List.map_subset _ (by simp)))

section

variable (h : s.trfFollows c = true) (hv : s.trfVidx c ≠ 0) (hu : ¬ s.trfUnchanged c)
include h hv hu

/-- A volume entry outside ROM (R240). -/
theorem trafficChannel_volume_fault (hin : ¬ (s.trfVolEntry c).toNat < s.cfg.romSize) :
    trafficChannel c s = .error () ((s.trfNoted c).raiseFault .romRange (s.trfVolEntry c)) := by
  have hrun := trafficCompute_volume_fault (s := s.trfNoted c) (c := c) (vidx := s.trfVidx c) (pidx := s.trfPidx c)
  rw [tableIndex_eq_ofNat hv] at hrun
  exact (trafficChannel_changed h hv hu).trans (hrun hin)

theorem trafficChannel_loud (hin : (s.trfVolEntry c).toNat < s.cfg.romSize) (hm : 0x10 ≤ (s.trfMult c).toNat) :
    trafficChannel c s =
      trafficScale c (s.trfPanEntry c) (s.trfDistEntry c) (s.trfMult c)
        (trafficPlay c s.cfg.trfWave s.cfg.trfWaveEndHi) (s.trfLoud c) := by
  have hrun := trafficCompute_loud (s := s.trfNoted c) (c := c) (vidx := s.trfVidx c) (pidx := s.trfPidx c)
  rw [tableIndex_eq_ofNat hv] at hrun
  exact (trafficChannel_changed h hv hu).trans (hrun hin hm)

theorem trafficChannel_computed (hin : (s.trfVolEntry c).toNat < s.cfg.romSize) (hm : 0x10 ≤ (s.trfMult c).toNat)
    (htables : s.inRom [s.trfPanEntry c, s.trfPanEntry c + 1, s.trfDistEntry c] = true) :
    trafficChannel c s = trafficPlay c s.cfg.trfWave s.cfg.trfWaveEndHi (s.trfComputed c) := by
  refine (trafficChannel_loud h hv hu hin hm).trans ((trafficScale_ok (s := s.trfLoud c) htables).trans ?_)
  rw [mulShift_eq_ofNat, mulShift_eq_ofNat, trfLoud_only.romAt, trfLoud_only.romAt, trfLoud_only.romAt]
  rfl

end

/-- From `s` to `t` the record of channel `c` got the values of the tables (R236). -/
def TrafficScaled (s t : State) (c : TrfCh) : Prop :=
  t.trf c TFld.pitch = s.trfTablePitch c ∧ t.trf c TFld.voll = s.trfVolumeAt c (s.trfPanEntry c) ∧
    t.trf c TFld.volr = s.trfVolumeAt c (s.trfPanEntry c + 1) ∧ t.trf c TFld.mult = s.trfMult c ∧
    IndicesNoted s t c [TFld.pitch, TFld.voll, TFld.volr, TFld.mult]

theorem trfComputed_scaled (h : s.trfFollows c = true) : TrafficScaled s (s.trfComputed c) c := by
  obtain ⟨hpitch, hleft, hright⟩ := trf_trfScaled (s := s.trfLoud c) (c := c)
    (l := s.trfVolumeAt c (s.trfPanEntry c)) (r := s.trfVolumeAt c (s.trfPanEntry c + 1)) (q := s.trfTablePitch c)
  exact ⟨hpitch, hleft, hright, (trfScaled_kept.trf (by simp)).trans trfLoud_mult,
    (trfNoted_noted h).of_kept trfComputed_kept (by decide)⟩

theorem trfComputed_seset : (s.trfComputed c).trfFlag c TFlags.seset = s.trfFlag c TFlags.seset :=
  (trfComputed_kept.trfFlag (by simp) _).trans trfNoted_seset

/-- Start/end written. -/
theorem TrafficScaled.setFlag (h : TrafficScaled s t c) (hk : RamKept t u ([TFld.flags].map (trfRec c + ·)))
    (hflag : ∀ k, k ≠ TFlags.seset → u.trfFlag c k = t.trfFlag c k) : TrafficScaled s u c := by
  obtain ⟨hpitch, hleft, hright, hmult, hnoted⟩ := h
  exact ⟨(hk.trf (by simp)).trans hpitch, (hk.trf (by simp)).trans hleft, (hk.trf (by simp)).trans hright,
    (hk.trf (by simp)).trans hmult, hnoted.setFlag hk hflag⟩

/-- From `s` to `t` channel `c` was computed, and its slot started and sent (R236). -/
structure TrafficPlays (s t : State) (c : TrfCh) : Prop where
  only : OnlyRamPcm (s.trfBegun c) t
  scaled : TrafficScaled s t c
  seset : t.trfFlag c TFlags.seset = true
  plays : SlotPlays t (s.trfSlot c) s.cfg.trfWave s.cfg.trfWaveEndHi
  left : t.pcm8 (front (s.trfSlot c) 2) = t.trf c TFld.voll
  right : t.pcm8 (front (s.trfSlot c) 3) = t.trf c TFld.volr
  pitch : t.pcm8 (front (s.trfSlot c) 7) = t.trf c TFld.pitch
  control : t.pcm8 (back (s.trfSlot c) 6) =
    if s.trfFlag c TFlags.seset = true then s.pcm8 (back (s.trfSlot c) 6) else 0x00
  pcm : PcmKept s t (sendAddrs (s.trfSlot c))

/-- A computed channel with a slot 0..15 plays. -/
theorem trafficPlay_plays (h : s.trfFollows c = true) (hs : (s.trfSlot c).toNat ≤ 15) :
    ∃ t, trafficPlay c s.cfg.trfWave s.cfg.trfWaveEndHi (s.trfComputed c) = .ok () t ∧ TrafficPlays s t c := by
  let z := s.trfComputed c
  let w := z.trfStarted c s.cfg.trfWave s.cfg.trfWaveEndHi
  have hslot : z.trfSlot c = s.trfSlot c := trfComputed_only.trfSlot c
  have hz (a : Nat) : z.pcm8 a = s.pcm8 a := (trfComputed_only (s := s)).pcm8 a
  have hplays : SlotPlays w (z.trfSlot c) s.cfg.trfWave s.cfg.trfWaveEndHi := trfStarted_plays
  have hw : PcmKept z w (sendAddrs (z.trfSlot c)) := trfStarted_pcmKept
  have hcontrol : w.pcm8 (back (z.trfSlot c) 6) = _ := trfStarted_control
  obtain ⟨p, hrun, hleft, hright, hpitch, hsent⟩ := trafficSend_sent (s := w) (c := c) (hslot ▸ hs)
  refine ⟨{ w with pcm := p }, (trafficPlay_ok (hslot ▸ hs)).trans hrun, ?_⟩
  rw [hslot] at hplays hw hcontrol
  exact {
    only := trfComputed_only.trans_onlyRamPcm (trfStarted_only (s := z).setPcm p)
    scaled := (trfComputed_scaled h).setFlag (u := { w with pcm := p }) trfStarted_kept fun k hk =>
      (trfFlag_trfStarted k).trans (if_neg hk)
    seset := (trfFlag_trfStarted (s := z) _).trans (if_pos rfl)
    plays := hplays.of_kept hsent
    left := hleft
    right := hright
    pitch := hpitch
    control := by rw [hsent.backByte 6, hcontrol, hz, trfComputed_seset]
    pcm := fun a ha => (hsent.mono (by simp [sendAddrs]) a ha).trans ((hw a ha).trans (hz a)) }

/-- Settles O55: the volume entry, the multiplier, the other entries and the slot are tested in this order. -/
theorem trafficComputes : Obligations.TrafficComputes := by
  intro s c hf h vidx pidx sl k m pan l r q started noted scaled hv hu
  have hnoted := trfNoted_noted h
  refine ⟨fun hin => ?volume, fun hin hm => ⟨fun x hx => ?tables, fun htables hs => ?slot, fun htables hs => ?plays⟩⟩
  case volume =>
    have hout : ¬ (s.trfVolEntry c).toNat < s.cfg.romSize := fun hlt =>
      ne_true_of_eq_false hin (inRom_one.mpr hlt)
    exact ⟨_, step_traffic_error hf (trafficChannel_volume_fault h hv hu hout),
      trafficFaulted_raiseFault trfNoted_only _ _, hnoted, trfNoted_seset⟩
  case tables =>
    obtain ⟨u, hrun, honly, hkept⟩ := trafficScale_fault (s := s.trfLoud c) (c := c) (m := s.trfMult c)
      (play := trafficPlay c s.cfg.trfWave s.cfg.trfWaveEndHi) hx
    have hfields : RamKept (s.trfNoted c) u ([TFld.voll, TFld.volr, TFld.mult].map (trfRec c + ·)) :=
      (trfLoud_kept.mono (List.map_subset _ (by simp))).trans (hkept.mono (List.map_subset _ (by simp)))
    exact ⟨_, step_traffic_error hf ((trafficChannel_loud h hv hu (inRom_one.mp hin) hm).trans hrun),
      trafficFaulted_raiseFault (trfLoud_only.trans honly) _ _, hnoted.of_kept hfields (by decide),
      (hkept.trf (by simp)).trans trfLoud_mult, (hfields.trfFlag (by simp) _).trans trfNoted_seset⟩
  case slot =>
    have hrun := trafficChannel_computed h hv hu (inRom_one.mp hin) hm htables
    have hslot : (s.trfComputed c).trfSlot c = s.trfSlot c := trfComputed_only.trfSlot c
    rw [trafficPlay_fault (hslot ▸ Nat.not_le.mpr hs), hslot] at hrun
    exact ⟨_, step_traffic_error hf hrun, trafficFaulted_raiseFault trfComputed_only _ _, trfComputed_scaled h,
      trfComputed_seset⟩
  case plays =>
    obtain ⟨t, hrun, ht⟩ := trafficPlay_plays h hs
    have ⟨hpitch, hleft, hright, _⟩ := ht.scaled
    exact ⟨_, step_traffic_ok hf ((trafficChannel_computed h hv hu (inRom_one.mp hin) hm htables).trans hrun),
      trafficDone_setFsm ht.only, ht.scaled, ht.seset, ht.plays, ht.left.trans hleft, ht.right.trans hright,
      ht.pitch.trans hpitch, ht.control, ht.pcm⟩

end Sys2Proof.Machine
end

section
/-!
A reduction (44_traffic_fx.md R232, R234, R237): how it starts, what a pass does to the record and the slot, and the
pass that ends it.
-/

namespace Sys2Proof.Machine

variable {s t : State} {c : TrfCh}

/-! ### The start of a reduction (R232, R234) -/

/-- Channel `c` is reducing, or TPASS asks it to and it has start/end set (R232, R234). -/
def State.trfReducing (s : State) (c : TrfCh) : Prop :=
  s.trfFlag c TFlags.reduce = true ∨ s.tpass.atTrf c = true ∧ s.trfFlag c TFlags.seset = true

theorem startReduce_only (c : TrfCh) : OnlyRam s (s.startReduce c) := by
  unfold State.startReduce
  split
  next => exact (OnlyRam.refl s).setRam8 _ _
  next => exact .refl s

theorem startReduce_kept (c : TrfCh) : RamKept s (s.startReduce c) ([TFld.flags].map (trfRec c + ·)) := by
  unfold State.startReduce
  split
  next => exact ramKept_setRam8 _ _
  next => exact fun _ _ => rfl

/-- REDUCE is set where the reduction starts, and stands where it goes on. -/
theorem startReduce_flags (h : s.trfReducing c) :
    (s.startReduce c).trf c TFld.flags = s.trf c TFld.flags ||| 0x01 := by
  have hset (f : Byte) (hf : bit f TFlags.reduce = true) : f = f ||| 0x01 := by
    revert f
    decide
  by_cases hr : s.trfFlag c TFlags.reduce = true
  · rw [State.startReduce, if_neg (by simp [hr])]
    exact hset _ hr
  · obtain ⟨hpass, hseset⟩ := h.resolve_left hr
    rw [State.startReduce, if_pos (by simp [hpass, hr, hseset]), trf_setTrfFlag, if_pos rfl]
    rfl

theorem bit_reduce_set (f : Byte) : bit (f ||| 0x01) TFlags.reduce = true := by
  revert f
  decide

/-! ### One reduction step (R237) -/

theorem decClamp_toNat (v : Byte) : (decClamp v).toNat = v.toNat - 1 := by
  revert v
  decide

/-- The fields after a reduction step (R237). -/
theorem trf_reduceTrf (f : Nat) :
    (s.reduceTrf c).trf c f =
      if f = TFld.volr then decClamp (s.trf c TFld.volr)
      else if f = TFld.voll then decClamp (s.trf c TFld.voll)
      else if f = TFld.pitch then s.reducedPitch c
      else s.trf c f := by
  have hpitch : (if (s.trf c TFld.pitch).toNat < s.cfg.trfPitchThresh.toNat then s.trf c TFld.pitch - 4
      else s.trf c TFld.pitch - 6) = s.reducedPitch c := (apply_ite (s.trf c TFld.pitch - ·) _ _ _).symm
  simp only [State.reduceTrf, trf_setTrf, hpitch]
  rfl

theorem reduceTrf_only (c : TrfCh) : OnlyRam s (s.reduceTrf c) :=
  (OnlyRam.refl s).setRam8 _ _ |>.setRam8 _ _ |>.setRam8 _ _

theorem reduceTrf_kept (c : TrfCh) :
    RamKept s (s.reduceTrf c) ([TFld.pitch, TFld.voll, TFld.volr].map (trfRec c + ·)) := by
  have h : RamKept s s ([TFld.pitch, TFld.voll, TFld.volr].map (trfRec c + ·)) := fun _ _ => rfl
  exact h.setTrf (f := TFld.pitch) (by simp) _ |>.setTrf (f := TFld.voll) (by simp) _
    |>.setTrf (f := TFld.volr) (by simp) _

/-- From `s` to `t` the record of channel `c` went through one reduction step, REDUCE set (R232, R237). -/
def TrafficReduced (s t : State) (c : TrfCh) : Prop :=
  t.trf c TFld.flags = s.trf c TFld.flags ||| 0x01 ∧ t.trf c TFld.pitch = s.reducedPitch c ∧
    (t.trf c TFld.voll).toNat = (s.trf c TFld.voll).toNat - 1 ∧
    (t.trf c TFld.volr).toNat = (s.trf c TFld.volr).toNat - 1 ∧
    RamKept s t ([TFld.flags, TFld.pitch, TFld.voll, TFld.volr].map (trfRec c + ·))

/-- The greater volume of channel `c`. -/
def State.trfVolume (s : State) (c : TrfCh) : Nat := max (s.trf c TFld.voll).toNat (s.trf c TFld.volr).toNat

/-- The state after the reduction step of a pass. -/
def State.trfReduced (s : State) (c : TrfCh) : State := ((s.trfBegun c).startReduce c).reduceTrf c

theorem trfReduced_only : OnlyRam (s.trfBegun c) (s.trfReduced c) := (startReduce_only c).trans (reduceTrf_only c)

theorem trfReduced_reduced (h : s.trfReducing c) : TrafficReduced s (s.trfReduced c) c := by
  have hstart : RamKept s ((s.trfBegun c).startReduce c) ([TFld.flags].map (trfRec c + ·)) :=
    startReduce_kept (s := s.trfBegun c) c
  have hcfg : ((s.trfBegun c).startReduce c).cfg = s.cfg := (startReduce_only c).cfg
  refine ⟨?flags, ?pitch, ?left, ?right, ?kept⟩
  case flags =>
    exact ((reduceTrf_kept c).trf (by simp)).trans (startReduce_flags (s := s.trfBegun c) h)
  case pitch =>
    refine (trf_reduceTrf _).trans ?_
    rw [if_neg (by decide), if_neg (by decide), if_pos rfl, State.reducedPitch, hstart.trf (by simp), hcfg,
      State.reducedPitch]
  case left =>
    rw [State.trfReduced, trf_reduceTrf, if_neg (by decide), if_pos rfl, decClamp_toNat, hstart.trf (by simp)]
  case right => rw [State.trfReduced, trf_reduceTrf, if_pos rfl, decClamp_toNat, hstart.trf (by simp)]
  case kept => exact (hstart.mono (by simp)).trans ((reduceTrf_kept c).mono (by simp))

theorem TrafficReduced.volume (h : TrafficReduced s t c) : t.trfVolume c = s.trfVolume c - 1 := by
  obtain ⟨-, -, hleft, hright, -⟩ := h
  rw [State.trfVolume, State.trfVolume, hleft, hright]
  omega

theorem TrafficReduced.reducing (h : TrafficReduced s t c) : t.trfFlag c TFlags.reduce = true := by
  obtain ⟨hflags, -⟩ := h
  rw [State.trfFlag, hflags]
  exact bit_reduce_set _

/-- No volume is left exactly when the greater one is 0. -/
theorem trfVolume_eq_zero :
    (s.trf c TFld.voll == 0 && s.trf c TFld.volr == 0) = true ↔ s.trfVolume c = 0 := by
  rw [Bool.and_eq_true, beq_iff_eq, beq_iff_eq, State.trfVolume, ← BitVec.toNat_inj, ← BitVec.toNat_inj]
  simp

/-! ### A pass of a reduction (R232, R237) -/

theorem trafficChannel_reduces (h : s.trfReducing c) :
    trafficChannel c s =
      if (s.trfReduced c).trfVolume c = 0 then trafficDisable c (s.trfReduced c)
      else trafficSend c (s.trfSlot c) (s.trfReduced c) := by
  have hreduce : ((s.trfBegun c).startReduce c).trfFlag c TFlags.reduce = true := by
    rw [State.trfFlag, startReduce_flags (s := s.trfBegun c) h]
    exact bit_reduce_set _
  have hslot : (s.trfReduced c).trfSlot c = s.trfSlot c := trfReduced_only.trfSlot c
  refine (trafficChannel_run rfl).trans ((if_pos hreduce).trans ?_)
  unfold trafficReduce
  rw [bind_upd, bind_look]
  refine (ite_apply ..).trans ?_
  rw [← hslot]
  exact if_congr trfVolume_eq_zero rfl rfl

theorem trafficChannel_ends (h : s.trfReducing c) (hv : s.trfVolume c ≤ 1) :
    trafficChannel c s = trafficDisable c (s.trfReduced c) :=
  (trafficChannel_reduces h).trans (if_pos (by rw [(trfReduced_reduced h).volume]; omega))

theorem trafficChannel_goesOn (h : s.trfReducing c) (hv : 1 < s.trfVolume c) :
    trafficChannel c s = trafficSend c (s.trfSlot c) (s.trfReduced c) :=
  (trafficChannel_reduces h).trans (if_neg (by rw [(trfReduced_reduced h).volume]; omega))

/-- A pass that leaves a volume, as a step: the sends, or the fault of a slot above 15 in their place (R237, R240). -/
theorem step_traffic_goesOn (hf : s.fsm = .traffic c) (h : s.trfReducing c) (hv : 1 < s.trfVolume c) :
    ∃ t, step s = .next t ∧ TrafficReduced s t c ∧
      ((s.trfSlot c).toNat ≤ 15 → TrafficDone s t c ∧ TrafficSent s t c (s.trfSlot c)) ∧
      (15 < (s.trfSlot c).toNat → TrafficFaulted s t c 0x06 (zext16 (s.trfSlot c))) := by
  have hrun := trafficChannel_goesOn h hv
  have hreduced := trfReduced_reduced h
  have honly := trfReduced_only (s := s) (c := c)
  by_cases hs : (s.trfSlot c).toNat ≤ 15
  · obtain ⟨p, hp, hl, hr, hq, hkept⟩ := trafficSend_sent (s := s.trfReduced c) (c := c) hs
    have hkept' : PcmKept s { s.trfReduced c with pcm := p } _ := fun a ha =>
      (hkept a ha).trans (honly.pcm8 a)
    refine ⟨_, step_traffic_ok hf (hrun.trans hp), hreduced,
      fun _ => ⟨trafficDone_setFsm (honly.trans_onlyRamPcm rfl), hl, hr, hq, hkept'⟩,
      fun h' => absurd hs (Nat.not_le.mpr h')⟩
  · exact ⟨_, step_traffic_error hf (hrun.trans (trafficSend_fault hs)), hreduced, fun h' => absurd h' hs,
      fun _ => trafficFaulted_raiseFault honly _ _⟩

/-! ### Passes one after another -/

/-- A pass that leaves a volume, on a slot 0..15. -/
theorem after_goesOn (h : s.trfReducing c) (hv : 1 < s.trfVolume c) (hs : (s.trfSlot c).toNat ≤ 15) :
    TrafficReduced s (after (trafficChannel c s)) c ∧ OnlyRamPcm (s.trfBegun c) (after (trafficChannel c s)) := by
  obtain ⟨p, hp, -⟩ := trafficSend_sent (s := s.trfReduced c) (c := c) hs
  rw [trafficChannel_goesOn h hv, hp, after_ok]
  exact ⟨trfReduced_reduced h, trfReduced_only.trans_onlyRamPcm rfl⟩

/-- What a later pass reads beside the record stays through a pass. -/
theorem OnlyRamPcm.trfPass (h : OnlyRamPcm (s.trfBegun c) t) : t.fcode = s.fcode ∧ t.trfSlot c = s.trfSlot c := by
  rw [h]
  exact ⟨rfl, rfl⟩

/-- Fewer passes than the greater volume leave the channel sounding. -/
theorem trafficPasses_sounding {n : Nat} (h : s.trfReducing c) (hs : (s.trfSlot c).toNat ≤ 15)
    (hn : n < s.trfVolume c) :
    (trafficPasses c n s).fcode = s.fcode ∧
      (n ≠ 0 ∨ s.trfFlag c TFlags.reduce = true → (trafficPasses c n s).trfFlag c TFlags.reduce = true) ∧
      ((trafficPasses c n s).trf c TFld.voll).toNat = (s.trf c TFld.voll).toNat - n ∧
      ((trafficPasses c n s).trf c TFld.volr).toNat = (s.trf c TFld.volr).toNat - n := by
  induction n generalizing s with
  | zero => exact ⟨rfl, fun hr => hr.resolve_left fun h0 => h0 rfl, rfl, rfl⟩
  | succ n ih =>
    obtain ⟨hreduced, honly⟩ := after_goesOn h (by omega) hs
    obtain ⟨hfcode, hslot⟩ := honly.trfPass
    have hreduce := hreduced.reducing
    obtain ⟨hcode, hon, hleft, hright⟩ := ih (.inl hreduce) (hslot ▸ hs) (by rw [hreduced.volume]; omega)
    obtain ⟨-, -, hl, hr, -⟩ := hreduced
    rw [hl] at hleft
    rw [hr] at hright
    exact ⟨hcode.trans hfcode, fun _ => hon (.inr hreduce), by rw [trafficPasses, hleft]; omega,
      by rw [trafficPasses, hright]; omega⟩

/-- As many passes as the greater volume, or one where both are 0, disable the channel. -/
theorem trafficPasses_cleared {n : Nat} (h : s.trfReducing c) (hs : (s.trfSlot c).toNat ≤ 15)
    (hn : max 1 (s.trfVolume c) = n + 1) :
    TrafficCleared (trafficPasses c (n + 1) s) c (s.trfSlot c) ∧ (trafficPasses c (n + 1) s).fcode = s.fcode := by
  induction n generalizing s with
  | zero =>
    have hslot : (s.trfReduced c).trfSlot c = s.trfSlot c := trfReduced_only.trfSlot c
    obtain ⟨t, hrun, honly, hcleared⟩ := trafficDisable_cleared (hslot ▸ hs)
    rw [trafficPasses, trafficPasses, trafficChannel_ends h (by omega), hrun, after_ok]
    obtain ⟨hcode, -⟩ := (trfReduced_only.trans_onlyRamPcm honly).trfPass
    exact ⟨hslot ▸ hcleared, hcode⟩
  | succ n ih =>
    obtain ⟨hreduced, honly⟩ := after_goesOn h (by omega) hs
    obtain ⟨hfcode, hslot⟩ := honly.trfPass
    obtain ⟨hcleared, hcode⟩ :=
      ih (.inl hreduced.reducing) (hslot ▸ hs) (by rw [hreduced.volume]; omega)
    exact ⟨hslot ▸ hcleared, hcode.trans hfcode⟩

/-- Settles O57: one pass takes the greater volume down by 1, and the pass that leaves none disables. -/
theorem reductionEnds : Obligations.ReductionEnds := by
  intro s c h sl l r
  refine ⟨fun hf hv => ?goesOn, fun hf hv => ?ends, fun hs => ⟨fun n hn => ?sounding, ?cleared⟩⟩
  case goesOn =>
    obtain ⟨t, hstep, ⟨hflags, hpitch, hleft, hright, hkept⟩, hdone, hfault⟩ := step_traffic_goesOn hf h hv
    exact ⟨t, hstep, hflags, hpitch, hleft, hright, hkept, hdone, hfault⟩
  case ends => exact step_traffic_disables hf trfReduced_only (trafficChannel_ends h hv)
  case sounding => exact trafficPasses_sounding h hs hn
  case cleared =>
    obtain ⟨n, hn⟩ : ∃ n, max 1 (max l r) = n + 1 := ⟨max 1 (max l r) - 1, by omega⟩
    rw [hn]
    exact trafficPasses_cleared h hs hn

end Sys2Proof.Machine
end

section
/-!
The reach of an instruction (60_exceptions.md R259): beyond what lies outside the block, the sequencer's own registers
stay; the fault register is the one register an instruction can set, and only by ending in FAULT (R250).
-/

namespace Sys2Proof.Machine

variable {i : Instr} {s t u : State}

/-- What lies outside the block and the registers of the sequencer are the same in both states. -/
structure SameSequencer (s t : State) : Prop extends SameOutside s t where
  chan : t.chan = s.chan
  chanPrev : t.chanPrev = s.chanPrev
  cmdPrev : t.cmdPrev = s.cmdPrev
  engCh : t.engCh = s.engCh
  tog : t.tog = s.tog
  mboxAck : t.mboxAck = s.mboxAck

theorem SameSequencer.refl (s : State) : SameSequencer s s := ⟨.refl s, rfl, rfl, rfl, rfl, rfl, rfl⟩

theorem SameSequencer.trans (hst : SameSequencer s t) (htu : SameSequencer t u) : SameSequencer s u where
  toSameOutside := hst.toSameOutside.trans htu.toSameOutside
  chan := htu.chan.trans hst.chan
  chanPrev := htu.chanPrev.trans hst.chanPrev
  cmdPrev := htu.cmdPrev.trans hst.cmdPrev
  engCh := htu.engCh.trans hst.engCh
  tog := htu.tog.trans hst.tog
  mboxAck := htu.mboxAck.trans hst.mboxAck

/-- From `s` to `t` no fault was raised: the fault register stays too. -/
structure RanInside (s t : State) : Prop extends SameSequencer s t where
  fcode : t.fcode = s.fcode
  finfo : t.finfo = s.finfo

theorem RanInside.refl (s : State) : RanInside s s := ⟨.refl s, rfl, rfl⟩

theorem RanInside.trans (hst : RanInside s t) (htu : RanInside t u) : RanInside s u where
  toSameSequencer := hst.toSameSequencer.trans htu.toSameSequencer
  fcode := htu.fcode.trans hst.fcode
  finfo := htu.finfo.trans hst.finfo

/-- From `s` to `t` a fault was raised. -/
structure FaultedInside (s t : State) : Prop extends SameSequencer s t where
  fsm : t.fsm = .fault

/-- A fault raised after writes that stay inside. -/
theorem RanInside.faulted (hst : RanInside s t) (htu : FaultedInside t u) : FaultedInside s u :=
  ⟨hst.toSameSequencer.trans htu.toSameSequencer, htu.fsm⟩

/-- No write an instruction is built of reaches a register of the sequencer, and a raised fault writes the fault
register and STATE alone. -/
theorem ranInside_instrWrites : InstrWrites RanInside FaultedInside where
  refl := .refl
  trans _ _ _ := .trans
  faultAfter _ _ _ := RanInside.faulted
  ram s _ _ := { RanInside.refl s with }
  pcm s _ _ := { RanInside.refl s with }
  fm s r v :=
    { sameOutside_microWrites.fm s r v with
      chan := by simp
      chanPrev := by simp
      cmdPrev := by simp
      engCh := by simp
      tog := by simp
      mboxAck := by simp
      fcode := by simp
      finfo := by simp }
  cur s _ := { RanInside.refl s with }
  std s _ := { RanInside.refl s with }
  fsm s _ := { RanInside.refl s with }
  fault s _ _ := { SameSequencer.refl s with fsm := rfl }

/-- An instruction stays inside and either leaves the fault register or ends in FAULT. -/
theorem exec_sameSequencer (hx : exec i s = .next t) :
    SameSequencer s t ∧ (t.fsm ≠ .fault → t.fcode = s.fcode ∧ t.finfo = s.finfo) := by
  rcases ranInside_instrWrites.exec hx with hran | hfaulted
  · exact ⟨hran.toSameSequencer, fun _ => ⟨hran.fcode, hran.finfo⟩⟩
  · exact ⟨hfaulted.toSameSequencer, fun hne => absurd hfaulted.fsm hne⟩

/-- Settles O35: by the writes the instructions are built of, none of which reaches the sequencer. -/
theorem instructionsStayInside : Obligations.InstructionsStayInside := by
  intro i s t hx
  obtain ⟨h, hfault⟩ := exec_sameSequencer hx
  exact ⟨h.chan, h.chanPrev, h.cmdPrev, h.engCh, h.tog, h.mbox, h.telem, h.engTel, h.rev, h.tpass, h.mboxAck, h.events,
    h.rom, h.cfg, hfault⟩

end Sys2Proof.Machine
end

section
/-!
Reset (70_reset_and_hazards.md R280, R281, R282): what each piece of the block's state reads as in the reset state, and
what a reset taken between transactions does to the block and to what lies outside it.
-/

namespace Sys2Proof.Machine

/-! ### The reset state, read -/

/-- With no byte listed, a space reads as its blank bytes. -/
theorem read_nil (sp : Space) (a : Nat) : Memory.read sp [] a = sp.blank a := rfl

theorem ram8_reset (a : Nat) : State.reset.ram8 a = 0 := read_nil .ram a

/-- `H_FLAGS` stands at offset 6 of each 8-byte slot from 0x80 on (10_state.md R31). -/
theorem pcm8_reset (a : Nat) : State.reset.pcm8 a = if 0x80 ≤ a ∧ a % 8 = 6 then 0x01 else 0x00 := read_nil .pcm a

theorem shadow_reset (r : Byte) : State.reset.shadow r = 0 := read_nil .fm r.toNat

theorem stdTog_reset (c : BitVec 2) : State.reset.stdTog.at c = false := by
  unfold StdTog.at
  split_ifs <;> rfl

/-- Channels 1 to 4 sample ENGTEL, channels 5 and 6 TELEM, and both inputs are 0. -/
theorem engInput_reset (n : EngCh) : State.reset.engInput n = { pitch := 0, volume := 0 } := by cases n <;> rfl

theorem tpass_reset (t : TrfCh) : State.reset.tpass.atTrf t = false := by cases t <;> rfl

/-- Settles O30: the byte spaces list nothing, so they read as their blank bytes; a register is the value written for
it in `State.reset`. -/
theorem resetState : Obligations.ResetState :=
  ⟨ram8_reset, fun a _ => pcm8_reset a, shadow_reset, rfl, rfl, rfl, rfl, rfl, rfl, stdTog_reset, rfl, rfl, rfl, rfl, rfl,
    engInput_reset, rfl, tpass_reset⟩

/-! ### Reset as a step -/

/-- From `s` to `t` the block's own state is the same, the rows of R281 that are not inputs. -/
structure SameBlock (s t : State) : Prop where
  ram : t.ram = s.ram
  pcm : t.pcm = s.pcm
  fmShadow : t.fmShadow = s.fmShadow
  cur : t.cur = s.cur
  chan : t.chan = s.chan
  chanPrev : t.chanPrev = s.chanPrev
  cmdPrev : t.cmdPrev = s.cmdPrev
  engCh : t.engCh = s.engCh
  tog : t.tog = s.tog
  stdTog : t.stdTog = s.stdTog
  fcode : t.fcode = s.fcode
  finfo : t.finfo = s.finfo
  fsm : t.fsm = s.fsm

/-- Whatever the state, reset makes the block's own state that of `State.reset` (R281). -/
theorem sameBlock_resetBlock (s : State) : SameBlock State.reset s.resetBlock := by constructor <;> rfl

/-- Reset leaves the inputs, the other agents' acts, ROM and the parameters as they were. -/
theorem sameOutside_resetBlock (s : State) : SameOutside s s.resetBlock := by constructor <;> rfl

/-- Reset issues no FM write (R282). -/
theorem fmOut_resetBlock (s : State) : s.resetBlock.fmOut = s.fmOut := rfl

/-- Settles O38: a step in IDLE or FAULT takes the next act, here the reset, which makes the block's own state that of
`State.reset` and leaves the rest. -/
theorem resetFromAnyState : Obligations.ResetFromAnyState := by
  intro s rest hb he
  have hblock := sameBlock_resetBlock { s with events := rest }
  have houtside := sameOutside_resetBlock { s with events := rest }
  exact ⟨_, step_event hb he, hblock.ram, hblock.pcm, hblock.fmShadow, hblock.cur, hblock.chan, hblock.chanPrev,
    hblock.cmdPrev, hblock.engCh, hblock.tog, hblock.stdTog, hblock.fcode, hblock.finfo, hblock.fsm,
    fmOut_resetBlock _, houtside.rom, houtside.cfg⟩

end Sys2Proof.Machine
end
